-- ==== Sys2Proof/Word.lean ====
section
/-! DEFINITION. The word types and the sparse tables and sets of which the machine's state is made. -/

namespace Sys2Proof

/-- A scalar register, a program counter, an address (R81, R192). -/
abbrev Word := BitVec 64
/-- A byte of memory. -/
abbrev Byte := BitVec 8
/-- A half-word of a code line (R28). -/
abbrev Half := BitVec 16
/-- A tail of up to three half-words (R30). -/
abbrev Tail := BitVec 48
/-- A vector register: lane `l` is bits [32l + 31 : 32l] (R111). -/
abbrev VReg := BitVec 4096
/-- A mask register: bit `l` is lane `l`. -/
abbrev Mask := BitVec 128
/-- An accumulator tile: element (i, n) is bits [32(64i + n) + 31 : 32(64i + n)] (R144). -/
abbrev Tile := BitVec 131072

/-- A sparse table: keys strictly rise, and an absent key holds the table's default. -/
abbrev Table (α : Type) := List (Nat × α)

/-- The entry of key `k`, `d` where there is none. -/
def Table.get {α : Type} (d : α) : Table α → Nat → α
  | [], _ => d
  | (k', v) :: t, k => if k' = k then v else Table.get d t k

/-- The table with `v` at key `k`. -/
def Table.ins {α : Type} : Table α → Nat → α → Table α
  | [], k, v => [(k, v)]
  | (k', w) :: t, k, v =>
    if k' = k then (k, v) :: t
    else if k < k' then (k, v) :: (k', w) :: t
    else (k', w) :: Table.ins t k v

/-- The table without key `k`. -/
def Table.del {α : Type} : Table α → Nat → Table α
  | [], _ => []
  | (k', w) :: t, k => if k' = k then Table.del t k else (k', w) :: Table.del t k

/-- The table with `v` at key `k`, where an entry equal to the default `d` is not listed. -/
def Table.put {α : Type} [DecidableEq α] (d : α) (t : Table α) (k : Nat) (v : α) : Table α :=
  if v = d then Table.del t k else Table.ins t k v

/-- A set of numbers: a strictly rising list. -/
abbrev NatSet := List Nat

/-- The set with `k`. -/
def NatSet.add : NatSet → Nat → NatSet
  | [], k => [k]
  | a :: t, k => if a = k then a :: t else if k < a then k :: a :: t else a :: NatSet.add t k

/-- The set without `k`. -/
def NatSet.rem : NatSet → Nat → NatSet
  | [], _ => []
  | a :: t, k => if a = k then NatSet.rem t k else a :: NatSet.rem t k

/-- The set with `k` exactly when `b`. -/
def NatSet.setTo (m : NatSet) (k : Nat) (b : Bool) : NatSet := if b then NatSet.add m k else NatSet.rem m k

/-- Insertion into a list kept in rising order of `key`, after its equals. -/
def insertBy {α : Type} (key : α → Nat) (x : α) : List α → List α
  | [] => [x]
  | y :: t => if key x < key y then x :: y :: t else y :: insertBy key x t

/-- A stable sort in rising order of `key`. -/
def sortBy {α : Type} (key : α → Nat) (l : List α) : List α := l.foldl (fun acc x => insertBy key x acc) []

/-- Insertion after every element that does not come after `x` under `lt`. -/
def insertLt {α : Type} (lt : α → α → Bool) (x : α) : List α → List α
  | [] => [x]
  | y :: t => if lt x y then x :: y :: t else y :: insertLt lt x t

/-- A stable sort under `lt`. -/
def sortLt {α : Type} (lt : α → α → Bool) (l : List α) : List α := l.foldl (fun acc x => insertLt lt x acc) []

/-- Ceiling division. -/
def cdiv (a b : Nat) : Nat := (a + b - 1) / b

/-- The field [lo + w - 1 : lo] of a word. -/
def bits {n : Nat} (x : BitVec n) (lo w : Nat) : BitVec w := x.extractLsb' lo w

/-- The field [lo + w - 1 : lo] of a word, as a number. -/
def field {n : Nat} (x : BitVec n) (lo w : Nat) : Nat := (x.extractLsb' lo w).toNat

/-- A word of 64 bits holding a number. -/
def word (n : Nat) : Word := BitVec.ofNat 64 n

/-- A Bool as one bit of a word, shifted to place `n`. -/
def flag (b : Bool) (n : Nat) : Nat := if b then 2 ^ n else 0

end Sys2Proof
end

