-- ==== Sys2Proof/Forms.lean ====
section
/-! DEFINITION. The operand forms of the instructions (Table 2-5) and the data that the device's own steps carry. -/

namespace Sys2Proof

/-- Form F1: [15:11] d, [10:6] a, [5:0] x. -/
structure F1 where
  d : BitVec 5
  a : BitVec 5
  x : BitVec 6
  deriving DecidableEq, Repr

/-- Form F2: [31:27] d, [26:22] a, [21:17] b, [16:12] c, [11:0] x. -/
structure F2 where
  d : BitVec 5
  a : BitVec 5
  b : BitVec 5
  c : BitVec 5
  x : BitVec 12
  deriving DecidableEq, Repr

/-- Form F3: [47:43] d, [42:38] a, [37:32] x, [31:0] imm. -/
structure F3 where
  d : BitVec 5
  a : BitVec 5
  x : BitVec 6
  imm : BitVec 32
  deriving DecidableEq, Repr

/-- Form V3: [47:40] vd, [39:32] va, [31:24] vb, [23:16] vc, [15:12] mask, [11:8] type, [7:6] rounding, [5:0] x. -/
structure V3 where
  vd : BitVec 8
  va : BitVec 8
  vb : BitVec 8
  vc : BitVec 8
  mask : BitVec 4
  ty : BitVec 4
  rnd : BitVec 2
  x : BitVec 6
  deriving DecidableEq, Repr

/-- Form B1: [15:5] line delta, [4:0] head. -/
structure B1 where
  delta : BitVec 11
  head : BitVec 5
  deriving DecidableEq, Repr

/-- Form B2: [31:27] a, [26:22] b, [21:5] line delta, [4:0] head. -/
structure B2 where
  a : BitVec 5
  b : BitVec 5
  delta : BitVec 17
  head : BitVec 5
  deriving DecidableEq, Repr

/-- Form D3: [47:44] mask, [43:38] x, [37:21] target delta, [20:16] target head, [15:5] join delta, [4:0] join head. -/
structure D3 where
  mask : BitVec 4
  x : BitVec 6
  delta : BitVec 17
  head : BitVec 5
  jdelta : BitVec 11
  jhead : BitVec 5
  deriving DecidableEq, Repr

/-- Form M3: [47:40] data, [39:35] base, [34:30] index, [29:28] address form, [27:24] scope, [23:22] order, [21:18] size
or type, [17:14] mask or mode, [13:0] offset. -/
structure M3 where
  data : BitVec 8
  base : BitVec 5
  idx : BitVec 5
  form : BitVec 2
  scope : BitVec 4
  order : BitVec 2
  ty : BitVec 4
  mode : BitVec 4
  off : BitVec 14
  deriving DecidableEq, Repr

/-- A message as a mailbox entry holds it (Table 11-7). -/
structure Msg where
  ty : BitVec 8
  len : Nat
  src : Word
  dst : Word
  payload : List Word
  fk : Word
  deriving DecidableEq, Repr

/-- What an access asks of the home of its location (R222). -/
inductive AccOp where
  | load
  /-- A store with its KIND of Table 9-10; kind 15 is not logged. -/
  | store (kind : Nat)
  /-- A store of an aligned unit of 16 bytes, `data` and `data2`, as one action (R310). -/
  | store16
  /-- A store of the low or the high nibble of a byte (R212). -/
  | nibble (hi : Bool) (kind : Nat)
  | amo (op : BitVec 4) (ty : BitVec 4)
  | cas (ty : BitVec 4)
  | ldf (empties : Bool)
  | stf (anyState : Bool)
  | fe (set : Bool)
  | dec
  /-- A write of the copy engine within one word (R279): the F/E bit that the word takes, whether the datum is poisoned,
  whether it is part of the write of a whole line. -/
  | copy (full : Option Bool) (poison whole : Bool)
  /-- A write of up to a line by the copy engine, a cellar engine or a granary's copy (R241, R279): the bytes with their poison, and the
  F/E bits that their words take. -/
  | line (bytes : List (Byte × Bool)) (fulls : Option (List Bool))
  /-- A read of a word's F/E bit by the copy engine (R279). -/
  | full
  /-- The preparation of a line (R211). -/
  | pref
  deriving DecidableEq, Repr

/-- An access on its way to its home, shelved there, or waiting to be sent again: what it asks, its absolute address, the
place it names, its width in bytes, its data, its requester with its partition, whether a grid group issued it, and the tag, the epoch and
the refusals so far. -/
structure Access where
  op : AccOp
  addr : Word
  loc : Nat
  size : Nat
  data : Word
  data2 : Word
  pkg : Nat
  part : Nat
  core : Nat
  slot : Nat
  gen : BitVec 32
  pathQ : Bool
  dest : BitVec 5
  status : BitVec 5
  grid : Bool
  tag : Nat
  epoch : Nat
  refusals : Nat
  /-- Its datum carries a poison flag from a crossing (R245). -/
  bad : Bool := false
  deriving DecidableEq, Repr

/-- The operations of a firkin's home (Table 13-4). -/
inductive FkKind where
  | invf (arg entry result : Word)
  | resolve (v : Word)
  | place (newHandle : Word)
  | get (drop : Bool)
  | state (drop : Bool)
  | brk (cause : BitVec 8)
  deriving DecidableEq, Repr

/-- A firkin operation: the handle its instruction names, the handle it is sent to, what it asks, its requester (the
issuing path, and the destination registers of the instruction), whether a placement forwarded it, its refusals, the model's
number of it, and the tag and epoch under which another package sent it. -/
structure FkReq where
  named : Word
  handle : Word
  kind : FkKind
  pkg : Nat
  core : Nat
  slot : Nat
  gen : BitVec 32
  pathQ : Bool
  d : BitVec 5
  c : BitVec 5
  forwarded : Bool
  refusals : Nat
  id : Nat
  tag : Nat
  epoch : Nat
  /-- The partition of the requester (R366), and the sequence number of an operation that a placement forwards (R316). -/
  part : Nat
  seq : Nat := 0
  /-- It has crossed Omyan on its way to its home (R345). -/
  crossed : Bool := false
  deriving DecidableEq, Repr

/-- The answers of a firkin's home. -/
inductive FkAns where
  | ok (w : Word)
  | value (w : Word)
  | pending
  | resolved
  | broken (cause : BitVec 8)
  | stale
  | full
  | refused
  | stateWord (w : Word)
  /-- The home is in reset (R177). -/
  | reset
  /-- The partition map does not admit the requester (R317, R366). -/
  | partition
  deriving DecidableEq, Repr

/-- What the firmware gives a core at boot: the FW registers of Table 7-1, and the entry that binds types 249 to 254. -/
structure FwCore where
  vtbase : Word
  rrbase : Word
  frtbase : Word
  wdoglim : Word
  trapvec : Word
  sysHandler : Word
  sysDw1 : Word
  deriving DecidableEq, Repr

/-- What partition set-up writes (R367). -/
structure PartSetup where
  pairs : BitVec 8
  grant : BitVec 8
  foreign : Bool
  root : Nat
  poolBase : Nat
  poolSize : Nat
  vwheel : Table (List Nat)
  fwheel : Table (List Nat)
  ringBase : List Nat
  ringLog : List Nat
  pageRing : Nat
  expert : Bool
  clkfix : Word
  deriving DecidableEq, Repr

/-- What a granary grant names (R249), whether this package lends, what its controller learns of the other's side: whether no partition of
the lender maps the units, the generation of the lease at the lender, the RESBW of the borrower's other regions with the same
fallback path. -/
structure Grant where
  lend : Bool
  peer : Nat
  part : Nat
  base : Nat
  units : Nat
  unmapped : Bool
  tr : Nat
  term : Nat
  ftier : Nat
  faddr : Nat
  vbase : Nat
  resbw : Nat
  notify : List Nat
  gen : BitVec 20
  others : Nat
  deriving DecidableEq, Repr

/-- The old check's outcome at a crossing, or scrub's at a line (R242, R245). -/
inductive CheckOutcome where
  | good
  | corrected
  | memoryLost
  | linkLost
  deriving DecidableEq, Repr

/-- What a flit carries (R360): its kind of payload, with the destination's package, the requester's core, tag and epoch where it has
them. The manual does not lay the 64 bytes out. -/
inductive Cargo where
  /-- The payload of another package's flit that goes on to a third. -/
  | words (l : List Word)
  | request (toPkg toTgt : Nat) (tag epoch : Nat) (acc : Access)
  | firkin (toPkg : Nat) (tag epoch : Nat) (r : FkReq)
  | reply (toPkg : Nat) (core : Nat) (tag epoch : Nat) (data : Word) (cause : BitVec 8)
  | answer (toPkg : Nat) (r : FkReq) (ans : FkAns) (hint : Word)
  | refusal (toPkg : Nat) (core : Nat) (tag epoch : Nat)
  /-- The bytes of a line (R45, R251), as another package has asked for them. -/
  | line (toPkg core tag epoch : Nat) (bytes : List Byte)
  | notice (toPkg tag epoch : Nat) (h : Word) (brk : Option (Nat × BitVec 8))
  /-- The withdrawal of the access of a tag and an epoch, with the withdrawal's own: the tag and 4096 times the epoch. -/
  | withdraw (toPkg : Nat) (core tag epoch own : Nat)
  | ack (toPkg core tag epoch : Nat)
  | marker (toPkg tag epoch : Nat) (h : Word) (n : Nat)
  | message (toPkg tag epoch part : Nat) (m : Msg)
  | reclaim (toPkg tag epoch : Nat) (base : Nat) (gen : BitVec 20) (reason : Nat)
  | release (toPkg tag epoch : Nat) (base : Nat) (gen : BitVec 20)
  deriving DecidableEq, Repr

/-- An Omyan flit: the header of Table 15-1, what it carries, and the output direction that it wants at the port where it is. -/
structure Flit where
  dpkg : BitVec 11
  dtgt : BitVec 11
  spkg : BitVec 11
  stgt : BitVec 11
  tag : BitVec 12
  epoch : BitVec 4
  age : BitVec 12
  ty : BitVec 6
  sclass : BitVec 2
  part : BitVec 3
  fch : Bool
  out : Nat
  cargo : Cargo
  deriving DecidableEq, Repr

/-- What a step of the device acts on besides numbers. -/
inductive Body where
  | none
  | access (a : Access)
  | firkin (r : FkReq)
  | answer (r : FkReq) (ans : FkAns)
  | msg (m : Msg)
  | grant (g : Grant)
  | setup (p : PartSetup)
  | fw (f : FwCore)
  | digest (d : BitVec 256)
  | bytes (l : List Byte)
  /-- Flits that reach a port. -/
  | flits (l : List Flit)
  | outcome (o : CheckOutcome)
  deriving DecidableEq, Repr

/-- What a step of the device acts on. The docstring of each step's constructor says which of these it reads. -/
structure Input where
  a : Nat := 0
  b : Nat := 0
  c : Nat := 0
  d : Nat := 0
  e : Nat := 0
  flag : Bool := false
  word : Word := 0
  cause : BitVec 8 := 0
  body : Body := .none
  deriving DecidableEq, Repr

end Sys2Proof
end

