-- ==== Sys2Proof/Syntax.lean ====
section
/-! DEFINITION. The instructions and the device's own steps: one constructor per row of the opcode table. An encoded
instruction carries the fields of its tail form; a step of the device acts on what State.input names. -/

namespace Sys2Proof

/-- The rows of the opcode table. -/
inductive Instr where
  /-- NOP (R100). Does nothing except advance the PC. -/
  | nop
  /-- YIELD (R101). Gives up the issuing path's turn at issue for the next clk. -/
  | yield
  /-- END (R103). Ends a grid group's path; when the last path ends, waits for its accesses and copies, releases leases, closes a published channel, stops its queues and frees the slot. -/
  | endGroup
  /-- DONE (R105). Ends a task after its accesses are performed, releases its leases and frees the H-class slot. -/
  | done
  /-- JOIN (R120). Ends a divergence: switches to the pending side, pops the mask stack, or parks the path at the join point and merges the paths. -/
  | join
  /-- IFENCE (R46). Waits for the group's earlier stores, invalidates the core's instruction cache and refetches both paths. -/
  | ifence
  /-- URET (R189). Returns from a user-level interrupt to ULIPC and clears UIA. -/
  | uret
  /-- ERET (R188). Ends the S-slot's handling of a trap event after its accesses are performed. -/
  | eret
  /-- MOVC (R42). Compact move of s[a] into s[d] for registers s0-s15. -/
  | movc (o : F1)
  /-- ADDC (R42). Compact add of a sign-extended 6-bit immediate to s[a] into s[d]. -/
  | addc (o : F1)
  /-- ADD (R87). Writes the 64-bit wrapped sum of s[a] and s[b] to s[d]. -/
  | add (o : F2)
  /-- SUB (R87). Writes the 64-bit wrapped difference of s[a] and s[b] to s[d]. -/
  | sub (o : F2)
  /-- AND (R87). Writes the bitwise AND of s[a] and s[b] to s[d]. -/
  | and (o : F2)
  /-- OR (R87). Writes the bitwise OR of s[a] and s[b] to s[d]. -/
  | or (o : F2)
  /-- XOR (R87). Writes the bitwise XOR of s[a] and s[b] to s[d]. -/
  | xor (o : F2)
  /-- ANDN (R87). Writes s[a] AND NOT s[b] to s[d]. -/
  | andn (o : F2)
  /-- SHL (R87). Shifts s[a] left by s[b][5:0]. -/
  | shl (o : F2)
  /-- SHR (R87). Shifts s[a] right logically by s[b][5:0]. -/
  | shr (o : F2)
  /-- SAR (R87). Shifts s[a] right arithmetically by s[b][5:0]. -/
  | sar (o : F2)
  /-- ROL (R87). Rotates s[a] left by s[b][5:0]. -/
  | rol (o : F2)
  /-- MIN (R87). Writes the lesser of s[a] and s[b], signed or unsigned by U. -/
  | min (o : F2)
  /-- MAX (R87). Writes the greater of s[a] and s[b], signed or unsigned by U. -/
  | max (o : F2)
  /-- MUL (R87). Writes the low 64 bits of s[a] times s[b]. -/
  | mul (o : F2)
  /-- MULH (R87). Writes the high 64 bits of the exact 128-bit product. -/
  | mulh (o : F2)
  /-- DIV (R87). Writes the quotient by the rules of R56. -/
  | div (o : F2)
  /-- REM (R87). Writes the remainder by the rules of R56. -/
  | rem (o : F2)
  /-- SEL (R87). Writes s[a] if s[c] is non-zero, else s[b]. -/
  | sel (o : F2)
  /-- CMP (R87). Writes 1 if the branch condition holds for s[a] and s[b], else 0. -/
  | cmp (o : F2)
  /-- CLZ (R87). Counts leading zero bits of s[a]. -/
  | clz (o : F2)
  /-- CTZ (R87). Counts trailing zero bits of s[a]. -/
  | ctz (o : F2)
  /-- POPC (R87). Counts one bits of s[a]. -/
  | popc (o : F2)
  /-- BEXT (R87). Extracts a zero-extended bit field of s[a]. -/
  | bext (o : F2)
  /-- BINS (R87). Inserts the low bits of s[b] into a bit field of s[a]. -/
  | bins (o : F2)
  /-- LI (R88). Loads a sign-extended 32-bit immediate into s[d]. -/
  | li (o : F3)
  /-- LIH (R88). Places a 32-bit immediate in the high half above s[a]'s low half. -/
  | lih (o : F3)
  /-- ADDI (R88). Adds a sign-extended immediate to s[a]. -/
  | addi (o : F3)
  /-- ANDI (R88). ANDs s[a] with a sign-extended immediate. -/
  | andi (o : F3)
  /-- ORI (R88). ORs s[a] with a sign-extended immediate. -/
  | ori (o : F3)
  /-- XORI (R88). XORs s[a] with a sign-extended immediate. -/
  | xori (o : F3)
  /-- SHLI (R88). Shifts s[a] left by an immediate 0-63. -/
  | shli (o : F3)
  /-- SHRI (R88). Shifts s[a] right logically by an immediate. -/
  | shri (o : F3)
  /-- SARI (R88). Shifts s[a] right arithmetically by an immediate. -/
  | sari (o : F3)
  /-- CMPI (R88). Compares s[a] with a sign-extended immediate under a condition. -/
  | cmpi (o : F3)
  /-- MULI (R88). Multiplies s[a] by a sign-extended immediate. -/
  | muli (o : F3)
  /-- SID (R94). Writes one identity value of the issuing group selected by x12. -/
  | sid (o : F2)
  /-- ADDR (R96). Converts an absolute, self-relative or cluster-relative address to an absolute address. -/
  | addr (o : F3)
  /-- FADD (R90). Scalar floating-point add, rounded once. -/
  | fadd (o : F2)
  /-- FSUB (R90). Scalar floating-point subtract. -/
  | fsub (o : F2)
  /-- FMUL (R90). Scalar floating-point multiply. -/
  | fmul (o : F2)
  /-- FMA (R90). Scalar fused multiply-add rounded once. -/
  | fma (o : F2)
  /-- FDIV (R90). Scalar floating-point divide. -/
  | fdiv (o : F2)
  /-- FSQRT (R90). Scalar floating-point square root. -/
  | fsqrt (o : F2)
  /-- FMIN (R90). Scalar minimumNumber. -/
  | fmin (o : F2)
  /-- FMAX (R90). Scalar maximumNumber. -/
  | fmax (o : F2)
  /-- FCMP (R92). Writes 1 or 0 by a floating-point comparison condition. -/
  | fcmp (o : F2)
  /-- FCVT (R91). Converts s[a] from source type to destination type. -/
  | fcvt (o : F2)
  /-- FCLASS (R93). Writes a one-hot class word of s[a]. -/
  | fclass (o : F2)
  /-- BR (R97). Uniform branch to a line delta and head. -/
  | br (o : B1)
  /-- CALL (R97). Writes the successor to s31 and branches. -/
  | call (o : B1)
  /-- BC (R97). Conditional branch on s[a] and s[b] by the condition in FN. -/
  | bc (cond : BitVec 4) (o : B2)
  /-- LOOP (R98). Decrements s[a] and branches while it is non-zero. -/
  | loop (o : B2)
  /-- JR (R97). Jumps to the address in s[a]. -/
  | jr (o : F2)
  /-- CALLR (R97). Writes the successor to s31 and jumps to s[a]. -/
  | callr (o : F2)
  /-- RET (R97). Jumps to s31. -/
  | ret (o : F2)
  /-- BRD (R119). Divergent branch that splits the group into two paths or pushes a serial mask stack entry. -/
  | brd (o : D3)
  /-- TRAP (R187). Raises TRAP_INSTR with the code and s[a]. -/
  | trap (code : BitVec 8) (o : F1)
  /-- CORE_RESET_RELEASE (R177). Firmware releases a checked core from reset once its torn-down grids have finished teardown. Acts on State.input: core in a. -/
  | coreResetRelease
  /-- TRAP_EVENT_ENTRY (R175). The idle S-slot takes the head trap event and starts at TRAPVEC with the target word and CAUSE. Acts on State.input: core in a. -/
  | trapEventEntry
  /-- USER_INTERRUPT_ENTRY (R186). A pending user interrupt is taken before path P's next instruction. Acts on State.input: core in a, slot in b. -/
  | userInterruptEntry
  /-- VADD (R128). Lane-wise add. -/
  | vadd (o : V3)
  /-- VSUB (R128). Lane-wise subtract. -/
  | vsub (o : V3)
  /-- VMUL (R128). Lane-wise multiply. -/
  | vmul (o : V3)
  /-- VMULH (R128). Lane-wise high half of the integer product. -/
  | vmulh (o : V3)
  /-- VFMA (R128). Lane-wise fused multiply-add. -/
  | vfma (o : V3)
  /-- VMIN (R128). Lane-wise minimum. -/
  | vmin (o : V3)
  /-- VMAX (R128). Lane-wise maximum. -/
  | vmax (o : V3)
  /-- VABS (R128). Lane-wise absolute value. -/
  | vabs (o : V3)
  /-- VNEG (R128). Lane-wise negation. -/
  | vneg (o : V3)
  /-- VDIV (R128). Lane-wise divide. -/
  | vdiv (o : V3)
  /-- VSQRT (R128). Lane-wise square root. -/
  | vsqrt (o : V3)
  /-- VRCP (R128). Lane-wise correctly rounded reciprocal. -/
  | vrcp (o : V3)
  /-- VRSQ (R128). Lane-wise reciprocal square root. -/
  | vrsq (o : V3)
  /-- VEXP2 (R128). Lane-wise base-2 exponential. -/
  | vexp2 (o : V3)
  /-- VLOG2 (R128). Lane-wise base-2 logarithm. -/
  | vlog2 (o : V3)
  /-- VDOT (R129). Packed dot product per lane accumulated into 32 bits. -/
  | vdot (o : V3)
  /-- VAND (R130). Lane-wise AND. -/
  | vand (o : V3)
  /-- VOR (R130). Lane-wise OR. -/
  | vor (o : V3)
  /-- VXOR (R130). Lane-wise XOR. -/
  | vxor (o : V3)
  /-- VNOT (R130). Lane-wise NOT. -/
  | vnot (o : V3)
  /-- VSHL (R130). Lane-wise left shift. -/
  | vshl (o : V3)
  /-- VSHR (R130). Lane-wise logical right shift. -/
  | vshr (o : V3)
  /-- VSAR (R130). Lane-wise arithmetic right shift. -/
  | vsar (o : V3)
  /-- VCMP (R131). Lane-wise comparison into a mask register. -/
  | vcmp (o : V3)
  /-- VSEL (R132). Selects per lane between two sources by a mask. -/
  | vsel (o : V3)
  /-- VCVT (R133). Lane-wise conversion, optionally with stochastic rounding. -/
  | vcvt (o : V3)
  /-- VPACK (R134). Packs several unpacked registers into one packed register. -/
  | vpack (o : V3)
  /-- VUNPK (R134). Unpacks a packed register into several registers. -/
  | vunpk (o : V3)
  /-- VLUT (R135). Looks up LUT4 codes in the vector copy of the LUT4 table. -/
  | vlut (o : V3)
  /-- VBCAST (R136). Broadcasts a scalar or one lane to the active lanes. -/
  | vbcast (o : V3)
  /-- VLANE (R136). Writes scalar plus lane number to each active lane. -/
  | vlane (o : V3)
  /-- VPERM (R137). Permutes lanes by a register of indices. -/
  | vperm (o : V3)
  /-- VSHUF (R137). Moves lanes by a fixed shuffle pattern. -/
  | vshuf (o : V3)
  /-- VCOMP (R138). Compresses the active lanes to the low lanes. -/
  | vcomp (o : V3)
  /-- VEXPD (R138). Expands low lanes into the active lanes. -/
  | vexpd (o : V3)
  /-- VEXT (R139). Extracts one lane's element to a scalar register. -/
  | vext (o : V3)
  /-- VINS (R139). Inserts a scalar element into one lane. -/
  | vins (o : V3)
  /-- VRED (R140). Reduces the active lanes by a fixed tree into a scalar. -/
  | vred (o : V3)
  /-- VSCAN (R141). Computes an inclusive prefix over the lanes. -/
  | vscan (o : V3)
  /-- MAND (R142). ANDs two masks. -/
  | mand (o : F2)
  /-- MOR (R142). ORs two masks. -/
  | mor (o : F2)
  /-- MXOR (R142). XORs two masks. -/
  | mxor (o : F2)
  /-- MNOT (R142). Inverts a mask. -/
  | mnot (o : F1)
  /-- MPOP (R142). Counts the set bits of a mask into a scalar. -/
  | mpop (o : F1)
  /-- MFIRST (R142). Writes the lowest set bit of a mask, or 128. -/
  | mfirst (o : F1)
  /-- MSET (R143). Sets a mask from a scalar by the selected kind. -/
  | mset (o : F1)
  /-- MTEST (R143). Tests masks or reads a mask half into a scalar. -/
  | mtest (o : F2)
  /-- LD (R206). Loads w bits at EA into s[d], optionally with acquire. -/
  | ld (o : M3)
  /-- ST (R206). Stores the low w bits of s[d] at EA, optionally with release. -/
  | st (o : M3)
  /-- LDF (R207). Synchronising load that waits for full and leaves the word full or empty. -/
  | ldf (o : M3)
  /-- STF (R207). Synchronising store that waits for empty or not and sets the word full. -/
  | stf (o : M3)
  /-- FE (R207). Sets or clears a word's F/E bit and returns the old bit. -/
  | fe (o : M3)
  /-- PREF (R211). Asks the home of up to 16 lines to prepare them. -/
  | pref (o : M3)
  /-- VLD (R212). Loads one element per active lane from contiguous memory. -/
  | vld (o : M3)
  /-- VST (R212). Stores one element per active lane to contiguous memory. -/
  | vst (o : M3)
  /-- VGAT (R213). Gathers one element per active lane from per-lane addresses. -/
  | vgat (o : M3)
  /-- VSCT (R213). Scatters one element per active lane to per-lane addresses. -/
  | vsct (o : M3)
  /-- AMO (R215). Integer atomic read-modify-write at the home returning the old value. -/
  | amo (o : M3)
  /-- FAMO (R216). Floating-point atomic at the home returning the old value. -/
  | famo (o : M3)
  /-- CAS (R217). Atomic compare and swap at the home. -/
  | cas (o : M3)
  /-- VAMO (R218). Per-lane atomic operations on per-lane addresses. -/
  | vamo (o : M3)
  /-- DEC (R347). Decrements a dependence counter and fires its codelet at zero. -/
  | dec (o : M3)
  /-- FENCE (R233). Orders the group's accesses across locations at a scope. -/
  | fence (kind scope : BitVec 4) (o : F1)
  /-- BAR_INIT (R350). Re-initialises a named barrier with a new expected count. -/
  | barInit (o : F1)
  /-- BAR_ARR (R350). Arrives at a named barrier without waiting. -/
  | barArr (o : F1)
  /-- BAR_WAIT (R350). Waits for a barrier generation to complete. -/
  | barWait (o : F1)
  /-- BAR_SYNC (R350). Arrives at a barrier and waits for its generation. -/
  | barSync (o : F1)
  /-- BAR_INV (R350). Invalidates a named barrier and releases its waiters. -/
  | barInv (o : F1)
  /-- CBAR (R353). Arrives at the cluster barrier and waits for the generation. -/
  | cbar (o : F1)
  /-- QPUSH (R257). Appends a whole vector register to a queue register. -/
  | qpush (o : F1)
  /-- QPOP (R257). Takes the head entry of a queue into a vector register. -/
  | qpop (o : F1)
  /-- QSTOP (R257). Stops the issuing writer of a queue. -/
  | qstop (o : F1)
  /-- QSTAT (R259). Writes a queue's state word. -/
  | qstat (o : F1)
  /-- QINIT (R257). Initialises a queue with writer and reader sets. -/
  | qinit (o : F1)
  /-- MIDX (R164). Loads the index register IX from memory, a sequence, nulls or a prefix. -/
  | midx (o : F3)
  /-- MOPEN (R165). Opens a batch on a tile with operand formats. -/
  | mopen (o : F3)
  /-- MSTEP (R166). Adds one matrix step to an open batch. -/
  | mstep (o : F3)
  /-- MCLOSE (R167). Closes a tile's batch. -/
  | mclose (o : F3)
  /-- MST (R168). Stores a whole tile to the core's larder. -/
  | mst (o : F3)
  /-- MLD (R168). Loads a whole tile from the core's larder. -/
  | mld (o : F3)
  /-- MZERO (R169). Zeroes a tile. -/
  | mzero (o : F3)
  /-- MTAB (R170). Loads a token table or the LUT4 table of the issuing context. -/
  | mtab (o : F3)
  /-- MWAIT (R171). Waits for the group's matrix commands and acquires its mst writes. -/
  | mwait (o : F3)
  /-- MSAVE (R172). Saves a tile with its batch record, or the user context. -/
  | msave (o : F3)
  /-- MREST (R172). Restores a tile with its batch state, or the user context. -/
  | mrest (o : F3)
  /-- MATRIX_ARBITRATION (R156). Each clk the bay arbiter starts the head command of the chosen core by class and credits. Acts on State.input: bay in a. -/
  | matrixArbitration
  /-- MATRIX_COMMAND_COMPLETE (R155). A matrix command completes at t + T + F and frees its queue entry. Acts on State.input: core in a, seq in b. -/
  | matrixCommandComplete
  /-- MATRIX_STEP_ABORT (R158). A step that fails a check or faults aborts without writing and traps the issuer. Acts on State.input: core in a, seq in b. -/
  | matrixStepAbort
  /-- CPY (R285). Submits a copy request to the core's copy engine. -/
  | cpy (o : F2)
  /-- CPST (R286). Reads a copy channel's write pointer or status word. -/
  | cpst (o : F2)
  /-- CPWAIT (R287). Waits for a transfer, or for all transfers, of the group. -/
  | cpwait (o : F2)
  /-- MCJOIN (R288). Joins a multicast tag with a larder base. -/
  | mcjoin (o : F2)
  /-- MCLEAVE (R288). Leaves a multicast tag. -/
  | mcleave (o : F2)
  /-- COPY_LINE_TRANSFER (R279). The copy engine moves one line of an active channel's request and advances its write pointer. Acts on State.input: core in a, ch in b. -/
  | copyLineTransfer
  /-- COPY_FAULT_TRAP (R281). A grid group takes its copy fault as a trap at path P's next instruction boundary. Acts on State.input: core in a, slot in b. -/
  | copyFaultTrap
  /-- COPY_COMPLETION (R280). A request whose destination bytes are all performed runs its completion action and advances DONE. Acts on State.input: core in a, ch in b. -/
  | copyCompletion
  /-- MULTICAST_JOIN_PACKET (R282). A join packet travels to the root, adding to port counts. Acts on State.input: core in a, tag in b. -/
  | multicastJoinPacket
  /-- MULTICAST_LEAVE_PACKET (R282). A leave packet travels to the root, subtracting from port counts. Acts on State.input: core in a, tag in b. -/
  | multicastLeavePacket
  /-- MULTICAST_LINE_DELIVERY (R346). A multicast line reaching a core is written at the matching entry's base. Acts on State.input: core in a, tag in b, off in c, the base that the entry had in d, data in body, F/E and poison bits of its words in word, FE in flag. -/
  | multicastLineDelivery
  /-- PUB (R265). Makes the group the publisher of its core's channel. -/
  | pub (o : F1)
  /-- UNPUB (R265). Closes the published channel or leaves it in a subscriber. -/
  | unpub (o : F1)
  /-- SUB_CHANNEL (R265). Subscribes the group to a published channel. -/
  | subChannel (o : F2)
  /-- UNSUB (R265). Makes a subscriber leave its channel. -/
  | unsub (o : F1)
  /-- RESUB (R265). Waits for the publisher's next rdv of an id and rejoins after it. -/
  | resub (o : F2)
  /-- RDV (R265). Marks a rendezvous point on a channel. -/
  | rdv (o : F1)
  /-- SEND (R270). Sends a message of a user type to a destination word. -/
  | send (o : F2)
  /-- SENDJC (R270). Adds 1 to a job counter, then sends a message. -/
  | sendjc (o : F2)
  /-- INVOKE (R318). Allocates a firkin and sends a type-255 direct-entry message. -/
  | invoke (o : F2)
  /-- INVF (R319). Allocates a continuation firkin and sends an invf operation to a firkin. -/
  | invf (o : F2)
  /-- RESOLVE (R320). Resolves a firkin with a value and waits for the answer. -/
  | resolve (o : F2)
  /-- FKPLACE (R321). Moves a firkin's home to the issuing core. -/
  | fkplace (o : F2)
  /-- FKGET (R322). Reads a firkin's value, waiting for resolution in a grid group. -/
  | fkget (o : F2)
  /-- FKSTATE (R322). Writes a firkin's state word. -/
  | fkstate (o : F2)
  /-- FKBREAK (R323). Breaks a firkin with a cause. -/
  | fkbreak (o : F2)
  /-- FK_OP_INVF (R316). An invf operation at the home queues or readies a waiter. Acts on State.input: the operation in body. -/
  | fkOpInvf
  /-- FK_OP_RESOLVE (R316). A resolve at the home sets the value and readies queued waiters. Acts on State.input: the operation in body. -/
  | fkOpResolve
  /-- FK_OP_PLACE (R316). A place at the home forwards the entry and its waiters to a new home. Acts on State.input: the operation in body. -/
  | fkOpPlace
  /-- FK_OP_GET (R316). A get at the home answers the value or state. Acts on State.input: the operation in body. -/
  | fkOpGet
  /-- FK_OP_STATE (R316). A state request at the home answers the state word. Acts on State.input: the operation in body. -/
  | fkOpState
  /-- FK_OP_BREAK (R324). A break at the home breaks the entry, notifies waiters and origins and sends type 252. Acts on State.input: the operation in body. -/
  | fkOpBreak
  /-- FK_OP_DROP (R325). A drop at the home marks a resolved or broken entry for freeing. Acts on State.input: the operation in body. -/
  | fkOpDrop
  /-- BREAK_NOTICE (R324). A device break notice arriving at a home breaks a PENDING entry. Acts on State.input: h in word, cause in cause, reason in a. -/
  | breakNotice
  /-- DRAIN_MARKER (R316). A drain marker arriving at a new home clears HOLD. Acts on State.input: h in word. -/
  | drainMarker
  /-- DROP_NOTICE (R325). A drop notice frees a FORWARDED entry and passes to its origin. Acts on State.input: h in word. -/
  | dropNotice
  /-- FIRKIN_ANSWER (R315). An answer to a firkin operation arrives at the requester, updating the forward cache and the waiting instruction. Acts on State.input: the operation in body, hint in word. -/
  | firkinAnswer
  /-- FIRKIN_OP_RETRY (R316). A refused firkin operation is sent again after back-off. Acts on State.input: the operation in body. -/
  | firkinOpRetry
  /-- FKGET_RETRY (R322). A grid group's fkget answered PENDING is sent again after 256 clk. Acts on State.input: the operation in body. -/
  | fkgetRetry
  /-- LEASE (R332). Requests a cellar engine of a kind at a class. -/
  | lease (o : F2)
  /-- LREL (R333). Releases a live or dead lease. -/
  | lrel (o : F2)
  /-- ESTAT (R334). Writes a lease's status word. -/
  | estat (o : F2)
  /-- EPUSH (R294). Pushes a command onto a lease's command FIFO. -/
  | epush (o : F2)
  /-- EPOP (R294). Pops a result from a lease's result FIFO. -/
  | epop (o : F2)
  /-- LEASE_QUEUE_REEXAMINE (R329). Queued lease requests are re-examined on engine state changes and served by class. Acts on State.input: die in a. -/
  | leaseQueueReexamine
  /-- EVICTION_DRAIN_COMPLETE (R330). Once an evicted engine's accesses are performed it is granted or sleeps. Acts on State.input: die in a, eng in b. -/
  | evictionDrainComplete
  /-- ENGINE_WAKE_COMPLETE (R328). A waking engine finishes waking and is granted. Acts on State.input: die in a, eng in b. -/
  | engineWakeComplete
  /-- ENGINE_IDLE_SLEEP (R328). An engine idle for 100,000 clk returns to ASLEEP. Acts on State.input: die in a, eng in b, since in c. -/
  | engineIdleSleep
  /-- LEASE_HOLD_THRESHOLD (R329). A holder reaching 20,000 clk triggers re-examination of queued requests. Acts on State.input: die in a, eng in b, lgen in c. -/
  | leaseHoldThreshold
  /-- SOFTMAX (R292). SFX engine computes row softmax. Acts on State.input: die in a, eng in b. -/
  | softmax
  /-- ROWMAX (R292). SFX engine computes row maxima. Acts on State.input: die in a, eng in b. -/
  | rowmax
  /-- ROWSUM (R292). SFX engine computes row sums. Acts on State.input: die in a, eng in b. -/
  | rowsum
  /-- EXP (R292). SFX engine computes elementwise exponential. Acts on State.input: die in a, eng in b. -/
  | exp
  /-- LOG (R292). SFX engine computes elementwise natural logarithm. Acts on State.input: die in a, eng in b. -/
  | log
  /-- SORT (R292). SRT engine stably sorts keys, optionally with values. Acts on State.input: die in a, eng in b. -/
  | sort
  /-- TOPK (R292). SRT engine selects the K smallest or largest keys per row. Acts on State.input: die in a, eng in b. -/
  | topk
  /-- SEGSORT (R292). SRT engine sorts each segment stably. Acts on State.input: die in a, eng in b. -/
  | segsort
  /-- ZF8ENC (R293). CDC engine encodes blocks into ZF8. Acts on State.input: die in a, eng in b. -/
  | zf8enc
  /-- ZF8DEC (R292). CDC engine decodes ZF8 blocks. Acts on State.input: die in a, eng in b. -/
  | zf8dec
  /-- GATHER (R292). SPX engine gathers rows by index. Acts on State.input: die in a, eng in b. -/
  | gather
  /-- EMBBAG (R292). SPX engine reduces embedding bags. Acts on State.input: die in a, eng in b. -/
  | embbag
  /-- SEGRED (R292). SPX engine reduces segments. Acts on State.input: die in a, eng in b. -/
  | segred
  /-- LAUNCH (R297). Submits a child grid record to the team's pending-launch queue. -/
  | launch (o : F2)
  /-- LWAIT (R354). Waits until a completion counter reaches zero or below. -/
  | lwait (o : F2)
  /-- LWAIT_REREAD (R354). A waiting lwait reads the counter again within 256 clk. Acts on State.input: core in a, slot in b, pathQ in flag. -/
  | lwaitReread
  /-- CTL_RD (R190). Reads a control register of the slot, core or partition. -/
  | ctlRd (o : F2)
  /-- CTL_WR (R190). Writes a control register that has no behaviour of its own. -/
  | ctlWr (o : F2)
  /-- CTL_WR_STATUS (R190). Unprivileged write of STATUS changes only UIE. -/
  | ctlWrStatus (o : F2)
  /-- CTL_WR_TRBASE (R235). Writing TRBASE places the race trace ring and resets the trace sequence counter when EN is set. -/
  | ctlWrTrbase (o : F2)
  /-- CTL_WR_EXPERT (R6). Writing EXPERT switches the partition's Expert fields once every core holds the value. -/
  | ctlWrExpert (o : F2)
  /-- CTL_WR_CLKFIX (R375). Writing CLKFIX sets fixed-clock mode and the wake cap, sleeping idle engines above the cap. -/
  | ctlWrClkfix (o : F2)
  /-- SLOT_RESUME (R183). Restarts a trapped slot at EPC. -/
  | slotResume (o : F2)
  /-- SLOT_KILL (R184). Kills a slot by the steps of Table 7-8. -/
  | slotKill (o : F2)
  /-- SLOT_SKIP (R183). Restarts a trapped slot at the successor of EPC. -/
  | slotSkip (o : F2)
  /-- SLOT_RDS (R191). Reads a trapped slot's scalar register. -/
  | slotRds (o : F2)
  /-- SLOT_WRS (R191). Writes a trapped slot's scalar register. -/
  | slotWrs (o : F2)
  /-- SLOT_RDV (R191). Reads a trapped slot's vector register. -/
  | slotRdv (o : F2)
  /-- SLOT_WRV (R191). Writes a trapped slot's vector register. -/
  | slotWrv (o : F2)
  /-- SLOT_RDM (R191). Reads a trapped slot's mask register. -/
  | slotRdm (o : F2)
  /-- SLOT_WRM (R191). Writes a trapped slot's mask register. -/
  | slotWrm (o : F2)
  /-- SLOT_TDOWN (R191). Asks the admitter to tear down the target's grid. -/
  | slotTdown (o : F2)
  /-- TLBI_MARK (R341). Marks a range's translations DRAINING in every TLB of a scope. -/
  | tlbiMark (o : F2)
  /-- TLBI_CONF (R342). Confirms a mark after old writes are performed and releases stalled accesses. -/
  | tlbiConf (o : F2)
  /-- TLB_WALK (R336). A miss at L3 walks the partition page table and installs the leaf. Acts on State.input: core in a, va in word, fetch in flag. -/
  | tlbWalk
  /-- ISSUE_SELECT (R307). Each clk the core's selector picks one ready path by tier, age, priority and round-robin. Acts on State.input: core in a. -/
  | issueSelect
  /-- CLOCK_STEP (R375). The power controller moves the arithmetic clock by 25 MHz steps. Acts on State.input: up in flag; or a bay in b that it gates (1 in c) or gates no longer (2 in c). -/
  | clockStep
  /-- ACCESS_AT_HOME (R222). A load, store, atomic or sync request arrives at its home and is performed there. Acts on State.input: the access in body, its number in a where its larder bank has served it (flag); b is 1 where it has come over a link and its bank has served it; without an access, core in a for its race trace ring. -/
  | accessAtHome
  /-- SHELF_RETRY (R274). A refused access is sent again after its exponential back-off. Acts on State.input: the access in body. -/
  | shelfRetry
  /-- SHELF_WITHDRAWAL (R209). A withdrawal reaches the shelf and answers withdrawn or performed. Acts on State.input: core in a, slot in b, pathQ in flag; from another package, with cause 1: home in a, pkg in b, core in c, tag in d, epoch in e, the withdrawal's own tag and epoch in word. -/
  | shelfWithdrawal
  /-- PANTRY_EXPIRY (R345). A pantry entry expires after 4 × TO. Acts on State.input: home in a, pkg in b, core in c, tag in d, epoch in e; an acknowledgement in flag. -/
  | pantryExpiry
  /-- REPLY_ARRIVAL (R206). A reply or acknowledgement arrives at the requester and completes its access. Acts on State.input: tag in a, epoch in b, data in word, the bytes of a line or page in body, cause in cause. -/
  | replyArrival
  /-- REQUEST_TIMEOUT (R363). A request without reply for TO is reissued, and the fourth timeout ends it with FABRIC_TIMEOUT. Acts on State.input: tag in a, epoch in b. -/
  | requestTimeout
  /-- TAG_QUARANTINE_END (R363). A quarantined tag becomes allocatable after 2 × DB. Acts on State.input: tag in a. -/
  | tagQuarantineEnd
  /-- CHANNEL_WHEEL_TURN (R247). Each 8-clk slot a Vault channel starts up to 7 line accesses by owner then age. Acts on State.input: stack in a, ch in b. -/
  | channelWheelTurn
  /-- PATROL_SCRUB (R242). Scrub reads one line per channel each 256 clk and corrects or poisons it. Acts on State.input: stack in a, ch in b, outcome in body. -/
  | patrolScrub
  /-- LARDER_RETENTION_ENTRY (R197). A larder bank idle for 65,536 clk enters retention. Acts on State.input: core in a, bank in b. -/
  | larderRetentionEntry
  /-- LARDER_RETENTION_EXIT (R197). A bank completes leaving retention and serves waiting accesses. Acts on State.input: core in a, bank in b. -/
  | larderRetentionExit
  /-- REGBANK_RETENTION_ENTRY (R109). A register bank with no allocation for 65,536 clk enters retention. Acts on State.input: core in a, bank in b. -/
  | regbankRetentionEntry
  /-- REGBANK_RETENTION_EXIT (R109). A register bank completes leaving retention and its group or task starts. Acts on State.input: core in a, bank in b. -/
  | regbankRetentionExit
  /-- CHECK_FAILURE_AT_CROSSING (R245). An old check failing at a domain crossing is corrected, poisoned, or replayed. Acts on State.input: outcome in body; what it concerns in a to d (the docstring of execCheckFailureAtCrossing), port in b for a link. -/
  | checkFailureAtCrossing
  /-- OMYAN_HOP (R361). Flits at a port compete for outputs by age, and losers are deflected. Acts on State.input: port in a, the flits that reach it in body; with flag, the flits of this package that enter the fabric. -/
  | omyanHop
  /-- FABRIC_WHEEL_TURN (R364). Each clk a port's fabric wheel serves its owner's buffered flits first. Acts on State.input: port in a. -/
  | fabricWheelTurn
  /-- LANE_FAILURE (R362). A lane fails and the port declares an erasure, retrains narrower or goes down. Acts on State.input: port in a, lane in b. -/
  | laneFailure
  /-- PORT_RETRAIN_COMPLETE (R362). A retraining port resumes at its reduced width. Acts on State.input: port in a. -/
  | portRetrainComplete
  /-- MESSAGE_ARRIVAL (R267). A message arrives at a core's message unit and is accepted, refused or held. Acts on State.input: core in a, the message in body. -/
  | messageArrival
  /-- TASK_DISPATCH (R268). Each clk with a free H-class slot the message unit starts one task by rank. Acts on State.input: core in a. -/
  | taskDispatch
  /-- VECTOR_TABLE_REREAD (R309). Held messages have their vector-table entry read again every 4,096 clk. Acts on State.input: core in a, the number of the message in b. -/
  | vectorTableReread
  /-- HOST_PAGE_ANSWER (R344). A type-248 host answer queues a trap event for the faulted slot or is dropped as late. Acts on State.input: core in a, the message in body. -/
  | hostPageAnswer
  /-- WATCHDOG_TICK (R357). Every 1,024 clk without progress the cluster watchdog count advances. Acts on State.input: cluster in a. -/
  | watchdogTick
  /-- GROUP_START (R304). A team's groups start at ENTRY once their window is clear. Acts on State.input: grid in a. -/
  | groupStart
  /-- ADMITTER_PASS (R300). The admitter runs its per-partition procedure on arrivals, completions and freed resources. Acts on State.input: part in a. -/
  | admitterPass
  /-- BACKFILL_LIMIT_EXPIRY (R300). A class-queue head blocked for BLIMIT may pre-empt lower-class grids. Acts on State.input: part in a, cls in b. -/
  | backfillLimitExpiry
  /-- PREEMPTION_END (R300). The end of a pre-emption or swap-out counts as freeing resources. Acts on State.input: part in a, grid in b. -/
  | preemptionEnd
  /-- GRID_COMPLETION (R304). A completed grid decrements its completion counter with release. Acts on State.input: grid in a. -/
  | gridCompletion
  /-- PENDING_LAUNCH_TRANSFER (R298). A team's pending entry is transferred to the admitter and accepted or kept. Acts on State.input: team in a. -/
  | pendingLaunchTransfer
  /-- LAUNCH_RING_ACCEPT (R368). The admitter accepts the next rung slot of a launch ring into the class queue. Acts on State.input: part in a, cls in b; the record that a read across Filfel has brought in body, or its fault in cause. -/
  | launchRingAccept
  /-- DBRES (R368). An atomic read of DBRES reserves the ring slot at TAIL or returns all ones. Acts on State.input: part in a, cls in b. -/
  | dbres
  /-- DBELL (R368). A write of a slot index to DBELL rings that slot. Acts on State.input: part in a, cls in b, idx in c. -/
  | dbell
  /-- GRANARY_GRANT (R249). The granary controllers make or refuse a lease of Vault units. Acts on State.input: idx in a, the grant in body. -/
  | granaryGrant
  /-- RECLAIM_REQUEST (R251). The lender's firmware asks for a region back, setting RECLAIMING and a deadline. Acts on State.input: idx in a. -/
  | reclaimRequest
  /-- TERM_END (R251). At TERMEND the lender starts a reclaim. Acts on State.input: idx in a, gen in b. -/
  | termEnd
  /-- GRANARY_RELEASE (R251). The borrower's firmware releases a region and starts moving it. Acts on State.input: idx in a. -/
  | granaryRelease
  /-- RECLAIM_NOTICE (R251). The borrower receives a reclaim notice and starts moving the region. Acts on State.input: idx in a, reason in b. -/
  | reclaimNotice
  /-- PAGE_MOVE (R251). The borrower marks, drains, copies and remaps one page of the region. Acts on State.input: idx in a, va in b, the lease's GEN in c, the phase in d, a line's distance into the page in e; the answer to a line in cause and body, to its write with flag. -/
  | pageMove
  /-- RECLAIM_DEADLINE (R252). At DEADLINE a RECLAIMING region becomes REVOKED and unmoved pages are poisoned. Acts on State.input: idx in a, gen in b. -/
  | reclaimDeadline
  /-- RELEASE_NOTICE (R251). The lender receives a release notice and frees the record. Acts on State.input: idx in a. -/
  | releaseNotice
  /-- BORROWER_LOST (R254). The lender frees a record when the borrower resets or its port stays down for Tr. Acts on State.input: idx in a; a port that has been down for Tr in flag, with gen in b, pkg in c. -/
  | borrowerLost
  /-- PACKAGE_RESET (R371). Package reset clears state and starts boot. Acts on State.input: straps in a. -/
  | packageReset
  /-- SECURE_ROM_VERIFY (R371). The secure ROM verifies the Hatch firmware. Acts on State.input: digest in body. -/
  | secureRomVerify
  /-- DIE_IMAGE_VERIFY (R371). Firmware verifies each die's image and records the manifest. Acts on State.input: die in a, version in b, measure in body. -/
  | dieImageVerify
  /-- DIE_LINK_TRAINING (R373). Die-to-die links train and negotiate a protocol revision. Acts on State.input: die in a, maskA in b, maskB in c. -/
  | dieLinkTraining
  /-- VAULT_TRAIN_AND_CLEAR (R240). Vault stacks train and clear every line. Acts on State.input: stack in a, works in flag. -/
  | vaultTrainAndClear
  /-- OMYAN_PORT_TRAINING (R372). Omyan ports train and exchange package ids with neighbours. Acts on State.input: port in a, neighbour in b, present in flag. -/
  | omyanPortTraining
  /-- SYSTEM_TYPE_BINDING (R371). Firmware binds system types and sets up partitions, opening the admitter. Acts on State.input: the firmware's values in body. -/
  | systemTypeBinding
  /-- PARTITION_SETUP (R367). Hatch firmware writes a partition's map, tables, wheels, rings and controls. Acts on State.input: part in a, the set-up in body. -/
  | partitionSetup
  /-- ATTESTATION_QUOTE (R374). Hatch A signs the manifest and a host nonce. Acts on State.input: nonce in word. -/
  | attestationQuote
  /-- UNCORRECTABLE_ERROR (R198). An uncorrectable error strikes a larder word or a Vault line, which becomes poisoned. Acts on State.input: loc in a. -/
  | uncorrectableError
  /-- CELLAR_RESULT_WRITTEN (R289). A cellar engine finishes its command, appends exactly one result entry and may start its next command. Acts on State.input: die in a, eng in b. -/
  | cellarResultWritten
  deriving DecidableEq, Repr

end Sys2Proof
end

