-- ==== Sys2Proof/WellFormed.lean ====
section
/-! DEFINITION. Which instructions are legal encodings: reserved fields zero and every operand code accepted. An
instruction that breaks one of these checks traps ILLEGAL_INSTR (R33 to R43, Table 2-10 row 5). -/

namespace Sys2Proof

/-- Types 0 to 7 (Table 2-6). -/
def tyInt (t : BitVec 4) : Bool := t < 8#4
/-- Types 8 to 11: the formats that scalar and vector arithmetic computes on. -/
def tyFlt (t : BitVec 4) : Bool := 8#4 ≤ t && t ≤ 11#4
/-- Types i64, n64 and f64, which occupy a register pair (R113). -/
def ty64 (t : BitVec 4) : Bool := t = 3#4 || t = 7#4 || t = 11#4
/-- The width of an element in bits (Table 2-6). -/
def tyWidth (t : BitVec 4) : Nat :=
  match t.toNat with
  | 0 | 4 | 12 | 13 => 8
  | 1 | 5 | 8 | 9 => 16
  | 2 | 6 | 10 => 32
  | 3 | 7 | 11 => 64
  | _ => 4

/-- A scope code of R26. -/
def scopeOk (s : BitVec 4) : Bool := s ≤ 9#4
/-- A 5-bit field that names a mask (R115). -/
def maskField (x : BitVec 5) : Bool := x < 16#5
/-- A 5-bit field that names a mask as a destination: m0 is read-only (R115). -/
def maskDest (x : BitVec 5) : Bool := x < 16#5 && x ≠ 0#5
/-- A vc field that names a scalar register (R35). -/
def scalarVc (x : BitVec 8) : Bool := 128#8 ≤ x && x < 160#8
/-- A register field of a pair is even (R113). -/
def pairOk (t : BitVec 4) (v : BitVec 8) : Bool := !ty64 t || v.getLsbD 0 = false

/-- Only the fields that are said to be read may be non-zero in F1 (R36); `m` marks the bits of x that are read. -/
def F1.reads (o : F1) (d a : Bool) (m : BitVec 6) : Bool :=
  (d || o.d = 0) && (a || o.a = 0) && o.x &&& ~~~m = 0
/-- The same for F2. -/
def F2.reads (o : F2) (d a b c : Bool) (m : BitVec 12) : Bool :=
  (d || o.d = 0) && (a || o.a = 0) && (b || o.b = 0) && (c || o.c = 0) && o.x &&& ~~~m = 0
/-- The same for F3. -/
def F3.reads (o : F3) (d a : Bool) (m : BitVec 6) (imm : Bool) : Bool :=
  (d || o.d = 0) && (a || o.a = 0) && o.x &&& ~~~m = 0 && (imm || o.imm = 0)

/-- The sources of a V3 instruction with one vector source: vb and vc are reserved (R125). -/
def V3.src1 (o : V3) (t : BitVec 4) : Bool := o.vb = 0 && o.vc = 0 && pairOk t o.va
/-- With two sources: the second is vb, or a scalar named by vc (R125). -/
def V3.src2 (o : V3) (t : BitVec 4) : Bool :=
  pairOk t o.va && pairOk t o.vb && (o.vc = 0 || (scalarVc o.vc && o.vb = 0))
/-- With three sources: the third is vc, a vector or a scalar (R125). -/
def V3.src3 (o : V3) (t : BitVec 4) : Bool :=
  pairOk t o.va && pairOk t o.vb && (scalarVc o.vc || (o.vc < 128#8 && pairOk t o.vc))
/-- A second source that is a vector, or a scalar named by vc in its place (R125). -/
def V3.second (o : V3) (vec : Bool) : Bool := (o.vc = 0 && vec) || (scalarVc o.vc && o.vb = 0)
/-- The rounding field: read only where a floating-point result is rounded (R125, R39). -/
def V3.rndOk (o : V3) (reads : Bool) : Bool := reads || o.rnd = 0
/-- The x6 field of an arithmetic instruction: bit 0 is SAT, for integer types where the table allows it (R126). -/
def V3.satOk (o : V3) (allowed : Bool) : Bool := o.x = 0 || (o.x = 1 && allowed && tyInt o.ty)

/-- An arithmetic instruction of Table 5-5 that takes the types I and F. -/
def V3.arith (o : V3) (src : V3 → BitVec 4 → Bool) (sat rnd : Bool) : Bool :=
  (tyInt o.ty || tyFlt o.ty) && src o o.ty && pairOk o.ty o.vd && o.satOk sat && o.rndOk (rnd && tyFlt o.ty)
/-- An instruction of Table 5-5 that takes the types F only and rounds. -/
def V3.fltUnary (o : V3) : Bool := tyFlt o.ty && o.src1 o.ty && pairOk o.ty o.vd && o.x = 0
/-- A logic instruction or a shift of Table 5-6. -/
def V3.logic (o : V3) (src : V3 → BitVec 4 → Bool) : Bool :=
  tyInt o.ty && src o o.ty && pairOk o.ty o.vd && o.x = 0 && o.rnd = 0

/-- The registers that `vpack` and `vunpk` span (R134). -/
def spanLen (t : BitVec 4) : Nat := 32 / tyWidth t
/-- A single register and a span of n registers do not overlap (R134). -/
def spanApart (one base : BitVec 8) (t : BitVec 4) : Bool :=
  one.toNat < base.toNat || base.toNat + spanLen t ≤ one.toNat
/-- The types of width 4, 8 and 16 that `vpack` and `vunpk` take. -/
def tyPack (t : BitVec 4) : Bool := tyWidth t < 32

/-- An M3 instruction whose data field names a scalar register. -/
def M3.sdata (o : M3) : Bool := o.data < 32#8
/-- The address form and scope of an M3 instruction: form 3 is illegal (R39), a plain order carries scope 0 (R205). -/
def M3.common (o : M3) (sync : Bool) : Bool :=
  o.form ≠ 3#2 && scopeOk o.scope && (sync || o.order ≠ 0#2 || o.scope = 0#4)
/-- A load's order: plain or acquire. -/
def M3.loadOrder (o : M3) : Bool := o.order ≤ 1#2
/-- A store's order: plain or release. -/
def M3.storeOrder (o : M3) : Bool := o.order = 0#2 || o.order = 2#2
/-- The types of `amo`, `cas` and `vamo` on integers. -/
def tyAmo (t : BitVec 4) : Bool := t = 2#4 || t = 3#4 || t = 6#4 || t = 7#4
/-- The operations of Table 8-7 for integers. -/
def amoInt (op : BitVec 4) : Bool := op ≤ 6#4
/-- The operations of Table 8-7 for floats. -/
def amoFlt (op : BitVec 4) : Bool := op = 1#4 || op = 5#4 || op = 6#4
/-- A pair that the vector index register lies in (R213). -/
def pairClash (o : M3) : Bool :=
  ty64 o.ty && (o.data.toNat = o.idx.toNat || o.data.toNat + 1 = o.idx.toNat)

/-- The pairs of matrix formats that R150 allows. -/
def fmtPair (a b : Nat) : Bool :=
  ((a = 0 || a = 1 || a = 9 || a = 13) && a = b) || (2 ≤ a && a ≤ 7 && 2 ≤ b && b ≤ 8) ||
  (10 ≤ a && a ≤ 12 && 10 ≤ b && b ≤ 12)

/-- The control registers: 0 unallocated, 1 per slot, 2 per core, 3 per partition (Table 7-1). -/
def ctlKind (n : Nat) : Nat :=
  if n ≤ 0x10 then 1
  else if 0x40 ≤ n && n ≤ 0x4F then 2
  else if 0x60 ≤ n && n ≤ 0x6F then 2
  else if n = 0x80 || n = 0x81 then 3
  else 0
/-- The register field and the T bit of `ctl.rd` and `ctl.wr` (R190). -/
def ctlOk (o : F2) : Bool :=
  o.x.getLsbD 11 = false && o.c = 0 && (o.x.getLsbD 10 || o.b = 0) &&
  (let k := ctlKind (field o.x 0 10); k ≠ 0 && (!o.x.getLsbD 10 || k = 1))
/-- The registers of `ctl.wr` that have a row of their own in the opcode table. -/
def ctlWrOwn (n : Nat) : Nat := if n = 0 then 1 else if n = 0x4C then 2 else if n = 0x80 then 3 else if n = 0x81 then 4 else 0
/-- A `ctl.wr` of the table row `k`. -/
def ctlWrOk (o : F2) (k : Nat) : Bool := ctlOk o && ctlWrOwn (field o.x 0 10) = k
/-- A `slot` of the operation `op`, which reads a and c or not, and IDX or not (R191). -/
def slotOk (o : F2) (op : Nat) (a c idx : Bool) : Bool :=
  field o.x 0 4 = op && field o.x 9 3 = 0 && (a || o.a = 0) && (c || o.c = 0) && (idx || field o.x 4 5 = 0)
/-- The operands of a message: a length of len words from s[b] (R270, R318). -/
def payloadOk (b : BitVec 5) (len : Nat) : Bool := if len = 0 then b = 0 else b.toNat + len ≤ 32
/-- The type code of a scalar floating-point instruction (Table 4-7). -/
def F2.fty (o : F2) : BitVec 4 := bits o.x 0 4
/-- The rounding code of a scalar floating-point instruction. -/
def F2.frnd (o : F2) : BitVec 2 := bits o.x 4 2
/-- The AUX field of a scalar floating-point instruction. -/
def F2.faux (o : F2) : BitVec 4 := bits o.x 8 4
/-- A scalar floating-point instruction that rounds: types 8 to 11, bits [7:6] reserved, AUX 0. -/
def F2.fround (o : F2) (b c : Bool) : Bool := o.reads true true b c 0x03F#12 && tyFlt o.fty
/-- A scalar floating-point instruction that does not round. -/
def F2.fplain (o : F2) (b : Bool) : Bool := o.reads true true b false 0x00F#12

/-- An instruction that the encoding rules accept; the device's own steps carry no encoding. `vred` and `vscan` of a floating-point type
read the rounding field with every operation [log 72, DEDUCED]. -/
def wellFormed : Instr → Bool
  | .movc o => o.reads true true 0 && o.d < 16#5 && o.a < 16#5
  | .addc o => o.d < 16#5 && o.a < 16#5
  | .add o | .sub o | .and o | .or o | .xor o | .andn o | .shl o | .shr o | .sar o | .rol o | .mul o =>
    o.reads true true true false 0
  | .min o | .max o | .mulh o | .div o | .rem o => o.reads true true true false 1
  | .sel o => o.reads true true true true 0
  | .cmp o => o.reads true true true false 0xF#12
  | .clz o | .ctz o | .popc o => o.reads true true false false 0
  | .bext o => o.reads true true false false 0xFFF#12
  | .bins o => o.reads true true true false 0xFFF#12
  | .li o => o.reads true false 0 true
  | .lih o | .addi o | .andi o | .ori o | .xori o | .muli o => o.reads true true 0 true
  | .shli o | .shri o | .sari o => o.reads true true 0 true && o.imm < 64#32
  | .cmpi o => o.reads true true 0xF#6 true
  | .sid o => o.reads true false false false 0xFFF#12 && o.x ≤ 0x15#12
  | .addr o => o.reads true true 3 true && o.x ≠ 3#6
  | .fadd o | .fsub o | .fmul o | .fdiv o => o.fround true false
  | .fma o => o.fround true true
  | .fsqrt o => o.fround false false
  | .fmin o | .fmax o => o.fplain true && tyFlt o.fty
  | .fcmp o => o.reads true true true false 0x70F#12 && tyFlt o.fty
  | .fcvt o => o.reads true true false false 0xF3F#12 && o.fty ≠ 15#4 && o.faux ≠ 15#4 && !(tyInt o.fty && tyInt o.faux)
  | .fclass o => o.fplain false && 8#4 ≤ o.fty && o.fty ≤ 14#4
  | .br o | .call o => o.head ≠ 0
  | .bc _ o => o.head ≠ 0
  | .loop o => o.head ≠ 0 && o.b = 0 && o.a ≠ 0
  | .jr o | .callr o => o.reads false true false false 0
  | .ret o => o.reads false false false false 0
  | .brd o => o.x = 0 && o.head ≠ 0 && o.jhead ≠ 0
  | .trap _ o => o.reads false true 0
  | .vadd o | .vsub o | .vmul o => o.arith V3.src2 true true
  | .vfma o => o.arith V3.src3 true true
  | .vmulh o => tyInt o.ty && o.arith V3.src2 false false
  | .vmin o | .vmax o => o.arith V3.src2 false false
  | .vabs o | .vneg o => o.arith V3.src1 true false
  | .vdiv o => o.arith V3.src2 false true
  | .vsqrt o | .vrcp o | .vrsq o | .vexp2 o | .vlog2 o => o.fltUnary
  | .vdot o =>
    (tyWidth o.ty = 8 || tyWidth o.ty = 16) && o.src3 o.ty && o.satOk true && o.rndOk (!tyInt o.ty)
  | .vand o | .vor o | .vxor o | .vshl o | .vshr o | .vsar o => o.logic V3.src2
  | .vnot o => o.logic V3.src1
  | .vcmp o =>
    (tyInt o.ty || tyFlt o.ty) && o.src2 o.ty && o.rnd = 0 && o.vd < 16#8 && o.vd ≠ 0 && o.x < 8#6 &&
    !(tyInt o.ty && 6#6 ≤ o.x)
  | .vsel o => (tyInt o.ty || tyFlt o.ty) && o.src2 o.ty && pairOk o.ty o.vd && o.rnd = 0 && o.x = 0
  | .vcvt o =>
    o.ty ≠ 15#4 && o.vb = 0 && o.x < 32#6 && pairOk o.ty o.vd && pairOk (bits o.x 0 4) o.va &&
    (if o.x.getLsbD 4 then
      scalarVc o.vc && o.rnd = 0 && (o.ty = 8#4 || o.ty = 9#4 || o.ty = 12#4 || o.ty = 13#4 || o.ty = 14#4)
     else o.vc = 0 && (o.rnd = 0 || !tyInt o.ty || !(tyInt (bits o.x 0 4) || bits o.x 0 4 = 15#4)))
  | .vpack o =>
    tyPack o.ty && o.vb = 0 && o.vc = 0 && o.x = 0 && o.rnd = 0 && o.mask = 0 && spanApart o.vd o.va o.ty
  | .vunpk o =>
    tyPack o.ty && o.vb = 0 && o.vc = 0 && o.x = 0 && o.rnd = 0 && o.mask = 0 && spanApart o.va o.vd o.ty
  | .vlut o => o.ty = 15#4 && o.vb = 0 && o.vc = 0 && o.x = 0 && o.rnd = 0
  | .vbcast o =>
    o.ty ≤ 13#4 && scalarVc o.vc && o.vb = 0 && o.x < 2#6 && o.rnd = 0 && pairOk o.ty o.vd &&
    (if o.x = 0 then o.va = 0 else pairOk o.ty o.va)
  | .vlane o =>
    tyInt o.ty && scalarVc o.vc && o.va = 0 && o.vb = 0 && o.x = 0 && o.rnd = 0 && pairOk o.ty o.vd
  | .vperm o =>
    (o.ty = 2#4 || o.ty = 3#4) && o.second true && o.x = 0 && o.rnd = 0 && pairOk o.ty o.vd && pairOk o.ty o.va
  | .vshuf o =>
    (o.ty = 2#4 || o.ty = 3#4) && o.x < 7#6 && o.rnd = 0 && pairOk o.ty o.vd && pairOk o.ty o.va &&
    (if o.x = 0 || o.x = 2 then scalarVc o.vc && o.vb = 0
     else if o.x = 1 then o.vc = 0 && o.vb = 0 else o.second (pairOk o.ty o.vb))
  | .vcomp o | .vexpd o =>
    (o.ty = 2#4 || o.ty = 3#4) && o.src1 o.ty && o.x = 0 && o.rnd = 0 && pairOk o.ty o.vd
  | .vext o =>
    o.vb < 128#8 && o.vd < 32#8 && o.mask = 0 && o.vc = 0 && o.x = 0 && o.rnd = 0 && pairOk o.ty o.va
  | .vins o =>
    o.va < 128#8 && scalarVc o.vc && o.vb = 0 && o.x = 0 && o.rnd = 0 && pairOk o.ty o.vd
  | .vred o =>
    (tyInt o.ty || tyFlt o.ty) && o.src1 o.ty && o.vd < 32#8 && o.rndOk (tyFlt o.ty) &&
    (o.x < 3#6 || (o.x < 6#6 && tyInt o.ty))
  | .vscan o =>
    (tyInt o.ty || tyFlt o.ty) && o.src1 o.ty && pairOk o.ty o.vd && o.rndOk (tyFlt o.ty) &&
    (o.x < 3#6 || (o.x < 6#6 && tyInt o.ty))
  | .mand o | .mor o | .mxor o =>
    o.reads true true true false 0 && maskDest o.d && maskField o.a && maskField o.b
  | .mnot o => o.reads true true 0 && maskDest o.d && maskField o.a
  | .mpop o | .mfirst o => o.reads true true 0 && maskField o.a
  | .mset o => maskDest o.d && o.x < 4#6
  | .mtest o =>
    o.reads true true true false 3 && maskField o.a && maskField o.b && (o.x < 2#12 || o.b = 0)
  | .ld o => o.common false && o.sdata && o.ty ≤ 13#4 && o.loadOrder && o.mode = 0
  | .st o => o.common false && o.sdata && o.ty ≤ 13#4 && o.storeOrder && o.mode = 0
  | .ldf o | .stf o | .fe o => o.common true && o.sdata && o.ty = 3#4 && o.order = 0 && o.mode ≤ 1#4
  | .pref o => o.common false && o.data = 0 && o.order = 0 && o.mode = 0
  | .vld o => o.common false && o.loadOrder && pairOk o.ty o.data
  | .vst o => o.common false && o.storeOrder && pairOk o.ty o.data
  | .vgat o => o.common false && o.loadOrder && pairOk o.ty o.data && o.ty ≤ 13#4 && o.idx ≠ 0 && !pairClash o
  | .vsct o => o.common false && o.storeOrder && pairOk o.ty o.data && o.ty ≤ 13#4 && o.idx ≠ 0 && !pairClash o
  | .amo o => o.common false && o.sdata && tyAmo o.ty && amoInt o.mode
  | .famo o => o.common false && o.sdata && tyFlt o.ty && amoFlt o.mode
  | .cas o => o.common false && 1#8 ≤ o.data && o.data ≤ 30#8 && tyAmo o.ty && o.mode = 0
  | .vamo o =>
    o.common false && o.idx ≠ 0 && pairOk o.ty o.data &&
    ((tyAmo o.ty && amoInt o.mode) || (tyFlt o.ty && amoFlt o.mode))
  | .dec o => o.common true && o.sdata && o.ty = 7#4 && o.order = 0 && o.mode = 0
  | .fence kind scope o => 1#4 ≤ kind && kind ≤ 3#4 && scopeOk scope && o.reads false false 0
  | .barInit o | .barArr o | .barWait o | .barSync o => o.x < 16#6
  | .barInv o => o.reads true false 0xF#6
  | .cbar o => o.reads true false 0
  | .qpush o => o.reads true false 0x3F#6
  | .qpop _ => true
  | .qstop o => o.reads false false 7
  | .qstat o => o.reads true false 7
  | .qinit o => o.reads true true 7
  | .midx o =>
    o.d = 0 &&
    (if o.x = 0 then true
     else if o.x = 1 then o.a = 0 && o.imm < 65536#32
     else if o.x = 2 then o.a = 0 && o.imm = 0
     else o.x = 3 && o.imm = 0)
  | .mopen o =>
    o.reads true false 0 true && o.d < 16#5 && o.imm < 1024#32 && fmtPair (field o.imm 0 4) (field o.imm 4 4)
  | .mstep o =>
    o.x = 0 && o.d < 16#5 && o.imm.getLsbD 10 = false && 1 ≤ field o.imm 0 10 && field o.imm 0 10 ≤ 512 &&
    1#5 ≤ o.a && o.a ≤ 28#5
  | .mclose o | .mzero o => o.reads true false 0 false && o.d < 16#5
  | .mst o | .mld o => o.x < 2#6 && o.d < 16#5
  | .mtab o => o.reads false true 0xF#6 false && o.x ≤ 8#6 && (o.x ≠ 8#6 || o.a ≠ 31#5)
  | .mwait o => o.reads false false 0 false
  | .msave o | .mrest o => o.x < 2#6 && o.d < 16#5 && (o.x = 0 || o.d = 0)
  | .cpy o => o.reads true true false false 1 && 1#5 ≤ o.a && o.a ≤ 28#5
  | .cpst o => o.reads true true false false 1
  | .cpwait o => o.reads true true false false 1 && (o.x = 0 || o.a = 0)
  | .mcjoin o => o.reads true true true false 0
  | .mcleave o => o.reads true true false false 0
  | .pub o => o.reads true false 0
  | .unpub o | .unsub o => o.reads false false 0
  | .rdv o => o.reads false false 0x3F#6
  | .subChannel o => o.reads true true false false 0
  | .resub o => o.reads true true false false 0x3F#12
  | .send o =>
    o.reads false true true false 0x7FF#12 && field o.x 0 8 < 248 && field o.x 8 3 < 7 && payloadOk o.b (field o.x 8 3)
  | .sendjc o =>
    o.reads false true true true 0x7FF#12 && field o.x 0 8 < 248 && field o.x 8 3 < 7 && payloadOk o.b (field o.x 8 3)
  | .invoke o => o.x ≤ 5#12 && payloadOk o.b o.x.toNat
  | .invf o => o.reads true true true true 0
  | .resolve o => o.reads true true true false 0
  | .fkplace o => o.reads true true false false 0 && 1#5 ≤ o.d && o.d ≤ 30#5
  | .fkget o => o.reads true true false true 1
  | .fkstate o => o.reads true true false false 1
  | .fkbreak o => o.reads true true false false 0xFF#12
  | .lease o => o.reads true true false false 3
  | .lrel o | .estat o => o.reads true true false false 0
  | .epush o | .epop o => o.reads true true false false 0x1FF#12
  | .launch o | .lwait o => o.reads true true false false 0
  | .ctlRd o => ctlOk o && o.a = 0
  | .ctlWr o => ctlWrOk o 0
  | .ctlWrStatus o => ctlWrOk o 1
  | .ctlWrTrbase o => ctlWrOk o 2
  | .ctlWrExpert o => ctlWrOk o 3
  | .ctlWrClkfix o => ctlWrOk o 4
  | .slotResume o => slotOk o 0 false false false
  | .slotKill o => slotOk o 1 false false false
  | .slotSkip o => slotOk o 2 false false false
  | .slotRds o => slotOk o 3 false true true
  | .slotWrs o => slotOk o 4 true false true
  | .slotRdv o => slotOk o 5 true true false
  | .slotWrv o => slotOk o 6 true true false
  | .slotRdm o => slotOk o 7 false true true && o.c < 16#5 && field o.x 4 5 < 16
  | .slotWrm o => slotOk o 8 false true true && o.c < 16#5 && field o.x 4 5 < 16
  | .slotTdown o => slotOk o 9 true false false
  | .tlbiMark o => o.reads true true true false 0xF#12 && scopeOk (bits o.x 0 4)
  | .tlbiConf o => o.reads true false false false 0
  | _ => true

end Sys2Proof
end

