-- ==== Sys2Proof/Decode.lean ====
section
/-! DEFINITION. Decoding and encoding (02_encoding.md): the tail forms of Table 2-5, the opcode map of Table 2-9, the code
line of R28 to R32, and the encoder written from the same tables. -/

namespace Sys2Proof

/-- Why a head and a tail name no instruction. -/
inductive DecodeError where
  /-- A reserved major (R43). -/
  | reservedMajor
  /-- Major 0x3F, which is permanently illegal (R43). -/
  | majorIllegal
  /-- A minor that Table 2-9 does not list (R43). -/
  | reservedMinor
  /-- A TL field that is not the form's tail length (R33). -/
  | tailLength
  /-- A reserved field that is not zero or an operand code that the instruction does not accept (R36 to R42). -/
  | illegalOperand
  deriving DecidableEq, Repr

/-- The fields of a tail (Table 2-5, R34). -/
def F1.ofTail (t : Tail) : F1 := ⟨bits t 11 5, bits t 6 5, bits t 0 6⟩
def F2.ofTail (t : Tail) : F2 := ⟨bits t 27 5, bits t 22 5, bits t 17 5, bits t 12 5, bits t 0 12⟩
def F3.ofTail (t : Tail) : F3 := ⟨bits t 43 5, bits t 38 5, bits t 32 6, bits t 0 32⟩
def V3.ofTail (t : Tail) : V3 :=
  ⟨bits t 40 8, bits t 32 8, bits t 24 8, bits t 16 8, bits t 12 4, bits t 8 4, bits t 6 2, bits t 0 6⟩
def B1.ofTail (t : Tail) : B1 := ⟨bits t 5 11, bits t 0 5⟩
def B2.ofTail (t : Tail) : B2 := ⟨bits t 27 5, bits t 22 5, bits t 5 17, bits t 0 5⟩
def D3.ofTail (t : Tail) : D3 := ⟨bits t 44 4, bits t 38 6, bits t 21 17, bits t 16 5, bits t 5 11, bits t 0 5⟩
def M3.ofTail (t : Tail) : M3 :=
  ⟨bits t 40 8, bits t 35 5, bits t 30 5, bits t 28 2, bits t 24 4, bits t 22 2, bits t 18 4, bits t 14 4, bits t 0 14⟩

/-- The tail of a form, zero above the form's own half-words. -/
def F1.toTail (o : F1) : Tail := 0#32 ++ o.d ++ o.a ++ o.x
def F2.toTail (o : F2) : Tail := 0#16 ++ o.d ++ o.a ++ o.b ++ o.c ++ o.x
def F3.toTail (o : F3) : Tail := o.d ++ o.a ++ o.x ++ o.imm
def V3.toTail (o : V3) : Tail := o.vd ++ o.va ++ o.vb ++ o.vc ++ o.mask ++ o.ty ++ o.rnd ++ o.x
def B1.toTail (o : B1) : Tail := 0#32 ++ o.delta ++ o.head
def B2.toTail (o : B2) : Tail := 0#16 ++ o.a ++ o.b ++ o.delta ++ o.head
def D3.toTail (o : D3) : Tail := o.mask ++ o.x ++ o.delta ++ o.head ++ o.jdelta ++ o.jhead
def M3.toTail (o : M3) : Tail :=
  o.data ++ o.base ++ o.idx ++ o.form ++ o.scope ++ o.order ++ o.ty ++ o.mode ++ o.off

/-- The minors of major 0x00: the tail length of the form, and the instruction of a tail (Table 2-9). -/
def minor00 (fn : BitVec 8) : Option (Nat × (Tail → Instr)) :=
  match fn.toNat with
  | 0 => some (0, fun _ => .nop)
  | 1 => some (0, fun _ => .yield)
  | 2 => some (0, fun _ => .endGroup)
  | 3 => some (0, fun _ => .done)
  | 4 => some (0, fun _ => .join)
  | 5 => some (0, fun _ => .ifence)
  | 6 => some (0, fun _ => .uret)
  | 7 => some (0, fun _ => .eret)
  | _ => none

/-- The minors of major 0x01: the tail length of the form, and the instruction of a tail (Table 2-9). -/
def minor01 (fn : BitVec 8) : Option (Nat × (Tail → Instr)) :=
  match fn.toNat with
  | 0 => some (1, fun t => .movc (F1.ofTail t))
  | 1 => some (1, fun t => .addc (F1.ofTail t))
  | _ => none

/-- The minors of major 0x02: the tail length of the form, and the instruction of a tail (Table 2-9). -/
def minor02 (fn : BitVec 8) : Option (Nat × (Tail → Instr)) :=
  match fn.toNat with
  | 0 => some (2, fun t => .add (F2.ofTail t))
  | 1 => some (2, fun t => .sub (F2.ofTail t))
  | 2 => some (2, fun t => .and (F2.ofTail t))
  | 3 => some (2, fun t => .or (F2.ofTail t))
  | 4 => some (2, fun t => .xor (F2.ofTail t))
  | 5 => some (2, fun t => .andn (F2.ofTail t))
  | 6 => some (2, fun t => .shl (F2.ofTail t))
  | 7 => some (2, fun t => .shr (F2.ofTail t))
  | 8 => some (2, fun t => .sar (F2.ofTail t))
  | 9 => some (2, fun t => .rol (F2.ofTail t))
  | 10 => some (2, fun t => .min (F2.ofTail t))
  | 11 => some (2, fun t => .max (F2.ofTail t))
  | 12 => some (2, fun t => .mul (F2.ofTail t))
  | 13 => some (2, fun t => .mulh (F2.ofTail t))
  | 14 => some (2, fun t => .div (F2.ofTail t))
  | 15 => some (2, fun t => .rem (F2.ofTail t))
  | 16 => some (2, fun t => .sel (F2.ofTail t))
  | 17 => some (2, fun t => .cmp (F2.ofTail t))
  | 18 => some (2, fun t => .clz (F2.ofTail t))
  | 19 => some (2, fun t => .ctz (F2.ofTail t))
  | 20 => some (2, fun t => .popc (F2.ofTail t))
  | 21 => some (2, fun t => .bext (F2.ofTail t))
  | 22 => some (2, fun t => .bins (F2.ofTail t))
  | _ => none

/-- The minors of major 0x03: the tail length of the form, and the instruction of a tail (Table 2-9). -/
def minor03 (fn : BitVec 8) : Option (Nat × (Tail → Instr)) :=
  match fn.toNat with
  | 0 => some (3, fun t => .li (F3.ofTail t))
  | 1 => some (3, fun t => .lih (F3.ofTail t))
  | 2 => some (3, fun t => .addi (F3.ofTail t))
  | 3 => some (3, fun t => .andi (F3.ofTail t))
  | 4 => some (3, fun t => .ori (F3.ofTail t))
  | 5 => some (3, fun t => .xori (F3.ofTail t))
  | 6 => some (3, fun t => .shli (F3.ofTail t))
  | 7 => some (3, fun t => .shri (F3.ofTail t))
  | 8 => some (3, fun t => .sari (F3.ofTail t))
  | 9 => some (3, fun t => .cmpi (F3.ofTail t))
  | 10 => some (3, fun t => .muli (F3.ofTail t))
  | _ => none

/-- The minors of major 0x04: the tail length of the form, and the instruction of a tail (Table 2-9). -/
def minor04 (fn : BitVec 8) : Option (Nat × (Tail → Instr)) :=
  match fn.toNat with
  | 0 => some (2, fun t => .sid (F2.ofTail t))
  | 1 => some (3, fun t => .addr (F3.ofTail t))
  | _ => none

/-- The minors of major 0x05: the tail length of the form, and the instruction of a tail (Table 2-9). -/
def minor05 (fn : BitVec 8) : Option (Nat × (Tail → Instr)) :=
  match fn.toNat with
  | 0 => some (2, fun t => .fadd (F2.ofTail t))
  | 1 => some (2, fun t => .fsub (F2.ofTail t))
  | 2 => some (2, fun t => .fmul (F2.ofTail t))
  | 3 => some (2, fun t => .fma (F2.ofTail t))
  | 4 => some (2, fun t => .fdiv (F2.ofTail t))
  | 5 => some (2, fun t => .fsqrt (F2.ofTail t))
  | 6 => some (2, fun t => .fmin (F2.ofTail t))
  | 7 => some (2, fun t => .fmax (F2.ofTail t))
  | 8 => some (2, fun t => .fcmp (F2.ofTail t))
  | 9 => some (2, fun t => .fcvt (F2.ofTail t))
  | 10 => some (2, fun t => .fclass (F2.ofTail t))
  | _ => none

/-- The minors of major 0x06: the tail length of the form, and the instruction of a tail (Table 2-9). -/
def minor06 (fn : BitVec 8) : Option (Nat × (Tail → Instr)) :=
  match fn.toNat with
  | 0 => some (1, fun t => .br (B1.ofTail t))
  | 1 => some (1, fun t => .call (B1.ofTail t))
  | _ => none

/-- The minors of major 0x07: the tail length of the form, and the instruction of a tail (Table 2-9). -/
def minor07 (fn : BitVec 8) : Option (Nat × (Tail → Instr)) :=
  if fn < 16#8 then some (2, fun t => .bc (bits fn 0 4) (B2.ofTail t))
  else if fn = 16#8 then some (2, fun t => .loop (B2.ofTail t)) else none

/-- The minors of major 0x08: the tail length of the form, and the instruction of a tail (Table 2-9). -/
def minor08 (fn : BitVec 8) : Option (Nat × (Tail → Instr)) :=
  match fn.toNat with
  | 0 => some (3, fun t => .brd (D3.ofTail t))
  | _ => none

/-- The minors of major 0x09: the tail length of the form, and the instruction of a tail (Table 2-9). -/
def minor09 (fn : BitVec 8) : Option (Nat × (Tail → Instr)) :=
  match fn.toNat with
  | 0 => some (2, fun t => .jr (F2.ofTail t))
  | 1 => some (2, fun t => .callr (F2.ofTail t))
  | 2 => some (2, fun t => .ret (F2.ofTail t))
  | _ => none

/-- The minors of major 0x0A: the tail length of the form, and the instruction of a tail (Table 2-9). -/
def minor0A (fn : BitVec 8) : Option (Nat × (Tail → Instr)) := some (1, fun t => .trap fn (F1.ofTail t))

/-- The minors of major 0x10: the tail length of the form, and the instruction of a tail (Table 2-9). -/
def minor10 (fn : BitVec 8) : Option (Nat × (Tail → Instr)) :=
  match fn.toNat with
  | 0 => some (3, fun t => .vadd (V3.ofTail t))
  | 1 => some (3, fun t => .vsub (V3.ofTail t))
  | 2 => some (3, fun t => .vmul (V3.ofTail t))
  | 3 => some (3, fun t => .vmulh (V3.ofTail t))
  | 4 => some (3, fun t => .vfma (V3.ofTail t))
  | 5 => some (3, fun t => .vmin (V3.ofTail t))
  | 6 => some (3, fun t => .vmax (V3.ofTail t))
  | 7 => some (3, fun t => .vabs (V3.ofTail t))
  | 8 => some (3, fun t => .vneg (V3.ofTail t))
  | 9 => some (3, fun t => .vdiv (V3.ofTail t))
  | 10 => some (3, fun t => .vsqrt (V3.ofTail t))
  | 11 => some (3, fun t => .vrcp (V3.ofTail t))
  | 12 => some (3, fun t => .vrsq (V3.ofTail t))
  | 13 => some (3, fun t => .vexp2 (V3.ofTail t))
  | 14 => some (3, fun t => .vlog2 (V3.ofTail t))
  | 15 => some (3, fun t => .vdot (V3.ofTail t))
  | _ => none

/-- The minors of major 0x11: the tail length of the form, and the instruction of a tail (Table 2-9). -/
def minor11 (fn : BitVec 8) : Option (Nat × (Tail → Instr)) :=
  match fn.toNat with
  | 0 => some (3, fun t => .vand (V3.ofTail t))
  | 1 => some (3, fun t => .vor (V3.ofTail t))
  | 2 => some (3, fun t => .vxor (V3.ofTail t))
  | 3 => some (3, fun t => .vnot (V3.ofTail t))
  | 4 => some (3, fun t => .vshl (V3.ofTail t))
  | 5 => some (3, fun t => .vshr (V3.ofTail t))
  | 6 => some (3, fun t => .vsar (V3.ofTail t))
  | 7 => some (3, fun t => .vcmp (V3.ofTail t))
  | 8 => some (3, fun t => .vsel (V3.ofTail t))
  | _ => none

/-- The minors of major 0x12: the tail length of the form, and the instruction of a tail (Table 2-9). -/
def minor12 (fn : BitVec 8) : Option (Nat × (Tail → Instr)) :=
  match fn.toNat with
  | 0 => some (3, fun t => .vcvt (V3.ofTail t))
  | 1 => some (3, fun t => .vpack (V3.ofTail t))
  | 2 => some (3, fun t => .vunpk (V3.ofTail t))
  | 3 => some (3, fun t => .vlut (V3.ofTail t))
  | 4 => some (3, fun t => .vbcast (V3.ofTail t))
  | 5 => some (3, fun t => .vlane (V3.ofTail t))
  | 6 => some (3, fun t => .vperm (V3.ofTail t))
  | 7 => some (3, fun t => .vshuf (V3.ofTail t))
  | 8 => some (3, fun t => .vcomp (V3.ofTail t))
  | 9 => some (3, fun t => .vexpd (V3.ofTail t))
  | 10 => some (3, fun t => .vext (V3.ofTail t))
  | 11 => some (3, fun t => .vins (V3.ofTail t))
  | _ => none

/-- The minors of major 0x13: the tail length of the form, and the instruction of a tail (Table 2-9). -/
def minor13 (fn : BitVec 8) : Option (Nat × (Tail → Instr)) :=
  match fn.toNat with
  | 0 => some (3, fun t => .vred (V3.ofTail t))
  | 1 => some (3, fun t => .vscan (V3.ofTail t))
  | _ => none

/-- The minors of major 0x14: the tail length of the form, and the instruction of a tail (Table 2-9). -/
def minor14 (fn : BitVec 8) : Option (Nat × (Tail → Instr)) :=
  match fn.toNat with
  | 0 => some (2, fun t => .mand (F2.ofTail t))
  | 1 => some (2, fun t => .mor (F2.ofTail t))
  | 2 => some (2, fun t => .mxor (F2.ofTail t))
  | 3 => some (1, fun t => .mnot (F1.ofTail t))
  | 4 => some (1, fun t => .mpop (F1.ofTail t))
  | 5 => some (1, fun t => .mfirst (F1.ofTail t))
  | 6 => some (1, fun t => .mset (F1.ofTail t))
  | 7 => some (2, fun t => .mtest (F2.ofTail t))
  | _ => none

/-- The minors of major 0x18: the tail length of the form, and the instruction of a tail (Table 2-9). -/
def minor18 (fn : BitVec 8) : Option (Nat × (Tail → Instr)) :=
  match fn.toNat with
  | 0 => some (3, fun t => .ld (M3.ofTail t))
  | 1 => some (3, fun t => .st (M3.ofTail t))
  | 2 => some (3, fun t => .ldf (M3.ofTail t))
  | 3 => some (3, fun t => .stf (M3.ofTail t))
  | 4 => some (3, fun t => .fe (M3.ofTail t))
  | 5 => some (3, fun t => .pref (M3.ofTail t))
  | _ => none

/-- The minors of major 0x19: the tail length of the form, and the instruction of a tail (Table 2-9). -/
def minor19 (fn : BitVec 8) : Option (Nat × (Tail → Instr)) :=
  match fn.toNat with
  | 0 => some (3, fun t => .vld (M3.ofTail t))
  | 1 => some (3, fun t => .vst (M3.ofTail t))
  | 2 => some (3, fun t => .vgat (M3.ofTail t))
  | 3 => some (3, fun t => .vsct (M3.ofTail t))
  | _ => none

/-- The minors of major 0x1A: the tail length of the form, and the instruction of a tail (Table 2-9). -/
def minor1A (fn : BitVec 8) : Option (Nat × (Tail → Instr)) :=
  match fn.toNat with
  | 0 => some (3, fun t => .amo (M3.ofTail t))
  | 1 => some (3, fun t => .famo (M3.ofTail t))
  | 2 => some (3, fun t => .cas (M3.ofTail t))
  | 3 => some (3, fun t => .dec (M3.ofTail t))
  | 4 => some (3, fun t => .vamo (M3.ofTail t))
  | _ => none

/-- The minors of major 0x1B: the tail length of the form, and the instruction of a tail (Table 2-9). -/
def minor1B (fn : BitVec 8) : Option (Nat × (Tail → Instr)) :=
  some (1, fun t => .fence (bits fn 4 4) (bits fn 0 4) (F1.ofTail t))

/-- The minors of major 0x1C: the tail length of the form, and the instruction of a tail (Table 2-9). -/
def minor1C (fn : BitVec 8) : Option (Nat × (Tail → Instr)) :=
  match fn.toNat with
  | 0 => some (1, fun t => .barInit (F1.ofTail t))
  | 1 => some (1, fun t => .barArr (F1.ofTail t))
  | 2 => some (1, fun t => .barWait (F1.ofTail t))
  | 3 => some (1, fun t => .barSync (F1.ofTail t))
  | 4 => some (1, fun t => .barInv (F1.ofTail t))
  | 5 => some (1, fun t => .cbar (F1.ofTail t))
  | _ => none

/-- The minors of major 0x1D: the tail length of the form, and the instruction of a tail (Table 2-9). -/
def minor1D (fn : BitVec 8) : Option (Nat × (Tail → Instr)) :=
  match fn.toNat with
  | 0 => some (1, fun t => .qpush (F1.ofTail t))
  | 1 => some (1, fun t => .qpop (F1.ofTail t))
  | 2 => some (1, fun t => .qstop (F1.ofTail t))
  | 3 => some (1, fun t => .qstat (F1.ofTail t))
  | 4 => some (1, fun t => .qinit (F1.ofTail t))
  | _ => none

/-- The minors of major 0x20: the tail length of the form, and the instruction of a tail (Table 2-9). -/
def minor20 (fn : BitVec 8) : Option (Nat × (Tail → Instr)) :=
  match fn.toNat with
  | 0 => some (3, fun t => .midx (F3.ofTail t))
  | 1 => some (3, fun t => .mopen (F3.ofTail t))
  | 2 => some (3, fun t => .mstep (F3.ofTail t))
  | 3 => some (3, fun t => .mclose (F3.ofTail t))
  | 4 => some (3, fun t => .mst (F3.ofTail t))
  | 5 => some (3, fun t => .mld (F3.ofTail t))
  | 6 => some (3, fun t => .mzero (F3.ofTail t))
  | 7 => some (3, fun t => .mtab (F3.ofTail t))
  | 8 => some (3, fun t => .mwait (F3.ofTail t))
  | 9 => some (3, fun t => .msave (F3.ofTail t))
  | 10 => some (3, fun t => .mrest (F3.ofTail t))
  | _ => none

/-- The minors of major 0x21: the tail length of the form, and the instruction of a tail (Table 2-9). -/
def minor21 (fn : BitVec 8) : Option (Nat × (Tail → Instr)) :=
  match fn.toNat with
  | 0 => some (2, fun t => .cpy (F2.ofTail t))
  | 1 => some (2, fun t => .cpst (F2.ofTail t))
  | 2 => some (2, fun t => .cpwait (F2.ofTail t))
  | 3 => some (2, fun t => .mcjoin (F2.ofTail t))
  | 4 => some (2, fun t => .mcleave (F2.ofTail t))
  | _ => none

/-- The minors of major 0x22: the tail length of the form, and the instruction of a tail (Table 2-9). -/
def minor22 (fn : BitVec 8) : Option (Nat × (Tail → Instr)) :=
  match fn.toNat with
  | 0 => some (1, fun t => .pub (F1.ofTail t))
  | 1 => some (1, fun t => .unpub (F1.ofTail t))
  | 2 => some (2, fun t => .subChannel (F2.ofTail t))
  | 3 => some (1, fun t => .unsub (F1.ofTail t))
  | 4 => some (2, fun t => .resub (F2.ofTail t))
  | 5 => some (1, fun t => .rdv (F1.ofTail t))
  | _ => none

/-- The minors of major 0x23: the tail length of the form, and the instruction of a tail (Table 2-9). -/
def minor23 (fn : BitVec 8) : Option (Nat × (Tail → Instr)) :=
  match fn.toNat with
  | 0 => some (2, fun t => .send (F2.ofTail t))
  | 1 => some (2, fun t => .sendjc (F2.ofTail t))
  | 2 => some (2, fun t => .invoke (F2.ofTail t))
  | 3 => some (2, fun t => .invf (F2.ofTail t))
  | _ => none

/-- The minors of major 0x24: the tail length of the form, and the instruction of a tail (Table 2-9). -/
def minor24 (fn : BitVec 8) : Option (Nat × (Tail → Instr)) :=
  match fn.toNat with
  | 0 => some (2, fun t => .resolve (F2.ofTail t))
  | 1 => some (2, fun t => .fkplace (F2.ofTail t))
  | 2 => some (2, fun t => .fkget (F2.ofTail t))
  | 3 => some (2, fun t => .fkstate (F2.ofTail t))
  | 4 => some (2, fun t => .fkbreak (F2.ofTail t))
  | _ => none

/-- The minors of major 0x25: the tail length of the form, and the instruction of a tail (Table 2-9). -/
def minor25 (fn : BitVec 8) : Option (Nat × (Tail → Instr)) :=
  match fn.toNat with
  | 0 => some (2, fun t => .lease (F2.ofTail t))
  | 1 => some (2, fun t => .lrel (F2.ofTail t))
  | 2 => some (2, fun t => .epush (F2.ofTail t))
  | 3 => some (2, fun t => .epop (F2.ofTail t))
  | 4 => some (2, fun t => .estat (F2.ofTail t))
  | _ => none

/-- The minors of major 0x26: the tail length of the form, and the instruction of a tail (Table 2-9). -/
def minor26 (fn : BitVec 8) : Option (Nat × (Tail → Instr)) :=
  match fn.toNat with
  | 0 => some (2, fun t => .launch (F2.ofTail t))
  | 1 => some (2, fun t => .lwait (F2.ofTail t))
  | _ => none

/-- The `ctl.wr` of a tail: the table gives some registers a row of their own (R190). -/
def ctlWrOf (t : Tail) : Instr :=
  match ctlWrOwn (field t 0 10) with
  | 0 => .ctlWr (F2.ofTail t)
  | 1 => .ctlWrStatus (F2.ofTail t)
  | 2 => .ctlWrTrbase (F2.ofTail t)
  | 3 => .ctlWrExpert (F2.ofTail t)
  | _ => .ctlWrClkfix (F2.ofTail t)

/-- The `slot` of a tail, by its operation (R191). -/
def slotOf (t : Tail) : Instr :=
  match field t 0 4 with
  | 0 => .slotResume (F2.ofTail t)
  | 1 => .slotKill (F2.ofTail t)
  | 2 => .slotSkip (F2.ofTail t)
  | 3 => .slotRds (F2.ofTail t)
  | 4 => .slotWrs (F2.ofTail t)
  | 5 => .slotRdv (F2.ofTail t)
  | 6 => .slotWrv (F2.ofTail t)
  | 7 => .slotRdm (F2.ofTail t)
  | 8 => .slotWrm (F2.ofTail t)
  | _ => .slotTdown (F2.ofTail t)

/-- The minors of major 0x28: the tail length of the form, and the instruction of a tail (Table 2-9). -/
def minor28 (fn : BitVec 8) : Option (Nat × (Tail → Instr)) :=
  match fn.toNat with
  | 0 => some (2, fun t => .ctlRd (F2.ofTail t))
  | 1 => some (2, ctlWrOf)
  | 2 => some (2, fun t => .tlbiMark (F2.ofTail t))
  | 3 => some (2, fun t => .tlbiConf (F2.ofTail t))
  | 4 => some (2, slotOf)
  | _ => none

/-- The opcode map (Table 2-9). -/
def opcode (op : BitVec 6) (fn : BitVec 8) : Except DecodeError (Nat × (Tail → Instr)) :=
  let minor (r : Option (Nat × (Tail → Instr))) : Except DecodeError (Nat × (Tail → Instr)) :=
    match r with
    | some x => .ok x
    | none => .error .reservedMinor
  match op.toNat with
  | 0x00 => minor (minor00 fn)
  | 0x01 => minor (minor01 fn)
  | 0x02 => minor (minor02 fn)
  | 0x03 => minor (minor03 fn)
  | 0x04 => minor (minor04 fn)
  | 0x05 => minor (minor05 fn)
  | 0x06 => minor (minor06 fn)
  | 0x07 => minor (minor07 fn)
  | 0x08 => minor (minor08 fn)
  | 0x09 => minor (minor09 fn)
  | 0x0A => minor (minor0A fn)
  | 0x10 => minor (minor10 fn)
  | 0x11 => minor (minor11 fn)
  | 0x12 => minor (minor12 fn)
  | 0x13 => minor (minor13 fn)
  | 0x14 => minor (minor14 fn)
  | 0x18 => minor (minor18 fn)
  | 0x19 => minor (minor19 fn)
  | 0x1A => minor (minor1A fn)
  | 0x1B => minor (minor1B fn)
  | 0x1C => minor (minor1C fn)
  | 0x1D => minor (minor1D fn)
  | 0x20 => minor (minor20 fn)
  | 0x21 => minor (minor21 fn)
  | 0x22 => minor (minor22 fn)
  | 0x23 => minor (minor23 fn)
  | 0x24 => minor (minor24 fn)
  | 0x25 => minor (minor25 fn)
  | 0x26 => minor (minor26 fn)
  | 0x28 => minor (minor28 fn)
  | 0x3F => .error .majorIllegal
  | _ => .error .reservedMajor

/-- The instruction that a head and a tail name, its operand codes not yet checked. -/
def decodeRaw (h : Half) (t : Tail) : Except DecodeError Instr :=
  match opcode (bits h 10 6) (bits h 0 8) with
  | .error e => .error e
  | .ok (n, mk) => if field h 8 2 = n then .ok (mk t) else .error .tailLength

/-- The legal instruction that a head and a tail name (Table 2-10, row 5). -/
def decode (h : Half) (t : Tail) : Except DecodeError Instr :=
  match decodeRaw h t with
  | .error e => .error e
  | .ok i => if wellFormed i then .ok i else .error .illegalOperand

/-- The head half-word of major `op`, tail length `tl` and minor `fn` (Table 2-4). -/
def headOf (op tl fn : Nat) : Half := BitVec.ofNat 16 (op * 1024 + tl * 256 + fn)

/-- The head and the tail of an instruction; none for the device's own steps, which no code line holds. -/
def encode : Instr → Option (Half × Tail)
  | .nop => some (headOf 0 0 0, 0)
  | .yield => some (headOf 0 0 1, 0)
  | .endGroup => some (headOf 0 0 2, 0)
  | .done => some (headOf 0 0 3, 0)
  | .join => some (headOf 0 0 4, 0)
  | .ifence => some (headOf 0 0 5, 0)
  | .uret => some (headOf 0 0 6, 0)
  | .eret => some (headOf 0 0 7, 0)
  | .movc o => some (headOf 0x01 1 0, o.toTail)
  | .addc o => some (headOf 0x01 1 1, o.toTail)
  | .add o => some (headOf 0x02 2 0, o.toTail)
  | .sub o => some (headOf 0x02 2 1, o.toTail)
  | .and o => some (headOf 0x02 2 2, o.toTail)
  | .or o => some (headOf 0x02 2 3, o.toTail)
  | .xor o => some (headOf 0x02 2 4, o.toTail)
  | .andn o => some (headOf 0x02 2 5, o.toTail)
  | .shl o => some (headOf 0x02 2 6, o.toTail)
  | .shr o => some (headOf 0x02 2 7, o.toTail)
  | .sar o => some (headOf 0x02 2 8, o.toTail)
  | .rol o => some (headOf 0x02 2 9, o.toTail)
  | .min o => some (headOf 0x02 2 10, o.toTail)
  | .max o => some (headOf 0x02 2 11, o.toTail)
  | .mul o => some (headOf 0x02 2 12, o.toTail)
  | .mulh o => some (headOf 0x02 2 13, o.toTail)
  | .div o => some (headOf 0x02 2 14, o.toTail)
  | .rem o => some (headOf 0x02 2 15, o.toTail)
  | .sel o => some (headOf 0x02 2 16, o.toTail)
  | .cmp o => some (headOf 0x02 2 17, o.toTail)
  | .clz o => some (headOf 0x02 2 18, o.toTail)
  | .ctz o => some (headOf 0x02 2 19, o.toTail)
  | .popc o => some (headOf 0x02 2 20, o.toTail)
  | .bext o => some (headOf 0x02 2 21, o.toTail)
  | .bins o => some (headOf 0x02 2 22, o.toTail)
  | .li o => some (headOf 0x03 3 0, o.toTail)
  | .lih o => some (headOf 0x03 3 1, o.toTail)
  | .addi o => some (headOf 0x03 3 2, o.toTail)
  | .andi o => some (headOf 0x03 3 3, o.toTail)
  | .ori o => some (headOf 0x03 3 4, o.toTail)
  | .xori o => some (headOf 0x03 3 5, o.toTail)
  | .shli o => some (headOf 0x03 3 6, o.toTail)
  | .shri o => some (headOf 0x03 3 7, o.toTail)
  | .sari o => some (headOf 0x03 3 8, o.toTail)
  | .cmpi o => some (headOf 0x03 3 9, o.toTail)
  | .muli o => some (headOf 0x03 3 10, o.toTail)
  | .sid o => some (headOf 0x04 2 0, o.toTail)
  | .addr o => some (headOf 0x04 3 1, o.toTail)
  | .fadd o => some (headOf 0x05 2 0, o.toTail)
  | .fsub o => some (headOf 0x05 2 1, o.toTail)
  | .fmul o => some (headOf 0x05 2 2, o.toTail)
  | .fma o => some (headOf 0x05 2 3, o.toTail)
  | .fdiv o => some (headOf 0x05 2 4, o.toTail)
  | .fsqrt o => some (headOf 0x05 2 5, o.toTail)
  | .fmin o => some (headOf 0x05 2 6, o.toTail)
  | .fmax o => some (headOf 0x05 2 7, o.toTail)
  | .fcmp o => some (headOf 0x05 2 8, o.toTail)
  | .fcvt o => some (headOf 0x05 2 9, o.toTail)
  | .fclass o => some (headOf 0x05 2 10, o.toTail)
  | .br o => some (headOf 0x06 1 0, o.toTail)
  | .call o => some (headOf 0x06 1 1, o.toTail)
  | .bc cond o => some (headOf 7 2 cond.toNat, o.toTail)
  | .loop o => some (headOf 0x07 2 16, o.toTail)
  | .jr o => some (headOf 0x09 2 0, o.toTail)
  | .callr o => some (headOf 0x09 2 1, o.toTail)
  | .ret o => some (headOf 0x09 2 2, o.toTail)
  | .brd o => some (headOf 0x08 3 0, o.toTail)
  | .trap code o => some (headOf 10 1 code.toNat, o.toTail)
  | .vadd o => some (headOf 0x10 3 0, o.toTail)
  | .vsub o => some (headOf 0x10 3 1, o.toTail)
  | .vmul o => some (headOf 0x10 3 2, o.toTail)
  | .vmulh o => some (headOf 0x10 3 3, o.toTail)
  | .vfma o => some (headOf 0x10 3 4, o.toTail)
  | .vmin o => some (headOf 0x10 3 5, o.toTail)
  | .vmax o => some (headOf 0x10 3 6, o.toTail)
  | .vabs o => some (headOf 0x10 3 7, o.toTail)
  | .vneg o => some (headOf 0x10 3 8, o.toTail)
  | .vdiv o => some (headOf 0x10 3 9, o.toTail)
  | .vsqrt o => some (headOf 0x10 3 10, o.toTail)
  | .vrcp o => some (headOf 0x10 3 11, o.toTail)
  | .vrsq o => some (headOf 0x10 3 12, o.toTail)
  | .vexp2 o => some (headOf 0x10 3 13, o.toTail)
  | .vlog2 o => some (headOf 0x10 3 14, o.toTail)
  | .vdot o => some (headOf 0x10 3 15, o.toTail)
  | .vand o => some (headOf 0x11 3 0, o.toTail)
  | .vor o => some (headOf 0x11 3 1, o.toTail)
  | .vxor o => some (headOf 0x11 3 2, o.toTail)
  | .vnot o => some (headOf 0x11 3 3, o.toTail)
  | .vshl o => some (headOf 0x11 3 4, o.toTail)
  | .vshr o => some (headOf 0x11 3 5, o.toTail)
  | .vsar o => some (headOf 0x11 3 6, o.toTail)
  | .vcmp o => some (headOf 0x11 3 7, o.toTail)
  | .vsel o => some (headOf 0x11 3 8, o.toTail)
  | .vcvt o => some (headOf 0x12 3 0, o.toTail)
  | .vpack o => some (headOf 0x12 3 1, o.toTail)
  | .vunpk o => some (headOf 0x12 3 2, o.toTail)
  | .vlut o => some (headOf 0x12 3 3, o.toTail)
  | .vbcast o => some (headOf 0x12 3 4, o.toTail)
  | .vlane o => some (headOf 0x12 3 5, o.toTail)
  | .vperm o => some (headOf 0x12 3 6, o.toTail)
  | .vshuf o => some (headOf 0x12 3 7, o.toTail)
  | .vcomp o => some (headOf 0x12 3 8, o.toTail)
  | .vexpd o => some (headOf 0x12 3 9, o.toTail)
  | .vext o => some (headOf 0x12 3 10, o.toTail)
  | .vins o => some (headOf 0x12 3 11, o.toTail)
  | .vred o => some (headOf 0x13 3 0, o.toTail)
  | .vscan o => some (headOf 0x13 3 1, o.toTail)
  | .mand o => some (headOf 0x14 2 0, o.toTail)
  | .mor o => some (headOf 0x14 2 1, o.toTail)
  | .mxor o => some (headOf 0x14 2 2, o.toTail)
  | .mnot o => some (headOf 0x14 1 3, o.toTail)
  | .mpop o => some (headOf 0x14 1 4, o.toTail)
  | .mfirst o => some (headOf 0x14 1 5, o.toTail)
  | .mset o => some (headOf 0x14 1 6, o.toTail)
  | .mtest o => some (headOf 0x14 2 7, o.toTail)
  | .ld o => some (headOf 0x18 3 0, o.toTail)
  | .st o => some (headOf 0x18 3 1, o.toTail)
  | .ldf o => some (headOf 0x18 3 2, o.toTail)
  | .stf o => some (headOf 0x18 3 3, o.toTail)
  | .fe o => some (headOf 0x18 3 4, o.toTail)
  | .pref o => some (headOf 0x18 3 5, o.toTail)
  | .vld o => some (headOf 0x19 3 0, o.toTail)
  | .vst o => some (headOf 0x19 3 1, o.toTail)
  | .vgat o => some (headOf 0x19 3 2, o.toTail)
  | .vsct o => some (headOf 0x19 3 3, o.toTail)
  | .amo o => some (headOf 0x1A 3 0, o.toTail)
  | .famo o => some (headOf 0x1A 3 1, o.toTail)
  | .cas o => some (headOf 0x1A 3 2, o.toTail)
  | .vamo o => some (headOf 0x1A 3 4, o.toTail)
  | .dec o => some (headOf 0x1A 3 3, o.toTail)
  | .fence kind scope o => some (headOf 0x1B 1 (kind.toNat * 16 + scope.toNat), o.toTail)
  | .barInit o => some (headOf 0x1C 1 0, o.toTail)
  | .barArr o => some (headOf 0x1C 1 1, o.toTail)
  | .barWait o => some (headOf 0x1C 1 2, o.toTail)
  | .barSync o => some (headOf 0x1C 1 3, o.toTail)
  | .barInv o => some (headOf 0x1C 1 4, o.toTail)
  | .cbar o => some (headOf 0x1C 1 5, o.toTail)
  | .qpush o => some (headOf 0x1D 1 0, o.toTail)
  | .qpop o => some (headOf 0x1D 1 1, o.toTail)
  | .qstop o => some (headOf 0x1D 1 2, o.toTail)
  | .qstat o => some (headOf 0x1D 1 3, o.toTail)
  | .qinit o => some (headOf 0x1D 1 4, o.toTail)
  | .midx o => some (headOf 0x20 3 0, o.toTail)
  | .mopen o => some (headOf 0x20 3 1, o.toTail)
  | .mstep o => some (headOf 0x20 3 2, o.toTail)
  | .mclose o => some (headOf 0x20 3 3, o.toTail)
  | .mst o => some (headOf 0x20 3 4, o.toTail)
  | .mld o => some (headOf 0x20 3 5, o.toTail)
  | .mzero o => some (headOf 0x20 3 6, o.toTail)
  | .mtab o => some (headOf 0x20 3 7, o.toTail)
  | .mwait o => some (headOf 0x20 3 8, o.toTail)
  | .msave o => some (headOf 0x20 3 9, o.toTail)
  | .mrest o => some (headOf 0x20 3 10, o.toTail)
  | .cpy o => some (headOf 0x21 2 0, o.toTail)
  | .cpst o => some (headOf 0x21 2 1, o.toTail)
  | .cpwait o => some (headOf 0x21 2 2, o.toTail)
  | .mcjoin o => some (headOf 0x21 2 3, o.toTail)
  | .mcleave o => some (headOf 0x21 2 4, o.toTail)
  | .pub o => some (headOf 0x22 1 0, o.toTail)
  | .unpub o => some (headOf 0x22 1 1, o.toTail)
  | .subChannel o => some (headOf 0x22 2 2, o.toTail)
  | .unsub o => some (headOf 0x22 1 3, o.toTail)
  | .resub o => some (headOf 0x22 2 4, o.toTail)
  | .rdv o => some (headOf 0x22 1 5, o.toTail)
  | .send o => some (headOf 0x23 2 0, o.toTail)
  | .sendjc o => some (headOf 0x23 2 1, o.toTail)
  | .invoke o => some (headOf 0x23 2 2, o.toTail)
  | .invf o => some (headOf 0x23 2 3, o.toTail)
  | .resolve o => some (headOf 0x24 2 0, o.toTail)
  | .fkplace o => some (headOf 0x24 2 1, o.toTail)
  | .fkget o => some (headOf 0x24 2 2, o.toTail)
  | .fkstate o => some (headOf 0x24 2 3, o.toTail)
  | .fkbreak o => some (headOf 0x24 2 4, o.toTail)
  | .lease o => some (headOf 0x25 2 0, o.toTail)
  | .lrel o => some (headOf 0x25 2 1, o.toTail)
  | .estat o => some (headOf 0x25 2 4, o.toTail)
  | .epush o => some (headOf 0x25 2 2, o.toTail)
  | .epop o => some (headOf 0x25 2 3, o.toTail)
  | .launch o => some (headOf 0x26 2 0, o.toTail)
  | .lwait o => some (headOf 0x26 2 1, o.toTail)
  | .ctlRd o => some (headOf 0x28 2 0, o.toTail)
  | .ctlWr o => some (headOf 0x28 2 1, o.toTail)
  | .ctlWrStatus o => some (headOf 0x28 2 1, o.toTail)
  | .ctlWrTrbase o => some (headOf 0x28 2 1, o.toTail)
  | .ctlWrExpert o => some (headOf 0x28 2 1, o.toTail)
  | .ctlWrClkfix o => some (headOf 0x28 2 1, o.toTail)
  | .slotResume o => some (headOf 0x28 2 4, o.toTail)
  | .slotKill o => some (headOf 0x28 2 4, o.toTail)
  | .slotSkip o => some (headOf 0x28 2 4, o.toTail)
  | .slotRds o => some (headOf 0x28 2 4, o.toTail)
  | .slotWrs o => some (headOf 0x28 2 4, o.toTail)
  | .slotRdv o => some (headOf 0x28 2 4, o.toTail)
  | .slotWrv o => some (headOf 0x28 2 4, o.toTail)
  | .slotRdm o => some (headOf 0x28 2 4, o.toTail)
  | .slotWrm o => some (headOf 0x28 2 4, o.toTail)
  | .slotTdown o => some (headOf 0x28 2 4, o.toTail)
  | .tlbiMark o => some (headOf 0x28 2 2, o.toTail)
  | .tlbiConf o => some (headOf 0x28 2 3, o.toTail)
  | _ => none

/-- Half-word `k` of a code line of 64 bytes (R28). -/
def lineHw (line : BitVec 512) (k : Nat) : Half := bits line (16 * k) 16

/-- S_n of R30: the tail half-words of heads 1 to n. -/
def tailSum (line : BitVec 512) : Nat → Nat
  | 0 => 0
  | n + 1 => tailSum line n + field (lineHw line (n + 1)) 8 2

/-- The tail of head i: `tl` half-words from HW(32 - S_i) (R30, R31). -/
def lineTail (line : BitVec 512) (i : Nat) : Tail :=
  let tl := field (lineHw line i) 8 2
  let base := 32 - tailSum line i
  BitVec.ofNat 48 ((List.range tl).foldl (fun acc j => acc + (lineHw line (base + j)).toNat * 65536 ^ j) 0)

/-- The first reason for ILLEGAL_LINE that applies to head i of a line, 0 for none (R31, Table 2-2, reasons 1 to 5). -/
def lineReason (line : BitVec 512) (i : Nat) : Nat :=
  let h := lineHw line 0
  let hn := field h 11 5
  let tn := field h 0 9
  if hn = 0 then 1
  else if field h 9 2 ≠ 0 then 2
  else if 32 < 1 + hn + tn then 3
  else if tailSum line hn ≠ tn then 4
  else if hn < i then 5
  else 0

/-- The successor of the instruction at `pc` in a line (R31). -/
def lineNext (line : BitVec 512) (pc : Word) : Word :=
  let i := field pc 1 5
  if i < field (lineHw line 0) 11 5 then pc + 2 else (pc - (bits pc 0 6).zeroExtend 64) + 66

/-- The code line that holds one instruction, as `zilas` writes it: header, head, filler, tail (R28 to R30, R52). -/
def lineOf (h : Half) (t : Tail) : BitVec 512 :=
  let tl := field h 8 2
  let hw (k : Nat) : Nat :=
    if k = 0 then 2048 + tl
    else if k = 1 then h.toNat
    else if k < 32 - tl then 65535
    else field t (16 * (k - (32 - tl))) 16
  BitVec.ofNat 512 ((List.range 32).foldl (fun acc k => acc + hw k * 65536 ^ k) 0)

/-- The head of a table word: the table writes the head above the tail, the tail in its low bits. -/
def tableHead (nbits w : Nat) : Half := BitVec.ofNat 16 (if nbits ≤ 16 then w else w / 2 ^ (nbits - 16))
/-- The tail of a table word; half-words that the table gives no bits are zero. -/
def tableTail (nbits w : Nat) : Tail := BitVec.ofNat 48 (if nbits ≤ 16 then 0 else w % 2 ^ (nbits - 16))

/-- The instruction that the decoder reads from a row's word: the word is laid out as a code line of one head, and the
line's head and tail are decoded [log 1, DESIGN CHOICE]. -/
def decodeTableWord (nbits w : Nat) : Option Instr :=
  let line := lineOf (tableHead nbits w) (tableTail nbits w)
  match decodeRaw (lineHw line 1) (lineTail line 1) with
  | .ok i => some i
  | .error _ => none

end Sys2Proof
end

