-- ==== Sys2Proof/Config.lean ====
section
/-! DEFINITION. What an implementation fixes and the manual leaves open: free values, the boot firmware's values. -/

namespace Sys2Proof.Config

/-- [log 12, DESIGN CHOICE] The verdict of the secure ROM on an image (R371): the key and the images are outside the manual. -/
opaque imageVerdict : Nat → BitVec 256 → Bool

/-- [log 12, DESIGN CHOICE] An RSA-3072 signature by the device identity key over a digest input (R374). -/
opaque signature : List Word → Nat → BitVec 3072

/-- [log 9, DESIGN CHOICE] The answer of a firkin operation once software has written the FRT (R314 calls it unpredictable). -/
opaque freeWord : Nat → BitVec 64

/-- [log 44, DESIGN CHOICE] A byte of a save pool after its `n`-th use, at a place (R301): neither the format nor the place of a save area is
architectural. -/
opaque poolByte : Nat → Nat → BitVec 8

/-- [log 50, DESIGN CHOICE] The port by which a flit for a package is injected (R361): the routing of the torus is not stated. -/
opaque route : Nat → Nat → Nat

/-- [log 66, DESIGN CHOICE] What the partition map of another package grants (R317, R366): in a clk, of a package, at a core of it, to a
partition. -/
opaque otherMap : Nat → Nat → Nat → Nat → Bool

/-- [log 50, DESIGN CHOICE] The CRC of a flit over its header and its payload (R360): the polynomial is not stated. -/
opaque flitCrc : BitVec 96 → Nat → BitVec 32

end Sys2Proof.Config
end

