-- ==== Sys2Proof/Machine/State.lean ====
section
/-! DEFINITION. The state of the package as plain data: the cores with their slots and paths, the teams, clusters and
grids, the dies, bays, partitions, Vault stacks and ports, the memory, and what the device has to do next. Where a field
is the model's own and not the manual's, its docstring says so. -/

namespace Sys2Proof.Machine

/-- The reasons for which the machine stops. -/
inductive Fault where
  /-- Boot step 1 failed: the package stops and no link trains (Table 15-3). Raised by `secureRomVerify`; safe, since
  the manual gives the package no further behaviour. -/
  | packageStopped
  deriving DecidableEq, Repr

/-- The reasons for which an instruction has no meaning here. -/
inductive Refusal where
  /-- An instruction that the model gives no meaning; safe, since the machine stops. -/
  | notModelled (mnemonic : String)
  deriving DecidableEq, Repr

/-- What a path waits for inside its instruction. A path whose wait is over executes its instruction again (R257, R350),
but for the waits that an event of the device completes. -/
inductive Wait where
  /-- The path does not wait. -/
  | none
  /-- `qpush` or `qpop` on a queue register, with the order in which the path began to wait (R257). -/
  | queue (push : Bool) (q : Nat) (since : Nat)
  /-- A generation of a named barrier (R350). -/
  | barrier (b : Nat) (gen : BitVec 32)
  /-- A generation of the cluster barrier (R353). -/
  | cluster (gen : BitVec 32)
  /-- The performance of the group's earlier accesses (R228, R233, R105, R188); `reads` where only reads are awaited. -/
  | performed (reads : Bool)
  /-- The accesses and the copy requests of the group, inside `end` (R103). -/
  | ending
  /-- The performance of the task's earlier accesses, inside `done` (R105). -/
  | finish
  /-- An earlier access of the group to the same line off the package (R225): the package of its home, and the line there. -/
  | line (pkg ln : Nat)
  /-- A translation that is DRAINING (R341). -/
  | draining (va : Nat)
  /-- The page of a region that is being moved (R251). -/
  | moving (va : Nat)
  /-- The fetch of the next line, whose translation stalls (R341, R251). -/
  | fetch (va : Nat)
  /-- The fetch of the next line, which needs a free request tag (R363). -/
  | fetchTag
  /-- The next line, which another package has been asked for under the request `key`; ended by an event. -/
  | code (key : Nat)
  /-- The register banks of a group or task that has not started (R109). -/
  | start (l : List Nat)
  /-- The clearing of the team's window (R304); ended by an event. -/
  | window
  /-- A free entry of the copy command FIFO (R285). -/
  | copyRoom
  /-- A transfer (R287). -/
  | transfer (ch : Nat) (seq : BitVec 32)
  /-- Every transfer of the group (R287). -/
  | transfers
  /-- A request of a multicast tag that is in progress (R283). -/
  | multicast (tag : Nat)
  /-- A free entry of the matrix command queue, for an instruction that has awaited the group's accesses (R148, R161); such a path
  does not count as WAITING. -/
  | matrixRoom
  /-- The completion of the matrix command `seq` (R148); ended by an event. -/
  | matrix (seq : Nat)
  /-- The completion of every matrix command of the group (R171). -/
  | matrices
  /-- The completion of the queued `mld` and `mrest` commands on a tile, on whose outcome a check rests (R165). -/
  | tile (t : Nat)
  /-- Room in a lease's command FIFO (R294). -/
  | command (handle : Word)
  /-- A result of a lease (R294). -/
  | result (handle : Word)
  /-- The writes translated before a mark (R342). -/
  | confirm
  /-- Room in a network port or in the target that an off-package source needs: a free request tag (R363). -/
  | tag
  /-- A shelf (R208); ended by an event. -/
  | shelved
  /-- The service of the larder banks that an instruction reads (R196). -/
  | until (clk : Nat)
  /-- A reply inside the instruction (R363); ended by an event, after which the instruction executes again. -/
  | reply
  /-- The replies of a load that has issued (R206); ended by an event. -/
  | load
  /-- The answer of a firkin's home (R317); ended by an event. -/
  | firkin
  /-- The grant of a lease (R332); ended by an event. -/
  | lease
  /-- A completion counter (R354); ended by an event. -/
  | counter
  /-- A rendezvous point of a channel: the channel, the id, the first clk at which a point counts (R265); ended by an event. -/
  | rendezvous (chan id from_ : Nat)
  deriving DecidableEq, Repr

/-- A mask stack entry (R118). -/
structure DivEntry where
  joinPC : Word
  outer : Mask
  pending : Mask
  pendPC : Word
  phase : Bool
  deriving DecidableEq, Repr

/-- A vector access whose replies its path awaits: the register is written when the last lane has arrived (R214). An access
without a register, a store of which a lane has failed, has none in `dest`. `bad` is the lowest failing lane so far: its
cause, lane, address, and whether it writes. -/
structure VLoad where
  dest : Option Nat
  ty : BitVec 4
  lanes : Table Word
  left : Nat
  bad : Option (BitVec 8 × Nat × Word × Bool)
  deriving DecidableEq, Repr

/-- A code line as a path has fetched it (R45, R46): its address and its half-words. `old` says that an `ifence` has met the
path inside an instruction of it: the line is discarded with that instruction. -/
structure CodeLine where
  base : Word
  halves : List Half
  old : Bool := false
  deriving DecidableEq, Repr

/-- The trap of a request that a path has not awaited (R363): code, FADDR, FINFO; the number of the request's instruction and
its lane, of which the lowest names the trap (R214). -/
structure Late where
  code : BitVec 8
  faddr : Word
  finfo : Word
  ins : Nat
  lane : Nat
  deriving DecidableEq, Repr

/-- The registers of a group: scalar, vector, mask. -/
structure Regs where
  s : Table Word
  v : Table VReg
  m : Table Mask
  deriving DecidableEq, Repr

/-- A path slot (Table 5-2). `succ` is the successor of the instruction that the path executes, `chan` says that this
instruction was taken from a channel, `placed` that the publisher has placed it on its channel (R44), `buf` holds the doublewords that a waiting instruction has read from other packages,
`ended` the trap of a request that the path has not awaited (R363), `line` the line that the path has fetched (R46), `flight` the
registers that the instruction inside which it waits will write (R82, R122), as 0 for a scalar or 1 for a vector register and its
number, `kept` the registers of the group as they were at the issue of that instruction (R82, R122), `tried` one more than the clk in
which the waiting instruction was last examined again, `vdone` the lanes of a `vamo` that have been performed before a lane of it failed (R214, R219): these are the model's
own. `arrived` is the mark of R352. -/
structure Path where
  pc : Word := 0
  live : Mask := 0
  stack : List DivEntry := []
  parked : Bool := false
  wait : Wait := .none
  age : Nat := 0
  succ : Word := 0
  chan : Bool := false
  placed : Bool := false
  buf : Table Word := []
  vload : Option VLoad := none
  arrived : Option (BitVec 32) := none
  ended : Option Late := none
  line : Option CodeLine := none
  flight : List (Nat × Nat) := []
  kept : Option Regs := none
  tried : Nat := 0
  vdone : Table Word := []
  deriving DecidableEq, Repr

/-- The states of a slot (Table 7-2); WAITING is read from the paths. -/
inductive SlotState where
  | free
  | active
  | trapped
  | stopping
  deriving DecidableEq, Repr

/-- An entry of a subscriber buffer (R260): the decoded instruction with its PC and successor, the publisher's outcome,
and the clk at which it is due. -/
structure Entry where
  instr : Instr
  pc : Word
  succ : Word
  taken : Bool
  target : Word
  due : Nat
  deriving DecidableEq, Repr

/-- A subscription (R265): the channel, the clk from which the publisher's instructions count, the PC of the last
instruction executed from the channel and the PC that followed it (at first those of the `sub`), the buffer, and whether
the channel is closed (R263). `freed` is the model's own: the first clk in which an entry that has left a full buffer counts as
free (R261). -/
structure Subscr where
  chan : Nat
  start : Nat
  pc : Word
  succ : Word
  buffer : List Entry
  closed : Bool
  freed : Nat := 0
  deriving DecidableEq, Repr

/-- A grid group's place: its grid, cluster and team by the model's numbers, its index in the team. -/
structure Member where
  grid : Nat
  cluster : Nat
  team : Nat
  index : Nat
  deriving DecidableEq, Repr

/-- A lane of a vector access on its way off the package: its instruction's number, its lane, the package and the target of its
home, the access, whether it reads, and whether the path awaits it inside the instruction. -/
structure LaneSend where
  ins : Nat
  lane : Nat
  toPkg : Nat
  toTgt : Nat
  acc : Access
  read : Bool
  inside : Bool
  deriving DecidableEq, Repr

/-- What a task was started from (R268): the class ceiling of its lease requests (R332), and whether it has issued
`resolve`, `fkbreak` or `fkplace` on its direct-entry firkin (R358). -/
structure Task where
  ceiling : Nat
  settled : Bool
  deriving DecidableEq, Repr

/-- A slot of a core: the per-slot control registers of Table 7-1, the registers of the group or task, its two paths. -/
structure Slot where
  gen : BitVec 32 := 0
  state : SlotState := .free
  pri : BitVec 2 := 0
  uia : Bool := false
  uie : Bool := true
  uiq : List (Word × Word) := []
  cause : Word := 0
  epc : Word := 0
  faddr : Word := 0
  finfo : Word := 0
  ulih : Word := 0
  ulipc : Word := 0
  cpxid : Word := 0
  subst : Word := 0
  taskid : Word := 0
  mrowstride : Word := 0
  mrowcount : Word := 0xFFFF
  lwin : Table Word := []
  taskfk : Word := 0
  sregs : Table Word := []
  vregs : Table VReg := []
  mregs : Table Mask := []
  p : Path := {}
  q : Path := {}
  dual : Bool := false
  j : Word := 0
  lastQ : Bool := true
  valloc : Nat := 16
  /-- The first register of the file that the allocation covers [log 22, DESIGN CHOICE]. -/
  vbase : Nat := 0
  member : Option Member := none
  task : Option Task := none
  issued : Table (BitVec 32) := []
  done : Table (BitVec 32) := []
  sub : Option Subscr := none
  /-- The trap was raised at fetch (R183). -/
  fetchTrap : Bool := false
  /-- The path that raised the trap was Q (R121). -/
  trapQ : Bool := false
  /-- The slot has not settled since its trap (R179). -/
  unsettled : Bool := false
  /-- The S-slot handles this slot's trap event (R182). -/
  handled : Bool := false
  /-- Copy faults not yet taken, by channel (R281). -/
  copyFaults : List Nat := []
  /-- Tags joined, kept for a restoration (R288). -/
  joined : List (Nat × Nat) := []
  /-- Lanes of vector accesses that have issued and wait for the line of an earlier access or for a tag (R225, R363), in the order
  in which they are sent. -/
  laneq : List LaneSend := []
  deriving DecidableEq, Repr

/-- A channel record (R260): the publishing slot and its generation, the subscribed groups by core and slot. `freed` is the
model's own: the first clk in which the entries of a subscriber that has left with a full buffer count as free (R261). -/
structure Chan where
  slot : Nat
  gen : BitVec 32
  subs : List (Nat × Nat)
  freed : Nat := 0
  deriving DecidableEq, Repr

/-- A mailbox entry with what the message unit keeps of it: whether a read has found its type bound, and the priority that it
found (R309), and the order of arrival. -/
structure Mail where
  msg : Msg
  ready : Bool
  pri : Nat
  seq : Nat
  deriving DecidableEq, Repr

/-- A copy request (R277, R278): the request words, the parameter block, its issuer, the transfer id, the barrier
generation at acceptance (R351), the bytes performed, the word that the pending remote line has brought. -/
structure CopyReq where
  slot : Nat
  gen : BitVec 32
  w0 : Word
  w1 : Word
  w2 : Word
  pb : List Word
  id : Word
  barGen : BitVec 32
  team : Option Nat
  done : Nat
  started : Bool
  /-- The windows of the issuer at acceptance, where windows bind it: they go on to bind the requests of a killed group. -/
  wins : Option (List Word)
  /-- The members of a multicast request, fixed when it starts at the root (R283): core × 2^21 + base. -/
  members : List Nat
  /-- The fault that stopped the channel, as the trap's code, address and FINFO (R281). -/
  fault : Option (BitVec 8 × Word × Word)
  /-- Doublewords that a line read from another package has brought, and the replies still awaited. -/
  buf : Table Word
  awaited : Nat
  deriving DecidableEq, Repr

/-- An entry of the multicast match table (R346). -/
structure McEntry where
  tag : Nat
  slot : Nat
  gen : BitVec 32
  base : Nat
  /-- The join has reached the root (R283). -/
  joined : Bool := false
  deriving DecidableEq, Repr

/-- What a matrix command does when the unit executes it (R164 to R172). -/
inductive MatOp where
  | midx (ix : List Half)
  | mopen (tile : Nat) (chk zero : Bool) (afmt bfmt : BitVec 4) (stride count : Word)
  | mstep (tile : Nat) (a b sa sb : Word) (k stride : Nat)
  | mclose (tile : Nat)
  | mst (tile : Nat) (ea : Word) (bf16 : Bool)
  | mld (tile : Nat) (ea : Word) (i32 : Bool)
  | mzero (tile : Nat)
  | mtab (t : Nat) (w : Word)
  | mlut (w0 w1 : Word)
  | msave (tile : Nat) (ea : Word)
  | msaveCtx (ea : Word)
  | mrest (tile : Nat) (ea : Word)
  | mrestCtx (ea : Word)
  deriving DecidableEq, Repr

/-- An entry of the matrix command queue (R148), with its class (R156), its issuer and whether the unit has started it. -/
structure MatCmd where
  seq : Nat
  op : MatOp
  cls : Nat
  slot : Nat
  gen : BitVec 32
  pathQ : Bool
  started : Bool
  /-- The trap of a command that aborts (R158): code, FADDR, FINFO. -/
  abort : Option (BitVec 8 × Word × Word)
  deriving DecidableEq, Repr

/-- A tile with its batch state (Table 6-1). -/
structure TileRec where
  data : Tile := 0
  opened : Bool := false
  i32 : Bool := false
  chk : Bool := false
  afmt : BitVec 4 := 0
  bfmt : BitVec 4 := 0
  owner : BitVec 6 := 0
  ownerGen : BitVec 32 := 0
  rowStride : Word := 0
  rowCount : Word := 0
  deriving DecidableEq, Repr

/-- A matrix context (R146): IX, the token tables with their loaded flags, the two copies of the LUT4 table. -/
structure MatCtx where
  ix : Table Half := []
  tt : Table Word := []
  loaded : BitVec 8 := 0
  lutV : Table Byte := []
  lutM : Table Byte := []
  deriving DecidableEq, Repr

/-- A TLB entry: the first 64 KiB page it maps, the count of pages, the leaf, the partition of its page table (R336). -/
structure TlbEntry where
  page : Nat
  count : Nat
  leaf : Word
  part : Nat
  deriving DecidableEq, Repr

/-- A pantry entry (R345): its key, the reply, as the data and the cause of the answer, and the clk at which it expires. -/
structure PantryEntry where
  pkg : Nat
  core : Nat
  tag : Nat
  epoch : Nat
  data : Word
  cause : BitVec 8
  ans : Option FkAns
  till : Nat
  deriving DecidableEq, Repr

/-- Who awaits a request that has crossed a link, or that waits for a larder bank. -/
inductive Owner where
  | path
  /-- The fetch of a code line (R45). -/
  | code
  | copy (ch : Nat)
  /-- The preparation of a line (R211), whose answer nobody awaits. -/
  | pref
  | firkin (r : FkReq)
  | message (m : Msg)
  | engine
  /-- A notice to a firkin (R324, R325), where a break that goes to an ORIGIN has 16 more than its reason; a drain marker (R316), the
  withdrawal of an access from a shelf (R209). -/
  | notice (h : Word) (brk : Option (Nat × BitVec 8))
  | marker (h : Word) (n : Nat)
  | withdrawal (tag epoch : Nat)
  /-- The notices between granary controllers (R251). -/
  | reclaim (base : Nat) (gen : BitVec 20) (reason : Nat)
  | release (base : Nat) (gen : BitVec 20)
  deriving DecidableEq, Repr

/-- An entry that a placement fills (R316): the sequence number of the forwarded operation that it applies next, those that have
come early, and the number up to which the drain marker counts, once it has come. -/
structure Placing where
  next : Nat := 0
  early : List FkReq := []
  marker : Option Nat := none
  deriving DecidableEq, Repr

/-- A core (R14): the per-core control registers of Table 7-1 and the units of the core. -/
structure Core where
  vtbase : Word := 0
  rrbase : Word := 0
  rrsize : Word := 256
  rrhead : Word := 0
  rrtail : Word := 0
  rrovf : Word := 0
  frtbase : Word := 0
  frtsize : Word := 1024
  mblimit : Word := 224
  hslots : Word := 8
  issuepol : Word := 0
  wdoglim : Word := 0
  trbase : Word := 0
  mweight : Word := 1
  trapvec : Word := 0
  pglate : Word := 0
  pmc : Table Word := []
  /-- The first clk in which a PMC counts, after a write of it (R359); the model's own. -/
  pmcFrom : Table Nat := []
  slots : Table Slot := []
  /-- The trap event queue (R175): the clk in which a slot settled, and the slot. -/
  events : List (Nat × Nat) := []
  /-- The S-slot is idle (R175). -/
  idle : Bool := true
  inReset : Bool := false
  /-- Grids that a core check tears down before the core may leave reset (R177). -/
  checkGrids : List Nat := []
  chan : Option Chan := none
  mailbox : List Mail := []
  port : List Msg := []
  /-- Requests of the core's units that wait for a free tag (R363): the package and the target, the access, who awaits it. -/
  sendq : List (Nat × Nat × Access × Owner) := []
  /-- Ready waiters: the WAITER entry, the entry of its firkin, the order in which it became ready, its firkin's value (R314). -/
  ready : List (Nat × Nat × Nat × Word) := []
  /-- The first clk in which the message unit may start a task (R268). -/
  nextStart : Nat := 0
  fwd : List (Word × Word) := []
  /-- Firkin operations of a slot that are not acknowledged, by slot and handle, and those that wait for them (R315). -/
  fkOut : List (Nat × Word) := []
  fkHeld : List FkReq := []
  /-- The entries that a placement has made here and that hold (R316, R321). -/
  placing : Table Placing := []
  shelf : List Access := []
  pantry : List PantryEntry := []
  copyq : List CopyReq := []
  /-- The channels that are FAULTED (12, copy channel state). -/
  copyFaulted : NatSet := []
  wp : Table Word := []
  /-- The channel that moved a line last, and the lines moved in a clk (R276); the model's own. -/
  copyTurn : Nat := 3
  copyUsed : Nat × Nat := (0, 0)
  mcast : List McEntry := []
  mcmds : List MatCmd := []
  tiles : Table TileRec := []
  userCtx : MatCtx := {}
  privCtx : MatCtx := {}
  traceSeq : BitVec 32 := 0
  /-- Cached lines: the line's address and its contents (R45), newest first. -/
  icache : List (Nat × List Half) := []
  l1d : List TlbEntry := []
  l1i : List TlbEntry := []
  /-- Larder banks and register banks: 0 awake, 1 leaving retention, 2 in retention or entering it (R197, R109). -/
  asleep : Table Nat := []
  /-- The clk at which a larder bank that leaves retention has left it (R197). -/
  awakeAt : Table Nat := []
  regAsleep : Table Nat := []
  /-- The clk of the last access of a larder bank, and of the last release of a register bank. -/
  touched : Table Nat := []
  regTouched : Table Nat := []
  /-- The lines that each larder bank serves, with the clk of its service (R196). -/
  bankq : Table (List (Nat × Nat)) := []
  /-- The selector's ptr[tier, level], at key 4 × tier + level (R307). -/
  ptr : Table Nat := []
  /-- The path that executed `yield` in the previous clk (R101). -/
  yielded : Option (Nat × Bool × Nat) := none
  /-- The entries of the race trace ring that are not written, with their address (R235, R236). -/
  traceq : List (Word × Word × Word) := []
  /-- The FREE entries of the FRT whose GEN has been advanced already for their next allocation (R325); the model's own. -/
  preGen : NatSet := []
  /-- An FRT entry has been allocated since package reset (R314). -/
  frtUsed : Bool := false
  /-- The FRT was written by software (R314): the answers of its firkin operations are free. -/
  frtSpoiled : Bool := false
  deriving DecidableEq, Repr

/-- The states of a queue register (Table 11-1). -/
inductive QState where
  | uninit
  | open_
  | stopped
  | broken
  deriving DecidableEq, Repr

/-- A queue register (Table 11-1); COUNT is the number of entries. -/
structure QReg where
  state : QState := .uninit
  entries : List VReg := []
  tok : Bool := false
  wset : BitVec 64 := 0
  rset : BitVec 64 := 0
  live : BitVec 64 := 0
  deriving DecidableEq, Repr

/-- A named barrier (Table 14-1). -/
structure Bar where
  valid : Bool := true
  initexp : Nat := 0
  exp : Nat := 0
  arr : Nat := 0
  gen : BitVec 32 := 0
  lastinv : BitVec 32 := 0
  deriving DecidableEq, Repr

/-- A team (R21): its grid and cluster, its core, its window, tiles and allocation, its groups' slots, its queues,
barriers and pending-launch queue. A saved team holds its saved window in `image`. -/
structure Team where
  grid : Nat
  cluster : Nat
  core : Nat
  off : Nat
  units : Nat
  tiles : Nat
  valloc : Nat
  groups : Nat
  slots : List Nat
  qs : Table QReg := []
  bars : Table Bar := []
  pend : List (List Word) := []
  deriving DecidableEq, Repr

/-- A cluster (R21) with its rectangle, its barrier (R353) and its watchdog (R357). -/
structure Cluster where
  grid : Nat
  index : Nat
  die : Nat
  x0 : Nat
  y0 : Nat
  w : Nat
  h : Nat
  teams : List Nat
  arr : Nat := 0
  gen : BitVec 32 := 0
  exp : Nat := 0
  wdog : Nat := 0
  progress : Nat := 0
  deriving DecidableEq, Repr

/-- The life of a grid (R23, R300 to R304). -/
inductive GridState where
  | resident
  | saved
  | completing
  deriving DecidableEq, Repr

/-- What pre-emption saves of a team (R301): its number and its record, its groups, the window's bytes with its empty and
poisoned words by their distance from its start, the tiles, the user context, the copy requests that stand with the index of
their group, the group that publishes. -/
structure SavedTeam where
  no : Nat
  team : Team
  slots : List Slot
  bytes : List Host.Cell
  empties : NatSet
  poison : NatSet
  tiles : Table TileRec
  ctx : MatCtx
  copies : List (Nat × CopyReq)
  pub : Option Nat
  deriving DecidableEq, Repr

/-- A grid that has been admitted (R23): its launch record, its place, its children, whether it has been swapped out for a child
(R303). -/
structure Grid where
  record : List Word
  part : Nat
  state : GridState := .resident
  clusters : List Nat
  admitted : Nat
  /-- Groups that have neither executed `end` nor been killed. -/
  live : Nat
  parent : Option Nat
  /-- Children that have not completed. -/
  children : Nat
  swapped : Bool := false
  saved : List SavedTeam := []
  savedClusters : List (Nat × Cluster) := []
  deriving DecidableEq, Repr

/-- A record in a class queue or a pre-empted grid that has gone back to its head (R298, R301), with the clk at which the
procedure of R300 marked it as blocked. -/
structure Queued where
  record : List Word
  parent : Option Nat
  saved : Option Nat
  blocked : Option Nat := none
  deriving DecidableEq, Repr

/-- A launch ring (R368): its base, log2 of its records, HEAD, TAIL, the rung slots, the records of the admitter's own
reservations. -/
structure Ring where
  base : Nat := 0
  log : Nat := 0
  head : Nat := 0
  tail : Nat := 0
  rung : NatSet := []
  own : Table Queued := []
  /-- Slots whose record the admitter has not been able to write; the model's own. -/
  lost : NatSet := []
  deriving DecidableEq, Repr

/-- A mark (R341): its range, its scope, the core that issued it; a core of 1280 or more is the granary controller's. -/
structure Mark where
  lo : Nat
  len : Nat
  scope : BitVec 4
  core : Nat
  deriving DecidableEq, Repr

/-- A partition: its map record (Table 15-2), its page table, save pool, rings, class queues and marks. -/
structure Part where
  pairs : BitVec 8 := 0
  grant : BitVec 8 := 0
  foreign : Bool := false
  root : Nat := 0
  poolBase : Nat := 0
  poolSize : Nat := 0
  expert : Word := 0
  /-- EXPERT before its last write, and the clk of that write, in which it still acts (R6); the model's own. -/
  expertWas : Word := 0
  expertClk : Nat := 0
  clkfix : Word := 0
  queues : Table (List Queued) := []
  rings : Table Ring := []
  pageRing : Nat := 0
  marks : List Mark := []
  /-- A pre-emption or swap-out that is in progress (R300): the grids that are stopped. -/
  stopping : List Nat := []
  deriving DecidableEq, Repr

/-- The states of a cellar engine (Table 13-10). -/
inductive EngState where
  | asleep
  | waking
  | idle
  | leased
  | evicting
  deriving DecidableEq, Repr

/-- Who holds or requests a lease: a core, a slot and its generation; slot 63 is the core itself (Table 13-10). -/
structure Holder where
  core : Nat
  slot : Nat
  gen : BitVec 32
  deriving DecidableEq, Repr

/-- A request for a lease (R329). -/
structure LeaseReq where
  who : Holder
  kind : Nat
  cls : Nat
  pathQ : Bool
  deriving DecidableEq, Repr

/-- The FIFOs of a lease (R289): commands not started, results, the command in execution, and the tags of evicted
commands. -/
structure Fifos where
  cmds : List (List (BitVec 32)) := []
  results : List (List (BitVec 32)) := []
  run : Option (List (BitVec 32)) := none
  evicted : List (List (BitVec 32)) := []
  deriving DecidableEq, Repr

/-- What a command in execution has still to write, once its sources are read: the stretches with their bytes; the bytes of its
first region written so far, that region's bytes, and the bytes that OUTN counts as one; the result entry (R290, R291). -/
structure EngPlan where
  writes : List (Word × List Byte)
  done : Nat
  first : Nat
  unit : Nat
  result : List (BitVec 32)
  deriving DecidableEq, Repr

/-- A DEAD record (R330): the generation of the lease, its holder, its class, its FIFOs. -/
structure Dead where
  lgen : BitVec 32
  who : Holder
  cls : Nat
  fifos : Fifos
  deriving DecidableEq, Repr

/-- An engine record (Table 13-10). `next` is the request for which the engine wakes or is being evicted. The model's own:
`toIdle` says that an engine whose lease has been released has still accesses to be performed (R333); `buf` holds the stretches
that the command in execution has read from other packages, `awaited` counts its requests, `plan` is what it has to write. -/
structure Engine where
  state : EngState := .asleep
  lgen : BitVec 32 := 0
  who : Holder := ⟨0, 0, 0⟩
  cls : Nat := 0
  since : Nat := 0
  fifos : Fifos := {}
  dead : Option Dead := none
  next : Option LeaseReq := none
  toIdle : Bool := false
  buf : Table Word := []
  awaited : Nat := 0
  plan : Option EngPlan := none
  deriving DecidableEq, Repr

/-- A bay's matrix unit (R156): the credits, ptr, and the clk until which a command holds it; its L2 TLB. -/
structure Bay where
  credit : Table Nat := []
  ptr : Nat := 7
  busy : Nat := 0
  l2 : List TlbEntry := []
  deriving DecidableEq, Repr

/-- A Peck die: the engines, the lease queue, the L3 TLB, the multicast port counts (R282), whether it is held in reset
or absent (R371). -/
structure Die where
  engines : Table Engine := []
  leaseq : List LeaseReq := []
  l3 : List TlbEntry := []
  ports : Table Nat := []
  absent : Bool := true
  deriving DecidableEq, Repr

/-- A line access that waits at a Vault channel (R247): its owner code, or 16 for a granary controller's copy (R249), and its clk of
arrival. -/
structure LineReq where
  code : Nat
  since : Nat
  line : Nat
  deriving DecidableEq, Repr

/-- A Vault stack: its channel wheel, the waiting line accesses of each channel, the scrub position of each channel, the
shelf, the pantry, the memory-side cache as the lines of each set, newest first (R240). -/
structure Stack where
  wheel : Table Nat := []
  waiting : Table (List LineReq) := []
  /-- The slot of each channel's wheel in which lines last started, and how many (R247); the model's own. -/
  started : Table (Nat × Nat) := []
  scrub : Table Nat := []
  shelf : List Access := []
  pantry : List PantryEntry := []
  cache : Table (List Nat) := []
  absent : Bool := true
  deriving DecidableEq, Repr

/-- A port: Omyan 0 to 11, Filfel 12 (R362, R364): its lanes in use, the lanes that have failed at this width, the package at the
other end of its link (R372), its wheels with output o at keys 64 o to 64 o + 63, the flits that want an output, the partitions'
buffers, this package's own flits that wait to be injected, the replay buffer of its link with the clk of sending. -/
structure Port where
  up : Bool := false
  lanes : Nat := 32
  failed : Nat := 0
  retraining : Bool := false
  peer : Option Nat := none
  wheel : Table Nat := []
  flits : List Flit := []
  buffers : Table (List Flit) := []
  inject : List Flit := []
  replay : List (Nat × Flit) := []
  /-- What its link has still to send again (R362). -/
  again : List Flit := []
  /-- The clk in which flits last left by its link, and how many. -/
  clk : Nat := 0
  sent : Nat := 0
  deriving DecidableEq, Repr

/-- A live request that crossed Omyan or Filfel (R363): where it was sent, what it asks, its lane, the reissues so far, the number
of its instruction. An access of the package that waits for its larder bank (R196) is one too, without a tag. -/
structure Req where
  epoch : Nat
  toPkg : Nat
  toTgt : Nat
  acc : Access
  owner : Owner
  lane : Nat
  reissues : Nat
  read : Bool
  inside : Bool
  ins : Nat := 0
  deriving DecidableEq, Repr

/-- What leaves the package (R1): a flit by an Omyan port, with the clk at which it reaches the next one; what Hatch A answers over
Filfel; the report of a core check (R177). -/
inductive Out where
  | flit (port arrives : Nat) (f : Flit)
  | quote (sig : BitVec 3072)
  | report (core : Nat) (cause : BitVec 8)
  /-- The answer to a read of DBRES (R368). -/
  | doorbell (part cls : Nat) (v : Word)
  deriving DecidableEq, Repr

/-- The states of a lent region (Table 10-4). -/
inductive LentState where
  | free
  | active
  | reclaiming
  | revoked
  deriving DecidableEq, Repr

/-- A lent region record (Table 10-4). -/
structure Lent where
  state : LentState := .free
  borrower : Nat := 0
  bpart : Nat := 0
  base : Nat := 0
  units : Nat := 0
  tr : Nat := 0
  gen : BitVec 20 := 0
  termend : Nat := 0
  deadline : Nat := 0
  /-- The model's own: the region was revoked, and its units have not been lent since (R250). -/
  revoked : Bool := false
  deriving DecidableEq, Repr

/-- The states of a borrowed region (Table 10-5). -/
inductive BorrowState where
  | free
  | mapped
  | moving
  | demoted
  | revoked
  deriving DecidableEq, Repr

/-- A borrowed region record (Table 10-5); `poisoned` counts the pages poisoned, `reason` is word 4's reason. -/
structure Borrowed where
  state : BorrowState := .free
  lender : Nat := 0
  lbase : Nat := 0
  units : Nat := 0
  part : Nat := 0
  tr : Nat := 0
  gen : BitVec 20 := 0
  vbase : Nat := 0
  ftier : Nat := 0
  faddr : Nat := 0
  resbw : Nat := 0
  moved : Nat := 0
  notify : List Nat := []
  poisoned : Nat := 0
  reason : Nat := 0
  /-- The model's own: the clk in which the copy of a page has begun, and the lines of it that are not yet copied (R251). -/
  due : Nat := 0
  left : Nat := 0
  deriving DecidableEq, Repr

/-- A die's line of the manifest (R374). -/
structure ManifestLine where
  die : Nat
  version : BitVec 32
  measure : BitVec 256
  deriving DecidableEq, Repr

/-- The path whose instruction is executed: the core, the slot, and whether it is path Q. -/
structure Cur where
  core : Nat
  slot : Nat
  pathQ : Bool
  deriving DecidableEq, Repr

/-- The package. `agenda`, `input`, `cur`, `chosen`, `turn`, `nextId`, `freeCtr` and `outbox` are the model's own: what the device
has to do next with the clk at which it falls due, what the step of the device that runs acts on, the path chosen for the next step and whether one is chosen, the core
whose selector acts next in the clk, the next number for a team, cluster, grid or command, the counter of free values, and what has
left the package. `links` holds the revision at which each die-to-die link runs that is up (R373); `firmware` holds what the firmware wrote into the FW
registers at boot (R177). -/
structure State where
  agenda : List (Nat × Instr × Input)
  input : Input
  cur : Cur
  chosen : Bool
  turn : Nat
  clk : Nat
  nextId : Nat
  freeCtr : Nat
  outbox : List Out
  mem : List Host.Cell
  empties : NatSet
  poison : NatSet
  pkgId : BitVec 11
  bootStep : Nat
  admitting : Bool
  manifest : List ManifestLine
  badPorts : List (Nat × Nat)
  revision : Option Nat
  links : Table Nat
  clockStep : Nat
  gated : NatSet
  cores : Table Core
  teams : Table Team
  clusters : Table Cluster
  grids : Table Grid
  dies : Table Die
  bays : Table Bay
  parts : Table Part
  vaults : Table Stack
  ports : Table Port
  lent : Table Lent
  borrowed : Table Borrowed
  reqs : Table Req
  epochs : Table Nat
  quarantined : NatSet
  filfelPantry : List PantryEntry
  firmware : Option FwCore
  deriving DecidableEq, Repr

/-- The boot steps of Table 15-3 in order, as the agenda that package reset leaves [log 2, DESIGN CHOICE]. -/
def bootAgenda : List (Nat × Instr × Input) := [(0, .secureRomVerify, { body := .digest 0 })]

/-- The machine right after package reset (R371): every register at its Reset value, memory with nothing listed. -/
def State.reset : State where
  agenda := bootAgenda
  input := {}
  cur := ⟨0, 0, false⟩
  chosen := false
  turn := 0
  clk := 0
  nextId := 1
  freeCtr := 0
  outbox := []
  mem := []
  empties := []
  poison := []
  pkgId := 0
  bootStep := 1
  admitting := false
  manifest := []
  badPorts := []
  revision := none
  links := []
  clockStep := 100
  gated := []
  cores := []
  teams := []
  clusters := []
  grids := []
  dies := []
  bays := []
  parts := []
  vaults := []
  ports := []
  lent := []
  borrowed := []
  reqs := []
  epochs := []
  quarantined := []
  filfelPantry := []
  firmware := none

end Sys2Proof.Machine
end

