-- ==== Sys2Proof/Machine/Base.lean ====
section
/-! DEFINITION. The named reads and updates of the state: cores, slots, paths and their registers, the memory bytes with
their F/E bits and poison, the agenda, the event counts. Every other file of Machine goes through these. -/

namespace Sys2Proof.Machine

/-- A mask of all 128 lanes. -/
def allLanes : Mask := BitVec.allOnes 128

/-- A slot that holds nothing; the S-slot is resident from package reset (R175). -/
def Slot.initial (k : Nat) : Slot :=
  if k = 63 then { state := .active, uie := false, vbase := 2032, p := { live := allLanes } } else {}

/-- The path slot P or Q. -/
def Slot.path (sl : Slot) (q : Bool) : Path := if q then sl.q else sl.p
/-- The slot with a path slot replaced. -/
def Slot.setPath (sl : Slot) (q : Bool) (f : Path → Path) : Slot :=
  if q then { sl with q := f sl.q } else { sl with p := f sl.p }

/-- The core with index `c` (R14). -/
def State.core (s : State) (c : Nat) : Core := Table.get {} s.cores c
/-- The state with core `c` changed. -/
def State.modCore (s : State) (c : Nat) (f : Core → Core) : State := { s with cores := Table.ins s.cores c (f (s.core c)) }
/-- Slot `k` of a core. -/
def Core.slot (co : Core) (k : Nat) : Slot := Table.get (Slot.initial k) co.slots k
/-- The core with slot `k` changed. -/
def Core.modSlot (co : Core) (k : Nat) (f : Slot → Slot) : Core := { co with slots := Table.ins co.slots k (f (co.slot k)) }
/-- Slot `k` of core `c`. -/
def State.slot (s : State) (c k : Nat) : Slot := (s.core c).slot k
/-- The state with slot `k` of core `c` changed. -/
def State.modSlot (s : State) (c k : Nat) (f : Slot → Slot) : State := s.modCore c fun co => co.modSlot k f
/-- The state with a path of slot `k` of core `c` changed. -/
def State.modPathOf (s : State) (c k : Nat) (q : Bool) (f : Path → Path) : State := s.modSlot c k fun sl => sl.setPath q f

/-- The core, the slot and the path whose instruction is executed. -/
def State.curCore (s : State) : Core := s.core s.cur.core
def State.curSlot (s : State) : Slot := s.slot s.cur.core s.cur.slot
def State.curPath (s : State) : Path := s.curSlot.path s.cur.pathQ
/-- The state with the current core, slot or path changed. -/
def State.modCurCore (s : State) (f : Core → Core) : State := s.modCore s.cur.core f
def State.modCur (s : State) (f : Slot → Slot) : State := s.modSlot s.cur.core s.cur.slot f
def State.modPath (s : State) (f : Path → Path) : State := s.modPathOf s.cur.core s.cur.slot s.cur.pathQ f

/-- The PC of the instruction that is executed. -/
def State.pc (s : State) : Word := s.curPath.pc

/-! Registers. -/

/-- A scalar register: s0 reads as zero (R81). -/
def Slot.sreg (sl : Slot) (n : Nat) : Word := if n = 0 then 0 else Table.get 0 sl.sregs n
/-- A write of a scalar register: a write to s0 is discarded (R81). -/
def Slot.setS (sl : Slot) (n : Nat) (v : Word) : Slot := if n = 0 then sl else { sl with sregs := Table.put 0 sl.sregs n v }
/-- A vector register. -/
def Slot.vreg (sl : Slot) (n : Nat) : VReg := Table.get 0 sl.vregs n
def Slot.setV (sl : Slot) (n : Nat) (v : VReg) : Slot := { sl with vregs := Table.put 0 sl.vregs n v }
/-- A mask register as a path reads it: m0 is the path's live mask (R115). -/
def Slot.mreg (sl : Slot) (q : Bool) (n : Nat) : Mask := if n = 0 then (sl.path q).live else Table.get 0 sl.mregs n
def Slot.setM (sl : Slot) (n : Nat) (v : Mask) : Slot := if n = 0 then sl else { sl with mregs := Table.put 0 sl.mregs n v }

/-- The registers of the group or task whose instruction is executed. -/
def State.sreg (s : State) (n : BitVec 5) : Word := s.curSlot.sreg n.toNat
def State.setS (s : State) (n : BitVec 5) (v : Word) : State := s.modCur fun sl => sl.setS n.toNat v
def State.vreg (s : State) (n : Nat) : VReg := s.curSlot.vreg n
def State.setV (s : State) (n : Nat) (v : VReg) : State := s.modCur fun sl => sl.setV n v
def State.mreg (s : State) (n : Nat) : Mask := s.curSlot.mreg s.cur.pathQ n
def State.setM (s : State) (n : Nat) (v : Mask) : State := s.modCur fun sl => sl.setM n v

/-! Where a core stands (R14). -/

/-- The number of cores of a package. -/
def nCores : Nat := 1280
def coreDie (c : Nat) : Nat := c / 160
def coreX (c : Nat) : Nat := c % 160 % 16
def coreY (c : Nat) : Nat := c % 160 / 16
/-- The core index of (die, x, y). -/
def coreIdx (die x y : Nat) : Nat := die * 160 + y * 16 + x
/-- The bay on the die. -/
def coreBay (c : Nat) : Nat := coreY c / 2 * 4 + coreX c / 4
/-- The bay in the package. -/
def bayOf (c : Nat) : Nat := coreDie c * 20 + coreBay c
/-- The position of a core in its bay (R144). -/
def bayPos (c : Nat) : Nat := coreY c % 2 * 4 + coreX c % 4
/-- The core at a position of a bay. -/
def bayCore (bay pos : Nat) : Nat :=
  coreIdx (bay / 20) (4 * (bay % 20 % 4) + pos % 4) (2 * (bay % 20 / 4) + pos / 4)

/-- The classes of slots (R305): 0 G, 1 H, 2 S. -/
def Core.cls (co : Core) (k : Nat) : Nat := if k = 63 then 2 else if 63 ≤ k + co.hslots.toNat then 1 else 0
/-- The class of the slot that executes. -/
def State.curCls (s : State) : Nat := s.curCore.cls s.cur.slot
/-- The executing slot holds a grid group, a task, or is the S-slot. -/
def State.isGroup (s : State) : Bool := s.curCls = 0
def State.isTask (s : State) : Bool := s.curCls = 1
def State.isS (s : State) : Bool := s.cur.slot = 63
/-- The executing group publishes, or is subscribed. -/
def State.publishing (s : State) : Bool :=
  match s.curCore.chan with
  | some ch => ch.slot = s.cur.slot && ch.gen = s.curSlot.gen
  | none => false
def State.subscribed (s : State) : Bool := s.curSlot.sub.isSome

def State.die (s : State) (d : Nat) : Die := Table.get {} s.dies d
def State.modDie (s : State) (d : Nat) (f : Die → Die) : State := { s with dies := Table.ins s.dies d (f (s.die d)) }
def State.bay (s : State) (b : Nat) : Bay := Table.get {} s.bays b
def State.modBay (s : State) (b : Nat) (f : Bay → Bay) : State := { s with bays := Table.ins s.bays b (f (s.bay b)) }
def State.partn (s : State) (p : Nat) : Part := Table.get {} s.parts p
def State.modPart (s : State) (p : Nat) (f : Part → Part) : State := { s with parts := Table.ins s.parts p (f (s.partn p)) }
def State.vault (s : State) (k : Nat) : Stack := Table.get {} s.vaults k
def State.modVault (s : State) (k : Nat) (f : Stack → Stack) : State :=
  { s with vaults := Table.ins s.vaults k (f (s.vault k)) }
def State.port (s : State) (p : Nat) : Port := Table.get {} s.ports p
def State.modPort (s : State) (p : Nat) (f : Port → Port) : State := { s with ports := Table.ins s.ports p (f (s.port p)) }

/-- A team, a cluster, a grid by its number; an absent one is nothing. -/
def State.team? (s : State) (t : Nat) : Option Team := Table.get none (s.teams.map fun e => (e.1, some e.2)) t
def State.modTeam (s : State) (t : Nat) (f : Team → Team) : State :=
  { s with teams := s.teams.map fun e => if e.1 = t then (e.1, f e.2) else e }
def State.cluster? (s : State) (t : Nat) : Option Cluster := Table.get none (s.clusters.map fun e => (e.1, some e.2)) t
def State.modCluster (s : State) (t : Nat) (f : Cluster → Cluster) : State :=
  { s with clusters := s.clusters.map fun e => if e.1 = t then (e.1, f e.2) else e }
def State.grid? (s : State) (t : Nat) : Option Grid := Table.get none (s.grids.map fun e => (e.1, some e.2)) t
def State.modGrid (s : State) (t : Nat) (f : Grid → Grid) : State :=
  { s with grids := s.grids.map fun e => if e.1 = t then (e.1, f e.2) else e }

/-- The partition that owns a pair (R366); 0 where none does [log 18, DESIGN CHOICE]. -/
def State.partOfDie (s : State) (d : Nat) : Nat := ((List.range 8).find? fun p => (s.partn p).pairs.getLsbD d).getD 0
/-- The partition of a core's pair. -/
def State.partOf (s : State) (c : Nat) : Nat := s.partOfDie (coreDie c)
/-- The executing group's partition. -/
def State.curPart (s : State) : Nat := s.partOf s.cur.core
/-- Some partition of the package holds FIX = 1 (R375). -/
def State.fixed (s : State) : Bool := s.parts.any fun e => e.2.clkfix.getLsbD 0
/-- The present clk of a bay is gated (R375): in fixed-clock mode alone, and at most 3 clks in 4 [log 14, DESIGN CHOICE]. -/
def State.gatedNow (s : State) (b : Nat) : Bool := s.fixed && s.gated.contains b && s.clk % 4 ≠ 0

/-- The executing group's team, cluster and grid. -/
def State.curTeam? (s : State) : Option Team := s.curSlot.member.bind fun m => s.team? m.team
def State.curCluster? (s : State) : Option Cluster := s.curSlot.member.bind fun m => s.cluster? m.cluster
def State.curGrid? (s : State) : Option Grid := s.curSlot.member.bind fun m => s.grid? m.grid

/-- The fields of a launch record (Table 12-7). -/
def recWord (r : List Word) (n : Nat) : Word := r.getD n 0
def recNclus (r : List Word) : Nat := field (recWord r 3) 0 11
def recW (r : List Word) : Nat := field (recWord r 3) 11 4
def recH (r : List Word) : Nat := field (recWord r 3) 15 4
/-- GPT + 1. -/
def recGroups (r : List Word) : Nat := field (recWord r 3) 19 6 + 1
def recVcode (r : List Word) : Nat := field (recWord r 3) 25 3
def recTiles (r : List Word) : Nat := field (recWord r 3) 28 4
def recLarder (r : List Word) : Nat := field (recWord r 3) 32 10
def recClass (r : List Word) : Nat := field (recWord r 3) 42 2
def recDies (r : List Word) : Nat := field (recWord r 3) 44 8
def recLaunchId (r : List Word) : Nat := field (recWord r 4) 0 32
def recParent (r : List Word) : Nat := field (recWord r 4) 32 32
/-- The registers of a VALLOC code (R295). -/
def vallocOf (code : Nat) : Nat := 16 * 2 ^ code

/-! The agenda. -/

/-- The state in which the device has the step `i` on `inp` to do at clk `due`, after what falls due then already. -/
def State.later (s : State) (due : Nat) (i : Instr) (inp : Input) : State :=
  { s with agenda := insertBy Prod.fst (due, i, inp) s.agenda }
/-- The same, at once. -/
def State.soon (s : State) (i : Instr) (inp : Input) : State := s.later s.clk i inp
/-- Something leaves the package (R1). -/
def State.emit (s : State) (o : Out) : State := { s with outbox := s.outbox ++ [o] }
/-- A free value: the counter that it is taken from advances. -/
def State.free (s : State) : Word × State := (Config.freeWord s.freeCtr, { s with freeCtr := s.freeCtr + 1 })
/-- The next number of the model's own. -/
def State.fresh (s : State) : Nat × State := (s.nextId, { s with nextId := s.nextId + 1 })

/-! Counts (R359), with the event codes of Table 14-4. -/

def evClk : Nat := 0x01
def evIssue : Nat := 0x02
def evIdle : Nat := 0x03
def evGated : Nat := 0x04
def evAgePick : Nat := 0x05
def evSplit : Nat := 0x06
def evSubLeave : Nat := 0x07
def evPubStall : Nat := 0x08
def evBankWait : Nat := 0x10
def evRetExit : Nat := 0x11
def evMstep : Nat := 0x12
def evTlbWalk : Nat := 0x13
def evOrphan : Nat := 0x20
def evLate : Nat := 0x21
def evStaleFk : Nat := 0x22
def evPantryHit : Nat := 0x23
def evRefusal : Nat := 0x24
def evBarDiscard : Nat := 0x25
def evDecDiscard : Nat := 0x26
def evBounce : Nat := 0x27
def evReissue : Nat := 0x28
def evDoneUnres : Nat := 0x29
def evWdTrip : Nat := 0x2A
def evDeflect : Nat := 0x30
def evVPantryHit : Nat := 0x31
def evVRefusal : Nat := 0x32
def evCcFail : Nat := 0x33
def evRecFail : Nat := 0x34

/-- One PMC after `n` occurrences of an event (Table 7-5): COUNT wraps at 2^56. -/
def pmcBump (evt n : Nat) (w : Word) : Word :=
  if field w 56 8 = evt && evt ≠ 0 then bits w 56 8 ++ (bits w 0 56 + BitVec.ofNat 56 n) else w
/-- The core whose PMCs have counted an event; a PMC counts from the clk after its write. -/
def Core.count (co : Core) (clk evt n : Nat) : Core :=
  { co with pmc := co.pmc.map fun e => (e.1, if clk < Table.get 0 co.pmcFrom e.1 then e.2 else pmcBump evt n e.2) }
/-- An event of core scope (Table 14-4). -/
def State.count (s : State) (c evt : Nat) : State := s.modCore c fun co => co.count s.clk evt 1
/-- An event of package scope: every PMC of the package that selects it counts. -/
def State.countAll (s : State) (evt : Nat) : State :=
  { s with cores := s.cores.map fun e => (e.1, e.2.count s.clk evt 1) }

/-! Memory. A place is a number: a Vault physical address, a host address above 2^44, a larder byte above 2^48 [log 15, DESIGN CHOICE]. -/

/-- The place of a larder byte. -/
def larderLoc (c off : Nat) : Nat := 2 ^ 48 + c * 2 ^ 21 + off
/-- The place of a byte of the host's memory [log 13, DESIGN CHOICE]. -/
def hostLoc (h : Nat) : Nat := 2 ^ 44 + h
def isLarder (loc : Nat) : Bool := 2 ^ 48 ≤ loc
def isHost (loc : Nat) : Bool := 2 ^ 44 ≤ loc && loc < 2 ^ 48
def isVault (loc : Nat) : Bool := loc < 2 ^ 44
def larderCore (loc : Nat) : Nat := (loc - 2 ^ 48) / 2 ^ 21
def larderOff (loc : Nat) : Nat := (loc - 2 ^ 48) % 2 ^ 21

/-- What memory holds at a place: an unlisted byte reads as zero. -/
def State.byte (s : State) (loc : Nat) : Byte := Table.get 0 s.mem loc
def State.setByte (s : State) (loc : Nat) (v : Byte) : State := { s with mem := Table.put 0 s.mem loc v }

/-- `n` bytes from a place, least significant first (R7), as a number. -/
def State.readN (s : State) (loc : Nat) : Nat → Nat
  | 0 => 0
  | n + 1 => (s.byte loc).toNat + 256 * s.readN (loc + 1) n
/-- The low `n` bytes of a number written at a place. -/
def State.writeN (s : State) (loc : Nat) : Nat → Nat → State
  | 0, _ => s
  | n + 1, v => (s.setByte loc (BitVec.ofNat 8 v)).writeN (loc + 1) n (v / 256)
/-- A 64-bit word at a place. -/
def State.read64 (s : State) (loc : Nat) : Word := BitVec.ofNat 64 (s.readN loc 8)
def State.write64 (s : State) (loc : Nat) (v : Word) : State := s.writeN loc 8 v.toNat

/-- The F/E bit of the word that holds a byte: full unless listed as empty (08, full/empty bit). Host memory has none. -/
def State.full (s : State) (loc : Nat) : Bool := !(s.empties.contains (loc / 8))
def State.setFull (s : State) (loc : Nat) (f : Bool) : State :=
  { s with empties := NatSet.setTo s.empties (loc / 8) (!f) }

/-- The words that share the poison of a byte: its larder word, or its whole Vault line (R198, R241). -/
def poisonUnit (loc : Nat) : List Nat :=
  if isVault loc then (List.range 8).map fun i => loc / 64 * 8 + i else [loc / 8]
def State.poisoned (s : State) (loc : Nat) : Bool := s.poison.contains (loc / 8)
def State.setPoison (s : State) (loc : Nat) (b : Bool) : State :=
  { s with poison := (poisonUnit loc).foldl (fun m w => NatSet.setTo m w b) s.poison }
/-- Some of the `n` bytes from a place is poisoned. -/
def State.poisonedIn (s : State) (loc n : Nat) : Bool :=
  (List.range ((loc % 8 + n + 7) / 8)).any fun i => s.poison.contains (loc / 8 + i)

/-- The shelf of a place's home. -/
def State.shelfOf (s : State) (loc : Nat) : List Access :=
  if isLarder loc then (s.core (larderCore loc)).shelf else (s.vault (loc / 2 ^ 37)).shelf
/-- Words of the `n` bytes from a place have been set full or empty: their home examines the accesses that it has shelved for them, in the
same clk (R210, R274). -/
def State.lookShelf (s : State) (loc n : Nat) : State :=
  (((s.shelfOf loc).map fun a => a.loc).eraseDups.filter fun l => loc / 8 * 8 ≤ l && l < loc + n).foldl
    (fun s l => s.soon .accessAtHome { a := l, b := 1 }) s
/-- A whole larder word written by software or by a structure of the device: poison goes, and a word that was poisoned is full
(R198, R387). -/
def State.writeWord (s : State) (loc : Nat) (v : Word) : State :=
  if s.poisoned loc then ((s.write64 loc v).setFull loc true).setPoison loc false else s.write64 loc v
/-- A word of a structure of the device written; a word that becomes full lets its shelf be examined (R274, R387). -/
def State.writeStruct (s : State) (loc : Nat) (v : Word) : State :=
  if s.poisoned loc then (s.writeWord loc v).lookShelf loc 8 else s.writeWord loc v

end Sys2Proof.Machine
end

