-- ==== Sys2Proof/Machine/Float.lean ====
section
/-! DEFINITION. The number formats and the arithmetic rules of 03_formats.md: every result is computed exactly, as an
integer times a power of two, and rounded once. A result that is not such a number is held to at least 60 bits with its
last bit odd, which rounds as the exact result does in every mode. -/

namespace Sys2Proof.Machine

/-- A value: (-1)^neg × m × 2^e, an infinity, or NaN. -/
inductive Fp where
  | nan
  | inf (neg : Bool)
  | fin (neg : Bool) (m : Nat) (e : Int)
  deriving DecidableEq, Repr

/-- A format (Table 3-1): exponent width, mantissa width, bias; `kind` 0 has infinities, 1 is E4M3, 2 is E2M1. -/
structure Fmt where
  ew : Nat
  mw : Nat
  bias : Nat
  kind : Nat
  deriving DecidableEq, Repr

/-- The formats of type codes 8 to 14 (Table 2-6). -/
def fmtOf (t : BitVec 4) : Fmt :=
  match t.toNat with
  | 8 => ⟨5, 10, 15, 0⟩
  | 9 => ⟨8, 7, 127, 0⟩
  | 10 => ⟨8, 23, 127, 0⟩
  | 11 => ⟨11, 52, 1023, 0⟩
  | 12 => ⟨4, 3, 7, 1⟩
  | 13 => ⟨5, 2, 15, 0⟩
  | _ => ⟨2, 1, 1, 2⟩

/-- The exponent of the unit in the last place of a subnormal. -/
def Fmt.emin (f : Fmt) : Int := 1 - (f.bias : Int) - (f.mw : Int)
/-- The bits of the largest finite value (Table 3-1). -/
def Fmt.maxFinite (f : Fmt) : Nat :=
  if f.kind = 0 then (2 ^ f.ew - 1) * 2 ^ f.mw - 1
  else if f.kind = 1 then 0x7E else 0x7
/-- The bits of infinity in a format that has one. -/
def Fmt.infBits (f : Fmt) : Nat := (2 ^ f.ew - 1) * 2 ^ f.mw
/-- The canonical NaN (Table 3-1); E2M1 has none and takes +0 (R66). -/
def Fmt.nanBits (f : Fmt) : Nat :=
  if f.kind = 0 then f.infBits + 2 ^ (f.mw - 1) else if f.kind = 1 then 0x7F else 0
/-- The sign bit. -/
def Fmt.sign (f : Fmt) (neg : Bool) : Nat := if neg then 2 ^ (f.ew + f.mw) else 0

/-- The value of the bits `x` (R60, R61). -/
def Fmt.decode (f : Fmt) (x : Nat) : Fp :=
  let m := x % 2 ^ f.mw
  let e := x / 2 ^ f.mw % 2 ^ f.ew
  let neg := x / 2 ^ (f.ew + f.mw) % 2 = 1
  if f.kind = 0 && e = 2 ^ f.ew - 1 then (if m = 0 then .inf neg else .nan)
  else if f.kind = 1 && e = 15 && m = 7 then .nan
  else if e = 0 then .fin neg m f.emin
  else .fin neg (2 ^ f.mw + m) (f.emin + (e : Int) - 1)

/-- The rounding modes (Table 2-7). -/
inductive Rnd where
  | rne
  | rtz
  | rdn
  | rup
  deriving DecidableEq, Repr

/-- A rounding code (Table 2-7). -/
def rndOf (r : BitVec 2) : Rnd :=
  match r.toNat with
  | 0 => .rne
  | 1 => .rtz
  | 2 => .rdn
  | _ => .rup

/-- Whether the magnitude k + rem/2^sh goes up to k + 1 (R65). -/
def Rnd.up (r : Rnd) (neg : Bool) (k rem sh : Nat) : Bool :=
  rem ≠ 0 &&
  match r with
  | .rne => 2 * rem > 2 ^ sh || (2 * rem = 2 ^ sh && k % 2 = 1)
  | .rtz => false
  | .rdn => neg
  | .rup => !neg

/-- The number of bits of `m`. -/
def bitLen (m : Nat) : Nat := if m = 0 then 0 else m.log2 + 1

/-- What a magnitude beyond the largest finite value becomes (R65, R66). -/
def Fmt.overflow (f : Fmt) (r : Rnd) (neg : Bool) : Nat :=
  f.sign neg +
  (if f.kind ≠ 0 then f.maxFinite
   else match r with
    | .rne => f.infBits
    | .rtz => f.maxFinite
    | .rdn => if neg then f.infBits else f.maxFinite
    | .rup => if neg then f.maxFinite else f.infBits)

/-- The bits of the magnitude k × 2^q, where q is the exponent of the last place that k's precision gives. -/
def Fmt.pack (f : Fmt) (r : Rnd) (neg : Bool) (k : Nat) (q : Int) : Nat :=
  let (k, q) := if k = 2 ^ (f.mw + 1) then (2 ^ f.mw, q + 1) else (k, q)
  let body := if k < 2 ^ f.mw then k else (q - f.emin + 1).toNat * 2 ^ f.mw + (k - 2 ^ f.mw)
  if body > f.maxFinite then f.overflow r neg else f.sign neg + body

/-- The exponent of the last place of the magnitude m × 2^e in the format. -/
def Fmt.ulp (f : Fmt) (m : Nat) (e : Int) : Int := max f.emin (e + (bitLen m : Int) - ((f.mw : Int) + 1))

/-- The exact value (-1)^neg × m × 2^e rounded to the format (R65). -/
def Fmt.round (f : Fmt) (r : Rnd) (neg : Bool) (m : Nat) (e : Int) : Nat :=
  if m = 0 then f.sign neg
  else
    let q := f.ulp m e
    if q ≤ e then f.pack r neg (m * 2 ^ (e - q).toNat) q
    else
      let sh := (q - e).toNat
      let k := m / 2 ^ sh
      let rem := m % 2 ^ sh
      f.pack r neg (if r.up neg k rem sh then k + 1 else k) q

/-- A value rounded to the format: NaNs are canonical, and a format without infinities saturates (R62, R66). -/
def Fmt.encode (f : Fmt) (r : Rnd) : Fp → Nat
  | .nan => f.nanBits
  | .inf neg => f.sign neg + (if f.kind = 0 then f.infBits else f.maxFinite)
  | .fin neg m e => f.round r neg m e

/-- The conversion of R67: the magnitude is truncated, and goes up where the lane's number is below the 16 bits that
follow the last place. -/
def Fmt.stochastic (f : Fmt) (rnd : Nat) : Fp → Nat
  | .fin neg m e =>
    if m = 0 then f.sign neg
    else
      let q := f.ulp m e
      -- the magnitude in units of 2^(q - 16), truncated
      let w := if q - 16 ≤ e then m * 2 ^ (e - (q - 16)).toNat else m / 2 ^ (q - 16 - e).toNat
      let k := w / 65536
      f.pack .rne neg (if w % 65536 ≤ rnd then k else k + 1) q
  | v => f.encode .rne v

/-! Exact arithmetic. -/

/-- A signed dyadic number n × 2^e. -/
structure Dy where
  n : Int
  e : Int
  deriving DecidableEq, Repr

/-- The sum of two dyadic numbers. -/
def Dy.add (a b : Dy) : Dy :=
  let e := min a.e b.e
  ⟨a.n * 2 ^ (a.e - e).toNat + b.n * 2 ^ (b.e - e).toNat, e⟩
/-- The product. -/
def Dy.mul (a b : Dy) : Dy := ⟨a.n * b.n, a.e + b.e⟩
/-- A finite value as a dyadic number. -/
def dyOf (neg : Bool) (m : Nat) (e : Int) : Dy := ⟨if neg then -(m : Int) else m, e⟩
/-- A dyadic number as a value; zero takes the sign given. -/
def Dy.num (a : Dy) (zneg : Bool) : Fp := if a.n = 0 then .fin zneg 0 0 else .fin (a.n < 0) a.n.natAbs a.e

/-- The sum; an exact zero from unlike signs is -0 only under RDN (IEEE 754-2019). -/
def Fp.add (r : Rnd) : Fp → Fp → Fp
  | .nan, _ | _, .nan => .nan
  | .inf a, .inf b => if a = b then .inf a else .nan
  | .inf a, _ => .inf a
  | _, .inf b => .inf b
  | .fin s m e, .fin s' m' e' =>
    if m = 0 && m' = 0 then .fin (if s = s' then s else r = .rdn) 0 0
    else ((dyOf s m e).add (dyOf s' m' e')).num (r = .rdn)
/-- The negation. -/
def Fp.neg : Fp → Fp
  | .nan => .nan
  | .inf a => .inf (!a)
  | .fin s m e => .fin (!s) m e
/-- The absolute value. -/
def Fp.abs : Fp → Fp
  | .nan => .nan
  | .inf _ => .inf false
  | .fin _ m e => .fin false m e
/-- The product. -/
def Fp.mul : Fp → Fp → Fp
  | .nan, _ | _, .nan => .nan
  | .inf a, .inf b => .inf (a != b)
  | .inf a, .fin s m _ | .fin s m _, .inf a => if m = 0 then .nan else .inf (a != s)
  | .fin s m e, .fin s' m' e' => .fin (s != s') (m * m') (e + e')
/-- The quotient of two magnitudes to 66 bits or more, with its last bit odd where it is not exact. -/
def divOdd (m m' : Nat) : Nat × Int :=
  let k := bitLen m' + 66
  let q := m * 2 ^ k / m'
  ((if m * 2 ^ k % m' = 0 then q * 2 else q * 2 + 1), -(k : Int) - 1)
/-- The quotient. -/
def Fp.div : Fp → Fp → Fp
  | .nan, _ | _, .nan => .nan
  | .inf _, .inf _ => .nan
  | .inf a, .fin s _ _ => .inf (a != s)
  | .fin s _ _, .inf a => .fin (s != a) 0 0
  | .fin s m e, .fin s' m' e' =>
    if m' = 0 then (if m = 0 then .nan else .inf (s != s'))
    else
      let (q, k) := divOdd m m'
      .fin (s != s') q (e - e' + k)

/-- The integer square root of `n`, below 2^fuel. -/
def isqrtAux (n : Nat) : Nat → Nat → Nat
  | 0, r => r
  | k + 1, r => if (r + 2 ^ k) * (r + 2 ^ k) ≤ n then isqrtAux n k (r + 2 ^ k) else isqrtAux n k r
/-- The integer square root. -/
def isqrt (n : Nat) : Nat := isqrtAux n (bitLen n / 2 + 1) 0
/-- A finite magnitude m × 2^e with an even exponent. -/
def evenExp (m : Nat) (e : Int) : Nat × Int := if e % 2 = 0 then (m, e) else (2 * m, e - 1)

/-- The square root. -/
def Fp.sqrt : Fp → Fp
  | .nan => .nan
  | .inf neg => if neg then .nan else .inf false
  | .fin neg m e =>
    if m = 0 then .fin neg 0 0
    else if neg then .nan
    else
      let (m, e) := evenExp m e
      let n := m * 2 ^ 132
      let r := isqrt n
      .fin false (if r * r = n then r * 2 else r * 2 + 1) (e / 2 - 67)
/-- 1 / a (Table 3-2). -/
def Fp.rcp : Fp → Fp
  | .fin neg 0 _ => .inf neg
  | a => Fp.div (.fin false 1 0) a
/-- 1 / √a (Table 3-2). -/
def Fp.rsq : Fp → Fp
  | .nan => .nan
  | .inf neg => if neg then .nan else .fin false 0 0
  | .fin neg m e =>
    if m = 0 then .inf neg
    else if neg then .nan
    else
      let (m, e) := evenExp m e
      let k := bitLen m + 66
      let r := isqrt (2 ^ (2 * k) / m)
      .fin false (if r * r * m = 2 ^ (2 * k) then r * 2 else r * 2 + 1) (-(e / 2) - (k : Int) - 1)

/-! The exponential and the logarithm, in fixed point with 320 fraction bits [log 10, DEDUCED]. -/

/-- The fraction bits. -/
def fxBits : Nat := 320
/-- 1 in fixed point. -/
def fxOne : Nat := 2 ^ fxBits
/-- The series z + z³/3 + z⁵/5 + … of the inverse hyperbolic tangent, for z at most 1/3: `t` is z^(2k+1). -/
def fxAtanh (zz : Nat) : Nat → Nat → Nat → Nat
  | 0, _, _ => 0
  | n + 1, k, t => t / (2 * k + 1) + fxAtanh zz n (k + 1) (t * zz / fxOne)
/-- ln of y, for y from 1 to 2. -/
def fxLn (y : Nat) : Nat :=
  let z := (y - fxOne) * fxOne / (y + fxOne)
  2 * fxAtanh (z * z / fxOne) 110 0 z
/-- ln 2. -/
def fxLn2 : Nat := fxLn (2 * fxOne)
/-- The series of e^u, for u below 1: `t` is u^k / k!. -/
def fxExp (u : Nat) : Nat → Nat → Nat → Nat
  | 0, _, _ => 0
  | n + 1, k, t => t + fxExp u n (k + 1) (t * u / fxOne / (k + 1))

/-- A finite value in fixed point, rounded down; beyond 2^15 the value is 2^15 with the same sign. -/
def fxOf (neg : Bool) (m : Nat) (e : Int) : Int :=
  let a : Nat :=
    if e + (bitLen m : Int) > 15 then 2 ^ 15 * fxOne
    else if 0 ≤ e + (fxBits : Int) then m * 2 ^ (e + (fxBits : Int)).toNat
    else m / 2 ^ (-(e + (fxBits : Int))).toNat
  let exact := e + (bitLen m : Int) ≤ 15 && (0 ≤ e + (fxBits : Int) || m % 2 ^ (-(e + (fxBits : Int))).toNat = 0)
  if neg then (if exact then -(a : Int) else -(a : Int) - 1) else a
/-- 2^(n + u / ln 2) for 0 ≤ u < ln 2, an inexact value. -/
def fxPow (n : Int) (u : Nat) : Fp := .fin false (2 * fxExp u 90 0 fxOne + 1) (n - (fxBits : Int) - 1)

/-- 2^a (Table 3-2). -/
def Fp.exp2 : Fp → Fp
  | .nan => .nan
  | .inf neg => if neg then .fin false 0 0 else .inf false
  | .fin neg m e =>
    if m = 0 then .fin false 1 0
    else
      let x := fxOf neg m e
      let n := x / (fxOne : Int)
      let f := (x % (fxOne : Int)).toNat
      if f = 0 && 0 ≤ e + (fxBits : Int) && e + (bitLen m : Int) ≤ 15 then .fin false 1 n
      else fxPow n (f * fxLn2 / fxOne)
/-- e^a. -/
def Fp.exp : Fp → Fp
  | .nan => .nan
  | .inf neg => if neg then .fin false 0 0 else .inf false
  | .fin neg m e =>
    if m = 0 then .fin false 1 0
    else
      let x := fxOf neg m e
      let n := x / (fxLn2 : Int)
      fxPow n (x % (fxLn2 : Int)).toNat
/-- m × 2^e as 2^n × y, with y from 1 to 2 in fixed point. -/
def fxNorm (m : Nat) (e : Int) : Int × Nat :=
  let l := bitLen m - 1
  (e + (l : Int), m * fxOne / 2 ^ l)
/-- A signed fixed-point number as an inexact value. -/
def fxNum (x : Int) : Fp := .fin (x < 0) (2 * x.natAbs + 1) (-(fxBits : Int) - 1)
/-- log2 a (Table 3-2), exact for a power of two. -/
def Fp.log2 : Fp → Fp
  | .nan => .nan
  | .inf neg => if neg then .nan else .inf false
  | .fin neg m e =>
    if m = 0 then .inf true
    else if neg then .nan
    else
      let (n, y) := fxNorm m e
      if y = fxOne then (Dy.mk n 0).num false
      else fxNum (n * (fxOne : Int) + ((fxLn y * fxOne / fxLn2 : Nat) : Int))
/-- ln a; ln 1 is exactly +0. -/
def Fp.ln : Fp → Fp
  | .nan => .nan
  | .inf neg => if neg then .nan else .inf false
  | .fin neg m e =>
    if m = 0 then .inf true
    else if neg then .nan
    else
      let (n, y) := fxNorm m e
      if n = 0 && y = fxOne then .fin false 0 0
      else fxNum (n * (fxLn2 : Int) + (fxLn y : Int))

/-! Comparison and conversion. -/

/-- -1, 0 or 1 as a is less than, equal to or greater than b; none where either is NaN. Zeros are equal. -/
def Fp.cmp : Fp → Fp → Option Int
  | .nan, _ | _, .nan => none
  | .inf a, .inf b => some (if a = b then 0 else if a then -1 else 1)
  | .inf a, _ => some (if a then -1 else 1)
  | _, .inf b => some (if b then 1 else -1)
  | .fin s m e, .fin s' m' e' =>
    some (((dyOf s m e).add (dyOf (!s') m' e')).n.sign)
/-- Whether the value's sign is minus. -/
def Fp.isNeg : Fp → Bool
  | .nan => false
  | .inf a => a
  | .fin s _ _ => s
/-- minimumNumber: -0 is less than +0 (R64). -/
def Fp.minimum (a b : Fp) : Fp :=
  match a.cmp b with
  | none => if a = .nan then b else a
  | some c => if c < 0 || (c = 0 && a.isNeg) then a else b
/-- maximumNumber. -/
def Fp.maximum (a b : Fp) : Fp :=
  match a.cmp b with
  | none => if a = .nan then b else a
  | some c => if 0 < c || (c = 0 && !a.isNeg) then a else b

/-- An integer as a value. -/
def Fp.ofInt (x : Int) : Fp := .fin (x < 0) x.natAbs 0
/-- A value rounded to an integer and clamped to a range; NaN gives 0 (R65, R66, R55). -/
def Fp.toInt (r : Rnd) (lo hi : Int) : Fp → Int
  | .nan => 0
  | .inf neg => if neg then lo else hi
  | .fin neg m e =>
    let a : Nat :=
      if 0 ≤ e then (if 80 < e + (bitLen m : Int) then 2 ^ 80 else m * 2 ^ e.toNat)
      else
        let sh := (-e).toNat
        let k := m / 2 ^ sh
        if r.up neg k (m % 2 ^ sh) sh then k + 1 else k
    let a := if m = 0 then 0 else a
    max lo (min hi (if neg then -(a : Int) else a))

/-- The sum of exact values in one rounding: NaN or infinities of both signs give NaN, one infinity stays; an exact zero
sum takes the sign that `zneg` gives [log 11, DEDUCED]. -/
def Fp.sum (zneg : Bool) (l : List Fp) : Fp :=
  if l.any (· = .nan) || (l.any (· = .inf true) && l.any (· = .inf false)) then .nan
  else if l.any (· = .inf true) then .inf true
  else if l.any (· = .inf false) then .inf false
  else
    ((l.map fun
      | .fin s m e => dyOf s m e
      | _ => ⟨0, 0⟩).foldl Dy.add ⟨0, 0⟩).num zneg

/-- The value of an E8M0 scale (R68). -/
def scaleE8 (x : Nat) : Fp := if x = 255 then .nan else .fin false 1 ((x : Int) - 127)
/-- The value of an S20 scale word (R69). -/
def scaleS20 (x : Nat) : Fp :=
  let e := x / 4096 % 256
  let f := x % 4096
  if e = 255 then .nan
  else if e = 0 then .fin false f (-138)
  else .fin false (4096 + f) ((e : Int) - 139)

end Sys2Proof.Machine
end

