-- ==== Sys2Proof/Machine/Flags.lean ====
section
/-! DEFINITION. Conditions and classes: the branch conditions of Table 2-8, the comparison conditions of Table 4-9, the
classes of Table 4-10. The hardware keeps no flags (R55, R62): a condition is computed where it is used. -/

namespace Sys2Proof.Machine

/-- The branch conditions (Table 2-8, R40). -/
def condHolds (c : BitVec 4) (a b : Word) : Bool :=
  match c.toNat with
  | 0 => a = b
  | 1 => a ≠ b
  | 2 => a.slt b
  | 3 => b.sle a
  | 4 => a.ult b
  | 5 => b.ule a
  | 6 => a.sle b
  | 7 => b.slt a
  | 8 => a.ule b
  | 9 => b.ult a
  | 10 => a &&& b = 0
  | 11 => a &&& b ≠ 0
  | 12 => a.getLsbD (field b 0 6) = false
  | 13 => a.getLsbD (field b 0 6)
  | 14 => true
  | _ => false

/-- The comparison conditions (Table 4-9) of two numbers whose order is given; none is unordered (R92). -/
def cmpHolds (c : Nat) (o : Option Int) : Bool :=
  match o with
  | none => c = 1 || c = 6
  | some o =>
    match c with
    | 0 => o = 0
    | 1 => o ≠ 0
    | 2 => o < 0
    | 3 => o ≤ 0
    | 4 => 0 < o
    | 5 => 0 ≤ o
    | 6 => false
    | _ => true

/-- The order of two integers. -/
def intCmp (a b : Int) : Option Int := some (a - b).sign

/-- The class bit of a value in a format (Table 4-10). -/
def classBit (f : Fmt) (x : Nat) : Nat :=
  match f.decode x with
  | .nan => 8
  | .inf neg => if neg then 0 else 7
  | .fin neg m _ =>
    if m = 0 then (if neg then 3 else 4)
    else if m < 2 ^ f.mw then (if neg then 2 else 5)
    else if neg then 1 else 6

/-- Division by R56 on integers of width `w`, signed or not: the quotient and the remainder. -/
def intDiv (w : Nat) (signed : Bool) (a b : Int) : Int × Int :=
  if b = 0 then (-1, a)
  else if signed && a = -(2 ^ (w - 1)) && b = -1 then (a, 0)
  else (a.tdiv b, a.tmod b)

/-- The leading zero bits of a 64-bit word. -/
def clz64 (a : Word) : Nat := 64 - bitLen a.toNat
/-- The trailing zero bits of a 64-bit word. -/
def ctz64 (a : Word) : Nat := ((List.range 64).find? fun i => a.getLsbD i).getD 64
/-- The one bits of a word. -/
def popCount {n : Nat} (a : BitVec n) : Nat := ((List.range n).filter fun i => a.getLsbD i).length

end Sys2Proof.Machine
end

