-- ==== Sys2Proof/Machine/Operands.lean ====
section
/-! DEFINITION. The operand forms: elements in lanes and register pairs (R111 to R114), the active set (R116), second and
third sources (R125), branch targets (R37), effective addresses (R195) and the relative address forms (R96). -/

namespace Sys2Proof.Machine

/-! Elements. -/

/-- A width of 4 for a 4-bit type, else of Table 2-6. -/
def elemWidth (t : BitVec 4) : Nat := tyWidth t
/-- Types i8 to i64, which are signed. -/
def tySigned (t : BitVec 4) : Bool := t < 4#4
/-- The bytes of an element in memory; a 4-bit element counts as 1 (R203). -/
def elemBytes (t : BitVec 4) : Nat := if tyWidth t = 4 then 1 else tyWidth t / 8

/-- Lane `l` of a register (R111). -/
def lane (v : VReg) (l : Nat) : BitVec 32 := bits v (32 * l) 32
/-- The register whose lanes `l` to 127 are those of `f`. -/
def packLanes (f : Nat → Nat) : Nat → Nat → Nat
  | 0, _ => 0
  | n + 1, l => f l % 2 ^ 32 + 2 ^ 32 * packLanes f n (l + 1)
/-- The register with the lanes `f`. -/
def ofLanes (f : Nat → Nat) : VReg := BitVec.ofNat 4096 (packLanes f 128 0)
/-- The register `v` in which the lanes of `m` are those of `f`. -/
def setLanes (v : VReg) (m : Mask) (f : Nat → Nat) : VReg :=
  ofLanes fun l => if m.getLsbD l then f l else (lane v l).toNat

/-- A `w`-bit number read as two's complement. -/
def toSigned (w x : Nat) : Int := if x % 2 ^ w < 2 ^ (w - 1) then (x % 2 ^ w : Nat) else ((x % 2 ^ w : Nat) : Int) - 2 ^ w
/-- An integer in `w` bits. -/
def wrapTo (w : Nat) (x : Int) : Nat := (x % 2 ^ w).toNat
/-- The bits of an element as an integer of its type (R55). -/
def elemInt (t : BitVec 4) (x : Nat) : Int := if tySigned t then toSigned (tyWidth t) x else (x % 2 ^ tyWidth t : Nat)
/-- The range of an integer type (R55). -/
def tyMin (t : BitVec 4) : Int := if tySigned t then -(2 ^ (tyWidth t - 1)) else 0
def tyMax (t : BitVec 4) : Int := if tySigned t then 2 ^ (tyWidth t - 1) - 1 else 2 ^ tyWidth t - 1
/-- An integer result: wrapped, or clamped under SAT (R126). -/
def fitInt (t : BitVec 4) (sat : Bool) (x : Int) : Nat :=
  wrapTo (tyWidth t) (if sat then max (tyMin t) (min (tyMax t) x) else x)

/-- An element extended to `n` bits: signed types by their sign, others with zeros (R112, R206). -/
def extendTo (n : Nat) (t : BitVec 4) (x : Nat) : Nat :=
  if tySigned t then wrapTo n (toSigned (tyWidth t) x) else x % 2 ^ tyWidth t
/-- An element as it stands in its lane (R112). -/
def extend32 (t : BitVec 4) (x : Nat) : Nat := extendTo 32 t x
/-- An element extended to a scalar register. -/
def extend64 (t : BitVec 4) (x : Nat) : Word := BitVec.ofNat 64 (extendTo 64 t x)

/-- Element `l` of register `r`: its low bits, or the pair's lanes (R112, R113). -/
def Slot.elem (sl : Slot) (t : BitVec 4) (r l : Nat) : Nat :=
  if ty64 t then (lane (sl.vreg r) l).toNat + 2 ^ 32 * (lane (sl.vreg (r + 1)) l).toNat
  else (lane (sl.vreg r) l).toNat % 2 ^ tyWidth t
/-- The slot in which the elements of `m` in register `r` are those of `f` (R112, R113, R116). -/
def Slot.setElems (sl : Slot) (t : BitVec 4) (r : Nat) (m : Mask) (f : Nat → Nat) : Slot :=
  if ty64 t then
    (sl.setV r (setLanes (sl.vreg r) m f)).setV (r + 1) (setLanes (sl.vreg (r + 1)) m fun l => f l / 2 ^ 32)
  else sl.setV r (setLanes (sl.vreg r) m fun l => extend32 t (f l))

/-- The active set of a vector instruction (R116). -/
def State.active (s : State) (mask : BitVec 4) : Mask := s.mreg mask.toNat &&& s.mreg 0
/-- An element of the first source. -/
def State.srcA (s : State) (o : V3) (t : BitVec 4) (l : Nat) : Nat := s.curSlot.elem t o.va.toNat l
/-- A scalar that vc names, in the width of the type (R125). -/
def State.scalarSrc (s : State) (o : V3) (t : BitVec 4) : Nat := (s.sreg (bits o.vc 0 5)).toNat % 2 ^ tyWidth t
/-- An element of the second source: vb, or the scalar of vc (R125). -/
def State.srcB (s : State) (o : V3) (t : BitVec 4) (l : Nat) : Nat :=
  if scalarVc o.vc then s.scalarSrc o t else s.curSlot.elem t o.vb.toNat l
/-- An element of the third source (R125). -/
def State.srcC (s : State) (o : V3) (t : BitVec 4) (l : Nat) : Nat :=
  if scalarVc o.vc then s.scalarSrc o t else s.curSlot.elem t o.vc.toNat l
/-- With three sources the second is always vb. -/
def State.srcB3 (s : State) (o : V3) (t : BitVec 4) (l : Nat) : Nat := s.curSlot.elem t o.vb.toNat l
/-- A result written to the lanes of the active set. -/
def State.setElems (s : State) (t : BitVec 4) (r : Nat) (m : Mask) (f : Nat → Nat) : State :=
  s.modCur fun sl => sl.setElems t r m f

/-- Packed element `j` of width `w` in a register (R114). -/
def packedElem (v : VReg) (w j : Nat) : Nat := (v.extractLsb' (w * j) w).toNat

/-! Branch targets. -/

/-- The base of the line that holds a PC. -/
def lineBase (pc : Word) : Word := pc - (pc &&& 63)
/-- A branch target (R37). -/
def target (pc : Word) {n : Nat} (delta : BitVec n) (head : BitVec 5) : Word :=
  lineBase pc + (delta.signExtend 64) * 64 + 2 * head.zeroExtend 64

/-! Addresses. -/

/-- An absolute larder-space address (Table 8-1). -/
def larderAddr (pkg die x y off : Nat) : Word :=
  BitVec.ofNat 64 (2 ^ 63 + pkg * 2 ^ 52 + die * 2 ^ 49 + x * 2 ^ 45 + y * 2 ^ 41 + off)
/-- The fields of a larder-space address. -/
def aPkg (a : Word) : Nat := field a 52 11
def aDie (a : Word) : Nat := field a 49 3
def aX (a : Word) : Nat := field a 45 4
def aY (a : Word) : Nat := field a 41 4
def aOff (a : Word) : Nat := field a 0 21
/-- The core that a larder-space address names. -/
def aCore (a : Word) : Nat := coreIdx (aDie a) (aX a) (aY a)
/-- An address in larder space (R192). -/
def isLarderAddr (a : Word) : Bool := a.getLsbD 63

/-- The conversion of the address forms (R96); none is ADDR_RANGE. -/
def State.convert (s : State) (v : Word) (imm : Int) (form : BitVec 2) : Option Word :=
  if form = 0#2 then some (v + BitVec.ofInt 64 imm)
  else
    let c := s.cur.core
    let off : Int := (aOff v : Int) + imm
    if !isLarderAddr v || field v 21 20 ≠ 0 || off < 0 || 0x1FFFFF < off then none
    else
      let xy : Option (Int × Int) :=
        if form = 1#2 then
          some ((coreX c : Int) + toSigned 4 (aX v), (coreY c : Int) + toSigned 4 (aY v))
        else
          match s.curCluster? with
          | none => none
          | some cl =>
            if s.isGroup && aX v < cl.w && aY v < cl.h then some ((cl.x0 + aX v : Nat), (cl.y0 + aY v : Nat)) else none
      match xy with
      | none => none
      | some (x, y) =>
        if x < 0 || 15 < x || y < 0 || 9 < y then none
        else some (larderAddr s.pkgId.toNat (coreDie c) x.toNat y.toNat off.toNat)

/-- A conversion of an element from type S to type T (R65, R66, R91, R133), where a LUT4 code stands for an entry of the
table `lut`. The result is the bits of an element of type T. -/
def cvtElem (lut : Nat → Byte) (t src : BitVec 4) (r : Rnd) (x : Nat) : Nat :=
  let int : Option Int :=
    if tyInt src then some (elemInt src x) else if src = 15#4 then some (lut (x % 16)).toInt else none
  match int with
  | some n => if tyInt t then fitInt t true n else (fmtOf t).encode r (Fp.ofInt n)
  | none =>
    let v := (fmtOf src).decode (x % 2 ^ tyWidth src)
    if tyInt t then wrapTo (tyWidth t) (v.toInt r (tyMin t) (tyMax t)) else (fmtOf t).encode r v

/-- The displacement of an M3 instruction: the index register, where it is a scalar address register, and the offset in
units of `size` bytes (R195) [log 23, DEDUCED]. -/
def State.disp (s : State) (o : M3) (index : Bool) (size : Nat) : Int :=
  (if index && o.idx ≠ 0 then ((s.sreg o.idx).toNat : Int) else 0) + o.off.toInt * (size : Int)

end Sys2Proof.Machine
end

