-- ==== Sys2Proof/Machine/Access.lean ====
section
/-! DEFINITION. What ends an instruction other than its effect, translation (13, R336 to R343), and the checks that every
access passes (Table 8-2). -/

namespace Sys2Proof.Machine

/-- A trap to be taken: its cause code (Table 7-6), FADDR and FINFO, and whether it was raised at fetch (R183). -/
structure Trap where
  code : BitVec 8
  faddr : Word := 0
  finfo : Word := 0
  fetch : Bool := false
  deriving DecidableEq, Repr

/-- What ends an instruction before its effect: a trap from the state before the instruction, a trap after the part of a
vector access that stands (R214), a wait in the state before the instruction, or a wait in another state. -/
inductive Stop where
  | trap (t : Trap)
  | trapAfter (t : Trap) (s : State)
  | hold (w : Wait)
  | holdAfter (w : Wait) (s : State)
  deriving DecidableEq, Repr

/-- The result of a meaning. -/
abbrev Act (α : Type) := Except Stop α

/-! The cause codes (Table 7-6). -/

def cIllegalLine : BitVec 8 := 0x01
def cIllegalInstr : BitVec 8 := 0x02
def cPrivileged : BitVec 8 := 0x03
def cRegRange : BitVec 8 := 0x04
def cMisaligned : BitVec 8 := 0x05
def cAddrRange : BitVec 8 := 0x06
def cPageFault : BitVec 8 := 0x07
def cProtection : BitVec 8 := 0x08
def cPartition : BitVec 8 := 0x09
def cTargetReset : BitVec 8 := 0x0A
def cGranaryRevoked : BitVec 8 := 0x0B
def cPoison : BitVec 8 := 0x0C
def cDivDepth : BitVec 8 := 0x0D
def cQueueBroken : BitVec 8 := 0x0E
def cChannel : BitVec 8 := 0x0F
def cFirkinResolved : BitVec 8 := 0x10
def cFirkinStale : BitVec 8 := 0x11
def cScalePairing : BitVec 8 := 0x12
def cMatrixOperand : BitVec 8 := 0x13
def cMatrixState : BitVec 8 := 0x14
def cTilePriv : BitVec 8 := 0x15
def cLaunchRecord : BitVec 8 := 0x16
def cWatchdog : BitVec 8 := 0x17
def cTrapInstr : BitVec 8 := 0x18
def cVectorEntry : BitVec 8 := 0x19
def cHostPageFail : BitVec 8 := 0x1A
def cFabricTimeout : BitVec 8 := 0x1B

/-! The status codes (Table 7-7). -/

def stOK : Word := 0
def stBusy : Word := 1
def stNotReady : Word := 2
def stRefused : Word := 3
def stEvicted : Word := 4
def stInvalidated : Word := 5
def stQueued : Word := 6
def stBroken : Word := 7
def stStale : Word := 8

/-- FINFO of an Access row (R180): DETAIL, WR, FETCH, and the lane. -/
def accInfo (detail : Nat) (wr fetch : Bool) (lane : Option Nat) : Word :=
  BitVec.ofNat 64 (detail + flag wr 8 + flag fetch 9 +
    match lane with
    | some l => l * 65536 + 2 ^ 23
    | none => 0)

/-! Translation. -/

/-- The kinds of use that a page permits (Table 13-14). -/
structure Use where
  rd : Bool
  wr : Bool
  fetch : Bool
  deriving DecidableEq, Repr

/-- The memory behind a translated address: its package and its place there, its tier. -/
structure Home where
  pkg : Nat
  loc : Nat
  tier : Nat
  deriving DecidableEq, Repr

/-- The units of a package beside its cores and Vault bases (R360): Hatch A, where the admitter stands and behind which the host's
memory lies, and Hatch B, where the granary controller stands. -/
def hatchA : Nat := 0x510
def hatchB : Nat := 0x511
/-- The unit of a place's home (R360): a core, Vault base k as 0x500 + k, Hatch A for the host's memory. -/
def homeNo (loc : Nat) : Nat := if isLarder loc then larderCore loc else if isHost loc then hatchA else 0x500 + loc / 2 ^ 37
/-- The target of a request to a home. -/
def Home.target (h : Home) : Nat := homeNo h.loc

/-- The bytes of a page of size code SZ (Table 13-14). -/
def pageBytes (sz : Nat) : Nat :=
  match sz with
  | 0 => 2 ^ 16
  | 1 => 2 ^ 21
  | 2 => 2 ^ 27
  | _ => 2 ^ 30

/-- The index of a virtual address at a level (Table 13-13). -/
def levelIndex (va level : Nat) : Nat :=
  match level with
  | 0 => va / 2 ^ 43 % 2 ^ 14
  | 1 => va / 2 ^ 30 % 2 ^ 13
  | 2 => va / 2 ^ 21 % 2 ^ 9
  | _ => va / 2 ^ 16 % 2 ^ 5

/-- What a walk finds: a leaf, a fault with its cause and DETAIL. -/
inductive Walk where
  | leaf (w : Word)
  | fault (cause : BitVec 8) (detail : Nat)
  deriving DecidableEq, Repr

/-- A leaf is well formed at its level (Table 13-15, order 2). -/
def leafOk (w : Word) (level : Nat) : Bool :=
  let sz := field w 56 2
  w.getLsbD 54 = false && field w 0 15 = 0 && field w 58 2 ≠ 3 &&
  ((level = 1 && sz = 3) || (level = 2 && (sz = 1 || sz = 2)) || (level = 3 && sz = 0)) &&
  field w 16 24 * 2 ^ 16 % pageBytes sz = 0

/-! Lent regions (R250). -/

/-- A lent region holds a Vault place. -/
def Lent.holds (r : Lent) (loc : Nat) : Bool := r.base ≤ loc / 2 ^ 30 && loc / 2 ^ 30 < r.base + r.units
/-- The lent region that a request of a package and a partition finds at a Vault place; a request of the last borrower after a
revocation finds the free record [log 65, DESIGN CHOICE]. -/
def State.lentAt (s : State) (loc pkg part : Nat) : Option Lent :=
  if isVault loc then
    (s.lent.find? fun e => e.2.holds loc &&
      (e.2.state ≠ .free || (e.2.revoked && pkg ≠ s.pkgId.toNat && pkg = e.2.borrower && part = e.2.bpart))).map Prod.snd
  else none
/-- The cause with which a Vault base refuses a request for a lent region (R250, R252). -/
def State.lentFault (s : State) (loc pkg part : Nat) : Option (BitVec 8) :=
  match s.lentAt loc pkg part with
  | none => none
  | some r =>
    if r.state = .revoked || r.state = .free then some cGranaryRevoked
    else if pkg ≠ s.pkgId.toNat && pkg = r.borrower && part = r.bpart then none
    else some cPartition

/-- The walk of a page table from a level on (R336 to R339). A poisoned word of a table gives POISON, and one in a region that is
lent what the Vault base answers (R250) [log 19, DEDUCED]. -/
def State.walkFrom (s : State) (part va : Nat) : Nat → Nat → Nat → Walk
  | 0, _, _ => .fault cPageFault 5
  | fuel + 1, level, table =>
    let loc := table + 8 * levelIndex va level
    let w := s.read64 loc
    match s.lentFault loc s.pkgId.toNat part with
    | some c => .fault c 0
    | none =>
      if s.poisoned loc then .fault cPoison 0
      else if w.getLsbD 63 = false then .fault cPageFault (level + 1)
      else if w.getLsbD 55 then
        if level = 0 || !leafOk w level then .fault cPageFault 5 else .leaf w
      else if level = 3 || w &&& 0x7F7FFF00000000FF#64 ≠ 0 then .fault cPageFault 5
      else s.walkFrom part va fuel (level + 1) (field w 8 32 * 256)

/-- The walk of a partition's page table. -/
def State.walk (s : State) (part va : Nat) : Walk := s.walkFrom part va 4 0 (s.partn part).root
/-- The places of the table entries that a walk reads, from a level on. -/
def State.walkLocs (s : State) (va : Nat) : Nat → Nat → Nat → List Nat
  | 0, _, _ => []
  | fuel + 1, level, table =>
    let loc := table + 8 * levelIndex va level
    let w := s.read64 loc
    if s.poisoned loc || w.getLsbD 63 = false || w.getLsbD 55 || level = 3 then [loc]
    else loc :: s.walkLocs va fuel (level + 1) (field w 8 32 * 256)

/-- A TLB entry maps an address of a partition. -/
def TlbEntry.hits (e : TlbEntry) (part va : Nat) : Bool :=
  e.part = part && e.page ≤ va / 2 ^ 16 && va / 2 ^ 16 < e.page + e.count
/-- The entry of a leaf. -/
def tlbOf (part va : Nat) (leaf : Word) : TlbEntry :=
  let n := pageBytes (field leaf 56 2) / 2 ^ 16
  ⟨va / 2 ^ 16 / n * n, n, leaf, part⟩

/-- The TLBs of a core, nearest first (R336). -/
def State.tlb1 (s : State) (c : Nat) (fetch : Bool) : List TlbEntry := if fetch then (s.core c).l1i else (s.core c).l1d
def State.tlb2 (s : State) (c : Nat) : List TlbEntry := (s.bay (bayOf c)).l2
def State.tlb3 (s : State) (c : Nat) : List TlbEntry := (s.die (coreDie c)).l3

/-- The leaf that translates an address for a core: a TLB's, else the page table's; whether a walk found it. -/
def State.lookup (s : State) (c va : Nat) (fetch : Bool) : Walk × Bool :=
  let part := s.partOf c
  match (s.tlb1 c fetch ++ s.tlb2 c ++ s.tlb3 c).find? fun e => e.hits part va with
  | some e => (.leaf e.leaf, false)
  | none => (s.walk part va, true)

/-- A mark's scope takes in a core (R341, R26) [log 20, DEDUCED]. -/
def Mark.covers (m : Mark) (c : Nat) : Bool :=
  if nCores ≤ m.core then true
  else match m.scope.toNat with
    | 2 => c = m.core
    | 3 => bayOf c = bayOf m.core
    | 4 | 5 => coreDie c = coreDie m.core
    | _ => true
/-- A mark's range holds an address. -/
def Mark.has (m : Mark) (va : Nat) : Bool := m.lo ≤ va && va < m.lo + m.len
/-- An address is DRAINING for a core (R341). -/
def State.draining (s : State) (c va : Nat) : Bool := (s.partn (s.partOf c)).marks.any fun m => m.has va && m.covers c

/-- A page of a borrowed region that is being moved (R251): a walk that meets it stalls. -/
def State.inMove (s : State) (part va : Nat) (leaf : Word) : Bool :=
  field leaf 58 2 = 1 &&
  s.borrowed.any fun e =>
    e.2.state = .moving && e.2.part = part && e.2.vbase ≤ va && va < e.2.vbase + e.2.units * 2 ^ 30

/-- A use of partition `part` may reach what partition `t` owns (R366): it is the same, or the map grants it. -/
def State.granted (s : State) (part t : Nat) : Bool := part = t || (s.partn part).grant.getLsbD t

/-- The lines that `n` bytes from a place touch. -/
def linesOf (loc n : Nat) : List Nat := (List.range ((loc % 64 + n + 63) / 64)).map fun i => (loc / 64 + i) * 64

/-- The memory of a leaf at an address. -/
def State.homeOf (s : State) (leaf : Word) (va : Nat) : Home :=
  let pa := field leaf 16 24 * 2 ^ 16 + va % pageBytes (field leaf 56 2)
  match field leaf 58 2 with
  | 0 => ⟨s.pkgId.toNat, pa, 0⟩
  | 1 => ⟨field leaf 40 11, pa, 1⟩
  | _ => ⟨field leaf 40 11, hostLoc pa, 2⟩

/-- The faults of a leaf, in the order of Table 13-15 from row 3 on. A frame in a stack of a pair that the partition may not reach is a
home outside the partition (R27, R366), with row 4 [log 47, DEDUCED]. -/
def State.leafFault (s : State) (part va : Nat) (leaf : Word) (u : Use) : Option (BitVec 8 × Nat) :=
  let h := s.homeOf leaf va
  if h.tier ≠ 2 && 0x1800000000 ≤ h.loc % 2 ^ 37 then some (cPageFault, 6)
  else if !s.granted part (field leaf 51 3) then some (cPartition, 1)
  else if h.tier = 0 && !s.granted part (s.partOfDie (h.loc / 2 ^ 37)) then some (cPartition, 1)
  else if u.rd && leaf.getLsbD 62 = false then some (cProtection, 5)
  else if u.wr && leaf.getLsbD 61 = false then some (cProtection, 6)
  else if u.fetch && leaf.getLsbD 60 = false then some (cProtection, 7)
  else if leaf.getLsbD 15 then some (cGranaryRevoked, 1)
  else none

/-- Why a translation has no home: a fault, or a stall (R341, R251). -/
inductive Miss where
  | fault (cause : BitVec 8) (detail : Nat)
  | stall (w : Wait)
  deriving DecidableEq, Repr

/-- The leaf that translates an address for a use of a core: a TLB's leaf that does not allow the use is read again in the page table,
since adding rights needs no invalidation (R340). -/
def State.leafFor (s : State) (c va : Nat) (u : Use) : Walk × Bool :=
  match s.lookup c va u.fetch with
  | (.leaf w, false) =>
    if (s.leafFault (s.partOf c) va w u).isSome then (s.walk (s.partOf c) va, true) else (.leaf w, false)
  | r => r

/-- The translation of an address for a core (R336, R339). -/
def State.translate (s : State) (c va : Nat) (u : Use) : Except Miss Home :=
  if s.draining c va then .error (.stall (.draining va))
  else
    match s.leafFor c va u with
    | (.fault cause d, _) => .error (.fault cause d)
    | (.leaf w, walked) =>
      if walked && s.inMove (s.partOf c) va w then .error (.stall (.moving va))
      else
        match s.leafFault (s.partOf c) va w u with
        | some (cause, d) => .error (.fault cause d)
        | none => .ok (s.homeOf w va)

/-! The memory-side cache of a Vault stack (R240), and the channels' waiting line accesses (R247). -/

/-- The Vault channel of a place (R239). -/
def vaultChan (loc : Nat) : Nat := (loc / 2 ^ 8 % 32) ^^^ (loc / 2 ^ 13 % 32)
/-- The code under which a Vault channel serves a request (R247): the partition, 8 for a borrower's of its region, 9 for a foreign
one. -/
def State.lineCode (s : State) (loc pkg part : Nat) : Nat :=
  if pkg ≠ s.pkgId.toNat then
    match s.lentAt loc pkg part with
    | some r => if pkg = r.borrower then 8 else 9
    | none => 9
  else if s.partOfDie (loc / 2 ^ 37) = part then part
  else 9
/-- A line access of a Vault stack (R240): a line that the memory-side cache holds becomes its set's newest [log 63, DESIGN CHOICE];
another waits at its channel, where it has not already one that waits under its code. A channel serves at once what arrives while it is
idle, in the order of R247. -/
def State.touchLine (s : State) (loc code : Nat) : State :=
  let k := loc / 2 ^ 37
  let line := loc % 2 ^ 37 / 64
  let ch := vaultChan loc
  let v := s.vault k
  let row := Table.get [] v.cache (line % 65536)
  let q := Table.get [] v.waiting ch
  if row.contains line then
    s.modVault k fun v => { v with cache := Table.ins v.cache (line % 65536) (line :: row.filter fun x => x ≠ line) }
  else if q.any fun r => r.line = line && r.code = code then s
  else
    let s' := s.modVault k fun v => { v with waiting := Table.ins v.waiting ch (q ++ [⟨code, s.clk, line⟩]) }
    if q = [] then s'.soon .channelWheelTurn { a := k, b := ch } else s'
/-- The lines of `n` bytes from a Vault place are accessed at it; an access to a larder or to host memory touches no line. -/
def State.touchHome (s : State) (loc n pkg part : Nat) : State :=
  if isVault loc then (linesOf loc n).foldl (fun s l => s.touchLine l (s.lineCode l pkg part)) s else s
/-- The code of a granary controller's copies, which a channel serves ahead of all others (R249). -/
def copyCode : Nat := 16
/-- The line at a Vault place is accessed for a granary controller's copy. -/
def State.touchCopy (s : State) (loc : Nat) : State := if isVault loc then s.touchLine (loc / 64 * 64) copyCode else s

/-- The lines of the page table that a walk reads are accessed (R240). -/
def State.touchWalk (s : State) (part va : Nat) : State :=
  (s.walkLocs va 4 0 (s.partn part).root).foldl (fun s l => s.touchHome l 8 s.pkgId.toNat part) s
/-- The TLBs of a core after the translation of an address: each level holds the leaf, newest first, within its size (R336) [log 8,
DESIGN CHOICE]. A walk reads the lines of the page table and is counted when it ends, whatever it ends in (R359) [log 54, DEDUCED]; one
that meets a page that is being moved stalls, and installs nothing (R251). -/
def State.install (s : State) (c va : Nat) (u : Use) : State :=
  let part := s.partOf c
  if s.draining c va then s
  else
    let r := s.leafFor c va u
    let s := if r.2 then s.touchWalk part va else s
    match r.1 with
    | .fault _ _ => s.count c evTlbWalk
    | .leaf w =>
      if r.2 && s.inMove part va w then s
      else
        let e := tlbOf part va w
        let put := fun (n : Nat) (l : List TlbEntry) =>
          if r.2 then (e :: l.filter fun x => !x.hits part va).take n
          else if l.any (fun x => x.hits part va) then l else (e :: l).take n
        let s := s.modCore c fun co => if u.fetch then { co with l1i := put 32 co.l1i } else { co with l1d := put 64 co.l1d }
        let s := s.modBay (bayOf c) fun b => { b with l2 := put 2048 b.l2 }
        let s := s.modDie (coreDie c) fun d => { d with l3 := put 8192 d.l3 }
        if r.2 then s.count c evTlbWalk else s

/-! The checks of Table 8-2. -/

/-- One address that an access uses: its bytes, its alignment, whether they are read, written, or a sync access's, its lane
in a vector access, and the base of that vector access. -/
structure Use1 where
  addr : Word
  size : Nat
  align : Nat
  rd : Bool
  wr : Bool
  sync : Bool := false
  lane : Option Nat := none
  base : Option Word := none
  deriving DecidableEq, Repr

/-- The trap of an Access row at an address. -/
def Use1.trap (u : Use1) (code : BitVec 8) (detail : Nat) : Stop :=
  .trap { code := code, faddr := u.addr, finfo := accInfo detail u.wr false u.lane }

/-- A vector access that leaves the larder of its base (R204, R213) [log 21, DEDUCED]. -/
def Use1.leaves (u : Use1) : Bool :=
  match u.base with
  | some b => isLarderAddr b && b >>> 21 ≠ u.addr >>> 21
  | none => false

/-- Row 1 (R193, R194, R204). -/
def Use1.row1 (u : Use1) : Option Nat :=
  if u.leaves then some 5
  else if isLarderAddr u.addr then
    if 10 ≤ aY u.addr then some 1
    else if field u.addr 21 20 ≠ 0 then some 2
    else if 2 ^ 21 < aOff u.addr + u.size then some 5
    else none
  else if field u.addr 57 6 ≠ 0 then some 3
  else none

/-- The bytes of a window register (Table 7-4): whether it holds the byte at `off` of a core's larder. -/
def winHas (w : Word) (pkg die x y off : Nat) : Bool :=
  w.getLsbD 63 && field w 50 11 = pkg && field w 47 3 = die &&
  field w 43 4 ≤ x && x ≤ field w 43 4 + field w 35 4 &&
  field w 39 4 ≤ y && y ≤ field w 39 4 + field w 31 4 &&
  field w 22 9 * 4096 ≤ off && off < (field w 22 9 + field w 13 9 + 1) * 4096

/-- The DETAIL of a byte of a larder that the windows do not allow (R201). -/
def winFault (wins : List Word) (a : Word) (rd wr : Bool) : Option Nat :=
  let ws := wins.filter fun w => winHas w (aPkg a) (aDie a) (aX a) (aY a) (aOff a)
  if ws = [] then some 1
  else if rd && !(ws.any fun w => w.getLsbD 62) then some 2
  else if wr && !(ws.any fun w => w.getLsbD 61) then some 3
  else none

/-- The windows of a slot. -/
def Slot.windows (sl : Slot) : List Word := (List.range 4).map fun i => Table.get 0 sl.lwin i

/-- The first byte of an access that the windows do not allow, with its DETAIL (R201). -/
def winCheck (wins : List Word) (a : Word) (n : Nat) (rd wr : Bool) : Option (Nat × Nat) :=
  (List.range n).findSome? fun i => (winFault wins (a + BitVec.ofNat 64 i) rd wr).map fun d => (i, d)

/-- Who makes an access: the core, whether windows apply to it, and which. -/
structure Who where
  core : Nat
  wins : Option (List Word)
  deriving DecidableEq, Repr

/-- Row 3: the home of a translated address. -/
def State.row3 (s : State) (who : Who) (u : Use1) : Except Miss Home :=
  s.translate who.core (field u.addr 0 57) ⟨u.rd, u.wr, false⟩
/-- Row 4: a larder of another partition, on this package (R27, R366). -/
def State.row4 (s : State) (who : Who) (a : Word) : Bool :=
  aPkg a ≠ s.pkgId.toNat || aDie a = coreDie who.core ||
  (List.range 8).any fun t => (s.partn t).pairs.getLsbD (aDie a) && s.granted (s.partOf who.core) t

/-- The home of a larder address that has passed row 1. -/
def larderHome (a : Word) : Home := ⟨aPkg a, larderLoc (aCore a) (aOff a), 0⟩

/-- The first of `l` for which `f` gives something. -/
def firstSome {α β : Type} (f : α → Option β) : List α → Option β
  | [] => none
  | x :: t =>
    match f x with
    | some y => some y
    | none => firstSome f t

/-- A miss as the end of an instruction. -/
def Use1.miss (u : Use1) : Miss → Stop
  | .fault cause d => u.trap cause d
  | .stall w => .hold w

/-- The first row of Table 8-2 that fails over the addresses of an access, and there the first of them (R200); rows 1 to 7. -/
def State.accessFault (s : State) (who : Who) (us : List Use1) : Option Stop :=
  let larders := us.filter fun u => isLarderAddr u.addr
  let trans := us.filter fun u => !isLarderAddr u.addr
  let r1 := firstSome (fun (u : Use1) => u.row1.map (u.trap cAddrRange)) us
  let r2 := firstSome (fun (u : Use1) => if u.addr.toNat % u.align ≠ 0 then some (u.trap cMisaligned 0) else none) us
  let r3 := firstSome (fun (u : Use1) =>
    match s.row3 who u with
    | .error m => some (u.miss m)
    | .ok _ => none) trans
  let r4 := firstSome (fun (u : Use1) => if s.row4 who u.addr then none else some (u.trap cPartition 0)) larders
  let r5 := firstSome (fun (u : Use1) =>
    match who.wins with
    | none => none
    | some ws =>
      (winCheck ws u.addr u.size u.rd u.wr).map fun (i, d) =>
        ({ u with addr := u.addr + BitVec.ofNat 64 i } : Use1).trap cProtection d) larders
  let r6 := firstSome (fun (u : Use1) =>
    match s.row3 who u with
    | .ok h => if u.sync && h.tier = 2 then some (u.trap cProtection 4) else none
    | .error _ => none) trans
  let r7 := firstSome (fun (u : Use1) =>
    if aPkg u.addr = s.pkgId.toNat && (s.core (aCore u.addr)).inReset then some (u.trap cTargetReset 0) else none) larders
  r1 <|> r2 <|> r3 <|> r4 <|> r5 <|> r6 <|> r7

/-- The home of an address that has passed the checks. -/
def State.home (s : State) (who : Who) (u : Use1) : Home :=
  if isLarderAddr u.addr then larderHome u.addr
  else
    match s.row3 who u with
    | .ok h => h
    | .error _ => ⟨0, 0, 0⟩

/-- The executing slot as the issuer of accesses: windows bind grid groups only (R201). -/
def State.who (s : State) : Who := ⟨s.cur.core, if s.isGroup then some s.curSlot.windows else none⟩

/-! Retention of larder banks (R197). -/

/-- The bank of a larder offset (R196). -/
def bankOf (off : Nat) : Nat := off / 64 % 32
/-- A bank has had no access for 65,536 clk: it is in retention or entering it. -/
def State.bankIdle (s : State) (c b : Nat) : Bool := Table.get 0 (s.core c).touched b + 65536 ≤ s.clk
/-- The clk at which a bank that leaves retention from the present clk on has left it: entering takes 2,048 clk, and leaving
2,048 (R197). -/
def State.bankAwakeAt (s : State) (c b : Nat) : Nat := max s.clk (Table.get 0 (s.core c).touched b + 65536 + 2048) + 2048
/-- A bank in retention begins leaving it (R197). -/
def State.wakeBank (s : State) (c b : Nat) : State :=
  let a := Table.get 0 (s.core c).asleep b
  if a = 1 || (a = 0 && !s.bankIdle c b) then s
  else
    let t := s.bankAwakeAt c b
    (s.modCore c fun co => { co with asleep := Table.ins co.asleep b 1, awakeAt := Table.ins co.awakeAt b t }).later t
      .larderRetentionExit { a := c, b := b }
/-- A line arrives at a bank that serves from the clk `from_` on (R196): one line each clk in order of arrival, and a line that
already waits together with it: the lines with the clks of their service, and this one's clk. -/
def bankTake (l : List (Nat × Nat)) (clk from_ line : Nat) : List (Nat × Nat) × Nat :=
  let l := l.filter fun e => clk ≤ e.2
  match l.find? fun e => e.1 = line with
  | some e => (l, e.2)
  | none =>
    let t := l.foldl (fun m e => max m (e.2 + 1)) from_
    (l ++ [(line, t)], t)
/-- The first clk in which a bank serves: at once, or once it has left retention. -/
def Core.bankFrom (co : Core) (clk b : Nat) : Nat := if Table.get 0 co.asleep b = 1 then max clk (Table.get 0 co.awakeAt b) else clk
/-- The core with a line entered at its bank. -/
def Core.enterBank (co : Core) (clk off : Nat) : Core :=
  let b := bankOf off
  let r := bankTake (Table.get [] co.bankq b) clk (co.bankFrom clk b) (off / 64)
  { co with touched := Table.ins co.touched b r.2, bankq := Table.ins co.bankq b r.1 }
/-- The lines that a conflict delays in a clk: those that wait at a bank which serves (R359) [log 55, DEDUCED]. -/
def Core.bankWaits (co : Core) (clk : Nat) : Nat :=
  (co.bankq.map fun e => if co.bankFrom clk e.1 ≤ clk then (e.2.filter fun l => clk < l.2).length else 0).sum
/-- BANKWAIT counts at the end of a clk. -/
def State.countWaits (s : State) : State :=
  { s with cores := s.cores.map fun e => if e.2.bankq = [] then e else (e.1, e.2.count s.clk evBankWait (e.2.bankWaits s.clk)) }
/-- The clk in which the line of a larder offset is served, where it arrives now. -/
def Core.bankClk (co : Core) (clk off : Nat) : Nat :=
  (bankTake (Table.get [] co.bankq (bankOf off)) clk (co.bankFrom clk (bankOf off)) (off / 64)).2
/-- An access arrives at a place of the package: a larder bank in retention begins leaving it, and the line is entered at its
bank (R196, R197). -/
def State.arrive (s : State) (loc : Nat) : State :=
  if isLarder loc then
    let c := larderCore loc
    (s.wakeBank c (bankOf (larderOff loc))).modCore c fun co => co.enterBank s.clk (larderOff loc)
  else s
/-- The clk in which a place of the package is accessed, where the access arrives now: the clk of its bank's service in a larder,
at once elsewhere [log 5, DESIGN CHOICE]. -/
def State.serviceClk (s : State) (loc : Nat) : Nat :=
  if isLarder loc then
    ((s.wakeBank (larderCore loc) (bankOf (larderOff loc))).core (larderCore loc)).bankClk s.clk (larderOff loc)
  else s.clk
/-- Banks begin to leave retention where they are in it, and are accessed when the last of them has left it (R197). -/
def State.wakeBanks (s : State) (l : List (Nat × Nat)) : State × Nat :=
  l.foldl (fun r x =>
    let s := r.1.wakeBank x.1 x.2
    let co := s.core x.1
    let t := co.bankFrom s.clk x.2
    (s.modCore x.1 fun co => { co with touched := Table.ins co.touched x.2 (max (Table.get 0 co.touched x.2) t) }, max r.2 t)) (s, s.clk)
/-- A structure of the device at places of the package is accessed: the clk at which its larder banks are out of retention (R197)
[log 22, DEDUCED]. -/
def State.wakeFor (s : State) (locs : List Nat) : State × Nat :=
  s.wakeBanks ((locs.filter fun l => isLarder l).map fun l => (larderCore l, bankOf (larderOff l))).eraseDups
/-- A step of the device on structures at places: it is taken when their banks are out of retention (R197). -/
def State.atBanks (s : State) (locs : List Nat) (i : Instr) (f : State → State) : State :=
  let r := s.wakeFor locs
  if s.clk < r.2 then r.1.later r.2 i s.input else f r.1
/-- `n` bytes from a place are accessed: their lines arrive, and the last of them is served at the clk. -/
def State.arriveAll (s : State) (loc n : Nat) : State × Nat :=
  (linesOf loc n).foldl (fun r l => (r.1.arrive l, max r.2 (r.1.serviceClk l))) (s, s.clk)

/-- The checks of Table 8-2, rows 1 to 7. -/
def State.check (s : State) (who : Who) (us : List Use1) : Act Unit :=
  match s.accessFault who us with
  | some st => .error st
  | none => .ok ()

/-- What ends an instruction, with the state that it leaves beside. -/
def Stop.leaving (e : Stop) (s : State) : Stop :=
  match e with
  | .trap t => .trapAfter t s
  | .hold w => .holdAfter w s
  | e => e

/-- The TLBs after the translations of an access, which come before row 4 of Table 8-2 (R336); rows 1 and 2 come first. -/
def State.installAll (s : State) (c : Nat) (us : List Use1) : State :=
  if us.any fun u => u.row1.isSome || u.addr.toNat % u.align ≠ 0 then s
  else
    let vas := ((us.filter fun u => !isLarderAddr u.addr).map fun u => field u.addr 16 41).eraseDups
    vas.foldl (fun s p => s.install c (p * 65536) ⟨us.any Use1.rd, us.any Use1.wr, false⟩) s

/-- The checks of the executing path's access, with the TLBs after them. -/
def State.checkUses (s : State) (us : List Use1) : Act State :=
  let s' := s.installAll s.cur.core us
  match s.check s.who us with
  | .error e => .error (e.leaving s')
  | .ok () => .ok s'

end Sys2Proof.Machine
end

