-- ==== Sys2Proof/Machine/Units.lean ====
section
/-! DEFINITION. What an instruction does to the units around a slot: moving a path on, trapping a slot (R179), requests that
leave the package (R363), messages (R266), the FRT (R313 to R324), leases (R333), queue registers (R258), channels (R263),
and what the end or the kill of a slot releases (R103, R184). -/

namespace Sys2Proof.Machine

/-! Paths. -/

/-- The path waits inside an instruction. -/
def Wait.inside : Wait → Bool
  | .none | .fetch _ | .fetchTag | .code _ | .start _ | .window => false
  | _ => true
/-- A wait that holds an instruction before its issue (R257, R294, R306). -/
def Wait.held : Wait → Bool
  | .queue _ _ _ | .command _ | .result _ => true
  | _ => false
/-- The path waits inside an instruction that it has issued. -/
def Wait.issued (w : Wait) : Bool := w.inside && !w.held

/-- A path that goes on at `pc`. A line that an `ifence` has met inside the instruction is discarded (R46). -/
def Path.moveTo (p : Path) (pc : Word) : Path :=
  { p with
    pc := pc, wait := .none, buf := [], vload := none, arrived := none, placed := false, flight := [], vdone := [], kept := none
    line := p.line.filter fun l => !l.old }

/-- The place in a path's buffer of the acknowledgement of a job counter's add. -/
def jobKey : Nat := 64
/-- A path that stops at its instruction, which is executed again: the add of a `sendjc` that has been performed is not repeated
(R270), and a line that an `ifence` has met inside the instruction is discarded (R46). -/
def Path.stopped (p : Path) : Path :=
  { p with
    wait := .none, buf := p.buf.filter (fun e => e.1 = jobKey), vload := none, flight := [], kept := none
    line := p.line.filter fun l => !l.old }
/-- A path with its wait withdrawn; a wait at a barrier leaves the mark of its generation (R352). -/
def Path.withdrawn (p : Path) : Path :=
  { p.stopped with
    arrived := match p.wait with
      | .barrier _ g => some g
      | _ => p.arrived }

/-- The entries of a subscriber buffer (R260). -/
def bufferSize : Nat := 64
/-- A subscription whose head entry has been executed, with the PC that followed it: of a taken branch that is its target
[log 56, DEDUCED]. An entry that leaves a full buffer is free in the next clk (R261). -/
def Subscr.pop (b : Subscr) (next : Word) (clk : Nat) : Subscr :=
  match b.buffer with
  | [] => b
  | e :: t => { b with buffer := t, pc := e.pc, succ := next, freed := if bufferSize ≤ b.buffer.length then clk + 1 else b.freed }

/-- The slot whose path has completed its instruction: the path goes on at `pc`, and an entry of its subscriber buffer is
freed (R260). -/
def Slot.advance (sl : Slot) (q : Bool) (pc : Word) (clk : Nat) : Slot :=
  let sl' := if (sl.path q).chan then { sl with sub := sl.sub.map fun b => b.pop pc clk } else sl
  sl'.setPath q fun p => { p.moveTo pc with chan := false }

/-- The trap events of a core with one more, in the order in which the slots settle (R175). -/
def Core.queueEvent (co : Core) (clk k : Nat) : Core :=
  { co with events := insertLt (fun a b => a.1 < b.1 || (a.1 = b.1 && a.2 < b.2)) (clk, k) co.events }

/-- A trapped slot settles once no path of it waits inside an instruction that it has issued; its event is then queued (R179). -/
def State.settle (s : State) (c k : Nat) : State :=
  let sl := s.slot c k
  if sl.state = .trapped && sl.unsettled && !sl.p.wait.issued && !sl.q.wait.issued then
    ((s.modSlot c k fun sl => { sl with unsettled := false }).modCore c fun co => co.queueEvent s.clk k).soon
      .trapEventEntry { a := c }
  else s

/-- The path slot that an answer for path `q` reaches: in single-path mode only P is in use (R121). -/
def Slot.eff (sl : Slot) (q : Bool) : Bool := q && sl.dual

/-- A path of a slot completes its instruction and goes on at `pc`. -/
def State.advance (s : State) (c k : Nat) (q : Bool) (pc : Word) : State :=
  (s.modSlot c k fun sl => sl.advance (sl.eff q) pc s.clk).settle c k

/-- CAUSE (Table 7-1). -/
def causeWord (code : BitVec 8) (q chan : Bool) : Word := BitVec.ofNat 64 (code.toNat + flag q 8 + flag chan 9)

/-- The slot with the four trap registers of a trap of a path (R179, R180). -/
def Slot.trapRegs (sl : Slot) (q : Bool) (t : Trap) : Slot :=
  { sl with
    cause := causeWord t.code q ((sl.path q).chan && !t.fetch)
    epc := (sl.path q).pc, faddr := t.faddr, finfo := t.finfo, fetchTrap := t.fetch, trapQ := q }

/-- A trap of a path of a slot other than the S-slot (R179, R121). A slot that is trapped already keeps its trap: the path
stops at its instruction, which is executed again on resumption [log 24, DEDUCED]. -/
def State.trapSlot (s : State) (c k : Nat) (q : Bool) (t : Trap) : State :=
  let q := (s.slot c k).eff q
  let stop := fun (sl : Slot) => sl.setPath q Path.stopped
  if (s.slot c k).state = .active then
    (s.modSlot c k fun sl => { stop (sl.trapRegs q t) with state := .trapped, unsettled := true, handled := false }).settle c k
  else (s.modSlot c k stop).settle c k

/-! Return tags and firkin handles. -/

/-- A return tag or destination word (Table 11-8). -/
def tagWord (pkg core slot gen aux : Nat) : Word :=
  BitVec.ofNat 64 (gen % 2 ^ 28 * 2 ^ 36 + aux % 256 * 2 ^ 28 + pkg % 2 ^ 11 * 2 ^ 17 + core % 2 ^ 11 * 2 ^ 6 + slot % 64)
def tagPkg (w : Word) : Nat := field w 17 11
def tagCore (w : Word) : Nat := field w 6 11
def tagSlot (w : Word) : Nat := field w 0 6
def tagGen (w : Word) : Nat := field w 36 28

/-- The return tag of a slot (R266). -/
def State.returnTag (s : State) (c k : Nat) : Word :=
  tagWord s.pkgId.toNat c k (if k = 63 then 0 else (s.slot c k).gen.toNat) 0

/-- A firkin handle (Table 13-2). -/
def fkHandle (pkg core idx gen : Nat) : Word :=
  BitVec.ofNat 64 (pkg % 2 ^ 11 * 2 ^ 52 + coreDie core * 2 ^ 49 + coreX core * 2 ^ 45 + coreY core * 2 ^ 41 +
    idx % 2 ^ 13 * 2 ^ 28 + gen % 2 ^ 28)
def fkPkg (h : Word) : Nat := field h 52 11
def fkCore (h : Word) : Nat := coreIdx (field h 49 3) (field h 45 4) (field h 41 4)
def fkIdx (h : Word) : Nat := field h 28 13
def fkGen (h : Word) : Nat := field h 0 28

/-- The step of the device that performs an operation at its home. -/
def FkReq.event (r : FkReq) : Instr :=
  match r.kind with
  | .invf _ _ _ => .fkOpInvf
  | .resolve _ => .fkOpResolve
  | .place _ => .fkOpPlace
  | .get d => if d then .fkOpDrop else .fkOpGet
  | .state d => if d then .fkOpDrop else .fkOpState
  | .brk _ => .fkOpBreak

/-! Flits (R360). -/

/-- The clks of `n` ms at the present clock (R9). -/
def State.msClk (s : State) (n : Nat) : Nat := n * 25000 * s.clockStep
/-- What is due after a time given in wall time (R9): the end of a retraining, the deadline of a reclaim, the loss of a borrower, the end of
a page's copy. -/
def wallTime (e : Nat × Instr × Input) : Bool :=
  e.2.1 = .portRetrainComplete || e.2.1 = .reclaimDeadline || e.2.1 = .borrowerLost || (e.2.1 = .pageMove && e.2.2.d = 2)
/-- The clk of an event of the future when the clock goes from `old` to `new` steps: its wall time stays. -/
def rescaled (clk old new due : Nat) : Nat := if due ≤ clk then due else clk + (due - clk) * new / old
/-- The clock changes: figures in clk hold in clk, those in wall time in wall time (R9). -/
def State.setClock (s : State) (new : Nat) : State :=
  let f := rescaled s.clk s.clockStep new
  let wall := s.agenda.filter wallTime
  let s1 : State := { s with
    clockStep := new, agenda := s.agenda.filter fun e => !wallTime e
    lent := s.lent.map fun e => (e.1, { e.2 with deadline := f e.2.deadline })
    borrowed := s.borrowed.map fun e => (e.1, { e.2 with due := f e.2.due }) }
  wall.foldl (fun s e => s.later (f e.1) e.2.1 e.2.2) s1
/-- TYPE of the flit of a request (R360). -/
def AccOp.flitType : AccOp → Nat
  | .load | .full | .pref => 0
  | .store _ | .store16 | .nibble _ _ | .copy _ _ _ | .line _ _ => 1
  | .amo _ _ | .cas _ | .dec => 2
  | .ldf _ | .stf _ | .fe _ => 3
/-- TYPE of a flit (R360). -/
def Cargo.flitType : Cargo → Nat
  | .words _ => 0
  | .request _ _ _ _ a => AccOp.flitType a.op
  | .firkin _ _ _ _ | .notice _ _ _ _ _ | .marker _ _ _ _ _ => 4
  | .message _ _ _ _ _ => 5
  | .reply _ _ _ _ _ _ | .answer _ _ _ _ | .line _ _ _ _ _ => 6
  | .ack _ _ _ _ => 7
  | .refusal _ _ _ _ => 8
  | .withdraw _ _ _ _ _ => 3
  | .reclaim _ _ _ _ _ _ | .release _ _ _ _ _ => 9
/-- The package, the tag and the epoch that a flit of this package names. -/
def Cargo.dest : Cargo → Nat × Nat × Nat
  | .words _ => (0, 0, 0)
  | .request p _ t e _ | .firkin p t e _ | .reply p _ t e _ _ | .refusal p _ t e | .line p _ t e _ | .notice p t e _ _
  | .ack p _ t e | .marker p t e _ _ | .message p t e _ _ | .reclaim p t e _ _ _ | .release p t e _ _ => (p, t, e)
  | .answer p r _ _ => (p, r.tag, r.epoch)
  | .withdraw p _ _ _ own => (p, own % 4096, own / 4096)
/-- A flit of this package from the unit `src` to the unit `dst`, for a partition and a slot class (Table 15-1). -/
def State.flit (s : State) (dst src part cls : Nat) (c : Cargo) : Flit :=
  { dpkg := BitVec.ofNat 11 (Cargo.dest c).1, dtgt := BitVec.ofNat 11 dst, spkg := s.pkgId, stgt := BitVec.ofNat 11 src
    tag := BitVec.ofNat 12 (Cargo.dest c).2.1, epoch := BitVec.ofNat 4 (Cargo.dest c).2.2, age := 0, ty := BitVec.ofNat 6 (Cargo.flitType c)
    sclass := BitVec.ofNat 2 cls, part := BitVec.ofNat 3 part, fch := false, out := 0, cargo := c }
/-- The header of a flit without its CRC: bits 127 to 32 of Table 15-1. -/
def Flit.head (f : Flit) : BitVec 96 :=
  f.dpkg ++ f.dtgt ++ f.spkg ++ f.stgt ++ f.tag ++ f.epoch ++ f.age ++ f.ty ++ f.sclass ++ f.part ++ (if f.fch then 1#1 else 0#1) ++ 0#12
/-- The header of a flit (Table 15-1). -/
def Flit.header (f : Flit) (payload : Nat) : BitVec 128 := Flit.head f ++ Config.flitCrc (Flit.head f) payload
/-- A flit of this package is on its way to a port (R361). -/
def State.send (s : State) (dst src part cls : Nat) (c : Cargo) : State :=
  s.soon .omyanHop { flag := true, body := .flits [s.flit dst src part cls c] }

/-! Requests that leave the package (R363). -/

/-- An access of a path of a slot. -/
def State.mkAccess (s : State) (c k : Nat) (q : Bool) (op : AccOp) (addr : Word) (h : Home) (size : Nat) (data : Word) :
    Access :=
  { op := op, addr := addr, loc := h.loc, size := size, data := data, data2 := 0, pkg := s.pkgId.toNat, part := s.partOf c,
    core := c, slot := k, gen := (s.slot c k).gen, pathQ := q, dest := 0, status := 0,
    grid := (s.core c).cls k = 0, tag := 0, epoch := 0, refusals := 0 }

/-- The timeout of a request across Omyan (R363): 2 × DB. -/
def omyanTO : Nat := 524288
/-- The target number of the Filfel link of a package. -/
def filfelTgt : Nat := hatchA
/-- The timeout of a request to a target (R363): 4,194,304 clk across Filfel. -/
def reqTO (tgt : Nat) : Nat := if tgt = filfelTgt then 4194304 else omyanTO
/-- A home that is reached across a link: one of another package, or the host's memory behind the Filfel link (R222, R363). -/
def State.across (s : State) (h : Home) : Bool := h.pkg ≠ s.pkgId.toNat || isHost h.loc

/-- The lowest tag of a core that is free and not in quarantine. -/
def State.freeTag (s : State) (c : Nat) : Option Nat :=
  (List.range 4096).find? fun t => !(s.reqs.any fun e => e.1 = c * 4096 + t) && !(s.quarantined.contains (c * 4096 + t))

/-- What a request puts on the links. -/
def Req.out (r : Req) : Cargo :=
  match r.owner with
  | .firkin f => .firkin r.toPkg r.acc.tag r.epoch f
  | .message m => .message r.toPkg r.acc.tag r.epoch r.acc.part m
  | .notice h brk => .notice r.toPkg r.acc.tag r.epoch h brk
  | .marker h n => .marker r.toPkg r.acc.tag r.epoch h n
  | .withdrawal t e => .withdraw r.toPkg r.acc.core t e (r.acc.tag + 4096 * r.epoch)
  | .reclaim base gen reason => .reclaim r.toPkg r.acc.tag r.epoch base gen reason
  | .release base gen => .release r.toPkg r.acc.tag r.epoch base gen
  | _ => .request r.toPkg r.toTgt r.acc.tag r.epoch r.acc

/-- The port number of the Filfel link. -/
def filfelPort : Nat := 12
/-- The clk in which the Filfel link of the package takes what is put on it: once it has retrained (R362), and never while it is down. -/
def State.filfelClk (s : State) : Option Nat :=
  let p := s.port filfelPort
  if !p.up then none
  else if p.retraining then
    some ((s.agenda.find? fun e => e.2.1 = .portRetrainComplete && e.2.2.a = filfelPort).elim s.clk fun e => e.1)
  else some s.clk
/-- Something crosses the Filfel link of the package, which serves it while it is up [log 13, DESIGN CHOICE]. -/
def State.overFilfel (s : State) (i : Instr) (inp : Input) : State :=
  match s.filfelClk with
  | some t => s.later t i inp
  | none => s
/-- The unit from which a source of requests sends (R360): that of a cellar engine is its holder's core [log 50, DESIGN CHOICE]. -/
def State.unitOf (s : State) (src : Nat) : Nat :=
  if src < 2048 then src
  else (Table.get ({} : Engine) (s.die ((src - 2048) / 64)).engines ((src - 2048) % 64)).who.core
/-- A request is put on its link: to another package, or to the Filfel link of this one. -/
def State.sendReq (s : State) (r : Req) : State :=
  if r.toPkg ≠ s.pkgId.toNat then
    s.send r.toTgt (s.unitOf r.acc.core) r.acc.part (if r.acc.core < nCores then (s.core r.acc.core).cls r.acc.slot else 3) r.out
  else s.overFilfel .accessAtHome { body := .access r.acc }

/-- A request sent across a link, with a tag, the next epoch of the tag, and its timeout; none where no tag is free. `ins` is the
number of its instruction. -/
def State.newReq (s : State) (toPkg toTgt : Nat) (a : Access) (owner : Owner) (lane : Nat) (read inside : Bool)
    (ins : Nat := 0) : Option State :=
  (s.freeTag a.core).map fun t =>
    let key := a.core * 4096 + t
    let ep := (Table.get 0 s.epochs key + 1) % 16
    let r : Req := { epoch := ep, toPkg := toPkg, toTgt := toTgt, acc := { a with tag := t, epoch := ep }, owner := owner,
                     lane := lane, reissues := 0, read := read, inside := inside, ins := ins }
    (({ s with reqs := Table.ins s.reqs key r, epochs := Table.ins s.epochs key ep }).later (s.clk + reqTO toTgt)
      .requestTimeout { a := key, b := ep }).sendReq r

/-- Of the model's own numbers of requests, those from here on carry no tag: accesses that wait for a larder bank (R196). -/
def untagged : Nat := 2 ^ 40
/-- An access of the package whose bank serves it at the clk `t`: it stays outstanding until then (R196, R197). -/
def State.awaitBank (s : State) (t : Nat) (a : Access) (owner : Owner) (lane : Nat) (read inside : Bool) (ins : Nat := 0) : State :=
  let key := untagged + s.nextId
  let r : Req := { epoch := 0, toPkg := s.pkgId.toNat, toTgt := larderCore a.loc, acc := a, owner := owner, lane := lane
                   reissues := 0, read := read, inside := inside, ins := ins }
  ({ s.fresh.2 with reqs := Table.ins s.reqs key r }).later t .accessAtHome { a := key, flag := true, body := .access a }

/-- A request that a path has not awaited ends in a fault: its trap is due at the path's next boundary (R363). The first one stands, and
of one instruction's lanes the lowest (R214). -/
def State.endLate (s : State) (a : Access) (t : Late) : State :=
  let sl := s.slot a.core a.slot
  if sl.gen ≠ a.gen then s
  else
    s.modPathOf a.core a.slot (sl.eff a.pathQ) fun p =>
      { p with ended := match p.ended with
          | some x => if x.ins = t.ins && t.lane < x.lane then some t else some x
          | none => some t }

/-- The requests of a slot that are outstanding. -/
def State.outstanding (s : State) (c k : Nat) : List (Nat × Req) :=
  s.reqs.filter fun e => e.2.acc.core = c && e.2.acc.slot = k && e.2.acc.gen = (s.slot c k).gen &&
    match e.2.owner with
    | .path => true
    | _ => false

/-- An access of a slot of this package. -/
def State.isOf (s : State) (c k : Nat) (a : Access) : Bool :=
  a.pkg = s.pkgId.toNat && a.core = c && a.slot = k && a.gen = (s.slot c k).gen
/-- The accesses of a slot that a shelf of the package holds, or that a shelf has refused and that are to be sent again (R274). -/
def State.shelvedOf (s : State) (c k : Nat) : List Access :=
  ((s.cores.flatMap fun e => e.2.shelf) ++ (s.vaults.flatMap fun e => e.2.shelf) ++ s.agenda.filterMap fun e =>
    if e.2.1 = .shelfRetry && !e.2.2.flag then
      match e.2.2.body with
      | .access a => some a
      | _ => none
    else none).filter fun a => s.isOf c k a
/-- The access reads, for an acquire (R233). -/
def AccOp.reads : AccOp → Bool
  | .store _ | .store16 | .nibble _ _ | .stf _ | .dec | .copy _ _ _ | .line _ _ | .pref => false
  | _ => true
/-- Some access that a slot has issued is not performed (R228, R231): one that has left, one whose lane waits to leave, one on a shelf
or sent back by it. `reads` asks for reads only. -/
def State.unperformed (s : State) (c k : Nat) (reads : Bool) : Bool :=
  ((s.outstanding c k).any fun e => !reads || e.2.read) || ((s.slot c k).laneq.any fun x => x.acc.gen = (s.slot c k).gen && (!reads || x.read)) ||
  (s.shelvedOf c k).any fun a => !reads || AccOp.reads a.op

/-- An access of a group is outstanding to a line of a home across a link (R225): one that has left, or a lane that waits to leave. -/
def State.lineOut (s : State) (c k pkg ln : Nat) : Bool :=
  ((s.outstanding c k).any fun e => e.2.toPkg = pkg && e.2.acc.loc / 64 = ln) ||
  (s.slot c k).laneq.any fun x => x.acc.gen = (s.slot c k).gen && x.toPkg = pkg && x.acc.loc / 64 = ln
/-- The lanes of a slot that wait to leave are sent in their order, each once no earlier access of the group to its line is
outstanding and a tag is free (R225, R363). -/
def State.pumpLanes (s : State) (c k : Nat) : List LaneSend → List LaneSend → State
  | [], kept => s.modSlot c k fun sl => { sl with laneq := kept }
  | x :: rest, kept =>
    let same := fun (p : Nat) (a : Access) => p = x.toPkg && a.loc / 64 = x.acc.loc / 64 && a.gen = x.acc.gen
    if (s.reqs.any fun e => e.2.owner = .path && e.2.acc.core = c && e.2.acc.slot = k && same e.2.toPkg e.2.acc) ||
        kept.any fun y => same y.toPkg y.acc then
      s.pumpLanes c k rest (kept ++ [x])
    else
      match s.newReq x.toPkg x.toTgt x.acc .path x.lane x.read x.inside x.ins with
      | some s' => s'.pumpLanes c k rest kept
      | none => s.pumpLanes c k rest (kept ++ [x])
def State.pump (s : State) (c k : Nat) : State :=
  if (s.slot c k).laneq = [] then s else s.pumpLanes c k (s.slot c k).laneq []

/-- A request of the device itself, which waits at its core where no tag is free (R363). -/
def State.postReq (s : State) (toPkg toTgt : Nat) (a : Access) (owner : Owner) : State :=
  match s.newReq toPkg toTgt a owner 0 false false with
  | some s' => s'
  | none => s.modCore a.core fun co => { co with sendq := co.sendq ++ [(toPkg, toTgt, a, owner)] }
/-- A tag of a core is free: what waits there for one is sent, in order (R363). -/
def State.pumpCore (s : State) (c : Nat) : State :=
  let q := (s.core c).sendq
  let s := if q = [] then s else
    q.foldl (fun s x => s.postReq x.1 x.2.1 x.2.2.1 x.2.2.2) (s.modCore c fun co => { co with sendq := [] })
  ((s.core c).slots.filter fun e => e.2.laneq ≠ []).foldl (fun s e => s.pump c e.1) s

/-! Messages. -/

/-- A message leaves a core: to the target's message unit, or across a link (R266). -/
def State.postMsg (s : State) (c : Nat) (m : Msg) : State :=
  if tagPkg m.dst = s.pkgId.toNat then s.soon .messageArrival { a := tagCore m.dst, body := .msg m }
  else
    let a := s.mkAccess c (tagSlot m.src) false (.store 15) m.dst ⟨tagPkg m.dst, 0, 0⟩ 8 0
    s.postReq (tagPkg m.dst) (tagCore m.dst) a (.message m)

/-- A message of the device itself to a core of the package (Tables 10-6, 13-7, 13-12). -/
def State.postSys (s : State) (c k : Nat) (gen : Nat) (ty : BitVec 8) (payload : List Word) : State :=
  s.soon .messageArrival
    { a := c
      body := .msg { ty := ty, len := payload.length, src := 0, dst := tagWord s.pkgId.toNat c k gen 0,
                     payload := payload, fk := 0 } }

/-! The FRT (R313, R314). -/

/-- The place of doubleword `w` of entry `i` of a core's FRT. -/
def State.frtLoc (s : State) (c i w : Nat) : Nat :=
  larderLoc c (((s.core c).frtbase.toNat + 32 * i + 8 * w) % 2 ^ 21)
def State.frt (s : State) (c i w : Nat) : Word := s.read64 (s.frtLoc c i w)
def State.setFrt (s : State) (c i w : Nat) (v : Word) : State := s.writeStruct (s.frtLoc c i w) v
/-- The places of an entry. -/
def State.frtLocs (s : State) (c i : Nat) : List Nat := (List.range 4).map fun w => s.frtLoc c i w
/-- Some word of an entry is poisoned. -/
def State.frtPoisoned (s : State) (c i : Nat) : Bool := (List.range 4).any fun w => s.poisoned (s.frtLoc c i w)

/-- DW0 of an entry (Table 13-3). -/
def frtWord (state : Nat) (hold drop : Bool) (cause : BitVec 8) (qhead : Nat) (qe : Bool) (gen : Nat) : Word :=
  BitVec.ofNat 64 (state * 2 ^ 61 + flag hold 60 + flag drop 59 + cause.toNat * 2 ^ 51 + qhead % 4096 * 2 ^ 39 +
    flag qe 38 + gen % 2 ^ 28)
def fState (w : Word) : Nat := field w 61 3
def fHold (w : Word) : Bool := w.getLsbD 60
def fDrop (w : Word) : Bool := w.getLsbD 59
def fCause (w : Word) : BitVec 8 := bits w 51 8
def fQhead (w : Word) : Nat := field w 39 12
def fQe (w : Word) : Bool := w.getLsbD 38
def fGen (w : Word) : Nat := field w 0 28

/-- The generation after one: 0 is skipped (R314). -/
def nextGen (g : Nat) : Nat := if (g + 1) % 2 ^ 28 = 0 then 1 else (g + 1) % 2 ^ 28
/-- A dropped entry is freed, its generation advanced for the next allocation (R325). -/
def State.freeDropped (s : State) (c i : Nat) : State :=
  (s.setFrt c i 0 (frtWord 0 false false 0 0 false (nextGen (fGen (s.frt c i 0))))).modCore c fun co =>
    { co with preGen := NatSet.add co.preGen i }
/-- An entry is freed, keeping its generation. -/
def State.freeFrt (s : State) (c i : Nat) : State := s.setFrt c i 0 (frtWord 0 false false 0 0 false (fGen (s.frt c i 0)))

/-- A notice from a core to a firkin: a break with its reason and cause, or a drop notice (R324, R325). -/
def State.notice (s : State) (src : Nat) (h : Word) (brk : Option (Nat × BitVec 8)) : State :=
  if fkPkg h = s.pkgId.toNat then
    match brk with
    | some (r, c) => s.soon .breakNotice { word := h, cause := c, a := r }
    | none => s.soon .dropNotice { word := h }
  else s.postReq (fkPkg h) (fkCore h) (s.mkAccess src 63 false .load h ⟨fkPkg h, 0, 0⟩ 8 0) (.notice h brk)

/-- The waiters queued at entry `i` from `j` on: each is freed, and its result firkin receives a break notice (R324). -/
def State.breakWaiters (s : State) (c : Nat) (cause : BitVec 8) : Nat → Nat → State
  | 0, _ => s
  | n + 1, j =>
    let w := s.frt c j 0
    let s' := (s.notice c (s.frt c j 3) (some (3, cause))).freeFrt c j
    if fQe w then s' else s'.breakWaiters c cause n (fQhead w)

/-- The handle of an entry of this package. -/
def State.fkOf (s : State) (c i : Nat) : Word := fkHandle s.pkgId.toNat c i (fGen (s.frt c i 0))

/-- The reason of a break notice on its way to an ORIGIN. -/
def toOrigin (reason : Nat) : Nat := reason + 16
/-- A PENDING entry breaks (R324). -/
def State.breakFrt (s : State) (c i reason : Nat) (cause : BitVec 8) : State :=
  let w := s.frt c i 0
  let origin := s.frt c i 3
  let s' := if fQe w then s else s.breakWaiters c cause 4096 (fQhead w)
  let s' := s'.setFrt c i 0 (frtWord 3 false (fDrop w) cause 0 true (fGen w))
  if origin ≠ 0 then s'.notice c origin (some (toOrigin 3, cause))
  else if reason = 8 then s'
  else s'.postSys c 63 0 252 [s.fkOf c i, BitVec.ofNat 64 (reason * 256 + cause.toNat)]

/-! Leases. -/

def Die.engine (d : Die) (e : Nat) : Engine := Table.get {} d.engines e
def Die.modEngine (d : Die) (e : Nat) (f : Engine → Engine) : Die := { d with engines := Table.ins d.engines e (f (d.engine e)) }
def State.modEngine (s : State) (d e : Nat) (f : Engine → Engine) : State := s.modDie d fun x => x.modEngine e f

/-- The lease queue of a die is examined again (R329). -/
def State.reexamine (s : State) (d : Nat) : State := s.soon .leaseQueueReexamine { a := d }

/-- An engine becomes AWAKE-IDLE (R328, R333). -/
def State.idleEngine (s : State) (d e : Nat) : State :=
  ((s.modEngine d e fun x => { x with state := .idle, since := s.clk, fifos := {}, who := ⟨0, 0, 0⟩, next := none, toIdle := false,
                                        buf := [], plan := none }).later
    (s.clk + 100000) .engineIdleSleep { a := d, b := e, c := s.clk }).reexamine d

/-- The lease of an engine is released (R333): its FIFOs are discarded, and the engine is idle once its accesses are performed. -/
def State.dropLease (s : State) (d e : Nat) : State :=
  if ((s.die d).engine e).awaited = 0 then s.idleEngine d e
  else
    s.modEngine d e fun x =>
      { x with state := .evicting, toIdle := true, fifos := {}, who := ⟨0, 0, 0⟩, next := none, buf := [], plan := none }

/-- A die that no longer holds the requests of a requester: those queued, and those for which an engine wakes or is being
evicted (R331). -/
def Die.withdraw (d : Die) (h : Holder) : Die :=
  { d with
    leaseq := d.leaseq.filter fun r => r.who ≠ h
    engines := d.engines.map fun e =>
      match e.2.next with
      | some r => if r.who = h then (e.1, { e.2 with next := none }) else e
      | none => e }

/-- Every lease that a holder has is released as by `lrel`, and its requests are withdrawn. -/
def State.releaseHeld (s : State) (h : Holder) : State :=
  let d := coreDie h.core
  let s := if (s.die d).leaseq = [] && (s.die d).engines = [] then s else s.modDie d fun x => x.withdraw h
  ((s.die d).engines.filter fun e => e.2.state = .leased && e.2.who = h).foldl (fun s e => s.dropLease d e.1) s

/-- The wake budget of a die (R328): 16, or WCAP in fixed-clock mode, where 0 means 16. -/
def State.wakeCap (s : State) (d : Nat) : Nat :=
  let w := (s.partn (s.partOfDie d)).clkfix
  if w.getLsbD 0 && field w 8 5 ≠ 0 then field w 8 5 else 16
/-- The engines of a die that are not ASLEEP. -/
def Die.awake (d : Die) : Nat := (d.engines.filter fun e => e.2.state ≠ .asleep).length
/-- AWAKE-IDLE engines above the budget sleep (R328), the lowest-numbered first [log 40, DESIGN CHOICE]. -/
def Die.trim (cap : Nat) : Nat → Die → Die
  | 0, d => d
  | n + 1, d =>
    if d.awake ≤ cap then d
    else
      match d.engines.find? fun e => e.2.state = .idle with
      | some e => (d.modEngine e.1 fun x => { x with state := .asleep }).trim cap n
      | none => d

/-! Queue registers (R258). -/

/-- The writer `g` of every queue in which it is live stops (R103). -/
def QReg.stop (r : QReg) (g : Nat) : QReg :=
  if r.live.getLsbD g then
    let live := r.live &&& ~~~(1 <<< g : BitVec 64)
    if live = 0 && r.state ≠ .broken then { r with live := live, tok := true, state := .stopped } else { r with live := live }
  else r
/-- A killed writer breaks the queue (R184). -/
def QReg.brk (r : QReg) (g : Nat) : QReg := if r.live.getLsbD g then { r with state := .broken } else r
def State.queueEnd (s : State) (m : Member) (killed : Bool) : State :=
  s.modTeam m.team fun t => { t with qs := t.qs.map fun e => (e.1, if killed then e.2.brk m.index else e.2.stop m.index) }

/-! Channels. -/

/-- SUBST (Table 7-3). -/
def substWord (reason : Nat) (pc : Word) : Word := BitVec.ofNat 64 (reason * 2 ^ 60 + field pc 0 57)

/-- The channel of a core no longer counts a group as subscribed. -/
def Chan.drop (ch : Chan) (c k : Nat) : Chan := { ch with subs := ch.subs.filter fun e => e ≠ (c, k) }
def State.unsubscribe (s : State) (c k : Nat) : State :=
  match (s.slot c k).sub with
  | none => s
  | some b =>
    let s1 := s.modSlot c k fun sl => { sl with sub := none }
    if b.closed then s1
    else
      s1.modCore b.chan fun co => { co with
        chan := co.chan.map fun ch =>
          { ch.drop c k with freed := if bufferSize ≤ b.buffer.length then s.clk + 1 else ch.freed } }

/-- A subscriber leaves its channel at `pc` and fetches from `next` (R262). -/
def State.leave (s : State) (c k reason : Nat) (pc next : Word) : State :=
  ((s.unsubscribe c k).count c evSubLeave).modSlot c k fun sl =>
    { sl with subst := substWord reason pc, p := { sl.p.moveTo next with chan := false } }

/-- A group waits in `resub` on a channel: its id. -/
def Slot.rendezvous (sl : Slot) (ch : Nat) : Option (Nat × Nat) :=
  match sl.p.wait with
  | .rendezvous c id from_ => if c = ch then some (id, from_) else none
  | _ => none

/-- The groups that wait in `resub` on a channel, with the id and the clk from which a point counts. -/
def State.resubbers (s : State) (ch : Nat) : List (Nat × Nat × Nat × Nat) :=
  s.cores.flatMap fun co => co.2.slots.filterMap fun sl => (sl.2.rendezvous ch).map fun r => (co.1, sl.1, r.1, r.2)

/-- A `resub` that waits completes with a status (R265). The destination register is kept in the path's buffer. -/
def State.endResub (s : State) (c k : Nat) (st : Word) : State :=
  let d := (Table.get 0 (s.slot c k).p.buf 0).toNat
  (s.modSlot c k fun sl => sl.setS d st).advance c k false (s.slot c k).p.succ

/-- The channel of a core closes (R263): subscribers execute what their buffers hold and then leave. -/
def State.closeChannel (s : State) (c : Nat) : State :=
  match (s.core c).chan with
  | none => s
  | some ch =>
    let s := s.modCore c fun co => { co with chan := none }
    let s := ch.subs.foldl (fun s e => s.modSlot e.1 e.2 fun sl => { sl with sub := sl.sub.map fun b => { b with closed := true } }) s
    (s.resubbers c).foldl (fun s e => s.endResub e.1 e.2.1 stRefused) s

/-- A slot publishes the channel of its core. -/
def State.publishes (s : State) (c k : Nat) : Bool :=
  match (s.core c).chan with
  | some ch => ch.slot = k && ch.gen = (s.slot c k).gen
  | none => false

/-! Copy requests. -/

/-- The fields of the request words and of the parameter block (Tables 12-1, 12-2). -/
def CopyReq.chan (r : CopyReq) : Nat := field r.w2 30 2
def CopyReq.len (r : CopyReq) : Nat := field r.w2 0 25
def CopyReq.mctag (r : CopyReq) : Nat := field r.w2 32 8
def CopyReq.fe (r : CopyReq) : Bool := r.w2.getLsbD 29
def CopyReq.pbWord (r : CopyReq) (i : Nat) : Word := r.pb.getD i 0
/-- The completion mode; without a block it is 4. -/
def CopyReq.mode (r : CopyReq) : Nat := if r.pb = [] then 4 else field (r.pbWord 0) 0 3

/-- DONE[CH] of the issuer advances, if its slot still has the generation (R280). -/
def State.copyDone (s : State) (c : Nat) (r : CopyReq) : State :=
  if (s.slot c r.slot).gen = r.gen then
    s.modSlot c r.slot fun sl => { sl with done := Table.ins sl.done r.chan (Table.get 0 sl.done r.chan + 1) }
  else s

/-- The return tag of a request's issuer. -/
def State.copyTag (s : State) (c : Nat) (r : CopyReq) : Word :=
  tagWord s.pkgId.toNat c r.slot (if r.slot = 63 then 0 else r.gen.toNat) 0

/-- The transfer id with FAIL set (R277). -/
def failId (id : Word) : Word := id ||| 0x4000000000000000#64

/-- The destination word of a message as it travels: AUX, and GEN where no slot is named, are ignored (R270). -/
def destWord (w : Word) : Word :=
  let w := w &&& ~~~0xFF0000000#64
  if field w 0 6 = 63 then w &&& 0xFFFFFFFFF#64 else w
/-- A request is abandoned with a cause (R281, R356): its completion action, its write pointer and DONE. -/
def State.abandonCopy (s : State) (c : Nat) (r : CopyReq) (cause : BitVec 8) : State :=
  let s := match r.mode with
    | 1 => s.postMsg c { ty := bits (r.pbWord 0) 8 8, len := 3, src := s.copyTag c r, dst := destWord (r.pbWord 1),
                         payload := [failId r.id, r.pbWord 2, cause.zeroExtend 64], fk := 0 }
    | 2 => s.notice c (r.pbWord 1) (some (6, cause))
    | 3 => s.count c evBarDiscard
    | _ => s
  (s.modCore c fun co => { co with wp := Table.ins co.wp r.chan (Table.get 0 co.wp r.chan + word (r.len - r.done)) }).copyDone c r

/-! The end of a slot. -/

/-- The batches that a slot has open close (R157). -/
def Core.closeBatches (co : Core) (k : Nat) (gen : BitVec 32) : Core :=
  { co with tiles := co.tiles.map fun e =>
      if e.2.opened && e.2.owner.toNat = k && e.2.ownerGen = gen then (e.1, { e.2 with opened := false }) else e }

/-- The ports through which the join packet of a member passes: the count of the router at (x, y), as a key of the die's
table. The port is 0 +x, 1 -x, 2 +y, 3 -y, 4 local (R282). -/
def mcKey (tag x y port : Nat) : Nat := ((tag * 16 + x) * 16 + y) * 8 + port
def mcPath (tag x y : Nat) : List Nat :=
  mcKey tag x y 4 :: ((List.range y).map fun i => mcKey tag x i 2) ++ (List.range x).map fun i => mcKey tag i 0 0
/-- A packet travels to the root: every count that it passes changes by one. -/
def Die.mcCount (d : Die) (tag x y : Nat) (join : Bool) : Die :=
  { d with ports := (mcPath tag x y).foldl (fun t k =>
      let n := Table.get 0 t k
      Table.put 0 t k (if join then (n + 1) % 256 else n - 1)) d.ports }
def State.mcPacket (s : State) (c tag : Nat) (join : Bool) : State :=
  s.modDie (coreDie c) fun d => d.mcCount tag (coreX c) (coreY c) join
/-- A join or leave packet of a core is on its way, or waits at the root (R283). -/
def State.mcPending (s : State) (c tag : Nat) : Bool :=
  s.agenda.any fun e => (e.2.1 = .multicastJoinPacket || e.2.1 = .multicastLeavePacket) && e.2.2.a = c && e.2.2.b = tag
/-- Some join or leave of a tag of a die waits at the root (R283). -/
def State.mcPackets (s : State) (die tag : Nat) : Bool :=
  s.agenda.any fun e => (e.2.1 = .multicastJoinPacket || e.2.1 = .multicastLeavePacket) && coreDie e.2.2.a = die && e.2.2.b = tag

/-- A group leaves every tag that it holds (R288). -/
def State.leaveTags (s : State) (c k : Nat) : State :=
  let gen := (s.slot c k).gen
  let mine := (s.core c).mcast.filter fun e => e.slot = k && e.gen = gen
  let s := s.modCore c fun co => { co with mcast := co.mcast.filter fun e => !(e.slot = k && e.gen = gen) }
  mine.foldl (fun s e => s.soon .multicastLeavePacket { a := c, b := e.tag }) s

/-- A shelf without the accesses of a slot. -/
def dropShelved (s : State) (c k : Nat) (l : List Access) : List Access :=
  l.filter fun a => !(a.pkg = s.pkgId.toNat && a.core = c && a.slot = k)
/-- An access that a shelf may hold (R208). -/
def AccOp.shelves : AccOp → Bool
  | .ldf _ | .stf _ => true
  | _ => false
/-- The sync accesses of a slot are withdrawn from every shelf of the package, and from those of other packages (R209). Its other accesses
have been issued: they are performed, and nobody awaits them (R184). -/
def State.withdrawShelved (s : State) (c k : Nat) : State :=
  let s1 := { s with
    cores := s.cores.map fun e => (e.1, { e.2 with shelf := dropShelved s c k e.2.shelf })
    vaults := s.vaults.map fun e => (e.1, { e.2 with shelf := dropShelved s c k e.2.shelf }) }
  let mine := (s.outstanding c k).filter fun e => e.2.inside
  let s2 := (mine.foldl (fun (s : State) e =>
    if AccOp.shelves e.2.acc.op then
      let s : State := { s with reqs := Table.del s.reqs e.1 }
      if untagged ≤ e.1 then s
      else s.postReq e.2.toPkg e.2.toTgt (s.mkAccess c 63 false .load 0 ⟨0, 0, 0⟩ 8 0) (.withdrawal e.2.acc.tag e.2.epoch)
    else { s with reqs := Table.ins s.reqs e.1 { e.2 with inside := false } }) s1).modSlot c k
    fun sl => { sl with laneq := sl.laneq.map fun x => { x with inside := false } }
  s2.pumpCore c

/-- The cluster barrier completes where its arrivals have reached its expected count (R353). Waiting `cbar` instructions
find GEN advanced. -/
def Cluster.complete (cl : Cluster) : Cluster :=
  if 0 < cl.arr && cl.exp ≤ cl.arr then { cl with gen := cl.gen + 1, arr := 0 } else cl

/-- The banks of the register file that an allocation of `n` registers from register `r` covers (R109). -/
def regBanks (r n : Nat) : List Nat := (List.range 16).filter fun b => r < (b + 1) * 128 && b * 128 < r + n

/-- A group has executed `end` or has been killed (R23, R353): its cluster expects one fewer, and its grid completes with
its last group and its last child. -/
def State.groupEnded (s : State) (m : Member) : State :=
  let s := s.modCluster m.cluster fun cl => ({ cl with exp := cl.exp - 1 }).complete
  let s := s.modGrid m.grid fun g => { g with live := g.live - 1 }
  match s.grid? m.grid with
  | some g =>
    if g.live = 0 && g.children = 0 && g.state ≠ .completing then
      (s.modGrid m.grid fun g => { g with state := .completing }).soon .gridCompletion { a := m.grid }
    else s
  | none => s

/-- The slot is freed and its generation advances (R103, R105, R184). -/
def Slot.freed (sl : Slot) : Slot :=
  { sl with
    gen := sl.gen + 1, state := .free, pri := 0, uia := false, uie := true, uiq := [], taskid := 0, taskfk := 0, p := {},
    q := {}, dual := false, lastQ := true, member := none, task := none, issued := [], done := [], sub := none,
    fetchTrap := false, unsettled := false, handled := false, copyFaults := [], joined := [] }

/-- A slot is freed: the resources that it held are free for a task or a grid. -/
def State.freeSlot (s : State) (c k : Nat) : State :=
  let sl := s.slot c k
  let s := s.modCore c fun co => { co with
    events := co.events.filter fun e => e.2 ≠ k
    regTouched := (regBanks sl.vbase sl.valloc).foldl (fun t b => Table.ins t b s.clk) co.regTouched }
  let s := s.modSlot c k Slot.freed
  let s := match sl.member with
    | some m => s.groupEnded m
    | none => s
  if (s.core c).cls k = 0 then s.soon .admitterPass { a := s.partOf c } else s.soon .taskDispatch { a := c }

/-- A kill of a slot other than the S-slot (R184, Table 7-8). `cause` is the cause with which a task's direct-entry firkin
breaks. -/
def State.killSlot (s : State) (c k : Nat) (cause : BitVec 8) : State :=
  let sl := s.slot c k
  if sl.state = .free then s
  else
    let s := s.withdrawShelved c k
    let s := s.releaseHeld ⟨c, k, sl.gen⟩
    let s := if s.publishes c k then s.closeChannel c else s
    let s := s.unsubscribe c k
    let s := match sl.member with
      | some m => s.queueEnd m true
      | none => s
    let s := s.modCore c fun co => co.closeBatches k sl.gen
    let s := if sl.taskfk ≠ 0 then s.notice c sl.taskfk (some (1, cause)) else s
    let s := (s.core c).copyFaulted.foldl (fun s ch =>
      match ((s.core c).copyq.filter fun r => r.chan = ch).head? with
      | some r => if r.slot = k && r.gen = sl.gen then s.soon .copyCompletion { a := c, b := ch, flag := true } else s
      | none => s) s
    (s.leaveTags c k).freeSlot c k

/-- The cause of R184, step 4. -/
def Slot.killCause (sl : Slot) : BitVec 8 := if sl.state = .trapped then bits sl.cause 0 8 else 0

end Sys2Proof.Machine
end

