-- ==== Sys2Proof/Machine/Ops.lean ====
section
/-! DEFINITION. Taking a trap (R176, R177, R179), the returns from one (R188, R189), and the shape of a meaning: the decode
traps of Table 2-10, rows 5 to 7, the effect, and how the instruction retires or stops. -/

namespace Sys2Proof.Machine

/-! The core check (R176, R177). -/

/-- The access writes; a sync access both reads and writes (R201). -/
def accWrites : AccOp → Bool
  | .load | .full | .pref => false
  | _ => true

/-- The reset refusal of an access: on the package its requester traps TARGET_RESET, elsewhere a refusal is sent. -/
def State.refuseReset (s : State) (a : Access) : State :=
  if a.pkg = s.pkgId.toNat then
    s.trapSlot a.core a.slot a.pathQ { code := cTargetReset, faddr := a.addr, finfo := accInfo 0 (accWrites a.op) false none }
  else s.send a.core (larderCore a.loc) a.part 3 (.reply a.pkg a.core a.tag a.epoch 0 cTargetReset)

/-- The occupied slots of a core but the S-slot. -/
def State.liveSlots (s : State) (c : Nat) : List Nat := (List.range 63).filter fun k => (s.slot c k).state ≠ .free

/-- What stops at a core check (R176, steps 2 and 4): every other slot stops, the direct-entry firkins of the tasks break,
and the tasks end. -/
def State.checkSlots (s : State) (c : Nat) (cause : BitVec 8) : State :=
  (s.liveSlots c).foldl (fun s k =>
    if (s.slot c k).task.isSome then s.killSlot c k cause
    else
      let s := s.releaseHeld ⟨c, k, (s.slot c k).gen⟩
      let s := s.leaveTags c k
      s.modSlot c k fun sl => { sl with state := .stopping, p := { sl.p with wait := .none }, q := { sl.q with wait := .none } }) s

/-- What a core check does to the firkins homed on the core (R177). -/
def State.checkFirkins (s : State) (c : Nat) (cause : BitVec 8) : State :=
  let s := (List.range (s.core c).frtsize.toNat).foldl (fun s i =>
    if fState (s.frt c i 0) = 1 then s.breakFrt c i 8 cause else s) s
  (s.core c).ready.foldl (fun s w => s.notice c (s.frt c w.1 3) (some (8, cause))) s
/-- The request is an access or a code line that slot `k` of core `c` awaits. -/
def Req.isFrom (r : Req) (c k : Nat) : Bool :=
  r.acc.core = c && r.acc.slot = k &&
  match r.owner with
  | .path | .code => true
  | _ => false
/-- The requests of a slot are awaited no longer: their replies come late (R363). -/
def State.forgetReqs (s : State) (c k : Nat) : State := { s with reqs := s.reqs.filter fun e => !e.2.isFrom c k }

/-- A core check with a cause, from step 2 of R176 on: the effects of R177, the report, the reset. The grids of the core's
groups are torn down by events of the admitter, and their slots with them. -/
def State.coreCheck (s : State) (c : Nat) (cause : BitVec 8) : State :=
  if (s.core c).inReset then s
  else
    let grids := ((s.liveSlots c).filterMap fun k => (s.slot c k).member.map Member.grid).eraseDups
    let s := s.closeChannel c
    let s := s.checkSlots c cause
    let s := (s.core c).shelf.foldl (fun s a => s.refuseReset a) s
    let s := s.checkFirkins c cause
    let s := (s.releaseHeld ⟨c, 63, 0⟩).forgetReqs c 63
    let s := (s.core c).copyq.foldl (fun s r => s.abandonCopy c r cause) s
    let s := s.modCore c fun co => { co with
      inReset := true, checkGrids := grids, idle := true, events := [], mailbox := [], port := [], ready := [], pantry := [],
      shelf := [], fkHeld := [], copyq := [], copyFaulted := [], mcmds := [] }
    let s := s.emit (.report c cause)
    if grids = [] then s.soon .coreResetRelease { a := c }
    else grids.foldl (fun s g => s.soon .gridCompletion { a := g, flag := true, cause := cause }) s

/-! Taking a trap, and the returns. -/

/-- A trap of a path (R179): CAUSE, EPC, FADDR and FINFO are written and the slot is TRAPPED; in the S-slot the trap is a core
check (R176). -/
def State.trapAt (s : State) (c k : Nat) (q : Bool) (t : Trap) : State :=
  if k = 63 then (s.modSlot c k fun sl => sl.trapRegs (sl.eff q) t).coreCheck c t.code else s.trapSlot c k q t
/-- A trap of the executing path. -/
def State.takeTrap (s : State) (t : Trap) : State := s.trapAt s.cur.core s.cur.slot s.cur.pathQ t

/-- `eret`, once the S-slot's accesses are performed (R188, R182): the S-slot is idle, the handling of a trap ends, and the
next event is taken in the following clk. -/
def State.endHandling (s : State) : State :=
  let s := s.modCurCore fun co => { co with
    idle := true, slots := co.slots.map fun e => (e.1, { e.2 with handled := false }) }
  s.later (s.clk + 1) .trapEventEntry { a := s.cur.core }

/-- `uret` with UIA = 1 (R189): path P goes on at ULIPC, and UIA is cleared. -/
def State.userReturn (s : State) : State :=
  let pc := s.curSlot.ulipc
  (s.modCur fun sl => { sl with uia := false }).advance s.cur.core s.cur.slot s.cur.pathQ pc

/-! Retiring. -/

/-- The executing path goes on at `pc`. -/
def State.goto (s : State) (pc : Word) : State := s.advance s.cur.core s.cur.slot s.cur.pathQ pc
/-- The executing path goes on at the successor of its instruction (R31). -/
def State.retire (s : State) : State := s.goto s.curPath.succ
/-- The executing path waits inside its instruction. -/
def State.waitFor (s : State) (w : Wait) : State := s.modPath fun p => { p with wait := w }

/-! The decode traps (Table 2-10, rows 5 to 7). -/

/-- The head half-word of an instruction, for FINFO. -/
def headWord (i : Instr) : Word :=
  match encode i with
  | some (h, _) => h.zeroExtend 64
  | none => 0

/-- The instruction is privileged (R174). -/
def privileged : Instr → Bool
  | .eret | .msave _ | .mrest _ | .tlbiMark _ | .tlbiConf _ => true
  | .slotResume _ | .slotKill _ | .slotSkip _ | .slotRds _ | .slotWrs _ | .slotRdv _ | .slotWrv _ | .slotRdm _
  | .slotWrm _ | .slotTdown _ => true
  | .ctlRd o =>
    let n := field o.x 0 10
    o.x.getLsbD 10 || (0x40 ≤ n && n < 0x50 && n ≠ 0x45 && n ≠ 0x4F)
  | .ctlWr o =>
    let n := field o.x 0 10
    o.x.getLsbD 10 || !(n = 6 || n = 0xA || n = 0xB)
  | .ctlWrStatus o => o.x.getLsbD 10
  | .ctlWrTrbase _ | .ctlWrExpert _ | .ctlWrClkfix _ => true
  | _ => false

/-- The registers of an operand of a type: one, or a pair (R113). -/
def pairLen (t : BitVec 4) : Nat := if ty64 t then 2 else 1
/-- The vector registers that vc names: none where it names a scalar (R125). -/
def vcSpan (o : V3) (n : Nat) : List (Nat × Nat) := if scalarVc o.vc then [] else [(o.vc.toNat, n)]
/-- The operand form V3 of an instruction. -/
def v3of : Instr → Option V3
  | .vadd o | .vsub o | .vmul o | .vmulh o | .vfma o | .vmin o | .vmax o | .vabs o | .vneg o | .vdiv o | .vsqrt o
  | .vrcp o | .vrsq o | .vexp2 o | .vlog2 o | .vdot o | .vand o | .vor o | .vxor o | .vnot o | .vshl o | .vshr o
  | .vsar o | .vcmp o | .vsel o | .vcvt o | .vpack o | .vunpk o | .vlut o | .vbcast o | .vlane o | .vperm o | .vshuf o
  | .vcomp o | .vexpd o | .vext o | .vins o | .vred o | .vscan o => some o
  | _ => none
/-- The vector register that a queue instruction names (R256). -/
def queueReg (o : F1) : Nat := field o.x 3 3 * 32 + o.d.toNat

/-- The vector registers that an instruction names, as first register and number, in the order of the fields (R107). -/
def vspans (i : Instr) : List (Nat × Nat) :=
  match i with
  | .vcmp o => (o.va.toNat, pairLen o.ty) :: (o.vb.toNat, pairLen o.ty) :: vcSpan o (pairLen o.ty)
  | .vext o | .vred o => [(o.va.toNat, pairLen o.ty)]
  | .vins o => [(o.vd.toNat, pairLen o.ty)]
  | .vcvt o => [(o.vd.toNat, pairLen o.ty), (o.va.toNat, pairLen (bits o.x 0 4))]
  | .vdot o => (o.vd.toNat, 1) :: (o.va.toNat, 1) :: (o.vb.toNat, 1) :: vcSpan o 1
  | .vpack o => [(o.vd.toNat, 1), (o.va.toNat, spanLen o.ty)]
  | .vunpk o => [(o.vd.toNat, spanLen o.ty), (o.va.toNat, 1)]
  | .vperm o => [(o.vd.toNat, pairLen o.ty), (o.va.toNat, pairLen o.ty), (o.vb.toNat, 1)]
  | .vld o | .vst o => [(o.data.toNat, pairLen o.ty)]
  | .vgat o | .vsct o | .vamo o => [(o.data.toNat, pairLen o.ty), (o.idx.toNat, 1)]
  | .qpush o | .qpop o => [(queueReg o, 1)]
  | .slotRdv o | .slotWrv o => [(o.c.toNat, 1)]
  | .epush o | .epop o => [(field o.x 0 8, 1)]
  | _ =>
    match v3of i with
    | some o => (o.vd.toNat, pairLen o.ty) :: (o.va.toNat, pairLen o.ty) :: (o.vb.toNat, pairLen o.ty) :: vcSpan o (pairLen o.ty)
    | none => []

/-- The scalar registers that an instruction names (R82, R122); s0 is never in flight. -/
def scalarsNamed (i : Instr) : List Nat :=
  let f1 := fun (o : F1) => [o.d.toNat, o.a.toNat]
  let f2 := fun (o : F2) => [o.d.toNat, o.a.toNat, o.b.toNat, o.c.toNat]
  let m3 := fun (o : M3) => [field o.data 0 5, o.base.toNat, o.idx.toNat]
  let four := fun (a : BitVec 5) => (List.range 4).map fun i => a.toNat + i
  match i with
  | .movc o | .addc o | .trap _ o | .mpop o | .mfirst o | .barInit o | .barArr o | .barWait o | .barSync o | .barInv o | .cbar o
  | .qstat o | .qinit o | .pub o => f1 o
  | .qpop o => [o.a.toNat]
  | .add o | .sub o | .and o | .or o | .xor o | .andn o | .shl o | .shr o | .sar o | .rol o | .min o | .max o | .mul o | .mulh o
  | .div o | .rem o | .sel o | .cmp o | .clz o | .ctz o | .popc o | .bext o | .bins o | .sid o | .fadd o | .fsub o | .fmul o
  | .fma o | .fdiv o | .fsqrt o | .fmin o | .fmax o | .fcmp o | .fcvt o | .fclass o | .jr o | .cpst o | .cpwait o | .mcjoin o
  | .mcleave o | .subChannel o | .resub o | .invf o | .resolve o | .fkget o | .fkstate o | .fkbreak o | .lease o | .lrel o
  | .estat o | .epush o | .epop o | .launch o | .lwait o | .ctlRd o | .ctlWr o | .ctlWrStatus o | .ctlWrTrbase o
  | .ctlWrExpert o | .ctlWrClkfix o | .slotResume o | .slotKill o | .slotSkip o | .slotRds o | .slotWrs o | .slotRdv o
  | .slotWrv o | .slotRdm o | .slotWrm o | .slotTdown o | .tlbiMark o | .tlbiConf o => f2 o
  | .mtest o => [o.d.toNat]
  | .callr o => 31 :: f2 o
  | .ret _ | .call _ => [31]
  | .fkplace o => (o.d.toNat + 1) :: f2 o
  | .send o | .sendjc o => f2 o ++ (List.range (field o.x 8 3)).map fun i => o.b.toNat + i
  | .invoke o => f2 o ++ (List.range o.x.toNat).map fun i => o.b.toNat + i
  | .cpy o => o.d.toNat :: four o.a
  | .li o | .lih o | .addi o | .andi o | .ori o | .xori o | .shli o | .shri o | .sari o | .cmpi o | .muli o | .addr o => [o.d.toNat, o.a.toNat]
  | .midx o | .mst o | .mld o | .msave o | .mrest o => [o.a.toNat]
  | .mset o => [o.a.toNat]
  | .mtab o => [o.a.toNat, o.a.toNat + 1]
  | .mstep o => four o.a
  | .bc _ o => [o.a.toNat, o.b.toNat]
  | .loop o => [o.a.toNat]
  | .ld o | .st o | .ldf o | .stf o | .fe o | .amo o | .famo o | .dec o => m3 o
  | .cas o => (field o.data 0 5 + 1) :: m3 o
  | .pref o | .vld o | .vst o => [o.base.toNat, o.idx.toNat]
  | .vgat o | .vsct o | .vamo o => [o.base.toNat]
  | .vext o => [o.vd.toNat]
  | .vred o => [o.vd.toNat]
  | _ =>
    match v3of i with
    | some o => if scalarVc o.vc then [field o.vc 0 5] else []
    | none => []
/-- The registers that an instruction names, as 0 for a scalar or 1 for a vector register and its number. -/
def regsNamed (i : Instr) : List (Nat × Nat) :=
  ((scalarsNamed i).map fun r => (0, r)) ++ (vspans i).flatMap fun r => (List.range r.2).map fun j => (1, r.1 + j)

/-- The registers that an instruction which may wait writes (R82, R122). -/
def destsOf (i : Instr) : List (Nat × Nat) :=
  let d := fun (r : BitVec 5) => if r = 0 then [] else [(0, r.toNat)]
  let v := fun (o : M3) => (List.range (pairLen o.ty)).map fun j => (1, o.data.toNat + j)
  match i with
  | .ld o | .fe o | .amo o | .famo o | .cas o => d (bits o.data 0 5)
  | .ldf o => d (bits o.data 0 5) ++ d o.idx
  | .stf o => d o.idx
  | .vld o | .vgat o | .vamo o => v o
  | .barArr o | .barWait o | .barSync o | .cbar o => d o.d
  | .cpy o => d o.d
  | .epop o => (1, field o.x 0 8) :: d o.d
  | .cpst o | .cpwait o | .mcjoin o | .mcleave o | .subChannel o | .resub o | .invf o | .resolve o | .fkget o | .fkstate o | .fkbreak o
  | .fkplace o | .lease o | .lrel o | .estat o | .epush o | .launch o | .lwait o | .tlbiMark o | .tlbiConf o | .send o | .sendjc o
  | .slotResume o | .slotKill o | .slotSkip o | .slotRds o | .slotWrs o | .slotTdown o => d o.d
  | .invoke o => d o.d
  | _ => []

/-- The mask registers that an instruction names. -/
def masksNamed (i : Instr) : List Nat :=
  match i with
  | .vcmp o => [o.vd.toNat, o.mask.toNat]
  | .mand o | .mor o | .mxor o => [o.d.toNat, o.a.toNat, o.b.toNat]
  | .mnot o => [o.d.toNat, o.a.toNat]
  | .mpop o | .mfirst o => [o.a.toNat]
  | .mset o => [o.d.toNat]
  | .mtest o => [o.a.toNat, o.b.toNat]
  | .brd o => [o.mask.toNat]
  | .vld o | .vst o | .vgat o | .vsct o => [o.mode.toNat]
  | _ =>
    match v3of i with
    | some o => [o.mask.toNat]
    | none => []

/-- The first register of an instruction that is out of range (R107, R115), with 0 for a vector register, 1 for a mask. -/
def State.outOfRange (s : State) (i : Instr) : Option (Nat × Nat) :=
  let n := s.curSlot.valloc
  match (vspans i).find? fun r => n < r.1 + r.2 with
  | some r => some (max r.1 n, 0)
  | none => if s.isTask then ((masksNamed i).find? fun m => 8 ≤ m).map fun m => (m, 1) else none

/-- ILLEGAL_INSTR at the executing instruction. -/
def State.illegal (s : State) (i : Instr) : Trap := { code := cIllegalInstr, faddr := s.pc, finfo := headWord i }

/-- An instruction that names a vector register and that only a grid group may execute (R256). -/
def State.illegalHere (s : State) (i : Instr) : Bool :=
  match i with
  | .qpush _ | .qpop _ => !s.isGroup
  | _ => false

/-- The decode traps, in the order of Table 2-10. The rules of chapter 5 that raise ILLEGAL_INSTR stand with row 5 [log 57, DESIGN
CHOICE]. -/
def State.gate (s : State) (i : Instr) : Option Trap :=
  if !wellFormed i || s.illegalHere i then some (s.illegal i)
  else if privileged i && !s.isS then some { code := cPrivileged, faddr := s.pc, finfo := headWord i }
  else (s.outOfRange i).map fun r => { code := cRegRange, finfo := BitVec.ofNat 64 (r.1 + 256 * r.2) }

/-! The shape of a meaning. -/

/-! The registers of an instruction that waits. Its operands are those at its issue, which the other path of the group may write
meanwhile, and the registers that it writes are in flight (R82, R122). -/

/-- The registers of a slot. -/
def Slot.regs (sl : Slot) : Regs := ⟨sl.sregs, sl.vregs, sl.mregs⟩
/-- The executing slot with other registers. -/
def State.withRegs (s : State) (r : Regs) : State := s.modCur fun sl => { sl with sregs := r.s, vregs := r.v, mregs := r.m }
/-- The entries of `base`, but those in which `new` differs from `old`. -/
def overlay {n : Nat} (base old new : Table (BitVec n)) : Table (BitVec n) :=
  ((old ++ new).map Prod.fst).eraseDups.foldl
    (fun t k => if Table.get 0 new k = Table.get 0 old k then t else Table.put 0 t k (Table.get 0 new k)) base
/-- What an instruction that has read the registers `kept` has written, over the registers `base` that the slot holds. -/
def State.overRegs (s : State) (base kept : Regs) : State :=
  s.modCur fun sl =>
    { sl with sregs := overlay base.s kept.s sl.sregs, vregs := overlay base.v kept.v sl.vregs, mregs := overlay base.m kept.m sl.mregs }
/-- A result with every state that it holds changed. -/
def mapAct (f : State → State) : Act State → Act State
  | .ok s => .ok (f s)
  | .error (.trapAfter t s) => .error (.trapAfter t (f s))
  | .error (.holdAfter w s) => .error (.holdAfter w (f s))
  | .error e => .error e
/-- An effect on the registers that the executing path has kept since the issue of its instruction, if it has kept any. -/
def State.onKept (s : State) (body : State → Act State) : Act State :=
  match s.curPath.kept with
  | none => body s
  | some r => mapAct (fun t => t.overRegs s.curSlot.regs r) (body (s.withRegs r))
/-- The executing path waits inside the instruction `i`, whose registers at its issue are `r`. -/
def State.waitInside (s : State) (i : Instr) (r : Regs) (w : Wait) : State :=
  s.modPath fun p =>
    if w.issued then
      { p with wait := w, flight := destsOf i, kept := if s.curSlot.dual && p.kept.isNone then some r else p.kept }
    else { p with wait := w }

/-- What a meaning that stops leaves of the state `s` from which it started. -/
def Stop.after (e : Stop) (i : Instr) (s : State) : State :=
  match e with
  | .trap t => s.takeTrap t
  | .trapAfter t s' => s'.takeTrap t
  | .hold w => s.waitInside i s.curSlot.regs w
  | .holdAfter w s' => s'.waitInside i s.curSlot.regs w

/-- The state that a result leaves. -/
def finish (i : Instr) (s : State) (r : Act State) : State :=
  match r with
  | .ok s' => s'
  | .error e => e.after i s

/-- An instruction: the decode traps, then its effect. -/
def run (i : Instr) (s : State) (body : State → Act State) : Host.Outcome State Fault Refusal :=
  match s.gate i with
  | some t => .next (s.takeTrap t)
  | none => .next (finish i s (s.onKept body))

/-- The trap ILLEGAL_INSTR that an instruction raises at execution. -/
def State.raiseIllegal (s : State) (i : Instr) : Act State := .error (.trap (s.illegal i))

end Sys2Proof.Machine
end

