-- ==== Sys2Proof/Machine/Homes.lean ====
section
/-! DEFINITION. What a home does with the accesses that reach it (R222): larder controllers, Vault bases and the Filfel link,
with poison (R198, R241), the F/E bit (R207), the atomics (R215 to R217), `dec` (R347), the race trace ring (R235), the ready
ring (R271 to R273) and the shelves (R274). -/

namespace Sys2Proof.Machine

/-- What a home answers. A fault is answered with its cause; a line of which a poisoned word has stopped the write with the bytes that have
been written. -/
inductive Res where
  | value (w : Word)
  | short (n : Nat)
  | notReady
  | shelved
  | refused
  | fault (cause : BitVec 8)
  deriving DecidableEq, Repr

/-! Atomic operations. -/

/-- The new value of an atomic operation (Table 8-7). -/
def amoNew (op ty : BitVec 4) (x y : Nat) : Nat :=
  let w := tyWidth ty
  if tyFlt ty then
    let f := fmtOf ty
    match op.toNat with
    | 1 => f.encode .rne (Fp.add .rne (f.decode x) (f.decode y))
    | 5 => f.encode .rne (Fp.minimum (f.decode x) (f.decode y))
    | 6 => f.encode .rne (Fp.maximum (f.decode x) (f.decode y))
    | _ => y
  else
    match op.toNat with
    | 0 => y % 2 ^ w
    | 1 => (x + y) % 2 ^ w
    | 2 => x &&& y % 2 ^ w
    | 3 => x ||| y % 2 ^ w
    | 4 => x ^^^ y % 2 ^ w
    | 5 => wrapTo w (min (elemInt ty x) (elemInt ty y))
    | _ => wrapTo w (max (elemInt ty x) (elemInt ty y))

/-! The race trace ring. -/

/-- A slot of a core other than the larder's own has issued the access; those of the devices of a package are not logged (R236). -/
def State.traced (s : State) (a : Access) : Bool :=
  isLarder a.loc && (s.core (larderCore a.loc)).trbase.getLsbD 0 && a.core < nCores &&
  (a.pkg ≠ s.pkgId.toNat || a.core ≠ larderCore a.loc)

/-- One entry of the race trace ring is logged (Table 9-10, R236): it is written after its access, in sequence order. -/
def State.logTrace (s : State) (a : Access) (kind size off : Nat) : State :=
  if !s.traced a then s
  else
    let c := larderCore a.loc
    let co := s.core c
    let n := co.traceSeq
    let entries := 2 ^ (field co.trbase 8 4 + 6)
    let base := BitVec.ofNat 64 (field co.trbase 12 52 * 4096 + 16 * (n.toNat % entries))
    let d0 := BitVec.ofNat 64 (n.toNat * 2 ^ 32 + a.pkg * 2 ^ 21 + a.core * 2 ^ 10 + a.slot * 16 + kind)
    let d1 := BitVec.ofNat 64 (size * 2 ^ 56 + off)
    (s.modCore c fun co => { co with traceSeq := n + 1, traceq := co.traceq ++ [(base, d0, d1)] }).soon .accessAtHome { a := c }

/-! The ready ring. -/

/-- The place of doubleword `i` of the ready ring of a core; the two after the ring are the chain words (R271). -/
def State.ringLoc (s : State) (c i : Nat) : Nat := larderLoc c (((s.core c).rrbase.toNat + 8 * i) % 2 ^ 21)
def Core.ringSize (co : Core) : Nat := co.rrsize.toNat
/-- The chain head and tail. -/
def State.chainHead (s : State) (c : Nat) : Word := s.read64 (s.ringLoc c (s.core c).ringSize)
def State.chainTail (s : State) (c : Nat) : Word := s.read64 (s.ringLoc c ((s.core c).ringSize + 1))
/-- No chain (R271). -/
def noLink : Word := BitVec.allOnes 64
/-- The descriptors in the ring. -/
def Core.ringCount (co : Core) : Nat := (co.rrtail.toNat + 65536 - co.rrhead.toNat) % 65536

/-- One of these places is poisoned: the core undergoes a core check (R387). -/
def State.structPoison (s : State) (l : List Nat) : Bool := l.any fun loc => s.poisoned loc

/-- The place of the LINK word of a descriptor (R271). -/
def linkLoc (c off : Nat) : Nat := larderLoc c ((off + 24) % 2 ^ 21)
/-- The places that a push on the ready ring of a core reads or writes (R273). -/
def State.pushLocs (s : State) (c off : Nat) : List Nat :=
  let co := s.core c
  [s.ringLoc c co.ringSize, s.ringLoc c (co.ringSize + 1), s.ringLoc c (co.rrtail.toNat % co.ringSize), linkLoc c off,
   linkLoc c (field (s.chainTail c) 0 21)]
/-- A descriptor at a larder offset is pushed on its core's ready ring, whose banks are awake. -/
def State.pushNow (s : State) (c off : Nat) : State :=
  let co := s.core c
  let headLoc := s.ringLoc c co.ringSize
  let tailLoc := s.ringLoc c (co.ringSize + 1)
  if s.structPoison [headLoc, tailLoc] then s.coreCheck c cPoison
  else if s.chainHead c = noLink && co.ringCount < co.ringSize then
    ((s.writeStruct (s.ringLoc c (co.rrtail.toNat % co.ringSize)) (word off)).modCore c fun co =>
      { co with rrtail := word ((co.rrtail.toNat + 1) % 65536) }).soon .taskDispatch { a := c }
  else
    let s1 := s.writeStruct (linkLoc c off) noLink
    let s2 := if s.chainHead c = noLink then s1.writeStruct headLoc (word off)
      else s1.writeStruct (linkLoc c (field (s.chainTail c) 0 21)) (word off)
    (s2.writeStruct tailLoc (word off)).modCore c fun co => { co with rrovf := word ((co.rrovf.toNat + 1) % 2 ^ 32) }
/-- A descriptor at a larder offset is pushed on its core's ready ring (R273): at once, or when the banks of the places that this
takes have left retention (R197). -/
def State.pushDescriptor (s : State) (c off : Nat) : State :=
  let r := s.wakeFor (s.pushLocs c off)
  if s.clk < r.2 then r.1.later r.2 .accessAtHome { a := c, b := 2, c := off } else r.1.pushNow c off

/-! Performing an access. -/

/-- A write of the low `size` bytes of a word: a whole larder word clears poison (R198); other writes to poisoned memory
fail (R198, R241). -/
def State.storeAt (s : State) (loc size : Nat) (v : Word) : Option State :=
  if s.poisonedIn loc size then
    if isLarder loc && size = 8 then some (s.writeWord loc v) else none
  else some (s.writeN loc size v.toNat)

/-- A write of the copy engine within one word (R279, R198, R241): a whole larder word and a whole Vault line clear poison and
set F/E full; other writes to poisoned memory fail. Host memory has no F/E bits. -/
def State.copyPiece (s : State) (loc size : Nat) (v : Word) (full : Option Bool) (poison whole : Bool) : Option State :=
  let bad := s.poisonedIn loc size
  if bad && !whole && !(isLarder loc && size = 8) then none
  else
    let s := if bad then (poisonUnit loc).foldl (fun s w => s.setFull (8 * w) true) (s.setPoison loc false) else s
    let s := s.writeN loc size v.toNat
    let s := match full with
      | some b => if isHost loc then s else s.setFull loc b
      | none => s
    some (if poison then s.setPoison loc true else s)

/-- The stretches of `n` bytes from an address that lie in one doubleword each. -/
def dwPieces (ea : Word) (n : Nat) : List (Word × Nat) :=
  let lo := ea.toNat % 8
  (List.range ((lo + n + 7) / 8)).map fun i =>
    let first := max (8 * i) lo
    (ea + word (first - lo), min (8 * i + 8) (lo + n) - first)
/-- Little-endian bytes as a number. -/
def bytesNat (l : List Byte) : Nat := l.foldr (fun b acc => b.toNat + 256 * acc) 0
/-- A stretch of destination bytes with its place in the line. -/
structure CopyOut where
  off : Nat
  addr : Word
  n : Nat
  v : Word
  full : Option Bool
  poison : Bool
  deriving DecidableEq, Repr
/-- The stretches that a line's bytes make at a destination address. Outside larder space poison spreads over the whole of the
line, with the last stretch. -/
def copyOuts (larder : Bool) (dst : Word) (bytes : List (Byte × Bool)) (fulls : Option (List Bool)) : List CopyOut :=
  let any := bytes.any fun b => b.2
  ((dwPieces dst bytes.length).foldl (fun (acc : List CopyOut × Nat) p =>
    let mine := (bytes.drop acc.2).take p.2
    (acc.1 ++ [{ off := acc.2, addr := p.1, n := p.2, v := word (bytesNat (mine.map Prod.fst))
                 full := fulls.map fun l => l.getD (acc.2 / 8) true
                 poison := if larder then mine.any fun b => b.2 else any && bytes.length ≤ acc.2 + p.2 }], acc.2 + p.2)) ([], 0)).1
/-- The stretches written from a place on, up to one that fails: its distance from the place. -/
def State.copyOutHere (s : State) (loc : Nat) (whole : Bool) : List CopyOut → State × Option Nat
  | [] => (s, none)
  | x :: rest =>
    match s.copyPiece (loc + x.off) x.n x.v x.full x.poison whole with
    | none => (s, some x.off)
    | some s' => s'.copyOutHere loc whole rest

/-- What an access does at its home, the shelf and the trace apart: the state, the answer, and whether it changed or set an
F/E bit. The access has its home on this package. -/
def State.act (s : State) (a : Access) : State × Res × Bool :=
  let old := s.readN a.loc a.size
  -- a whole larder word that was poisoned becomes full (R198)
  let heals : Bool := isLarder a.loc && s.poisonedIn a.loc a.size
  match a.op with
  | .load => (s, if s.poisonedIn a.loc a.size then .fault cPoison else .value (BitVec.ofNat 64 old), false)
  | .store _ =>
    match s.storeAt a.loc a.size a.data with
    | some s' => (s', .value 0, heals)
    | none => (s, .fault cPoison, false)
  | .store16 =>
    match (s.storeAt a.loc 8 a.data).bind fun s => s.storeAt (a.loc + 8) 8 a.data2 with
    | some s' => (s', .value 0, heals)
    | none => (s, .fault cPoison, false)
  | .nibble hi _ =>
    let b := if hi then old % 16 + 16 * (a.data.toNat % 16) else old / 16 * 16 + a.data.toNat % 16
    match s.storeAt a.loc 1 (word b) with
    | some s' => (s', .value 0, false)
    | none => (s, .fault cPoison, false)
  | .amo op ty =>
    if s.poisonedIn a.loc a.size then (s, .fault cPoison, false)
    else (s.writeN a.loc a.size (amoNew op ty old a.data.toNat), .value (BitVec.ofNat 64 old), false)
  | .cas _ =>
    if s.poisonedIn a.loc a.size then (s, .fault cPoison, false)
    else
      (if old = a.data.toNat % 256 ^ a.size then s.writeN a.loc a.size a.data2.toNat else s, .value (BitVec.ofNat 64 old), false)
  | .ldf fe =>
    if s.poisoned a.loc then (s, .fault cPoison, false)
    else if !s.full a.loc then (s, .notReady, false)
    else (if fe then s.setFull a.loc false else s, .value (BitVec.ofNat 64 old), fe)
  | .stf any =>
    if s.poisoned a.loc then (s, .fault cPoison, false)
    else if !any && s.full a.loc then (s, .notReady, false)
    else ((s.write64 a.loc a.data).setFull a.loc true, .value 0, true)
  | .fe set =>
    if s.poisoned a.loc then (s, .fault cPoison, false)
    else (s.setFull a.loc set, .value (if s.full a.loc then 1 else 0), true)
  | .dec =>
    if s.poisoned a.loc then (s, .fault cPoison, false)
    else
      let c := larderCore a.loc
      let amount := field a.data 0 32
      if !s.full a.loc || old = 0 || amount = 0 then (s.count c evDecDiscard, .value 0, false)
      else if amount < old then (s.write64 a.loc (word (old - amount)), .value 1, false)
      else (((s.write64 a.loc 0).setFull a.loc false).pushDescriptor c (larderOff a.loc), .value 1, true)
  | .copy full poison whole =>
    match s.copyPiece a.loc a.size a.data full poison whole with
    | some s' => (s', .value 0, full.isSome || heals || whole)
    | none => (s, .fault cPoison, false)
  | .line l fulls =>
    match s.copyOutHere a.loc (l.length = 64) (copyOuts (isLarder a.loc) a.addr l fulls) with
    | (s', none) => (s', .value (word l.length), true)
    | (s', some k) => (s', .short k, true)
  | .full => (s, .value (if s.full a.loc then 1 else 0), false)
  | .pref => (s, .value 0, false)

/-- The KIND, the SIZE and the first byte of the trace entry of an access that was performed (Table 9-10) [log 25, DEDUCED]. The one
entry of a line of a `vst` is that of its last lane there, whose data2 holds the bytes written and the distance back to the
first. -/
def accKind (a : Access) (r : Res) : Option (Nat × Nat × Nat) :=
  let off := larderOff a.loc
  match a.op, r with
  | .store k, .value _ | .nibble _ k, .value _ =>
    if k = 15 then none
    else if k = 1 then some (1, a.data2.toNat % 256, off - a.data2.toNat / 256)
    else some (k, a.size, off)
  | .store16, .value _ => some (1, 16, off)
  | .stf _, .value _ => some (3, 8, off)
  | .fe _, .value _ => some (4, 8, off)
  | .amo _ _, .value _ => some (5, a.size, off)
  | .cas _, .value _ => some (5, a.size, off)
  | .dec, .value w => if w = 1 then some (6, 8, off) else none
  | _, _ => none

/-- A write by software to `n` bytes from a place: one that reaches an FRT after its first allocation makes the outcomes of its
firkin operations unpredictable (R314). -/
def State.spoil (s : State) (loc n : Nat) : State :=
  if !isLarder loc then s
  else
    let co := s.core (larderCore loc)
    if co.frtUsed && co.frtbase.toNat < larderOff loc + n && larderOff loc < co.frtbase.toNat + 32 * co.frtsize.toNat then
      s.modCore (larderCore loc) fun co => { co with frtSpoiled := true }
    else s

/-- A performed write of a datum that carries a poison flag poisons its place (R245). -/
def State.carryPoison (s : State) (a : Access) (r : Res) : State :=
  match r with
  | .value _ => if a.bad && accWrites a.op && !isHost a.loc then s.setPoison a.loc true else s
  | _ => s
/-- An access performed at its home, its trace entry logged. -/
def State.actTraced (s : State) (a : Access) : State × Res × Bool :=
  let r := s.act a
  let s1 := (r.1.carryPoison a r.2.1).touchHome a.loc a.size a.pkg a.part
  let s' := if accWrites a.op then s1.spoil a.loc a.size else s1
  (match accKind a r.2.1 with
   | some (k, n, off) => s'.logTrace a k n off
   | none => s', r.2)

/-! Shelves. -/

/-- The entries of a home's shelf. -/
def shelfSize (loc : Nat) : Nat := if isLarder loc then 64 else 2048
def State.setShelf (s : State) (loc : Nat) (l : List Access) : State :=
  if isLarder loc then s.modCore (larderCore loc) fun co => { co with shelf := l }
  else s.modVault (loc / 2 ^ 37) fun v => { v with shelf := l }

/-- The value that an access gives its destination: a load's type is in data2 (R206, R215). -/
def accValue (a : Access) (w : Word) : Word :=
  match a.op with
  | .load => extend64 (bits a.data2 0 4) w.toNat
  | .amo _ ty | .cas ty => extend64 ty w.toNat
  | _ => w

/-- The register writes of a sync access or atomic that has been answered with a value: the data and, where a status
register is named, OK (R208); where both are one register, the status stands [log 61, DESIGN CHOICE]. The destination is absent where
it is s0. -/
def Slot.answer (sl : Slot) (a : Access) (w : Word) : Slot :=
  let sl := match a.op with
    | .stf _ | .store _ | .store16 | .nibble _ _ | .dec | .copy _ _ _ | .line _ _ => sl
    | _ => sl.setS a.dest.toNat (accValue a w)
  sl.setS a.status.toNat stOK

/-- The trap of an access whose answer is a fault. -/
def accTrap (a : Access) (cause : BitVec 8) : Trap :=
  { code := cause, faddr := a.addr, finfo := accInfo 0 (accWrites a.op) false none }

/-- The answer of an access that its path awaits inside its instruction. A path that has gone is answered nothing. -/
def State.answerPath (s : State) (a : Access) (r : Res) : State :=
  let sl := s.slot a.core a.slot
  if sl.gen ≠ a.gen then s
  else
    match r with
    | .value w =>
      (s.modSlot a.core a.slot fun sl => sl.answer a w).advance a.core a.slot a.pathQ (sl.path (sl.eff a.pathQ)).succ
    | .notReady =>
      (s.modSlot a.core a.slot fun sl => sl.setS a.status.toNat stNotReady).advance a.core a.slot a.pathQ
        (sl.path (sl.eff a.pathQ)).succ
    | .fault c => s.trapAt a.core a.slot a.pathQ (accTrap a c)
    | _ => s

/-- The data and the cause of a reply (cause 0: a value). -/
def Res.reply : Res → Word × BitVec 8
  | .value w => (w, 0)
  | .short n => (word n, cPoison)
  | .fault c => (0, c)
  | .notReady => (stNotReady, 0xFF)
  | _ => (0, 0xFE)

/-! Pantries (R345). -/

/-- The pantry of a place's home, and its size (R345). -/
def State.pantry (s : State) (loc : Nat) : List PantryEntry :=
  if isLarder loc then (s.core (larderCore loc)).pantry else if isHost loc then s.filfelPantry else (s.vault (loc / 2 ^ 37)).pantry
def pantrySize (loc : Nat) : Nat := if isLarder loc then 256 else if isHost loc then 1024 else 4096
def State.setPantry (s : State) (loc : Nat) (l : List PantryEntry) : State :=
  if isLarder loc then s.modCore (larderCore loc) fun co => { co with pantry := l }
  else if isHost loc then { s with filfelPantry := l }
  else s.modVault (loc / 2 ^ 37) fun v => { v with pantry := l }
/-- The key of a request at a pantry. -/
def PantryEntry.isFor (e : PantryEntry) (pkg core tag epoch : Nat) : Bool :=
  e.pkg = pkg && e.core = core && e.tag = tag && e.epoch = epoch
/-- A home's pantry has no room, with the places that accesses on its shelf will take (R345) [log 48, DEDUCED]. -/
def State.pantryFull (s : State) (loc : Nat) : Bool :=
  pantrySize loc ≤ (s.pantry loc).length + ((s.shelfOf loc).filter fun a => a.pkg ≠ s.pkgId.toNat).length
/-- A place at a home of a number. -/
def homeLoc (n : Nat) : Nat := if n < nCores then larderLoc n 0 else if n = hatchA then hostLoc 0 else (n - 1280) * 2 ^ 37
/-- A request performed for another package takes an entry, which expires after 4 × TO. -/
def State.pantryAdd (s : State) (loc : Nat) (e : PantryEntry) : State :=
  let till := s.clk + (if isHost loc then 16777216 else 2097152)
  (s.setPantry loc (s.pantry loc ++ [{ e with till := till }])).later till .pantryExpiry
    { a := homeNo loc, b := e.pkg, c := e.core, d := e.tag, e := e.epoch }

/-- An access that is performed once: its reply stands in a pantry (R345). -/
def AccOp.once : AccOp → Bool
  | .amo _ _ | .cas _ | .ldf _ | .stf _ | .fe _ | .dec => true
  | _ => false
/-- A home replies to a request that crossed a link: to another package, or over the Filfel link of this one while it is up. -/
def State.sendReply (s : State) (a : Access) (data : Word) (cause : BitVec 8) : State :=
  if a.pkg ≠ s.pkgId.toNat then s.send a.core (homeNo a.loc) a.part 3 (.reply a.pkg a.core a.tag a.epoch data cause)
  else s.overFilfel .replyArrival { a := a.core * 4096 + a.tag, b := a.epoch, word := data, cause := cause }
/-- The answer of an access that crossed a link, which takes a pantry entry where it was performed (R345). -/
def State.replyAway (s : State) (a : Access) (r : Res) : State :=
  let done := match r with
    | .value _ => AccOp.once a.op
    | _ => false
  let s := if done then s.pantryAdd a.loc ⟨a.pkg, a.core, a.tag, a.epoch, r.reply.1, r.reply.2, none, 0⟩ else s
  s.sendReply a r.reply.1 r.reply.2

/-- The answer of an access that was shelved, on the package or across a link (R275). -/
def State.answerShelved (s : State) (a : Access) (r : Res) : State :=
  if a.pkg = s.pkgId.toNat then s.answerPath a r
  else s.replyAway a r

/-- The shelf examines the entries for the word of a place in order, and performs each that the word's state satisfies until
it meets one that cannot be performed (R274). -/
def State.shelfPass (s : State) (loc : Nat) : Nat → State
  | 0 => s
  | n + 1 =>
    match (s.shelfOf loc).find? fun a => a.loc = loc with
    | none => s
    | some a =>
      match s.actTraced a with
      | (_, .notReady, _) => s
      | (s', r, _) => ((s'.setShelf loc ((s'.shelfOf loc).erase a)).answerShelved a r).shelfPass loc n

/-- The shelf examines the entries of the words that `n` bytes from a place touch. -/
def State.shelfPasses (s : State) (loc n : Nat) : State :=
  (List.range ((loc % 8 + n + 7) / 8)).foldl (fun s i => s.shelfPass (loc / 8 * 8 + 8 * i) 4096) s
/-- An access at its home on this package (R222): performed, or shelved, answered NOTREADY or refused where it cannot be
satisfied (R208, R274). -/
def State.perform (s : State) (a : Access) : State × Res :=
  match s.actTraced a with
  | (_, .notReady, _) =>
    if !a.grid then (s, .notReady)
    else if shelfSize a.loc ≤ (s.shelfOf a.loc).length then (s, .refused)
    else (s.setShelf a.loc (s.shelfOf a.loc ++ [a]), .shelved)
  | (s', r, fe) => (if fe then s'.shelfPasses a.loc a.size else s', r)

/-! The writes of the race trace ring (R235, R236). -/

/-- A write of the ring crosses the links, or waits for a tag: the next entry waits for it. -/
def State.traceAway (s : State) (c : Nat) : Bool :=
  (s.reqs.any fun e => e.2.owner = .engine && e.2.acc.core = c) || (s.core c).sendq.any fun x => x.2.2.2 = .engine
/-- A doubleword of an entry is written at a place of the package as a whole 64-bit store, which sets F/E full (R235). -/
def State.traceStore (s : State) (loc : Nat) (v : Word) : State :=
  let s := (s.write64 loc v).setFull loc true
  (if isLarder loc then s.setPoison loc false else s).shelfPass loc 4096
/-- A trace write would fault: EN is cleared, and nothing more is written. -/
def State.traceOff (s : State) (c : Nat) : State :=
  s.modCore c fun co => { co with trbase := co.trbase &&& ~~~1#64, traceq := [] }
/-- Where an entry at an address of the ring is written: its home, or that its translation stalls; none where the write faults. -/
def State.traceHome (s : State) (c : Nat) (a : Word) : Option (Option Home) :=
  if isLarderAddr a then some (some ⟨s.pkgId.toNat, larderLoc c (aOff a), 0⟩)
  else if field a 57 6 ≠ 0 then none
  else
    match s.translate c (field a 0 57) ⟨false, true, false⟩ with
    | .error (.stall _) => some none
    | .error (.fault _ _) => none
    | .ok h =>
      if s.across h then some (some h)
      else if (s.lentFault h.loc s.pkgId.toNat (s.partOf c)).isSome || (isVault h.loc && s.poisonedIn h.loc 16) then none
      else some (some h)
/-- The two doublewords of an entry on their way across a link: whole 64-bit stores that set F/E full (R235). -/
def State.traceSend (s : State) (c : Nat) (a : Word) (h : Home) (d0 d1 : Word) : State :=
  [(0, d0), (8, d1)].foldl (fun s (x : Nat × Word) =>
    s.postReq h.pkg h.target
      (s.mkAccess c 63 false (.copy (some true) false false) (a + word x.1) { h with loc := h.loc + x.1 } 8 x.2) .engine) s
/-- The entries that have been logged are written in sequence order (R236): on the package when the larder bank serves them (R196), in
another package one after the other's replies; an entry whose translation stalls is tried again in the next clk. -/
def State.flushTrace (s : State) (c : Nat) : Nat → State
  | 0 => s
  | n + 1 =>
    match (s.core c).traceq with
    | [] => s
    | (a, d0, d1) :: rest =>
      if s.traceAway c then s
      else
        let w := if isLarderAddr a then s else s.install c (field a 0 57) ⟨false, true, false⟩
        match s.traceHome c a with
        | none => w.traceOff c
        | some none => w.later (s.clk + 1) .accessAtHome { a := c }
        | some (some h) =>
          if s.across h then (w.modCore c fun co => { co with traceq := rest }).traceSend c a h d0 d1
          else
            let r := w.arriveAll h.loc 16
            if s.clk < r.2 then r.1.later r.2 .accessAtHome { a := c }
            else
              let s := (r.1.modCore c fun co => { co with traceq := rest }).touchHome h.loc 16 s.pkgId.toNat (s.partOf c)
              ((s.traceStore h.loc d0).traceStore (h.loc + 8) d1).flushTrace c n

/-- The back-off of R274 after `k` refusals. -/
def backOff (k : Nat) : Nat := 32 * 2 ^ min (k - 1) 7

/-- A refused access is sent again after its back-off (R274). -/
def State.retryAccess (s : State) (a : Access) : State :=
  let a := { a with refusals := a.refusals + 1 }
  let s := s.count a.core evRefusal
  let s := if isVault a.loc then s.countAll evVRefusal else s
  s.later (s.clk + backOff a.refusals) .shelfRetry { body := .access a }

/-! Pairs of other partitions (R366). -/

/-- A request of another package reaches what the pair of a place holds (R366). -/
def State.foreignOk (s : State) (loc pkg part : Nat) : Bool :=
  let d := if isLarder loc then coreDie (larderCore loc) else loc / 2 ^ 37
  isHost loc || (s.lentAt loc pkg part).isSome ||
  (List.range 8).any fun t =>
    (s.partn t).pairs.getLsbD d && ((part = t && (s.partn t).foreign) || (s.partn t).grant.getLsbD part)

end Sys2Proof.Machine
end

