-- ==== Sys2Proof/Machine/Fetch.lean ====
section
/-! DEFINITION. The reads that a path makes inside an instruction, fetch (R31, R44, R45), the channel (R260 to R263), and what
issuing an instruction does (R307, R357, R44). -/

namespace Sys2Proof.Machine

/-! Reads inside an instruction. -/

/-- The requests for `n` doublewords from a place across a link, for lanes `k` + `n` - 1 to `k`. -/
def State.askWords (s : State) (h : Home) (addr : Word) (k : Nat) : Nat → Option State
  | 0 => some s
  | n + 1 =>
    let a := s.mkAccess s.cur.core s.cur.slot s.cur.pathQ .load (addr + word (8 * n)) { h with loc := h.loc + 8 * n } 8 0
    (s.newReq h.pkg h.target a .path (k + n) true true).bind fun s => s.askWords h addr k n

/-- What a read of a doubleword at a place of the package fails with: what a lent region answers, or poison. -/
def State.readFault (s : State) (part loc : Nat) : Option (BitVec 8) :=
  match s.lentFault loc s.pkgId.toNat part with
  | some c => some c
  | none => if s.poisonedIn loc 8 then some cPoison else none
/-- What a read inside an instruction gives: the doublewords, the first that fails with its cause, the state after. -/
structure Words where
  ws : List Word
  bad : Option (Nat × BitVec 8)
  st : State
/-- The doublewords at a place of the package. -/
def State.wordsHere (s : State) (part loc n : Nat) : Words :=
  ⟨(List.range n).map fun i => s.read64 (loc + 8 * i),
   (List.range n).findSome? fun i => (s.readFault part (loc + 8 * i)).map fun c => (i, c),
   s.touchHome loc (8 * n) s.pkgId.toNat part⟩
/-- The places in a path's buffer that say that a fault of its replies is no trap, and that one has come. -/
def quietKey : Nat := 4000
def failKey : Nat := 4001
/-- The reads of `n` doublewords of a larder whose banks serve them later (R196, R226): accesses of the path, for lanes `k` on. -/
def State.awaitWords (s : State) (h : Home) (addr : Word) (k n : Nat) : State :=
  (List.range n).foldl (fun s i =>
    let r := s.arriveAll (h.loc + 8 * i) 8
    r.1.awaitBank r.2
      (s.mkAccess s.cur.core s.cur.slot s.cur.pathQ .load (addr + word (8 * i)) { h with loc := h.loc + 8 * i } 8 0) .path (k + i) true true) s
/-- `n` doublewords that the executing path reads inside its instruction, which stand in the path's buffer from place `k` on. Those of a
larder whose banks do not serve them now, and those across a link, once no earlier access of the group to their lines is outstanding
(R225), are awaited; the instruction then executes again (R196, R363). -/
def State.pathRead (s : State) (h : Home) (addr : Word) (k n : Nat) : Act Words :=
  let buf := s.curPath.buf
  if (List.range n).all fun i => buf.any fun e => e.1 = k + i then
    .ok ⟨(List.range n).map fun i => Table.get 0 buf (k + i), none, s⟩
  else if s.across h then
    match (linesOf h.loc (8 * n)).find? fun l => s.lineOut s.cur.core s.cur.slot h.pkg (l / 64) with
    | some l => .error (.hold (.line h.pkg (l / 64)))
    | none =>
      match s.askWords h addr k n with
      | some s' => .error (.holdAfter .reply s')
      | none => .error (.hold .tag)
  else
    let r := s.arriveAll h.loc (8 * n)
    if r.2 ≤ s.clk then .ok (r.1.wordsHere s.curPart h.loc n) else .error (.holdAfter .reply (s.awaitWords h addr k n))

/-! Fetch. -/

/-- A trap raised at fetch (R44, rows 1 to 4) [log 47, DEDUCED]. -/
def fetchFault (pc : Word) (code : BitVec 8) (finfo : Word) : Trap :=
  { code := code, faddr := pc, finfo := finfo, fetch := true }
def fetchTrap (pc : Word) (code : BitVec 8) (finfo : Word) : Stop := .trap (fetchFault pc code finfo)

/-- The half-words of a line from its eight doublewords. -/
def halvesOf (l : List Word) : List Half := l.flatMap fun w => [bits w 0 16, bits w 16 16, bits w 32 16, bits w 48 16]
/-- A line from its half-words. -/
def lineBits (l : List Half) : BitVec 512 :=
  BitVec.ofNat 512 (l.foldr (fun h acc => h.toNat + 65536 * acc) 0)

/-- The translation of a code line for a core (Table 2-10, rows 1 and 2). -/
def State.lineHome (s : State) (c : Nat) (pc : Word) : Except Stop Home :=
  if pc.getLsbD 63 || field pc 57 6 ≠ 0 then .error (fetchTrap pc cAddrRange (accInfo 0 false true none))
  else
    match s.translate c (field (lineBase pc) 0 57) ⟨false, false, true⟩ with
    | .error (.fault cause d) => .error (fetchTrap pc cause (accInfo d false true none))
    | .error (.stall w) => .error (.hold w)
    | .ok h => .ok h

/-- A line in the instruction cache of a core, newest first; the cache holds 64 KiB [log 8, DESIGN CHOICE]. -/
def Core.cached (co : Core) (key : Nat) : Option (List Half) := (co.icache.find? fun e => e.1 = key).map Prod.snd
def Core.cache (co : Core) (key : Nat) (l : List Half) : Core :=
  { co with icache := ((key, l) :: co.icache.filter fun e => e.1 ≠ key).take 1024 }
/-- The key of a line in the instruction cache. -/
def Home.lineKey (h : Home) : Nat := h.pkg * 2 ^ 50 + h.loc

/-- The line that a path has fetched, where it holds the PC (R46). -/
def Path.held (p : Path) : Option (List Half) :=
  match p.line with
  | some l => if l.base = lineBase p.pc then some l.halves else none
  | none => none
/-- The executing path has fetched a line. -/
def State.takeLine (s : State) (l : List Half) : State := s.modPath fun p => { p with line := some ⟨lineBase p.pc, l, false⟩ }

/-- A line across a link is asked for as a whole (R45): one request of 64 bytes, whose reply the path awaits before its issue. -/
def State.askLine (s : State) (h : Home) : Act (State × BitVec 512) :=
  let a := s.mkAccess s.cur.core s.cur.slot s.cur.pathQ .load (lineBase s.pc) h 64 0
  match s.freeTag s.cur.core, s.newReq h.pkg h.target a .code 128 true false with
  | some t, some s' => .error (.holdAfter (.code (s.cur.core * 4096 + t)) s')
  | _, _ => .error (.hold .fetchTag)

/-- The contents of the line that holds the PC of the executing path: the line that it has fetched, else from the instruction cache or
from its home. -/
def State.fetchLine (s : State) : Act (State × BitVec 512) :=
  let pc := s.pc
  let c := s.cur.core
  match s.curPath.held with
  | some l => .ok (s, lineBits l)
  | none =>
    match s.lineHome c pc with
    | .error (.trap t) => .error (.trapAfter t (if t.code = cAddrRange then s else s.install c (field pc 0 57) ⟨false, false, true⟩))
    | .error e => .error e
    | .ok h =>
      let s := s.install c (field pc 0 57) ⟨false, false, true⟩
      match (s.core c).cached h.lineKey with
      | some l => .ok (s.takeLine l, lineBits l)
      | none =>
        if s.across h then s.askLine h
        else
          let w := s.wordsHere s.curPart h.loc 8
          match w.bad with
          | some (_, cause) => .error (.trapAfter (fetchFault pc cause (accInfo 0 false true none)) w.st)
          | none =>
            let l := halvesOf w.ws
            .ok ((w.st.modCore c fun co => co.cache h.lineKey l).takeLine l, lineBits l)

/-- The reason for ILLEGAL_LINE at a PC (R31, Table 2-2); 0 for none. -/
def pcReason (line : BitVec 512) (pc : Word) : Nat :=
  if pc.getLsbD 0 || field pc 1 5 = 0 then 6 else lineReason line (field pc 1 5)

/-- What fetch gives: the head, the instruction where the head and the tail name one, the successor. -/
structure Fetched where
  head : Half
  instr : Option Instr
  succ : Word
  deriving DecidableEq, Repr

/-- The fetch of the executing path's next instruction (R31). -/
def State.fetch (s : State) : Act (State × Fetched) :=
  match s.fetchLine with
  | .error e => .error e
  | .ok (s, line) =>
    let pc := s.pc
    let i := field pc 1 5
    let r := pcReason line pc
    if r ≠ 0 then .error (fetchTrap pc cIllegalLine (word r))
    else
      let h := lineHw line i
      .ok (s, ⟨h, match decodeRaw h (lineTail line i) with
                  | .ok x => some x
                  | .error _ => none, lineNext line pc⟩)

/-! Branch outcomes. -/

/-- The outcome of a scalar branch on the executing path's registers, as it travels on a channel (R99): taken, and the
target of a jump. -/
def State.outcome (s : State) (i : Instr) : Bool × Word :=
  match i with
  | .bc cond o => (condHolds cond (s.sreg o.a) (s.sreg o.b), 0)
  | .loop o => (s.sreg o.a - 1 ≠ 0, 0)
  | .jr o | .callr o => (true, s.sreg o.a)
  | .ret _ => (true, s.sreg 31)
  | _ => (false, 0)

/-- The entry that the executing path's instruction has on the channel it comes from. -/
def State.channelEntry (s : State) : Option Entry :=
  if s.curPath.chan then s.curSlot.sub.bind fun b => b.buffer.head? else none

/-- A scalar branch ends (R97, R99): a subscriber whose outcome disagrees with the publisher's leaves its channel. -/
def State.branchTo (s : State) (i : Instr) (own : Bool × Word) (reason : Nat) (pc : Word) : State :=
  match s.channelEntry with
  | none => s.goto pc
  | some e =>
    match i with
    | .br _ | .call _ => s.goto pc
    | _ => if own = (e.taken, e.target) then s.goto pc else s.leave s.cur.core s.cur.slot reason e.pc pc

/-! The channel. -/

/-- The skew of a subscriber (R260). -/
def skew (pub sub : Nat) : Nat := if coreDie pub = coreDie sub then 16 else 40

/-- The waiters of a rendezvous point are subscribed (R265). -/
def State.joinAt (s : State) (c id : Nat) : State :=
  (s.resubbers c).foldl (fun s e =>
    if e.2.2.1 = id && e.2.2.2 ≤ s.clk then
      let p := (s.slot e.1 e.2.1).p
      let s := s.endResub e.1 e.2.1 stOK
      let s := s.modSlot e.1 e.2.1 fun sl =>
        { sl with sub := some { chan := c, start := s.clk + 1, pc := p.pc, succ := p.succ, buffer := [], closed := false } }
      s.modCore c fun co => { co with chan := co.chan.map fun ch => { ch with subs := ch.subs ++ [(e.1, e.2.1)] } }
    else s) s

/-- The publisher's instruction is placed on its channel, once (R44, R260): every subscriber that counts instructions from
the present clk or earlier reserves an entry. -/
def State.place (s : State) (i : Instr) : State :=
  if !s.publishing || s.curPath.placed then s
  else
    let c := s.cur.core
    let o := s.outcome i
    let e : Entry := { instr := i, pc := s.pc, succ := s.curPath.succ, taken := o.1, target := o.2, due := s.clk }
    let subs := match s.curCore.chan with
      | some ch => ch.subs
      | none => []
    let s := s.modPath fun p => { p with placed := true }
    let s := subs.foldl (fun s x => s.modSlot x.1 x.2 fun sl =>
      { sl with sub := sl.sub.map fun b =>
          if b.start ≤ s.clk then { b with buffer := b.buffer ++ [{ e with due := s.clk + skew c x.1 }] } else b }) s
    match i with
    | .rdv o => s.joinAt c o.x.toNat
    | _ => s

/-! Issue. -/

/-- What the issue of an instruction counts and resets: ISSUE, the path's age, the path that issued last, the progress of the
cluster (R306, R307, R357). -/
def State.issued (s : State) : State :=
  let s := s.count s.cur.core evIssue
  let s := s.modPath fun p => { p with age := 0 }
  let s := s.modCur fun sl => { sl with lastQ := s.cur.pathQ }
  match s.curSlot.member with
  | some m => s.modCluster m.cluster fun cl => { cl with wdog := 0, progress := s.clk }
  | none => s

/-- A boundary of the executing path: what is due there before its next instruction. -/
inductive Boundary where
  | ended (code : BitVec 8) (faddr finfo : Word)
  | copyFault
  | interrupt
  | instr
  deriving DecidableEq, Repr

/-- The user interrupt of a slot can be taken (R186). An instruction that has arrived at a barrier, of which lanes have been performed or
whose add has been performed has been issued: none is taken before it completes (R352, R214, R270). -/
def State.canInterrupt (s : State) : Bool :=
  s.curSlot.uiq ≠ [] && s.curSlot.uie && !s.curSlot.uia && !s.publishing && !s.subscribed && !s.cur.pathQ && !s.isS &&
  s.curPath.arrived.isNone && s.curPath.vdone = [] && !(s.curPath.buf.any fun e => e.1 = jobKey)

/-- A path abandons this wait for a copy fault or the trap of an earlier request (R103, R105, R281). -/
def Wait.abandoned : Wait → Bool
  | .ending | .transfer _ _ | .transfers => true
  | _ => false
/-- What the executing path does at this boundary: the trap of a request that it has not awaited, a copy fault, a user interrupt, or
its next instruction. Inside an instruction only the waits that are abandoned end early. -/
def State.boundary (s : State) : Boundary :=
  let p := s.curPath
  let before := !p.wait.inside
  let copy := s.curSlot.copyFaults ≠ [] && !s.cur.pathQ
  match p.ended with
  | some t =>
    if before || p.wait = .ending || p.wait = .finish then .ended t.code t.faddr t.finfo
    else if p.wait.abandoned && copy then .copyFault
    else .instr
  | none =>
    if (before || p.wait.abandoned) && copy then .copyFault
    else if before && s.canInterrupt then .interrupt
    else .instr

/-- A matrix instruction that takes an entry of the command queue (R148). -/
def matrixQueued : Instr → Bool
  | .midx _ | .mopen _ | .mstep _ | .mclose _ | .mst _ | .mld _ | .mzero _ | .mtab _ | .msave _ | .mrest _ => true
  | _ => false

/-- The instruction passes the decode traps that come before its issue (Table 2-10, rows 5 and 6). -/
def State.decodes (s : State) (i : Instr) : Bool := wellFormed i && !(privileged i && !s.isS)
/-- A fetch that has not given a line: a trap, or a wait before the issue. -/
def State.fetchStop (s : State) (e : Stop) : State :=
  match e with
  | .hold .fetchTag => s.waitFor .fetchTag
  | .hold _ => s.waitFor (.fetch (field s.pc 0 57))
  | .trap t => s.takeTrap t
  | .trapAfter t s' => s'.takeTrap t
  | .holdAfter w s' => s'.waitFor w

/-- The instruction that the executing path issues next, taken from the channel (R260) or fetched, with the state in which it
executes; none where fetch stops or the decode fails. -/
def State.nextInstr (s : State) : State × Option Instr :=
  match s.curSlot.sub, s.cur.pathQ with
  | some b, false =>
    match b.buffer with
    | e :: _ =>
      let s := if !s.curPath.wait.issued then s.issued else s
      (s.modPath fun p => { p with pc := e.pc, succ := e.succ, chan := true }, some e.instr)
    | [] => (if b.closed then s.leave s.cur.core s.cur.slot 4 b.pc b.succ else s, none)
  | _, _ =>
    match s.fetch with
    | .error e => (s.fetchStop e, none)
    | .ok (s, f) =>
      let first := !s.curPath.wait.issued
      let s := s.modPath fun p => { p with succ := f.succ, chan := false }
      match f.instr with
      | none =>
        ((if first then s.issued else s).takeTrap { code := cIllegalInstr, faddr := s.pc, finfo := f.head.zeroExtend 64 }, none)
      | some i =>
        let s := if first then s.issued else s
        (if first && s.decodes i then s.place i else s, some i)

/-- What the executing path has to do at a boundary before an instruction of its own, or `next`. -/
def State.atBoundary (s : State) (next : State × Option Instr) : State × Option Instr :=
  match s.boundary with
  | .ended c a w => ((s.modPath fun p => { p with ended := none }).takeTrap { code := c, faddr := a, finfo := w }, none)
  | .copyFault => ({ s with input := { a := s.cur.core, b := s.cur.slot } }, some .copyFaultTrap)
  | .interrupt => ({ s with input := { a := s.cur.core, b := s.cur.slot } }, some .userInterruptEntry)
  | .instr => next
/-- The step of the chosen path: the state in which an instruction or a step of the device executes, or the state after. -/
def State.pathStep (s : State) : State × Option Instr :=
  let s := { s with chosen := false }
  s.atBoundary s.nextInstr

/-! What comes before the issue. -/

/-- The instruction that a path holds in its fetched line: none without the line or without a head at the PC. -/
def Path.fetched (p : Path) : Option (Option Instr) :=
  p.held.bind fun l =>
    let line := lineBits l
    let i := field p.pc 1 5
    if pcReason line p.pc ≠ 0 then none
    else
      some (match decodeRaw (lineHw line i) (lineTail line i) with
        | .ok x => some x
        | .error _ => none)
/-- Path P of a subscriber takes its instructions from the channel (R260). -/
def Slot.fromChannel (sl : Slot) (q : Bool) : Bool := sl.sub.isSome && !q

/-- What State.reset needs so that the next step runs one instruction: the device has nothing else to do, and slot 0 of core
0 holds a grid group whose PC names head 1 of a line of Vault memory, which a TLB entry maps with execute permission. -/
def State.withLine (s : State) (line : BitVec 512) : State :=
  let s := { s with agenda := [], cur := ⟨0, 0, false⟩, chosen := true }
  let s := s.modSlot 0 0 fun sl =>
    { sl with
      state := .active, uiq := [], copyFaults := [], sub := none
      p := { sl.p with pc := 0x10002, wait := .none, ended := none, live := allLanes, parked := false, buf := [], line := none } }
  let s := s.modCore 0 fun co => { co with
    icache := [], l1i := [⟨1, 1, 0xF080000000010000#64, s.partOf 0⟩] ++ co.l1i }
  s.writeN 0x10000 64 line.toNat

end Sys2Proof.Machine
end

