-- ==== Sys2Proof/Machine/Select.lean ====
section
/-! DEFINITION. Which paths are ready (R306) and which of them issues (R307): when a wait is over, the ages, the tiers, the
round-robin pointers, the order between the two paths of a group. -/

namespace Sys2Proof.Machine

/-! Queue registers as waits. -/

def Team.q (t : Team) (n : Nat) : QReg := Table.get {} t.qs n
def Team.modQ (t : Team) (n : Nat) (f : QReg → QReg) : Team := { t with qs := Table.ins t.qs n (f (t.q n)) }
/-- A `qpush` of group `g` need not wait (R257). -/
def QReg.canPush (r : QReg) (g : Nat) : Bool :=
  r.state ≠ .uninit && (r.state = .broken || !r.live.getLsbD g || r.entries.length < 4)
/-- A `qpop` of group `g` need not wait (R257). -/
def QReg.canPop (r : QReg) (g : Nat) : Bool :=
  r.state ≠ .uninit && (!r.rset.getLsbD g || r.entries ≠ [] || r.tok || r.state = .broken)

/-- The team of a slot, and the slot's index in it. -/
def State.teamOf (s : State) (c k : Nat) : Option (Team × Nat) :=
  (s.slot c k).member.bind fun m => (s.team? m.team).map fun t => (t, m.index)

/-- The wait of a path on a queue: how it waits and since when. -/
def Path.queueWait (p : Path) (push : Bool) (n : Nat) : Option Nat :=
  match p.wait with
  | .queue b q since => if b = push && q = n then some since else none
  | _ => none

/-- Some other path of the team began to wait on a queue before `since` and need not wait any longer. -/
def State.earlierWaiter (s : State) (t : Team) (push : Bool) (n since : Nat) : Bool :=
  t.slots.any fun k =>
    let sl := s.slot t.core k
    let ok := match sl.member with
      | some m => if push then (t.q n).canPush m.index else (t.q n).canPop m.index
      | none => false
    ok && [sl.p, sl.q].any fun p =>
      match p.queueWait push n with
      | some x => x < since
      | none => false

/-! Copies. -/

def Slot.issuedOf (sl : Slot) (ch : Nat) : BitVec 32 := Table.get 0 sl.issued ch
def Slot.doneOf (sl : Slot) (ch : Nat) : BitVec 32 := Table.get 0 sl.done ch
/-- The transfer `seq` of a channel is done (R287). -/
def Slot.copyIsDone (sl : Slot) (ch : Nat) (seq : BitVec 32) : Bool := (sl.doneOf ch - seq).toNat < 2 ^ 31
/-- Every transfer of the slot is done. -/
def Slot.copiesDone (sl : Slot) : Bool := (List.range 4).all fun ch => sl.doneOf ch = sl.issuedOf ch

/-! Barriers. -/

def Team.bar (t : Team) (b : Nat) : Bar := Table.get { initexp := t.groups, exp := t.groups } t.bars b
def Team.modBar (t : Team) (b : Nat) (f : Bar → Bar) : Team := { t with bars := Table.ins t.bars b (f (t.bar b)) }
/-- g is before h (R287). -/
def genBefore (g h : BitVec 32) : Bool := g ≠ h && (h - g).toNat < 2 ^ 31
/-- The state of a wait on generation `g` (R350): its status, or none while it waits. -/
def Bar.outcome (b : Bar) (g : BitVec 32) : Option Word :=
  if !b.valid || !(b.lastinv = g || genBefore b.lastinv g) then some stInvalidated
  else if b.gen = g then none
  else some stOK

/-! Leases as waits. -/

/-- What a lease handle is to the user that presents it (R327). -/
inductive LeaseState where
  | live
  | dead
  | stale
  deriving DecidableEq, Repr

/-- The die and the engine of a handle. -/
def leaseDie (h : Word) : Nat := field h 38 3
def leaseEng (h : Word) : Nat := field h 32 6
/-- A handle of an engine (R327). -/
def leaseHandle (d e : Nat) (lgen : BitVec 32) : Word := BitVec.ofNat 64 (2 ^ 63 + d * 2 ^ 38 + e * 2 ^ 32 + lgen.toNat)

/-- The user of a slot holds a lease: the holding group, or any task of the holding core (R327). -/
def State.holds (s : State) (c k : Nat) (w : Holder) : Bool :=
  w.core = c && ((w.slot = k && w.gen = (s.slot c k).gen) || (w.slot = 63 && ((s.slot c k).task.isSome || k = 63)))

/-- A handle for the user of a slot. -/
def State.leaseState (s : State) (c k : Nat) (h : Word) : LeaseState :=
  let e := (s.die (leaseDie h)).engine (leaseEng h)
  let lgen := bits h 0 32
  if h.getLsbD 63 = false || field h 41 22 ≠ 0 then .stale
  else if e.state = .leased && e.lgen = lgen && s.holds c k e.who then .live
  else
    match e.dead with
    | some d => if d.lgen = lgen && s.holds c k d.who then .dead else .stale
    | none => .stale

/-- The commands that a lease has not finished. -/
def Fifos.pending (f : Fifos) : Nat := f.cmds.length + (if f.run.isSome then 1 else 0)
/-- The command FIFO has its 16 entries; a command leaves it when it starts (R289). -/
def Fifos.full (f : Fifos) : Bool := 16 ≤ f.cmds.length

/-! Confirming a mark. -/

/-- A mark's scope takes in a source of requests: a core, the admitter, or a cellar engine (R342). -/
def Mark.agent (m : Mark) (src : Nat) : Bool :=
  if src < nCores then m.covers src
  else if nCores ≤ m.core then true
  else match m.scope.toNat with
    | 2 | 3 => false
    | 4 | 5 => 2048 ≤ src && (src - 2048) / 64 = coreDie m.core
    | _ => true
/-- An access of a partition that was translated by an entry now DRAINING, and that writes (R342). -/
def Mark.holdsBack (m : Mark) (part : Nat) (a : Access) : Bool :=
  accWrites a.op && !isLarderAddr a.addr && m.has (field a.addr 0 57) && a.part = part && m.agent a.core
/-- The accesses of the package that have been translated and not performed: those that have left it, those that wait for a tag,
those on the shelves of its Vault bases, those that a shelf has refused. -/
def State.inFlight (s : State) : List Access :=
  (s.reqs.map fun e => e.2.acc) ++
  (s.cores.flatMap fun e => (e.2.slots.flatMap fun x => x.2.laneq.map LaneSend.acc) ++ e.2.sendq.map fun x => x.2.2.1) ++
  (s.vaults.flatMap fun e => e.2.shelf.filter fun a => a.pkg = s.pkgId.toNat) ++
  s.agenda.filterMap fun e =>
    if e.2.1 = .shelfRetry then
      match e.2.2.body with
      | .access a => some a
      | _ => none
    else none
/-- Every write translated before a mark of a partition is performed. -/
def State.drained (s : State) (part : Nat) (m : Mark) : Bool := !(s.inFlight.any fun a => m.holdsBack part a)
/-- Every write translated before the mark of a core is performed. -/
def State.confirmed (s : State) (c : Nat) : Bool :=
  (s.partn (s.partOf c)).marks.all fun m => m.core ≠ c || s.drained (s.partOf c) m

/-- A request of a multicast tag of a die is in progress (R283). -/
def State.multicasting (s : State) (die tag : Nat) : Bool :=
  s.cores.any fun e => coreDie e.1 = die && e.2.copyq.any fun r => r.mctag = tag && r.started

/-! Waits. -/

/-- A path awaits the reply to a request inside its instruction (R363). -/
def State.awaits (s : State) (c k : Nat) (q : Bool) (r : Req) : Bool :=
  r.inside && r.acc.core = c && r.acc.slot = k && r.acc.gen = (s.slot c k).gen && (s.slot c k).eff r.acc.pathQ = (s.slot c k).eff q &&
  match r.owner with
  | .path => true
  | _ => false

/-- The matrix command stores to the larder (R169). -/
def MatOp.stores : MatOp → Bool
  | .mst _ _ _ => true
  | _ => false
/-- The matrix command loads tile `t`, if it does not abort. -/
def MatOp.loads (o : MatOp) (t : Nat) : Bool :=
  match o with
  | .mld z _ _ | .mrest z _ => z = t
  | _ => false
/-- A group has a store in the matrix command queue (R161). -/
def State.matStores (s : State) (c k : Nat) : Bool :=
  (s.core c).mcmds.any fun m => m.slot = k && m.gen = (s.slot c k).gen && MatOp.stores m.op

/-- A path's wait is over: its instruction executes again. Waits that an event completes are never over here. -/
def State.waitOver (s : State) (c k : Nat) (w : Wait) (q : Bool := false) : Bool :=
  let sl := s.slot c k
  match w with
  | .none => true
  | .queue push n since =>
    match s.teamOf c k with
    | some (t, g) => (if push then (t.q n).canPush g else (t.q n).canPop g) && !s.earlierWaiter t push n since
    | none => true
  | .barrier b g =>
    match s.teamOf c k with
    | some (t, _) => ((t.bar b).outcome g).isSome
    | none => true
  | .cluster g =>
    match sl.member.bind fun m => s.cluster? m.cluster with
    | some cl => cl.gen ≠ g
    | none => true
  | .performed reads => !s.unperformed c k reads && (reads || !s.matStores c k)
  | .ending =>
    (!s.unperformed c k false && !s.matStores c k && sl.copiesDone) || sl.copyFaults ≠ [] || (sl.path (sl.eff q)).ended.isSome
  | .finish => !s.unperformed c k false || (sl.path (sl.eff q)).ended.isSome
  | .line pkg l =>
    !s.lineOut c k pkg l
  | .until t => t ≤ s.clk
  | .draining va => !s.draining c va
  | .moving va =>
    match s.lookup c va false with
    | (.leaf l, _) => !s.inMove (s.partOf c) va l
    | _ => true
  | .fetch va =>
    !s.draining c va &&
    match s.lookup c va true with
    | (.leaf l, _) => !s.inMove (s.partOf c) va l
    | _ => true
  | .fetchTag => (s.freeTag c).isSome
  | .start l => l.all fun b => Table.get 0 (s.core c).regAsleep b = 0
  | .copyRoom => (s.core c).copyq.length < 8
  | .transfer ch n => sl.copyIsDone ch n || sl.copyFaults ≠ []
  | .transfers => sl.copiesDone || sl.copyFaults ≠ []
  | .multicast tag => !s.mcPending c tag
  | .matrixRoom => (s.core c).mcmds.length < 2
  | .matrices => !((s.core c).mcmds.any fun m => m.slot = k && m.gen = sl.gen)
  | .tile t => !((s.core c).mcmds.any fun m => MatOp.loads m.op t)
  | .command h =>
    s.leaseState c k h ≠ .live || ((s.die (leaseDie h)).engine (leaseEng h)).fifos.full = false
  | .result h =>
    s.leaseState c k h ≠ .live || ((s.die (leaseDie h)).engine (leaseEng h)).fifos.results ≠ []
  | .confirm => s.confirmed c
  | .tag => (s.freeTag c).isSome
  | .reply => !(s.reqs.any fun e => s.awaits c k q e.2)
  | .matrix _ | .code _ | .shelved | .load | .window | .firkin | .lease | .counter | .rendezvous _ _ _ => false

/-- The publisher is held by a full subscriber buffer; what leaves one in this clk counts as free from the next on (R261). -/
def State.pubStalled (s : State) (c k : Nat) : Bool :=
  s.publishes c k && !(s.slot c k).p.placed &&
  match (s.core c).chan with
  | some ch => s.clk < ch.freed || ch.subs.any fun x =>
      match (s.slot x.1 x.2).sub with
      | some b => bufferSize ≤ b.buffer.length || s.clk < b.freed
      | none => false
  | none => false

/-- The instruction that a path issues next (R306): the head of its subscriber buffer once it is due (R260), else that of the line
it has fetched; there `none` stands for a head that decodes to nothing, whose issue traps. -/
def State.nextOf (s : State) (c k : Nat) (q : Bool) : Option (Option Instr) :=
  let sl := s.slot c k
  match sl.sub, q with
  | some b, false => (b.buffer.head?.filter fun e => e.due ≤ s.clk).map fun e => some e.instr
  | _, _ => (sl.path q).fetched

/-- An `epush` or `epop` that R294 holds: the command FIFO is full, or no result has come yet of the commands pushed; a task never
waits. -/
def State.leaseHeld (s : State) (c k : Nat) (i : Instr) : Bool :=
  let sl := s.slot c k
  let f := fun (h : Word) => ((s.die (leaseDie h)).engine (leaseEng h)).fifos
  match i with
  | .epush o => !o.x.getLsbD 8 && sl.task.isNone && s.leaseState c k (sl.sreg o.a.toNat) = .live && (f (sl.sreg o.a.toNat)).full
  | .epop o =>
    !o.x.getLsbD 8 && sl.task.isNone && s.leaseState c k (sl.sreg o.a.toNat) = .live && (f (sl.sreg o.a.toNat)).results = [] &&
    (f (sl.sreg o.a.toNat)).pending ≠ 0
  | _ => false
/-- A queue instruction must wait (R257): the state of the queue register, or a path that began to wait earlier. -/
def State.queueHeld (s : State) (c k : Nat) (push : Bool) (n since : Nat) : Bool :=
  match s.teamOf c k with
  | some (t, g) => !(if push then (t.q n).canPush g else (t.q n).canPop g) || s.earlierWaiter t push n since
  | none => false
/-- The wait in which a path stands before the issue of an instruction that R257 or R294 holds; it counts as inside it (R255). A queue
instruction keeps the place in which its path began to wait. -/
def State.holdWait (s : State) (c k : Nat) (q : Bool) (i : Instr) : Option Wait :=
  let queue := fun (push : Bool) (n : Nat) =>
    let since := (((s.slot c k).path q).queueWait push n).getD s.nextId
    if s.queueHeld c k push n since then some (Wait.queue push n since) else none
  if (({ s with cur := ⟨c, k, q⟩ } : State).gate i).isSome then none
  else
    match i with
    | .qpush o => queue true (field o.x 0 3)
    | .qpop o => queue false (field o.x 0 3)
    | .epush o => if s.leaseHeld c k i then some (.command ((s.slot c k).sreg o.a.toNat)) else none
    | .epop o => if s.leaseHeld c k i then some (.result ((s.slot c k).sreg o.a.toNat)) else none
    | _ => none
/-- A rule holds an instruction before its issue: a register in flight of the other path (R82, R122), the full matrix command queue
(R148), a queue register (R257), a lease FIFO (R294). -/
def State.heldBack (s : State) (c k : Nat) (q : Bool) (i : Instr) : Bool :=
  let sl := s.slot c k
  (sl.dual && (sl.path (!q)).flight.any fun r => (regsNamed i).contains r) ||
  (wellFormed i && !(privileged i && k ≠ 63) && matrixQueued i && 2 ≤ (s.core c).mcmds.length) || (s.holdWait c k q i).isSome

/-- A path is ready in this clk (R306): it stands before the issue of an instruction that no rule holds. -/
def State.ready (s : State) (c k : Nat) (q : Bool) : Bool :=
  let sl := s.slot c k
  let p := sl.path q
  sl.state = .active && (!q || sl.dual) && !p.parked && !(k = 63 && (s.core c).idle) &&
  (p.wait = .none || p.wait.held) && (q || !s.pubStalled c k) &&
  match s.nextOf c k q with
  | none => false
  | some none => true
  | some (some i) => !s.heldBack c k q i

/-! What takes no clk of the selector. -/

/-- The executing path stands before the instruction `i`, which takes its place in a wait where a rule holds it (R257, R294). -/
def State.holdAt (s : State) (i : Instr) (f : Path → Path) : State :=
  match s.holdWait s.cur.core s.cur.slot s.cur.pathQ i with
  | some w => ((s.fresh.2).modPath f).waitFor w
  | none => s
/-- What the executing path does that takes no clk of the selector (R306). Inside an instruction that it has issued, whose wait is over,
it executes that instruction again (R257, R350). Before its next issue it leaves a closed channel (R263), fetches the line of its PC,
or begins to wait where a rule holds its instruction. -/
def State.frontStep (s : State) : State × Option Instr :=
  if s.curPath.wait.issued then
    let s := s.modPath fun p => { p with tried := s.clk + 1 }
    s.atBoundary s.nextInstr
  else
    s.atBoundary <|
      let s := s.waitFor .none
      match s.curSlot.sub, s.cur.pathQ with
      | some b, false =>
        match b.buffer with
        | [] => (if b.closed then s.leave s.cur.core s.cur.slot 4 b.pc b.succ else s, none)
        | e :: _ => (s.holdAt e.instr fun p => { p with pc := e.pc, succ := e.succ, chan := true }, none)
      | _, _ =>
        match s.fetch with
        | .error e => (s.fetchStop e, none)
        | .ok (s, f) =>
          match f.instr with
          | some i => (s.holdAt i fun p => { p with succ := f.succ, chan := false }, none)
          | none => (s, none)
/-- The executing path has something to do that takes no clk of the selector, given whether its wait is over. In a slot that is trapped or
stops only an instruction that has issued goes on (R121, R301); it is examined again once in a clk. -/
def State.frontDue (s : State) (done : Bool) : Bool :=
  let p := s.curPath
  let sl := s.curSlot
  let started := match p.wait with
    | .none | .fetch _ | .fetchTag | .code _ => true
    | .start _ => done
    | _ => false
  let empty := match sl.sub with
    | some b => b.buffer = [] && b.closed
    | none => false
  let held := match s.nextOf s.cur.core s.cur.slot s.cur.pathQ with
    | some (some i) => (s.holdWait s.cur.core s.cur.slot s.cur.pathQ i).isSome
    | _ => false
  (!s.cur.pathQ || sl.dual) && !p.parked && !(s.isS && s.curCore.idle) &&
  if p.wait.issued then sl.state ≠ .free && done && p.tried ≠ s.clk + 1
  else
    sl.state = .active && started &&
    (s.boundary ≠ .instr ||
      (done && (p.wait ≠ .none || held || (if sl.fromChannel s.cur.pathQ then empty else p.fetched.isNone))))

/-- The ready paths of a core, by slot, P before Q. -/
def State.readyPaths (s : State) (c : Nat) : List (Nat × Bool) :=
  (s.core c).slots.flatMap fun e => [(e.1, false), (e.1, true)].filter fun x => s.ready c x.1 x.2

/-! The selector (R307). -/

/-- The tier of a slot: 0 S, 1 H, 2 G. -/
def Core.tier (co : Core) (k : Nat) : Nat := 2 - co.cls k
/-- The path of a slot that PORD chooses when both are ready. -/
def Core.pord (co : Core) (pol : Nat) (k : Nat) (both : Bool) (only : Bool) : Bool :=
  if both then
    match pol with
    | 1 => false
    | 2 => true
    | _ => !(co.slot k).lastQ
  else only
/-- The path of a slot among the ready paths. -/
def Core.pathOfSlot (co : Core) (pol : Nat) (t : List (Nat × Bool)) (k : Nat) : Bool :=
  co.pord pol k (t.contains (k, false) && t.contains (k, true)) (t.contains (k, true))

/-- The choice within a tier: the path, and whether its age decided. -/
def Core.chooseIn (co : Core) (pol : Nat) (tier : Nat) (t : List (Nat × Bool)) : Option ((Nat × Bool) × Bool) :=
  let age := fun (x : Nat × Bool) => ((co.slot x.1).path x.2).age
  let top := t.foldl (fun m x => max m (age x)) 0
  if t = [] then none
  else if 512 ≤ top then
    match t.find? fun x => age x = top with
    | some x =>
      let both := age (x.1, false) = top && age (x.1, true) = top && t.contains (x.1, false) && t.contains (x.1, true)
      some ((x.1, co.pord pol x.1 both x.2), true)
    | none => none
  else
    let lv := t.foldl (fun m x => max m (co.slot x.1).pri.toNat) 0
    let ptr := Table.get 63 co.ptr (4 * tier + lv)
    let slots := (List.range 64).map fun i => (ptr + 1 + i) % 64
    (slots.find? fun k => t.any fun x => x.1 = k && (co.slot k).pri.toNat = lv).map fun k => ((k, co.pathOfSlot pol t k), false)

/-- The first tier that holds a ready path, S before H before G. -/
def Core.choose (co : Core) (pol : Nat) (l : List (Nat × Bool)) : Option ((Nat × Bool) × Bool) :=
  firstSome (fun tier => co.chooseIn pol tier (l.filter fun x => co.tier x.1 = tier)) [0, 1, 2]

/-- The ready paths without one that executed `yield` in the previous clk, where another is ready (R101) [log 53, DEDUCED]. -/
def Core.afterYield (co : Core) (clk : Nat) (l : List (Nat × Bool)) : List (Nat × Bool) :=
  match co.yielded with
  | some (k, q, t) => if t + 1 = clk && l.any (fun x => x ≠ (k, q)) then l.filter fun x => x ≠ (k, q) else l
  | none => l

/-- The EXPERT enable as it acts in a clk: a write acts from the clk after it on (R6). -/
def Part.expertNow (p : Part) (clk : Nat) : Bool := (if clk ≤ p.expertClk then p.expertWas else p.expert).getLsbD 0
/-- PORD as it takes effect: the reset value while the partition's EXPERT enable is clear (R6). -/
def State.pathPolicy (s : State) (c : Nat) : Nat :=
  if (s.partn (s.partOf c)).expertNow s.clk then field (s.core c).issuepol 0 2 else 0

/-- The selector of a core acts in one clk (R307): a path is chosen, the other ready paths grow older, the events CLK, IDLE,
GATED, AGEPICK and PUBSTALL are counted. -/
def State.select (s : State) (c : Nat) : State :=
  let co := s.core c
  if co.slots = [] || co.inReset then s
  else
    let s := s.count c evClk
    let l := s.readyPaths c
    let s := if co.slots.any fun e => e.2.state = .active && s.pubStalled c e.1 then s.count c evPubStall else s
    if s.gatedNow (bayOf c) then (if l = [] then s.count c evIdle else s).count c evGated
    else
      match co.choose (s.pathPolicy c) (co.afterYield s.clk l) with
      | none => s.count c evIdle
      | some (x, aged) =>
        let s := if aged then s.count c evAgePick else s
        let s := (l.filter fun y => y ≠ x).foldl (fun s y => s.modPathOf c y.1 y.2 fun p => { p with age := p.age + 1 }) s
        let s := s.modCore c fun co => { co with
          ptr := Table.ins co.ptr (4 * co.tier x.1 + (co.slot x.1).pri.toNat) x.1 }
        { s with cur := ⟨c, x.1, x.2⟩, chosen := true }

/-- The first path of a core that has something to do that takes no clk of the selector. -/
def State.front (s : State) (c : Nat) : Option Cur :=
  if (s.core c).inReset then none
  else
    ((s.core c).slots.flatMap fun e => [(⟨c, e.1, false⟩ : Cur), ⟨c, e.1, true⟩]).find? fun x =>
      ({ s with cur := x } : State).frontDue (s.waitOver c x.slot ((s.slot c x.slot).path x.pathQ).wait x.pathQ)

/-- What happens next: what the device has to do by now; else the step of the chosen path; else, for the next core in the clk, what its
paths have to do that takes no clk of the selector, and then its selector's act; after the last core the next clk comes [log 7, DESIGN CHOICE]. The
instruction or step of the device to execute, if any, and the state in which it executes. -/
def State.nextAct (s : State) : State × Option Instr :=
  let idle :=
    if s.chosen then s.pathStep
    else
      match s.cores.find? fun e => s.turn ≤ e.1 with
      | some e =>
        match s.front e.1 with
        | some x => ({ s with cur := x } : State).frontStep
        | none => ({ s with turn := e.1 + 1, input := { a := e.1 } }, some .issueSelect)
      | none => ({ s.countWaits with turn := 0, clk := s.clk + 1 }, none)
  match s.agenda with
  | (due, i, inp) :: rest => if due ≤ s.clk then ({ s with agenda := rest, input := inp }, some i) else idle
  | [] => idle

end Sys2Proof.Machine
end

