-- ==== Sys2Proof/Machine/Control.lean ====
section
/-! DEFINITION. Control flow: scalar branches (R97 to R99), `brd` and `join` (R119, R120), `nop`, `yield`, `end`, `done`
(R100 to R106), `ifence` (R46), `trap`, `eret`, `uret` (R187 to R189). -/

namespace Sys2Proof.Machine

/-- NOP (R100). -/
def execNop (s : State) : Host.Outcome State Fault Refusal := run .nop s fun s => .ok s.retire

/-- YIELD (R101). -/
def execYield (s : State) : Host.Outcome State Fault Refusal :=
  run .yield s fun s =>
    .ok (s.modCurCore fun co => { co with yielded := some (s.cur.slot, s.cur.pathQ, s.clk) }).retire

/-! Scalar branches. -/

/-- BR (R97). -/
def execBr (o : B1) (s : State) : Host.Outcome State Fault Refusal :=
  run (.br o) s fun s => .ok (s.goto (target s.pc o.delta o.head))
/-- CALL (R97). -/
def execCall (o : B1) (s : State) : Host.Outcome State Fault Refusal :=
  run (.call o) s fun s => .ok ((s.setS 31 s.curPath.succ).goto (target s.pc o.delta o.head))
/-- BC (R97). -/
def execBc (cond : BitVec 4) (o : B2) (s : State) : Host.Outcome State Fault Refusal :=
  run (.bc cond o) s fun s =>
    let out := s.outcome (.bc cond o)
    .ok (s.branchTo (.bc cond o) out 1 (if out.1 then target s.pc o.delta o.head else s.curPath.succ))
/-- LOOP (R98). -/
def execLoop (o : B2) (s : State) : Host.Outcome State Fault Refusal :=
  run (.loop o) s fun s =>
    let out := s.outcome (.loop o)
    .ok ((s.setS o.a (s.sreg o.a - 1)).branchTo (.loop o) out 1 (if out.1 then target s.pc o.delta o.head else s.curPath.succ))
/-- JR (R97). -/
def execJr (o : F2) (s : State) : Host.Outcome State Fault Refusal :=
  run (.jr o) s fun s => .ok (s.branchTo (.jr o) (s.outcome (.jr o)) 2 (s.sreg o.a))
/-- CALLR (R97). -/
def execCallr (o : F2) (s : State) : Host.Outcome State Fault Refusal :=
  run (.callr o) s fun s =>
    .ok ((s.setS 31 s.curPath.succ).branchTo (.callr o) (s.outcome (.callr o)) 2 (s.sreg o.a))
/-- RET (R97). -/
def execRet (o : F2) (s : State) : Host.Outcome State Fault Refusal :=
  run (.ret o) s fun s => .ok (s.branchTo (.ret o) (s.outcome (.ret o)) 2 (s.sreg 31))

/-! Divergence. -/

/-- The split of a group into its two paths (R119): P takes the target, Q the fall-through. -/
def Slot.split (sl : Slot) (t f : Mask) (target next join : Word) : Slot :=
  { sl with
    dual := true, j := join, p := { sl.p.moveTo target with live := t, chan := false },
    q := { pc := next, live := f, succ := next, line := sl.p.line } }

/-- BRD (R119). -/
def execBrd (o : D3) (s : State) : Host.Outcome State Fault Refusal :=
  run (.brd o) s fun s =>
    let p := s.curPath
    let live := p.live
    let t := s.mreg o.mask.toNat &&& live
    let f := live &&& ~~~s.mreg o.mask.toNat
    let tgt := target s.pc o.delta o.head
    let joinPC := target s.pc o.jdelta o.jhead
    let inStream := s.publishing || s.subscribed
    let serial := s.curSlot.dual || inStream || p.stack ≠ []
    if !serial then
      if t = 0 then .ok s.retire
      else if f = 0 then .ok (s.goto tgt)
      else .ok ((s.count s.cur.core evSplit).modCur fun sl => sl.split t f tgt p.succ joinPC)
    else if !inStream && (t = 0 || f = 0) then .ok (s.goto (if t = 0 then p.succ else tgt))
    else if p.stack.length = 8 then .error (.trap { code := cDivDepth })
    else
      let e : DivEntry := { joinPC := joinPC, outer := live, pending := f, pendPC := p.succ, phase := false }
      .ok ((s.modPath fun p => { p with stack := e :: p.stack, live := t }).goto tgt)

/-- The slot whose two paths have both reached the join point (R120). The trap of a request that a path has not awaited stays due. -/
def Slot.merge (sl : Slot) (next : Word) : Slot :=
  { sl with
    dual := false, j := 0, q := {}
    p := { sl.p.moveTo next with live := sl.p.live ||| sl.q.live, parked := false, ended := sl.p.ended <|> sl.q.ended } }

/-- JOIN (R120). -/
def execJoin (s : State) : Host.Outcome State Fault Refusal :=
  run .join s fun s =>
    let p := s.curPath
    let sl := s.curSlot
    match p.stack with
    | e :: rest =>
      if e.joinPC = s.pc then
        if !e.phase then
          .ok ((s.modPath fun p => { p with live := e.pending, stack := { e with phase := true } :: rest }).goto e.pendPC)
        else .ok (s.modPath fun p => { p with live := e.outer, stack := rest }).retire
      else .ok s.retire
    | [] =>
      if sl.dual && s.pc = sl.j then
        if (sl.path (!s.cur.pathQ)).parked then .ok (s.modCur fun sl => sl.merge p.succ)
        else .ok (s.modPath fun p => { p with parked := true, placed := false })
      else .ok s.retire

/-! The end of a group or a task. -/

def Core.tile (co : Core) (t : Nat) : TileRec := Table.get {} co.tiles t
/-- INT32 accumulators. -/
def matInt (f : Nat) : Bool := f = 9 || f = 13
/-- A tile's batch state after a queued `mopen` or `mclose` (R165); the batch of a group that has been killed is closed (R157). -/
def TileRec.after (live : MatCmd → Bool) (t : Nat) (r : TileRec) (m : MatCmd) : TileRec :=
  match m.op with
  | .mopen z chk zero a b stride count =>
    if z = t then
      { r with opened := live m, chk := chk, afmt := a, bfmt := b, owner := BitVec.ofNat 6 m.slot, ownerGen := m.gen
               rowStride := stride, rowCount := count, i32 := if zero then matInt a.toNat else r.i32 }
    else r
  | .mclose z => if z = t then { r with opened := false } else r
  | _ => r
/-- The state that a tile will have once every earlier queued command of the core has completed. -/
def State.foreseen (s : State) (c t : Nat) : TileRec :=
  ((s.core c).mcmds.filter fun m => !m.started).foldl (TileRec.after (fun m => (s.slot c m.slot).gen = m.gen) t) ((s.core c).tile t)
/-- The executing group owns a batch. -/
def State.owns (s : State) (r : TileRec) : Bool := r.opened && r.owner.toNat = s.cur.slot && r.ownerGen = s.curSlot.gen
/-- The lowest tile on which the executing group has a batch open, its queued commands counted (R103, R157). -/
def State.openBatch (s : State) : Option Nat := (List.range 14).find? fun t => s.owns (s.foreseen s.cur.core t)

/-- FINFO of a matrix fault (Table 6-4). -/
def matInfo (blk idx opnd reason : Nat) : Word := BitVec.ofNat 64 (blk * 4096 + idx * 64 + opnd * 16 + reason)

/-- The executing path of a dual-path group ends, and the group goes on as the other path alone (R103, R121). -/
def Slot.endPath (sl : Slot) (q : Bool) : Slot :=
  let o := sl.path (!q)
  let o := if o.parked then { o.moveTo o.succ with parked := false } else o
  { sl with dual := false, j := 0, p := o, q := {} }

/-- What the end of a group releases (R103, steps 4 and 5). -/
def State.endGroup (s : State) (c k : Nat) : State :=
  let s := s.releaseHeld ⟨c, k, (s.slot c k).gen⟩
  let s := if s.publishes c k then s.closeChannel c else s
  let s := s.unsubscribe c k
  let s := match (s.slot c k).member with
    | some m => s.queueEnd m false
    | none => s
  (s.leaveTags c k).freeSlot c k

/-- END (R102, R103). -/
def execEnd (s : State) : Host.Outcome State Fault Refusal :=
  run .endGroup s fun s =>
    if !s.isGroup then s.raiseIllegal .endGroup
    else
      match s.openBatch with
      | some z => .error (.trap { code := cMatrixState, finfo := matInfo 0 z 0 10 })
      | none =>
        if s.curSlot.dual then .ok ((s.modCur fun sl => sl.endPath s.cur.pathQ).settle s.cur.core s.cur.slot)
        else if s.waitOver s.cur.core s.cur.slot .ending s.cur.pathQ then .ok (s.endGroup s.cur.core s.cur.slot)
        else .error (.hold .ending)

/-- DONE (R104, R105, R358). -/
def execDone (s : State) : Host.Outcome State Fault Refusal :=
  run .done s fun s =>
    if !s.isTask then s.raiseIllegal .done
    else if !s.waitOver s.cur.core s.cur.slot .finish s.cur.pathQ then .error (.hold .finish)
    else
      let sl := s.curSlot
      let settled := match sl.task with
        | some t => t.settled
        | none => true
      let s := if sl.taskfk ≠ 0 && !settled then s.count s.cur.core evDoneUnres else s
      .ok ((s.releaseHeld ⟨s.cur.core, s.cur.slot, sl.gen⟩).freeSlot s.cur.core s.cur.slot)

/-- The slot whose path `q` executes `ifence`: both paths discard their fetched lines, a path inside an instruction at its end; a
path that awaits a line asks for it again (R46). -/
def Slot.dropLines (sl : Slot) (q : Bool) : Slot :=
  let drop := fun (p : Path) =>
    match p.wait with
    | .code _ => { p with line := none, wait := .none }
    | w => if w.issued then { p with line := p.line.map fun l => { l with old := true } } else { p with line := none }
  (sl.setPath q fun p => { p with line := none }).setPath (!q) drop
/-- IFENCE (R46); in a subscriber it acts as `nop` (R262). -/
def execIfence (s : State) : Host.Outcome State Fault Refusal :=
  run .ifence s fun s =>
    if s.curPath.chan then .ok s.retire
    else if !s.waitOver s.cur.core s.cur.slot (.performed false) then .error (.hold (.performed false))
    else .ok ((s.modCurCore fun co => { co with icache := [] }).modCur fun sl => sl.dropLines s.cur.pathQ).retire

/-! Traps and returns. -/

/-- TRAP (R187). -/
def execTrap (code : BitVec 8) (o : F1) (s : State) : Host.Outcome State Fault Refusal :=
  run (.trap code o) s fun s => .error (.trap { code := cTrapInstr, faddr := s.sreg o.a, finfo := code.zeroExtend 64 })

/-- ERET (R188). -/
def execEret (s : State) : Host.Outcome State Fault Refusal :=
  run .eret s fun s =>
    if !s.waitOver s.cur.core s.cur.slot (.performed false) then .error (.hold (.performed false))
    else .ok s.retire.endHandling

/-- URET (R189). -/
def execUret (s : State) : Host.Outcome State Fault Refusal :=
  run .uret s fun s => if s.curSlot.uia then .ok s.userReturn else s.raiseIllegal .uret

end Sys2Proof.Machine
end

