-- ==== Sys2Proof/Machine/Memory.lean ====
section
/-! DEFINITION. The access instructions (R205 to R218), `pref` (R211), `dec` (R347) and `fence` (R233). -/

namespace Sys2Proof.Machine

/-! Addresses and holds. -/

/-- The effective address of an M3 instruction (R195): `vec` where the index field names a vector register, `status` where
it names a status register. -/
def State.effAddr (s : State) (o : M3) (vec status : Bool) (size : Nat) (wr : Bool) : Act Word :=
  match s.convert (s.sreg o.base) (s.disp o (!vec && !status) size) o.form with
  | some a => .ok a
  | none => .error (.trap { code := cAddrRange, faddr := s.sreg o.base, finfo := accInfo 4 wr false none })

/-- A scope at which an annotation holds something (Table 9-2): team to sys. -/
def strong (sc : BitVec 4) : Bool := 2#4 ≤ sc
/-- The order annotation of an access releases. -/
def M3.releases (o : M3) : Bool := o.order.getLsbD 1 && strong o.scope
/-- A release waits until every earlier access of the group is performed (R228, R231). -/
def State.releaseHold (s : State) (rel : Bool) : Act Unit :=
  if rel && !s.waitOver s.cur.core s.cur.slot (.performed false) then .error (.hold (.performed false)) else .ok ()

/-- An earlier access of the executing group to a line of a home is outstanding (R225). -/
def State.lineBusy (s : State) (h : Home) : Bool := !s.waitOver s.cur.core s.cur.slot (.line h.pkg (h.loc / 64))

/-! Scalar accesses. -/

/-- The wait of a path for the answer of an access that is not performed at once. -/
def AccOp.await : AccOp → Wait
  | .ldf _ | .stf _ | .fe _ => .shelved
  | _ => .load
/-- A path goes on at the issue of the access where it crosses a link (R206, R347). -/
def AccOp.goesOn : AccOp → Bool
  | .store _ | .dec => true
  | _ => false
/-- The scalar registers that an access writes. -/
def accRegs (a : Access) : List (Nat × Nat) := ([a.dest.toNat, a.status.toNat].filter fun r => r ≠ 0).map fun r => (0, r)
/-- The executing path waits inside an access that will write registers (R82, R122). -/
def State.waitIn (s : State) (w : Wait) (regs : List (Nat × Nat)) : State := s.modPath fun p => { p with wait := w, flight := regs }

/-- An access that has reached its home on the package: performed, shelved or refused there (R208, R274). -/
def State.issueHere (s : State) (a : Access) : Act State :=
  match s.perform a with
  | (s', .value w) => .ok (s'.modCur fun sl => sl.answer a w).retire
  | (s', .notReady) => .ok (s'.setS a.status stNotReady).retire
  | (s', .shelved) => .ok (s'.waitIn .shelved (accRegs a))
  | (s', .refused) => .ok ((s'.retryAccess a).waitIn .shelved (accRegs a))
  | (_, .short _) => .error (.trapAfter (accTrap a cPoison) s)
  | (_, .fault c) => .error (.trapAfter (accTrap a c) s)
/-- An access that crosses a link: all but a plain store and a `dec` hold the path until the reply [log 6, DEDUCED]. -/
def State.issueAway (s : State) (a : Access) (h : Home) : Act State :=
  if s.lineBusy h then .error (.hold (.line h.pkg (h.loc / 64)))
  else
    let go := AccOp.goesOn a.op
    match s.newReq h.pkg h.target a .path 128 (AccOp.reads a.op) (!go) with
    | none => .error (.hold .tag)
    | some s' => .ok (if go then s'.retire else s'.waitIn (AccOp.await a.op) (accRegs a))
/-- An access that has passed the checks goes to its home. On the package it is performed there at once, or where its larder bank
serves it later, in the bank's order (R196, R226) [log 5, DESIGN CHOICE]; a plain store and a `dec` do not hold their path until then
(R206, R347). -/
def State.issueOne (s : State) (a : Access) (h : Home) : Act State :=
  if s.across h then s.issueAway a h
  else
    match s.lentFault a.loc a.pkg a.part with
    | some c => .error (.trapAfter (accTrap a c) s)
    | none =>
      let r := s.arriveAll a.loc a.size
      if r.2 ≤ s.clk then r.1.issueHere a
      else
        let go := AccOp.goesOn a.op
        let s' := r.1.awaitBank r.2 a .path 128 (AccOp.reads a.op) (!go)
        .ok (if go then s'.retire else s'.waitIn (AccOp.await a.op) (accRegs a))

/-- A scalar access: its operation, width and alignment, whether it reads, writes, is a sync access, names a status register,
releases; its data and its destinations. -/
structure ScalarAcc where
  op : AccOp
  n : Nat
  align : Nat
  rd : Bool
  wr : Bool
  sync : Bool := false
  rel : Bool := false
  data : Word := 0
  data2 : Word := 0
  dest : BitVec 5 := 0
  status : BitVec 5 := 0
  deriving DecidableEq, Repr

/-- The address that a scalar access uses. -/
def ScalarAcc.use (p : ScalarAcc) (ea : Word) : Use1 :=
  { addr := ea, size := p.n, align := p.align, rd := p.rd, wr := p.wr, sync := p.sync }

/-- The access on its way to the home of `u`. -/
def State.scalarAcc (s : State) (p : ScalarAcc) (u : Use1) : Access :=
  { s.mkAccess s.cur.core s.cur.slot s.cur.pathQ p.op u.addr (s.home s.who u) p.n p.data with
    data2 := p.data2, dest := p.dest, status := p.status }

/-- A scalar access at an effective address: the checks of Table 8-2, the hold of a release, the access. -/
def State.accessAt (s : State) (p : ScalarAcc) (ea : Word) : Act State :=
  let u := p.use ea
  match s.checkUses [u] with
  | .error e => .error e
  | .ok s' =>
    match s.releaseHold p.rel with
    | .error e => .error e
    | .ok () => s'.issueOne (s.scalarAcc p u) (s.home s.who u)

/-- A scalar access of an M3 instruction, with offsets in units of `size`. -/
def State.scalarAccess (s : State) (o : M3) (p : ScalarAcc) (status : Bool) (size : Nat) : Act State :=
  match s.effAddr o false status size p.wr with
  | .error e => .error e
  | .ok ea => s.accessAt p ea

/-- The scalar register that the data field names. -/
def M3.sreg (o : M3) : BitVec 5 := bits o.data 0 5

/-- The access of `ld` (R206). -/
def accLd (o : M3) : ScalarAcc :=
  { op := .load, n := elemBytes o.ty, align := elemBytes o.ty, rd := true, wr := false, data2 := o.ty.zeroExtend 64
    dest := M3.sreg o }
/-- LD (R206). -/
def execLd (o : M3) (s : State) : Host.Outcome State Fault Refusal :=
  run (.ld o) s fun s => s.scalarAccess o (accLd o) false (elemBytes o.ty)
/-- The access of `st` (R206). -/
def accSt (o : M3) (s : State) : ScalarAcc :=
  { op := .store 0, n := elemBytes o.ty, align := elemBytes o.ty, rd := false, wr := true, rel := M3.releases o
    data := s.sreg (M3.sreg o) }
/-- ST (R206). -/
def execSt (o : M3) (s : State) : Host.Outcome State Fault Refusal :=
  run (.st o) s fun s => s.scalarAccess o (accSt o s) false (elemBytes o.ty)

/-- A sync access that has to wait in a grid group and names no status register is illegal in a task and in the S-slot (R208). -/
def State.needsStatus (s : State) (o : M3) : Bool := !s.isGroup && o.idx = 0

/-- The access of `ldf` (R207). -/
def accLdf (o : M3) : ScalarAcc :=
  { op := .ldf (o.mode = 1), n := 8, align := 8, rd := true, wr := true, sync := true, dest := M3.sreg o, status := o.idx }
/-- LDF (R207, R208). -/
def execLdf (o : M3) (s : State) : Host.Outcome State Fault Refusal :=
  run (.ldf o) s fun s => if s.needsStatus o then s.raiseIllegal (.ldf o) else s.scalarAccess o (accLdf o) true 8
/-- The access of `stf` (R207). -/
def accStf (o : M3) (s : State) : ScalarAcc :=
  { op := .stf (o.mode = 1), n := 8, align := 8, rd := true, wr := true, sync := true, rel := strong o.scope
    data := s.sreg (M3.sreg o), status := o.idx }
/-- STF (R207, R208). -/
def execStf (o : M3) (s : State) : Host.Outcome State Fault Refusal :=
  run (.stf o) s fun s =>
    if o.mode = 0 && s.needsStatus o then s.raiseIllegal (.stf o) else s.scalarAccess o (accStf o s) true 8
/-- The access of `fe` (R207). -/
def accFe (o : M3) : ScalarAcc :=
  { op := .fe (o.mode = 0), n := 8, align := 8, rd := false, wr := true, sync := true, rel := strong o.scope
    dest := M3.sreg o }
/-- FE (R207): it writes, and sets or clears the bit. -/
def execFe (o : M3) (s : State) : Host.Outcome State Fault Refusal :=
  run (.fe o) s fun s => s.scalarAccess o (accFe o) false 8

/-- The access of an atomic of one operand (R215, R216). -/
def accAmo (o : M3) (s : State) : ScalarAcc :=
  { op := .amo o.mode o.ty, n := elemBytes o.ty, align := elemBytes o.ty, rd := true, wr := true, rel := M3.releases o
    data := s.sreg (M3.sreg o), dest := M3.sreg o }
/-- An atomic of one operand. -/
def State.atomic (s : State) (o : M3) : Act State := s.scalarAccess o (accAmo o s) false (elemBytes o.ty)
/-- AMO (R215). -/
def execAmo (o : M3) (s : State) : Host.Outcome State Fault Refusal := run (.amo o) s fun s => s.atomic o
/-- FAMO (R216). -/
def execFamo (o : M3) (s : State) : Host.Outcome State Fault Refusal := run (.famo o) s fun s => s.atomic o
/-- The access of `cas` (R217). -/
def accCas (o : M3) (s : State) : ScalarAcc :=
  { op := .cas o.ty, n := elemBytes o.ty, align := elemBytes o.ty, rd := true, wr := true, rel := M3.releases o
    data := s.sreg (M3.sreg o), data2 := s.sreg (M3.sreg o + 1), dest := M3.sreg o }
/-- CAS (R217). -/
def execCas (o : M3) (s : State) : Host.Outcome State Fault Refusal :=
  run (.cas o) s fun s => s.scalarAccess o (accCas o s) false (elemBytes o.ty)
/-- The access of `dec` (R347); s0 as its register stands for an amount of 1. -/
def accDec (o : M3) (s : State) : ScalarAcc :=
  { op := .dec, n := 8, align := 32, rd := false, wr := true, rel := strong o.scope
    data := if M3.sreg o = 0 then 1 else s.sreg (M3.sreg o) }
/-- DEC (R347): a translated address is out of range as soon as it is formed; a descriptor is 32-byte aligned. -/
def execDec (o : M3) (s : State) : Host.Outcome State Fault Refusal :=
  run (.dec o) s fun s =>
    match s.effAddr o false false 8 true with
    | .error e => .error e
    | .ok ea =>
      if !isLarderAddr ea then .error (.trap { code := cAddrRange, faddr := ea, finfo := accInfo 6 true false none })
      else s.accessAt (accDec o s) ea

/-- FENCE (R233): `acq` awaits the earlier reads of the group, `rel` and `ar` every earlier access. -/
def execFence (kind scope : BitVec 4) (o : F1) (s : State) : Host.Outcome State Fault Refusal :=
  run (.fence kind scope o) s fun s =>
    let w : Wait := .performed (kind = 1#4)
    if strong scope && !s.waitOver s.cur.core s.cur.slot w then .error (.hold w) else .ok s.retire

/-- A line is prepared at its home on the package (R211): a Vault line is brought into the memory-side cache, a larder bank in
retention begins leaving it. -/
def State.prepare (s : State) (loc pkg part : Nat) : State :=
  if isLarder loc then s.wakeBank (larderCore loc) (bankOf (larderOff loc))
  else s.touchHome loc 1 pkg part
/-- One line of `pref` (R211): a line that would fault is skipped; neither read nor write permission is asked [log 62, DESIGN
CHOICE]. -/
def State.prefLine (s : State) (a : Word) : State :=
  let u : Use1 := { addr := a, size := 1, align := 1, rd := false, wr := false }
  let s1 := s.installAll s.cur.core [u]
  match s.accessFault s.who [u] with
  | some _ => s1
  | none =>
    let h := s.home s.who u
    if h.pkg ≠ s.pkgId.toNat then
      s1.postReq h.pkg h.target (s.mkAccess s.cur.core s.cur.slot s.cur.pathQ .pref a h 1 0) .pref
    else if (s.lentFault h.loc s.pkgId.toNat s.curPart).isSome then s1
    else s1.prepare h.loc s.pkgId.toNat s.curPart
/-- PREF (R211): the lines that hold EA to EA + 64 × lines - 1. -/
def execPref (o : M3) (s : State) : Host.Outcome State Fault Refusal :=
  run (.pref o) s fun s =>
    match s.effAddr o false false 64 false with
    | .error _ => .ok s.retire
    | .ok ea =>
      let n := o.ty.toNat + 1 + (if field ea 0 6 = 0 then 0 else 1)
      .ok ((List.range n).foldl (fun s i => s.prefLine (ea - (ea &&& 63) + word (64 * i))) s).retire

/-! Vector accesses. -/

/-- What a lane's element is in the bytes that a lane has read: a 4-bit element is a nibble (R212). -/
def laneValue (t : BitVec 4) (l : Nat) (v : Word) : Nat :=
  if tyWidth t = 4 then (if l % 2 = 1 then v.toNat / 16 % 16 else v.toNat % 16) else v.toNat
/-- The slot with the lanes of a vector access in a register (R112, R113, R116). -/
def Slot.writeLanes (sl : Slot) (t : BitVec 4) (r : Nat) (vals : Table Word) : Slot :=
  let m := maskOfKeys vals
  sl.setElems t r m fun l => laneValue t l (Table.get 0 vals l)
where
  /-- The lanes that a table lists. -/
  maskOfKeys (vals : Table Word) : Mask := vals.foldl (fun m e => m ||| (1#128 <<< e.1)) 0

/-- A lane of a vector access on its way: its number, its home, the access. -/
structure LaneAcc where
  l : Nat
  home : Home
  acc : Access
  deriving DecidableEq, Repr

/-- The cause with which a lane fails at its home on the package (Table 8-2, row 8). -/
def State.laneFail (s : State) (x : LaneAcc) : Option (BitVec 8) :=
  match s.lentFault x.acc.loc x.acc.pkg x.acc.part with
  | some c => some c
  | none =>
    match (s.act x.acc).2.1 with
    | .fault c => some c
    | _ => none

/-- Lanes performed in ascending order, with the values that they answer (R213, R218). -/
def State.performLanes (s : State) : List LaneAcc → Table Word → State × Table Word
  | [], t => (s, t)
  | x :: r, t =>
    match s.perform x.acc with
    | (s', .value w) => s'.performLanes r (Table.ins t x.l w)
    | (s', _) => s'.performLanes r t

/-- The lanes of the package arrive at their homes: each with the clk of its service (R196). -/
def State.arriveLanes (s : State) : List LaneAcc → State × List (LaneAcc × Nat)
  | [] => (s, [])
  | x :: r =>
    let a := s.arriveAll x.acc.loc x.acc.size
    let t := a.1.arriveLanes r
    (t.1, (x, a.2) :: t.2)
/-- Lanes whose bank serves them later (R196): they stay outstanding until then. -/
def State.awaitLanes (s : State) (ins : Nat) (inside : Bool) (l : List (LaneAcc × Nat)) : State :=
  l.foldl (fun s x => s.awaitBank x.2 x.1.acc .path x.1.l (AccOp.reads x.1.acc.op) inside ins) s
/-- Lanes sent across the links in ascending order, as R225 and the free tags allow. -/
def State.sendLanes (s : State) (ins : Nat) (inside : Bool) (l : List LaneAcc) : State :=
  (s.modCur fun sl => { sl with laneq := sl.laneq ++ l.map fun x =>
    ⟨ins, x.l, x.home.pkg, x.home.target, x.acc, AccOp.reads x.acc.op, inside⟩ }).pump s.cur.core s.cur.slot

/-- A failing lane as a path keeps it. -/
def laneBad (f : LaneAcc × BitVec 8) : BitVec 8 × Nat × Word × Bool := (f.2, f.1.l, f.1.acc.addr, accWrites f.1.acc.op)
/-- The trap of a failing lane (R180). -/
def laneTrap (b : BitVec 8 × Nat × Word × Bool) : Trap :=
  { code := b.1, faddr := b.2.2.1, finfo := accInfo 0 b.2.2.2 false (some b.2.1) }
/-- The lanes of a `vamo` that have been performed are kept over its trap, so that its resumption does not repeat them (R214, R219). -/
def Path.keepDone (p : Path) (vals : Table Word) : Path := { p with vdone := vals.foldl (fun t e => Table.ins t e.1 e.2) p.vdone }

/-- The lanes of a vector access, by what becomes of them: those whose home serves them now, those whose bank serves them later, those
across the links. -/
structure Lanes where
  now : List LaneAcc
  later : List (LaneAcc × Nat)
  away : List LaneAcc

/-- The vector registers that an access writes. -/
def laneRegs (o : M3) : List (Nat × Nat) := (List.range (pairLen o.ty)).map fun i => (1, o.data.toNat + i)
/-- Some lane of the package fails at its home (R214), the lowest as `first`: a load writes nothing; of the others the lanes of homes
without a failing lane stand. The trap is taken once those that stand, and the lanes across the links, are answered, and names the lowest
lane that has failed. `bad` are the homes with a failing lane. -/
def State.failLanes (s : State) (o : M3) (amo : Bool) (x : Lanes) (first : LaneAcc × BitVec 8) (bad : List Nat) : Act State :=
  let stands := fun (l : LaneAcc) => accWrites l.acc.op && !bad.contains l.home.target
  let later := x.later.filter fun e => stands e.1
  let r := s.performLanes (x.now.filter stands) []
  let s' := r.1.modPath fun p => if amo then p.keepDone r.2 else p
  if later = [] && x.away = [] then .error (.trapAfter (laneTrap (laneBad first)) s')
  else
    let ins := s'.nextId
    let v : VLoad := { dest := if amo then some o.data.toNat else none, ty := o.ty, lanes := [], left := later.length + x.away.length
                       bad := some (laneBad first) }
    .ok (((((s'.fresh.2).awaitLanes ins true later).sendLanes ins true x.away).modPath fun p => { p with vload := some v }).waitIn .load
      (if amo then laneRegs o else []))

/-- No lane fails: the lanes served now are performed. A store goes on at its issue (R206); a load or an atomic writes its register with
the last lane (R214). -/
def State.passLanes (s : State) (o : M3) (store : Bool) (x : Lanes) : Act State :=
  let r := s.performLanes x.now []
  let vals := s.curPath.vdone.foldl (fun t e => Table.ins t e.1 e.2) r.2
  let ins := r.1.nextId
  let s' := ((r.1.fresh.2).awaitLanes ins (!store) x.later).sendLanes ins (!store) x.away
  if store || (x.later = [] && x.away = []) then
    .ok (if store then s' else s'.modCur fun sl => sl.writeLanes o.ty o.data.toNat vals).retire
  else
    let v : VLoad := { dest := some o.data.toNat, ty := o.ty, lanes := vals, left := x.later.length + x.away.length, bad := none }
    .ok ((s'.modPath fun p => { p with vload := some v }).waitIn .load (laneRegs o))

/-- The lanes of a vector access that has passed the checks go to their homes (R214). `store` for an access that answers nothing. -/
def State.issueLanes (s : State) (o : M3) (xs : List LaneAcc) (store : Bool) : Act State :=
  let r := s.arriveLanes (xs.filter fun x => !s.across x.home)
  let x : Lanes :=
    { now := (r.2.filter fun e => e.2 ≤ s.clk).map Prod.fst
      later := r.2.filter fun e => s.clk < e.2
      away := xs.filter fun x => s.across x.home }
  let fails := (xs.filter fun l => !s.across l.home).filterMap fun l => (s.laneFail l).map fun c => (l, c)
  match fails with
  | f :: _ => r.1.failLanes o (!store && accWrites f.1.acc.op) x f (fails.map fun f => f.1.home.target)
  | [] => r.1.passLanes o store x

/-- A `vst` of a 64-bit type whose active set is exactly lanes 0 and 1, at a 16-byte aligned address, is one access of 16 bytes
(R310). -/
def unit16 (o : M3) (ea : Word) (xs : List LaneAcc) : List LaneAcc :=
  match xs with
  | [x, y] =>
    if ty64 o.ty && x.l = 0 && y.l = 1 && field ea 0 4 = 0 && x.acc.op = .store 15 && y.acc.op = .store 1 then
      [{ x with acc := { x.acc with op := .store16, size := 16, data2 := y.acc.data } }]
    else xs
  | _ => xs

/-- A vector access: the operation of a lane, the lanes, their addresses relative to the effective address, their data. -/
structure VecAcc where
  rd : Bool
  wr : Bool
  rel : Bool
  vec : Bool
  deriving DecidableEq, Repr

/-- The lanes of a vector access as the addresses they use (R200). -/
def laneUses (p : VecAcc) (n : Nat) (ea : Word) (addr : Nat → Word) (ls : List Nat) : List Use1 :=
  ls.map fun l =>
    { addr := addr l, size := n, align := n, rd := p.rd, wr := p.wr, lane := some l, base := some ea }

/-- A vector access of an M3 instruction (R212 to R214, R218). -/
def State.vectorAccess (s : State) (o : M3) (p : VecAcc) (m : Mask) (addr : Word → Nat → Word)
    (op : List Nat → Word → Nat → AccOp × Word) : Act State :=
  let ls := (List.range 128).filter fun l => m.getLsbD l
  let n := elemBytes o.ty
  if ls = [] then .ok s.retire
  else
    match s.effAddr o p.vec false n p.wr with
    | .error e => .error e
    | .ok ea =>
      let us := laneUses p n ea (addr ea) ls
      match s.checkUses us with
      | .error e => .error e
      | .ok s' =>
        match s.releaseHold p.rel with
        | .error e => .error e
        | .ok () =>
          let sl := s.curSlot
          let xs := us.map fun u =>
            let l := u.lane.getD 0
            let h := s.home s.who u
            let x := op ls ea l
            let a := s.mkAccess s.cur.core s.cur.slot s.cur.pathQ x.1 u.addr h n (word (sl.elem o.ty o.data.toNat l))
            (⟨l, h, { a with data2 := x.2 }⟩ : LaneAcc)
          let xs := if p.rd || p.vec then xs.filter fun x => !(s.curPath.vdone.any fun e => e.1 = x.l) else unit16 o ea xs
          s'.issueLanes o xs (!p.rd)

/-- The address of a lane in a contiguous access. -/
def contiguous (t : BitVec 4) (ea : Word) (l : Nat) : Word :=
  ea + word (if tyWidth t = 4 then l / 2 else l * elemBytes t)
/-- The address of a lane in a gather (R195). -/
def State.gathered (s : State) (o : M3) (ea : Word) (l : Nat) : Word :=
  ea + (lane (s.vreg o.idx.toNat) l).signExtend 64

/-- A lane's store, with a nibble's place for 4-bit types. -/
def storeLane (t : BitVec 4) (kind l : Nat) : AccOp :=
  if tyWidth t = 4 then .nibble (l % 2 = 1) kind else .store kind
/-- The trace of a lane of `vst`: the last lane of a 64-byte line carries the line's entry (Table 9-10). -/
def vstLane (t : BitVec 4) (ls : List Nat) (ea : Word) (l : Nat) : AccOp × Word :=
  let a := contiguous t ea
  let mine := ls.filter fun x => (a x).toNat / 64 = (a l).toNat / 64
  if mine.getLast? = some l then
    let bytes := (mine.map a).eraseDups.length * elemBytes t
    (storeLane t 1 l, word (bytes + 256 * ((a l).toNat - (a (mine.headD l)).toNat)))
  else (storeLane t 15 l, 0)

/-- VLD (R212). -/
def execVld (o : M3) (s : State) : Host.Outcome State Fault Refusal :=
  run (.vld o) s fun s =>
    s.vectorAccess o ⟨true, false, false, false⟩ (s.active o.mode) (contiguous o.ty) fun _ _ _ => (.load, o.ty.zeroExtend 64)
/-- VST (R212). -/
def execVst (o : M3) (s : State) : Host.Outcome State Fault Refusal :=
  run (.vst o) s fun s =>
    s.vectorAccess o ⟨false, true, M3.releases o, false⟩ (s.active o.mode) (contiguous o.ty) (vstLane o.ty)
/-- VGAT (R213). -/
def execVgat (o : M3) (s : State) : Host.Outcome State Fault Refusal :=
  run (.vgat o) s fun s =>
    s.vectorAccess o ⟨true, false, false, true⟩ (s.active o.mode) (s.gathered o) fun _ _ _ => (.load, o.ty.zeroExtend 64)
/-- VSCT (R213). -/
def execVsct (o : M3) (s : State) : Host.Outcome State Fault Refusal :=
  run (.vsct o) s fun s =>
    s.vectorAccess o ⟨false, true, M3.releases o, true⟩ (s.active o.mode) (s.gathered o) fun _ _ l => (storeLane o.ty 2 l, 0)
/-- VAMO (R218): the active set is m0. -/
def execVamo (o : M3) (s : State) : Host.Outcome State Fault Refusal :=
  run (.vamo o) s fun s =>
    s.vectorAccess o ⟨true, true, M3.releases o, true⟩ (s.mreg 0) (s.gathered o) fun _ _ _ => (.amo o.mode o.ty, 0)

end Sys2Proof.Machine
end

