-- ==== Sys2Proof/Machine/Sync.lean ====
section
/-! DEFINITION. The instructions of a team: named barriers (R349 to R352), the cluster barrier (R353), queue registers (R256
to R259), channels (R262 to R265). -/

namespace Sys2Proof.Machine

/-! Named barriers. -/

/-- The barrier that a barrier instruction names. -/
def barNum (o : F1) : Nat := field o.x 0 4
/-- The barrier of the executing group's team. -/
def State.bar (s : State) (b : Nat) : Bar :=
  match s.curTeam? with
  | some t => t.bar b
  | none => {}
/-- The result word of an arrival (R349). -/
def resultWord (g : BitVec 32) (st : Word) : Word := (g ++ (0 : BitVec 32)) ||| st
/-- The count operand of an arrival (R349): none, or its value where it is 1 to 64. -/
def State.countOperand (s : State) (o : F1) : Option (Option Nat) :=
  if o.a = 0 then some none
  else
    let v := (s.sreg o.a).toNat
    if 1 ≤ v && v ≤ 64 then some (some v) else none

/-- An arrival at a barrier (R350): the barrier, the status, and whether its waiters are released. -/
def Bar.arrive (b : Bar) (c : Option Nat) : Bar × Word × Bool :=
  if !b.valid then (b, stInvalidated, false)
  else
    let set : Option Bar :=
      match c with
      | none => some b
      | some n => if b.arr = 0 then some { b with exp := n } else if n = b.exp then some b else none
    match set with
    | none => (b, stRefused, false)
    | some b =>
      if b.arr + 1 = b.exp then ({ b with gen := b.gen + 1, arr := 0, exp := b.initexp }, stOK, true)
      else ({ b with arr := b.arr + 1 }, stOK, false)

/-- What a waiting `bar.sync` or `bar.wait` keeps in its path's buffer: its destination, and whether the generation goes
with the status. -/
def barBuf (d : BitVec 5) (sync : Bool) : Table Word := [(0, d.zeroExtend 64), (1, if sync then 1 else 0)]
/-- The word that a waiter of generation `g` receives. -/
def waitWord (sync : Bool) (g : BitVec 32) (st : Word) : Word := if sync then resultWord g st else st

/-- A path's wait on barrier `b` has an outcome: the path's instruction completes. -/
def State.releaseWaiter (s : State) (c k : Nat) (q : Bool) (b : Nat) (r : Bar) : State :=
  let p := (s.slot c k).path q
  match p.wait with
  | .barrier b' g =>
    match r.outcome g with
    | some st =>
      if b' = b then
        (s.modSlot c k fun sl =>
          sl.setS (Table.get 0 p.buf 0).toNat (waitWord (Table.get 0 p.buf 1 = 1) g st)).advance c k q p.succ
      else s
    | none => s
  | _ => s
/-- The waiters of a barrier of a team are released (R350), in slot order, P before Q. -/
def State.releaseBar (s : State) (team b : Nat) : State :=
  match s.team? team with
  | none => s
  | some t =>
    t.slots.foldl (fun s k =>
      (s.releaseWaiter t.core k true b (t.bar b)).releaseWaiter t.core k false b (t.bar b)) s

/-- An arrival at a barrier of a team. -/
def State.arriveAt (s : State) (team b : Nat) (c : Option Nat) : State × Word :=
  match s.team? team with
  | none => (s, stInvalidated)
  | some t =>
    let r := (t.bar b).arrive c
    let s' := s.modTeam team fun t => t.modBar b fun _ => r.1
    (if r.2.2 then s'.releaseBar team b else s', r.2.1)

/-- The model's number of the executing group's team. -/
def State.teamNo (s : State) : Nat :=
  match s.curSlot.member with
  | some m => m.team
  | none => 0

/-- BAR_INIT (R350). -/
def execBarInit (o : F1) (s : State) : Host.Outcome State Fault Refusal :=
  run (.barInit o) s fun s =>
    if !s.isGroup then s.raiseIllegal (.barInit o)
    else
      let v := (s.sreg o.a).toNat
      if 1 ≤ v && v ≤ 64 then
        let set := fun (b : Bar) =>
          { b with gen := b.gen + 1, lastinv := b.gen + 1, valid := true, initexp := v, exp := v, arr := 0 }
        let s' := (s.modTeam s.teamNo fun t => t.modBar (barNum o) set).releaseBar s.teamNo (barNum o)
        .ok (s'.setS o.d stOK).retire
      else .ok (s.setS o.d stRefused).retire

/-- BAR_ARR (R350). -/
def execBarArr (o : F1) (s : State) : Host.Outcome State Fault Refusal :=
  run (.barArr o) s fun s =>
    if !s.isGroup then s.raiseIllegal (.barArr o)
    else
      let g := (s.bar (barNum o)).gen
      match s.countOperand o with
      | none => .ok (s.setS o.d (resultWord g stRefused)).retire
      | some c =>
        match s.releaseHold true with
        | .error e => .error e
        | .ok () =>
          let r := s.arriveAt s.teamNo (barNum o) c
          .ok (r.1.setS o.d (resultWord g r.2)).retire

/-- A group waits for generation `g` of a barrier, or goes on with its outcome. -/
def State.barWaitOn (s : State) (o : F1) (g : BitVec 32) (sync : Bool) : Act State :=
  match (s.bar (barNum o)).outcome g with
  | some st => .ok (s.setS o.d (waitWord sync g st)).retire
  | none => .error (.holdAfter (.barrier (barNum o) g) (s.modPath fun p => { p with buf := barBuf o.d sync }))

/-- BAR_WAIT (R350); a wait that has been withdrawn goes on with its own generation (R352). -/
def execBarWait (o : F1) (s : State) : Host.Outcome State Fault Refusal :=
  run (.barWait o) s fun s =>
    if !s.isGroup then s.raiseIllegal (.barWait o) else s.barWaitOn o (s.curPath.arrived.getD (bits (s.sreg o.a) 32 32)) false

/-- BAR_SYNC (R350): an arrival, then the wait on its generation; a group that has arrived makes no second arrival (R352). -/
def execBarSync (o : F1) (s : State) : Host.Outcome State Fault Refusal :=
  run (.barSync o) s fun s =>
    if !s.isGroup then s.raiseIllegal (.barSync o)
    else
      match s.curPath.arrived with
      | some g => s.barWaitOn o g true
      | none =>
        let g := (s.bar (barNum o)).gen
        match s.countOperand o with
        | none => .ok (s.setS o.d (resultWord g stRefused)).retire
        | some c =>
          match s.releaseHold true with
          | .error e => .error e
          | .ok () =>
            let r := s.arriveAt s.teamNo (barNum o) c
            if r.2 = stOK then (r.1.modPath fun p => { p with arrived := some g }).barWaitOn o g true
            else .ok (r.1.setS o.d (resultWord g r.2)).retire

/-- BAR_INV (R350). -/
def execBarInv (o : F1) (s : State) : Host.Outcome State Fault Refusal :=
  run (.barInv o) s fun s =>
    if !s.isGroup then s.raiseIllegal (.barInv o)
    else if !(s.bar (barNum o)).valid then .ok (s.setS o.d stInvalidated).retire
    else
      let set := fun (b : Bar) => { b with gen := b.gen + 1, lastinv := b.gen + 1, valid := false, arr := 0 }
      let s' := (s.modTeam s.teamNo fun t => t.modBar (barNum o) set).releaseBar s.teamNo (barNum o)
      .ok (s'.setS o.d stOK).retire

/-- CBAR (R353): an arrival, then the wait until the generation completes. -/
def execCbar (o : F1) (s : State) : Host.Outcome State Fault Refusal :=
  run (.cbar o) s fun s =>
    if !s.isGroup then s.raiseIllegal (.cbar o)
    else
      let await := fun (s : State) (g : BitVec 32) =>
        match s.curCluster? with
        | some cl =>
          if cl.gen ≠ g then Except.ok (s.setS o.d stOK).retire
          else .error (.holdAfter (.cluster g) (s.modPath fun p => { p with arrived := some g }))
        | none => .ok s.retire
      match s.curPath.arrived with
      | some g => await s g
      | none =>
        match s.releaseHold true with
        | .error e => .error e
        | .ok () =>
          match s.curSlot.member, s.curCluster? with
          | some m, some cl =>
            await (s.modCluster m.cluster fun cl => ({ cl with arr := cl.arr + 1 }).complete) cl.gen
          | _, _ => .ok s.retire

/-! Queue registers. -/

/-- The queue register that a queue instruction names. -/
def queueNum (o : F1) : Nat := field o.x 0 3
/-- The trap QUEUE_BROKEN (R257, R180). -/
def queueBroken (n : Nat) : Stop := .trap { code := cQueueBroken, finfo := word n }
/-- The executing path waits on a queue, in the place in which it began to wait. -/
def State.queueHold (s : State) (push : Bool) (n : Nat) : Act State :=
  match s.curPath.queueWait push n with
  | some since => .error (.hold (.queue push n since))
  | none => .error (.holdAfter (.queue push n s.nextId) s.fresh.2)
/-- Another path that began to wait earlier is served first (R257). -/
def State.queueBehind (s : State) (t : Team) (push : Bool) (n : Nat) : Bool :=
  s.earlierWaiter t push n ((s.curPath.queueWait push n).getD s.nextId)

/-- A queue instruction of a grid group, with its team and its index there. -/
def queueOp (i : Instr) (s : State) (f : State → Team → Nat → Act State) : Host.Outcome State Fault Refusal :=
  run i s fun s =>
    match s.teamOf s.cur.core s.cur.slot with
    | some (t, g) => if s.isGroup then f s t g else s.raiseIllegal i
    | none => s.raiseIllegal i

/-- A queue register of the executing group's team changed. -/
def State.modQueue (s : State) (n : Nat) (f : QReg → QReg) : State := s.modTeam s.teamNo fun t => t.modQ n f

/-- QPUSH (R257). -/
def execQpush (o : F1) (s : State) : Host.Outcome State Fault Refusal :=
  queueOp (.qpush o) s fun s t g =>
    let n := queueNum o
    let r := t.q n
    if !r.canPush g || s.queueBehind t true n then s.queueHold true n
    else if r.state = .broken || !r.live.getLsbD g then .error (queueBroken n)
    else .ok (s.modQueue n fun r => { r with entries := r.entries ++ [s.vreg (queueReg o)] }).retire

/-- QPOP (R257). -/
def execQpop (o : F1) (s : State) : Host.Outcome State Fault Refusal :=
  queueOp (.qpop o) s fun s t g =>
    let n := queueNum o
    let r := t.q n
    if !r.canPop g || s.queueBehind t false n then s.queueHold false n
    else if !r.rset.getLsbD g then .error (queueBroken n)
    else
      match r.entries with
      | v :: rest =>
        .ok (((s.modQueue n fun r => { r with entries := rest }).setV (queueReg o) v).setS o.a stOK).retire
      | [] => if r.tok then .ok (s.setS o.a stInvalidated).retire else .error (queueBroken n)

/-- QSTOP (R257). -/
def execQstop (o : F1) (s : State) : Host.Outcome State Fault Refusal :=
  queueOp (.qstop o) s fun s t g =>
    let n := queueNum o
    let r := t.q n
    if r.state = .uninit || r.state = .broken || !r.live.getLsbD g then .error (queueBroken n)
    else .ok (s.modQueue n fun r => r.stop g).retire

/-- The code of a queue register's state (Table 11-1). -/
def QState.code : QState → Nat
  | .uninit => 0
  | .open_ => 1
  | .stopped => 2
  | .broken => 3
/-- The state word of a queue register (Table 11-3). -/
def QReg.word (r : QReg) (g : Nat) : Word :=
  BitVec.ofNat 64 (flag (r.rset.getLsbD g) 7 + flag (r.live.getLsbD g) 6 + r.state.code * 16 + flag r.tok 3 + r.entries.length)
/-- QSTAT (R259). -/
def execQstat (o : F1) (s : State) : Host.Outcome State Fault Refusal :=
  queueOp (.qstat o) s fun s t g => .ok (s.setS o.d ((t.q (queueNum o)).word g)).retire

/-- QINIT (R257). -/
def execQinit (o : F1) (s : State) : Host.Outcome State Fault Refusal :=
  queueOp (.qinit o) s fun s t _ =>
    let all : BitVec 64 := BitVec.ofNat 64 (2 ^ t.groups - 1)
    let w := s.sreg o.d &&& all
    let r := s.sreg o.a &&& all
    let stopped := w = 0 || r = 0
    .ok (s.modQueue (queueNum o) fun _ =>
      { state := if stopped then .stopped else .open_, entries := [], tok := stopped, wset := w, rset := r, live := w }).retire

/-! Channels. -/

/-- The trap CHANNEL (Table 11-6). -/
def channelTrap (reason ch : Nat) : Stop := .trap { code := cChannel, finfo := word (reason * 4096 + ch % 2048) }
/-- The grid of a core's publisher. -/
def State.pubGrid (s : State) (ch : Nat) : Option Nat :=
  (s.core ch).chan.bind fun c => (s.slot ch c.slot).member.map Member.grid
/-- The reason of a CHANNEL trap of `pub`, `sub` and `resub`, 0 for none: `ch` for `sub` and `resub`. One that a subscriber takes from
its channel has reason 3 (R262). -/
def State.channelReason (s : State) (ch : Option Nat) : Nat :=
  let other := match ch with
    | some c => c < nCores && (s.core c).chan.isSome && s.pubGrid c ≠ s.curSlot.member.map Member.grid
    | none => false
  if !s.isGroup then 1
  else if s.curPath.chan then 3
  else if other then 1
  else if s.curSlot.dual then 2
  else if s.subscribed || (ch.isSome && s.publishing) then 3
  else
    match ch with
    | some c => if nCores ≤ c then 4 else 0
    | none => 0

/-- PUB (R265). -/
def execPub (o : F1) (s : State) : Host.Outcome State Fault Refusal :=
  run (.pub o) s fun s =>
    let r := s.channelReason none
    if r ≠ 0 then .error (channelTrap r s.cur.core)
    else if s.publishing then .ok (s.setS o.d stOK).retire
    else if s.curCore.chan.isSome then .ok (s.setS o.d stBusy).retire
    else
      .ok ((s.modCurCore fun co => { co with chan := some { slot := s.cur.slot, gen := s.curSlot.gen, subs := [] } }).setS o.d stOK).retire

/-- UNPUB (R263, R265). -/
def execUnpub (o : F1) (s : State) : Host.Outcome State Fault Refusal :=
  run (.unpub o) s fun s =>
    if s.curPath.chan then .ok (s.leave s.cur.core s.cur.slot 4 s.pc s.curPath.succ)
    else if s.publishing then .ok (s.closeChannel s.cur.core).retire
    else .ok s.retire

/-- The channel that `sub` and `resub` name. -/
def State.chanOperand (s : State) (o : F2) : Nat := field (s.sreg o.a) 0 11

/-- SUB_CHANNEL (R265). -/
def execSubChannel (o : F2) (s : State) : Host.Outcome State Fault Refusal :=
  run (.subChannel o) s fun s =>
    let ch := s.chanOperand o
    let r := s.channelReason (some ch)
    if r ≠ 0 then .error (channelTrap r ch)
    else
      let c := s.cur.core
      let k := s.cur.slot
      let s0 := s.modCur fun sl => { sl with subst := 0 }
      if (s.core ch).chan.isNone then .ok (s0.setS o.d stRefused).retire
      else
        let b : Subscr :=
          { chan := ch, start := s.clk + skew ch c, pc := s.pc, succ := s.curPath.succ, buffer := [], closed := false }
        let s1 := (s0.setS o.d stOK).retire.modSlot c k fun sl => { sl with sub := some b }
        .ok (s1.modCore ch fun co => { co with chan := co.chan.map fun x => { x with subs := x.subs ++ [(c, k)] } })

/-- UNSUB (R265). -/
def execUnsub (o : F1) (s : State) : Host.Outcome State Fault Refusal :=
  run (.unsub o) s fun s =>
    if s.curPath.chan then .ok (s.leave s.cur.core s.cur.slot 3 s.pc s.curPath.succ) else .ok s.retire

/-- RESUB (R265). -/
def execResub (o : F2) (s : State) : Host.Outcome State Fault Refusal :=
  run (.resub o) s fun s =>
    let ch := s.chanOperand o
    let r := s.channelReason (some ch)
    if r ≠ 0 then .error (channelTrap r ch)
    else
      let s0 := s.modCur fun sl => { sl with subst := 0 }
      if (s.core ch).chan.isNone then .ok (s0.setS o.d stRefused).retire
      else
        .error (.holdAfter (.rendezvous ch (field o.x 0 6) (s.clk + skew ch s.cur.core))
          (s0.modPath fun p => { p with buf := [(0, o.d.zeroExtend 64)] }))

/-- RDV (R265): a mark on the channel, which its issue has placed there (R44). -/
def execRdv (o : F1) (s : State) : Host.Outcome State Fault Refusal := run (.rdv o) s fun s => .ok s.retire

end Sys2Proof.Machine
end

