-- ==== Sys2Proof/Machine/Firkins.lean ====
section
/-! DEFINITION. Firkins: the operations at their home (R313 to R316), their answers, the instructions
(R317 to R323), breaking and dropping (R324, R325). -/

namespace Sys2Proof.Machine

/-! Sending operations (R315). -/

/-- An operation on its way to the home that its handle names. One that finds no free tag is tried again. What has crossed Omyan
travels on under its key; what a placement forwards across a link is a request of the old home's core (R345). -/
def State.fkSend (s : State) (r : FkReq) : State :=
  if fkPkg r.handle = s.pkgId.toNat then s.soon (FkReq.event r) { body := .firkin r }
  else if r.pkg ≠ s.pkgId.toNat || r.crossed then s.send (fkCore r.handle) r.core r.part 3 (.firkin (fkPkg r.handle) r.tag r.epoch r)
  else
    let a := { s.mkAccess r.core r.slot r.pathQ (.store 15) r.named ⟨fkPkg r.handle, 0, 0⟩ 8 0 with gen := r.gen }
    let continues := r.forwarded || match r.kind with
      | .invf _ _ _ => true
      | _ => false
    match s.newReq (fkPkg r.handle) (fkCore r.handle) a (.firkin r) 0 false (!continues) with
    | some s' => s'
    | none => s.later (s.clk + 32) .firkinOpRetry { body := .firkin r }

/-- The forward cache's handle for a handle, and the cache with it newest (R314). -/
def Core.fwdLookup (co : Core) (h : Word) : Word := ((co.fwd.find? fun e => e.1 = h).map Prod.snd).getD h
def Core.fwdTouch (co : Core) (h : Word) : Core :=
  match co.fwd.find? fun e => e.1 = h with
  | some e => { co with fwd := e :: co.fwd.filter fun x => x.1 ≠ h }
  | none => co
/-- A hint installs an entry or replaces the least recently used one. -/
def Core.fwdInstall (co : Core) (h g : Word) : Core := { co with fwd := ((h, g) :: co.fwd.filter fun x => x.1 ≠ h).take 64 }

/-- A slot issues an operation: it goes out, or waits for an earlier one of the slot to the same handle (R315). -/
def State.fkIssue (s : State) (r : FkReq) : State :=
  let co := s.core r.core
  if co.fkOut.contains (r.slot, r.named) then s.modCore r.core fun co => { co with fkHeld := co.fkHeld ++ [r] }
  else
    let r := { r with handle := co.fwdLookup r.named }
    (s.modCore r.core fun co => { co.fwdTouch r.named with fkOut := co.fkOut ++ [(r.slot, r.named)] }).fkSend r

/-- An operation of a slot is acknowledged: the next one to the same handle goes out. -/
def State.fkAcked (s : State) (r : FkReq) : State :=
  let s := s.modCore r.core fun co => { co with fkOut := co.fkOut.erase (r.slot, r.named) }
  match (s.core r.core).fkHeld.find? fun x => x.slot = r.slot && x.named = r.named with
  | some x => (s.modCore r.core fun co => { co with fkHeld := co.fkHeld.erase x }).fkIssue x
  | none => s

/-! Entries. -/

/-- What an allocation finds (R314, R387). -/
inductive FrtAlloc where
  | entry (i gen : Nat)
  | full
  | poison
  deriving DecidableEq, Repr

/-- The lowest-numbered FREE entry, and its next generation, which skips 0. -/
def State.frtFind (s : State) (c : Nat) : FrtAlloc :=
  match (List.range (s.core c).frtsize.toNat).find? fun i => s.poisoned (s.frtLoc c i 0) || fState (s.frt c i 0) = 0 with
  | none => .full
  | some i =>
    if s.poisoned (s.frtLoc c i 0) then .poison
    else
      .entry i (if (s.core c).preGen.contains i then fGen (s.frt c i 0) else nextGen (fGen (s.frt c i 0)))
/-- The places that an allocation reads or writes: the entries up to the one that it finds. -/
def State.scanLocs (s : State) (c : Nat) : List Nat :=
  match s.frtFind c with
  | .entry i _ => ((List.range i).map fun j => s.frtLoc c j 0) ++ s.frtLocs c i
  | _ => (List.range (s.core c).frtsize.toNat).map fun j => s.frtLoc c j 0
/-- An entry written whole (Table 13-3). -/
def State.frtWrite (s : State) (c i : Nat) (w0 w1 w2 w3 : Word) : State :=
  ((((s.setFrt c i 0 w0).setFrt c i 1 w1).setFrt c i 2 w2).setFrt c i 3 w3).modCore c fun co =>
    { co with frtUsed := true, preGen := NatSet.rem co.preGen i }

/-- The place of no entry: that of a firkin whose entry has been freed while a waiter of it is ready. -/
def noEntry : Nat := 8192
/-- A dropped entry without a ready waiter is freed, and its origin gets a drop notice (R325). -/
def State.frtRelease (s : State) (c i : Nat) : State :=
  if i ≠ noEntry && fDrop (s.frt c i 0) && !((s.core c).ready.any fun w => w.2.1 = i) then
    let o := s.frt c i 3
    let s := s.freeDropped c i
    if o ≠ 0 then s.notice c o none else s
  else s
/-- An entry is dropped (R325). -/
def State.frtDrop (s : State) (c i : Nat) : State :=
  (s.setFrt c i 0 (s.frt c i 0 ||| 0x0800000000000000#64)).frtRelease c i

/-- A waiter becomes ready (R314), with the value of its firkin. -/
def State.makeReady (s : State) (c w i : Nat) (v : Word) : State :=
  (s.fresh.2.modCore c fun co => { co with ready := co.ready ++ [(w, i, s.nextId, v)] }).soon .taskDispatch { a := c }
/-- The queued waiters of a PENDING entry, in queue order. -/
def State.fkQueue (s : State) (c : Nat) : Nat → Nat → List Nat
  | 0, _ => []
  | n + 1, j => if fQe (s.frt c j 0) then [j] else j :: s.fkQueue c n (fQhead (s.frt c j 0))
/-- The queued waiters of entry `i`. -/
def State.waitersOf (s : State) (c i : Nat) : List Nat :=
  let w := s.frt c i 0
  if fQe w then [] else s.fkQueue c 4096 (fQhead w)
/-- The places of an entry and of its queued waiters. -/
def State.entryLocs (s : State) (c i : Nat) : List Nat := s.frtLocs c i ++ (s.waitersOf c i).flatMap fun j => s.frtLocs c j
/-- Some word of a waiter that is queued at entry `i` is poisoned (R387). -/
def State.queuePoisoned (s : State) (c i : Nat) : Bool := (s.waitersOf c i).any fun j => s.frtPoisoned c j

/-! Operations at the home (R316). -/

/-- What the fate of a waiter that a placement moves, or of an `invf`, does to its result firkin (R319, R324). -/
def State.invfFate (s : State) (c : Nat) (result : Word) (ans : FkAns) : State :=
  match ans with
  | .full => s.notice c result (some (4, 0))
  | .broken x => s.notice c result (some (3, x))
  | .stale => s.notice c result (some (5, cFirkinStale))
  | .reset => s.notice c result (some (3, cTargetReset))
  | .partition => s.notice c result (some (3, cPartition))
  | _ => s

/-- The operation came to its home across Omyan (R345). -/
def State.fkCame (s : State) (r : FkReq) : Bool := r.crossed || r.pkg ≠ s.pkgId.toNat
/-- An answer with its hint on its way to the requester. -/
def State.fkTell (s : State) (r : FkReq) (ans : FkAns) (hint : Word) : State :=
  if r.pkg = s.pkgId.toNat then s.soon .firkinAnswer { body := .answer r ans, word := hint }
  else s.send r.core (fkCore r.handle) r.part 3 (.answer r.pkg r ans hint)
/-- The answer goes to the requester; from another home than the one named it carries a hint (R316). An operation that a placement
forwarded is answered here; another package's core learns that it has been performed. What crossed Omyan takes a pantry entry, which
keeps the answer and the hint (R345). -/
def State.fkReply (s : State) (r : FkReq) (ans : FkAns) : State :=
  let hint := if r.handle ≠ r.named then r.handle else 0
  let s := if r.forwarded then
      match r.kind with
      | .invf _ _ res => s.invfFate (fkCore r.handle) res ans
      | _ => s
    else s
  if s.fkCame r then
    (s.pantryAdd (larderLoc (fkCore r.handle) 0) ⟨r.pkg, r.core, r.tag, r.epoch, hint, 0, some ans, 0⟩).fkTell r ans hint
  else if r.forwarded then s
  else s.fkTell r ans hint

/-- An answer that nothing constrains [log 9, DESIGN CHOICE]. -/
def freeAnswer (w : Word) : FkAns :=
  match field w 0 3 with
  | 0 => .ok w
  | 1 => .value w
  | 2 => .pending
  | 3 => .resolved
  | 4 => .broken (bits w 8 8)
  | 5 => .stale
  | 6 => .full
  | _ => .stateWord w

/-- A refused operation is sent again after the back-off (R316, R274). -/
def State.fkRefuse (s : State) (r : FkReq) : State :=
  let r := { r with refusals := r.refusals + 1 }
  if r.pkg = s.pkgId.toNat then
    if r.crossed then s.soon .replyArrival { a := r.core * 4096 + r.tag, b := r.epoch, cause := 0xFE }
    else (s.count r.core evRefusal).later (s.clk + backOff r.refusals) .firkinOpRetry { body := .firkin r }
  else s.send r.core (fkCore r.handle) r.part 3 (.refusal r.pkg r.core r.tag r.epoch)

/-- HOLD of an entry is cleared once every operation numbered before its drain marker has been applied (R316). -/
def State.liftHold (s : State) (c i : Nat) : State :=
  match (s.core c).placing.find? fun e => e.1 = i with
  | some (_, p) =>
    match p.marker with
    | some n =>
      if n ≤ p.next then
        (s.setFrt c i 0 (s.frt c i 0 &&& ~~~0x1000000000000000#64)).modCore c fun co => { co with placing := Table.del co.placing i }
      else s
    | none => s
  | none => s
/-- An entry that a placement fills, changed. -/
def Core.modPlacing (co : Core) (i : Nat) (f : Placing → Placing) : Core :=
  { co with placing := Table.ins co.placing i (f (Table.get {} co.placing i)) }
/-- A forwarded operation has been applied: the next one follows, if it has come early. -/
def State.nextForwarded (s : State) (c i : Nat) : State :=
  let p := Table.get {} (s.core c).placing i
  let s1 := s.modCore c fun co => co.modPlacing i fun p =>
    { p with next := p.next + 1, early := p.early.filter fun x => x.seq ≠ p.next + 1 }
  let s2 := match p.early.find? fun x => x.seq = p.next + 1 with
    | some x => s1.soon (FkReq.event x) { body := .firkin x }
    | none => s1
  s2.liftHold c i
/-- An operation acts on an entry: one that a placement forwarded in the order of its number (R316). -/
def State.fkAct (s : State) (r : FkReq) (c i : Nat) (w : Word) (act : State → Nat → Nat → Word → State × FkAns) : State :=
  if r.forwarded && (s.core c).placing.any fun e => e.1 = i then
    if r.seq ≠ (Table.get {} (s.core c).placing i).next then
      s.modCore c fun co => co.modPlacing i fun p => { p with early := p.early.filter (fun x => x.seq ≠ r.seq) ++ [r] }
    else
      let x := act s c i w
      (x.1.nextForwarded c i).fkReply r x.2
  else
    let x := act s c i w
    x.1.fkReply r x.2

/-- An operation at its home: the common checks of R316, then `act` on the core, the entry and its first doubleword. -/
def State.fkServe (s : State) (r : FkReq) (act : State → Nat → Nat → Word → State × FkAns) : State :=
  let c := fkCore r.handle
  let i := fkIdx r.handle
  let co := s.core c
  match co.pantry.find? fun e => s.fkCame r && e.isFor r.pkg r.core r.tag r.epoch with
  | some e => (s.count c evPantryHit).fkTell r (e.ans.getD .stale) e.data
  | none =>
    if s.fkCame r && s.pantryFull (larderLoc c 0) then s.fkRefuse r
    else if r.pkg ≠ s.pkgId.toNat && !r.forwarded && !s.foreignOk (larderLoc c 0) r.pkg r.part then s.fkReply r .partition
    else if co.inReset then s.fkReply r .reset
    else if co.frtSpoiled then s.free.2.fkReply r (freeAnswer s.free.1)
    else if co.frtsize.toNat ≤ i then s.fkReply r .stale
    else if s.frtPoisoned c i then (s.coreCheck c cPoison).fkReply r .reset
    else
      let w := s.frt c i 0
      if fGen w ≠ fkGen r.handle || fState w = 0 || fState w = 5 || fDrop w then s.fkReply r .stale
      else if fState w = 4 then s.fkSend { r with handle := s.frt c i 2 }
      else if fHold w && !r.forwarded then s.fkRefuse r
      else s.fkAct r c i w act

/-- The places of the FRT of its home that an operation reads or writes. -/
def State.fkLocs (s : State) (r : FkReq) : List Nat :=
  let c := fkCore r.handle
  if (s.core c).inReset || (s.core c).frtsize.toNat ≤ fkIdx r.handle then []
  else
    s.entryLocs c (fkIdx r.handle) ++ match r.kind with
      | .invf _ _ _ => s.scanLocs c
      | _ => []
/-- An operation at its home, once the banks of the entries that it takes are out of retention (R197). -/
def State.fkAtHome (s : State) (r : FkReq) (act : State → Nat → Nat → Word → State × FkAns) : State :=
  s.atBanks (s.fkLocs r) (FkReq.event r) fun s => s.fkServe r act
/-- A step of the device that acts on a firkin operation. -/
def onFirkin (s : State) (f : FkReq → State) : Host.Outcome State Fault Refusal :=
  match s.input.body with
  | .firkin r => .next (f r)
  | _ => .next s

/-- A waiter appended to the queue of a PENDING entry (Table 13-3). -/
def State.enqueueWaiter (s : State) (c i j : Nat) : State :=
  let w := s.frt c i 0
  let link := s.frt c i 2
  let clear : Word := ~~~0x0007FFC000000000#64
  let qj : Word := word (j * 2 ^ 39)
  let s := if fQe w then s.setFrt c i 0 ((w &&& clear) ||| qj)
    else
      let t := field link 0 12
      s.setFrt c t 0 ((s.frt c t 0 &&& clear) ||| qj)
  s.setFrt c i 2 ((link &&& ~~~0xFFF#64) ||| word j)

/-- FK_OP_INVF (Table 13-4). -/
def execFkOpInvf (s : State) : Host.Outcome State Fault Refusal :=
  onFirkin s fun r => s.fkAtHome r fun s c i w =>
    match r.kind with
    | .invf arg entry res =>
      if fState w = 3 then (s, .broken (fCause w))
      else if fState w = 1 && !fQe w && s.poisoned (s.frtLoc c (field (s.frt c i 2) 0 12) 0) then (s.coreCheck c cPoison, .reset)
      else
        match s.frtFind c with
        | .poison => (s.coreCheck c cPoison, .reset)
        | .full => (s, .full)
        | .entry j g =>
          let s := s.frtWrite c j (frtWord 5 false false 0 0 true g) arg entry res
          if fState w = 2 then (s.makeReady c j i (s.frt c i 1), .ok 0) else (s.enqueueWaiter c i j, .ok 0)
    | _ => (s, .stale)

/-- FK_OP_RESOLVE (Table 13-4). -/
def execFkOpResolve (s : State) : Host.Outcome State Fault Refusal :=
  onFirkin s fun r => s.fkAtHome r fun s c i w =>
    match r.kind with
    | .resolve v =>
      if fState w = 2 then (s, .resolved)
      else if fState w = 3 then (s, .broken (fCause w))
      else if s.queuePoisoned c i then (s.coreCheck c cPoison, .reset)
      else
        let ws := s.waitersOf c i
        let link := s.frt c i 2
        let s := (s.setFrt c i 0 (frtWord 2 (fHold w) (fDrop w) 0 0 true (fGen w))).setFrt c i 1 v
        let s := s.setFrt c i 2 (link &&& ~~~0xFFF#64)
        (ws.foldl (fun s j => s.makeReady c j i v) s, .ok 0)
    | _ => (s, .stale)

/-- A queued waiter moves to the new home under a sequence number, and its entry here is freed (Table 13-4). -/
def State.moveWaiter (s : State) (c j : Nat) (named new : Word) (seq : Nat) : State :=
  let r : FkReq := { named := named, handle := new, kind := .invf (s.frt c j 1) (s.frt c j 2) (s.frt c j 3),
                     pkg := s.pkgId.toNat, core := c, slot := 63, gen := 0, pathQ := false, d := 0, c := 0,
                     forwarded := true, refusals := 0, id := 0, tag := 0, epoch := 0, part := s.partOf c, seq := seq }
  (s.fkSend r).freeFrt c j
/-- The drain marker to a new home, after `n` forwarded operations (R316). -/
def State.sendMarker (s : State) (c : Nat) (new : Word) (n : Nat) : State :=
  if fkPkg new = s.pkgId.toNat then s.soon .drainMarker { word := new, a := n }
  else s.postReq (fkPkg new) (fkCore new) (s.mkAccess c 63 false .load new ⟨fkPkg new, 0, 0⟩ 8 0) (.marker new n)

/-- FK_OP_PLACE (Table 13-4): a RESOLVED entry sends its value ahead of the drain marker. -/
def execFkOpPlace (s : State) : Host.Outcome State Fault Refusal :=
  onFirkin s fun r => s.fkAtHome r fun s c i w =>
    match r.kind with
    | .place new =>
      if r.pkg = s.pkgId.toNat && r.core = c then (s, .value r.handle)
      else if fState w = 3 then (s, .broken (fCause w))
      else if fState w = 1 && s.queuePoisoned c i then (s.coreCheck c cPoison, .reset)
      else
        let link := s.frt c i 2
        let v := s.frt c i 1
        let ws := if fState w = 1 then s.waitersOf c i else []
        let s := (s.setFrt c i 0 (frtWord 4 false (fDrop w) 0 0 true (fGen w))).setFrt c i 2 new
        let s := ws.zipIdx.foldl (fun s x => s.moveWaiter c x.1 r.handle new x.2) s
        let s := if fState w = 2 then
            s.fkSend { r with handle := new, named := new, kind := .resolve v, forwarded := true, pkg := s.pkgId.toNat, core := c
                              slot := 63, gen := 0, pathQ := false, id := 0, part := s.partOf c, seq := 0 }
          else s
        (s.sendMarker c new (if fState w = 2 then 1 else ws.length), .ok (link &&& 0xFFFFFFFF00000000#64))
    | _ => (s, .stale)

/-- The answer of `fkget` (Table 13-4). -/
def State.fkValue (s : State) (c i : Nat) (w : Word) : FkAns :=
  if fState w = 1 then .pending else if fState w = 2 then .value (s.frt c i 1) else .broken (fCause w)
/-- The state word (Table 13-6). -/
def stateWordOf (w : Word) (here : Bool) : Word := BitVec.ofNat 64 ((fCause w).toNat * 256 + flag here 7 + fState w)

/-- FK_OP_GET (Table 13-4). -/
def execFkOpGet (s : State) : Host.Outcome State Fault Refusal :=
  onFirkin s fun r => s.fkAtHome r fun s c i w => (s, s.fkValue c i w)
/-- FK_OP_STATE (Table 13-4). -/
def execFkOpState (s : State) : Host.Outcome State Fault Refusal :=
  onFirkin s fun r => s.fkAtHome r fun s c _ w => (s, .stateWord (stateWordOf w (r.pkg = s.pkgId.toNat && r.core = c)))
/-- FK_OP_BREAK (Table 13-4). -/
def execFkOpBreak (s : State) : Host.Outcome State Fault Refusal :=
  onFirkin s fun r => s.fkAtHome r fun s c i w =>
    match r.kind with
    | .brk cause =>
      if fState w = 1 && s.queuePoisoned c i then (s.coreCheck c cPoison, .reset)
      else if fState w = 1 then (s.breakFrt c i 0 cause, .ok 0)
      else if fState w = 2 then (s, .resolved)
      else (s, .broken (fCause w))
    | _ => (s, .stale)
/-- FK_OP_DROP (R322, R325): `fkget.drop` drops an entry whose value it answers, `fkstate.drop` one that is RESOLVED or
BROKEN. -/
def execFkOpDrop (s : State) : Host.Outcome State Fault Refusal :=
  onFirkin s fun r => s.fkAtHome r fun s c i w =>
    match r.kind with
    | .state _ =>
      let ans := FkAns.stateWord (stateWordOf w (r.pkg = s.pkgId.toNat && r.core = c))
      (if fState w = 1 then s else s.frtDrop c i, ans)
    | _ =>
      let ans := s.fkValue c i w
      (if fState w = 2 then s.frtDrop c i else s, ans)

/-- FIRKIN_OP_RETRY (R316, R274). -/
def execFirkinOpRetry (s : State) : Host.Outcome State Fault Refusal := onFirkin s fun r => s.fkSend r

/-! Notices. -/

/-- The entry of this package that a handle names, where its generation matches; a core in reset holds none. -/
def State.fkEntry (s : State) (h : Word) : Option (Nat × Nat) :=
  let c := fkCore h
  let i := fkIdx h
  if h = 0 || h.getLsbD 63 || 10 ≤ field h 41 4 || fkPkg h ≠ s.pkgId.toNat || (s.core c).inReset || (s.core c).frtsize.toNat ≤ i ||
     fGen (s.frt c i 0) ≠ fkGen h then none
  else some (c, i)

/-- What another package sent to a core under the tag of the input is acknowledged (R363): `flag` says that it crossed a link, `b` to `e` are its
package, core, tag and epoch. -/
def State.ackInput (s : State) (c : Nat) : State :=
  if s.input.flag then s.send s.input.c c 0 3 (.reply s.input.b s.input.c s.input.d s.input.e 0 0) else s
/-- A step on the entry of this package that a handle names, once the banks of what it takes are out of retention (R197). -/
def State.atEntry (s : State) (h : Word) (i : Instr) (f : State → State) : State :=
  s.atBanks (match s.fkEntry h with
    | some (c, j) => s.entryLocs c j
    | none => []) i f
/-- A FORWARDED entry becomes BROKEN by the notice of the entry it was placed at, and passes the notice on to its own ORIGIN; the
creator's entry tells its core (R324). -/
def State.breakForwarded (s : State) (c i : Nat) (reason : Nat) (cause : BitVec 8) : State :=
  let w := s.frt c i 0
  let o := s.frt c i 3
  let s1 := s.setFrt c i 0 (frtWord 3 false (fDrop w) cause 0 true (fGen w))
  if o ≠ 0 then s1.notice c o (some (toOrigin 3, cause))
  else s1.postSys c 63 0 252 [s.fkOf c i, BitVec.ofNat 64 (reason * 256 + cause.toNat)]
/-- BREAK_NOTICE (R324): a PENDING entry breaks; a FORWARDED one passes a notice on to the firkin's home (R316), and becomes BROKEN by one
that comes from there; others ignore it. -/
def execBreakNotice (s : State) : Host.Outcome State Fault Refusal :=
  let h := s.input.word
  let reason := s.input.a % 16
  .next (s.atEntry h .breakNotice fun s =>
    let s := s.ackInput (fkCore h)
    match s.fkEntry h with
    | none => s
    | some (c, i) =>
      if s.frtPoisoned c i || (fState (s.frt c i 0) = 1 && s.queuePoisoned c i) then s.coreCheck c cPoison
      else
        let w := s.frt c i 0
        if fState w = 1 then s.breakFrt c i reason s.input.cause
        else if fState w = 4 then
          if 16 ≤ s.input.a then s.breakForwarded c i reason s.input.cause
          else s.notice c (s.frt c i 2) (some (reason, s.input.cause))
        else s)

/-- DRAIN_MARKER (R316): HOLD is cleared once every forwarded operation numbered before the marker has been applied. -/
def execDrainMarker (s : State) : Host.Outcome State Fault Refusal :=
  .next (s.atEntry s.input.word .drainMarker fun s =>
    let s := s.ackInput (fkCore s.input.word)
    match s.fkEntry s.input.word with
    | none => s
    | some (c, i) =>
      if (s.core c).placing.any fun e => e.1 = i then
        (s.modCore c fun co => co.modPlacing i fun p => { p with marker := some s.input.a }).liftHold c i
      else s)

/-- The ready waiters of an entry that is freed keep their value and wait for no entry. -/
def Core.orphanReady (co : Core) (i : Nat) : Core :=
  { co with ready := co.ready.map fun w => if w.2.1 = i then (w.1, noEntry, w.2.2) else w }
/-- DROP_NOTICE (R325): a FORWARDED entry is freed, and passes the notice on. -/
def execDropNotice (s : State) : Host.Outcome State Fault Refusal :=
  .next (s.atEntry s.input.word .dropNotice fun s =>
    let s := s.ackInput (fkCore s.input.word)
    match s.fkEntry s.input.word with
    | none => s
    | some (c, i) =>
      if fState (s.frt c i 0) = 4 then
        let o := s.frt c i 3
        let s1 := (s.freeDropped c i).modCore c fun co => co.orphanReady i
        if o ≠ 0 then s1.notice c o none else s1
      else s)

/-! Answers. -/

/-- The place in a path's buffer of the number of the operation whose answer it awaits. -/
def fkPlaceKey : Nat := 2000
/-- The path that issued an operation still awaits its answer. -/
def State.fkAwaited (s : State) (r : FkReq) : Bool :=
  let sl := s.slot r.core r.slot
  let p := sl.path (sl.eff r.pathQ)
  sl.gen = r.gen && p.wait = .firkin && Table.get 0 p.buf fkPlaceKey = word r.id

/-- A waiting firkin instruction completes with register writes. -/
def State.fkDone (s : State) (r : FkReq) (f : Slot → Slot) : State :=
  (s.modSlot r.core r.slot f).advance r.core r.slot r.pathQ ((s.slot r.core r.slot).path ((s.slot r.core r.slot).eff r.pathQ)).succ
/-- A waiting firkin instruction traps, with the handle in FADDR. -/
def State.fkTrap (s : State) (r : FkReq) (code : BitVec 8) : State :=
  s.trapAt r.core r.slot r.pathQ { code := code, faddr := r.named }

/-- The trap, or the values of s[d] and of s[d + 1] or s[c], of an answer to an instruction that waits (R320 to R323). -/
def fkResult (r : FkReq) (ans : FkAns) : Except (BitVec 8) (Option Word × Option Word) :=
  match ans with
  | .reset => .error cTargetReset
  | .partition => .error cPartition
  | _ =>
    match r.kind, ans with
    | .resolve _, .ok _ => .ok (some stOK, none)
    | .resolve _, .broken _ => .ok (some stBroken, none)
    | .resolve _, .resolved => .error cFirkinResolved
    | .resolve _, _ => .error cFirkinStale
    | .place new, .ok _ => .ok (some stOK, some new)
    | .place _, .value h => .ok (some stOK, some h)
    | .place _, .broken _ => .ok (some stBroken, some 0)
    | .place _, _ => .ok (some stStale, some 0)
    | .get _, .value v => .ok (some v, some stOK)
    | .get _, .pending => .ok (none, some stNotReady)
    | .get _, .broken _ => .ok (none, some stBroken)
    | .get _, _ => .ok (none, some stStale)
    | .state _, .stateWord w => .ok (some w, none)
    | .state _, _ => .ok (some 0, none)
    | .brk _, .ok _ => .ok (some stOK, none)
    | .brk _, .broken _ => .ok (some stBroken, none)
    | .brk _, .resolved => .ok (some stRefused, none)
    | .brk _, _ => .ok (some stStale, none)
    | .invf _ _ _, _ => .ok (none, none)

/-- The register that takes the second value of an answer: s[d + 1] of `fkplace`, s[c] of `fkget`. -/
def FkReq.second (r : FkReq) : Nat :=
  match r.kind with
  | .place _ => r.d.toNat + 1
  | _ => r.c.toNat

/-- What an answer to a place does to the entry that the issuing core allocated (R321). -/
def State.placed (s : State) (r : FkReq) (ans : FkAns) : State :=
  match r.kind with
  | .place new =>
    let c := fkCore new
    let i := fkIdx new
    match ans with
    | .ok w => s.setFrt c i 2 ((s.frt c i 2 &&& 0xFFFFFFFF#64) ||| (w &&& 0xFFFFFFFF00000000#64))
    | _ => (s.freeFrt c i).modCore c fun co => { co with placing := Table.del co.placing i }
  | _ => s

/-- The effect of an answer on the issuer (R319 to R323). -/
def State.fkAnswered (s : State) (r : FkReq) (ans : FkAns) : State :=
  match r.kind with
  | .invf _ _ res =>
    let s := s.invfFate r.core res ans
    if ans = .partition then
      s.endLate { s.mkAccess r.core r.slot r.pathQ .load r.named ⟨0, 0, 0⟩ 8 0 with gen := r.gen }
        { code := cPartition, faddr := r.named, finfo := 0, ins := 0, lane := 128 }
    else s
  | _ =>
    -- the resolution that a copy sends (R280) has the number 0
    if r.id = 0 then
      match ans with
      | .ok _ => s
      | _ => s.count r.core evStaleFk
    else
    let again : Bool := match r.kind, ans with
      | .get _, .pending => decide ((s.core r.core).cls r.slot = 0)
      | _, _ => false
    if again then
      if !s.fkAwaited r then s
      else if (s.slot r.core r.slot).state = .stopping then
        s.modPathOf r.core r.slot ((s.slot r.core r.slot).eff r.pathQ) Path.withdrawn
      else s.later (s.clk + 256) .fkgetRetry { body := .firkin r }
    else
      let s := s.placed r ans
      if !s.fkAwaited r then s
      else
        match fkResult r ans with
        | .error code => s.fkTrap r code
        | .ok (x, y) => s.fkDone r fun sl =>
            let sl := match x with
              | some v => sl.setS r.d.toNat v
              | none => sl
            match y with
            | some v => sl.setS (FkReq.second r) v
            | none => sl

/-- An answer is that of a live request of this package: its tag, its epoch and the same operation, wherever it has been forwarded. -/
def FkReq.sentAs (r : FkReq) (x : Req) : Bool :=
  match x.owner with
  | .firkin f =>
    x.acc.tag = r.tag && x.epoch = r.epoch &&
      { f with handle := r.handle, tag := r.tag, epoch := r.epoch, refusals := r.refusals, crossed := r.crossed } = r
  | _ => false
/-- The acknowledgement of an answer frees the pantry entry at the home that sent it (R345). -/
def State.fkAck (s : State) (r : FkReq) : State :=
  let c := fkCore r.handle
  if fkPkg r.handle = s.pkgId.toNat then
    s.soon .pantryExpiry { a := c, b := r.pkg, c := r.core, d := r.tag, e := r.epoch, flag := true }
  else s.send c r.core r.part 3 (.ack (fkPkg r.handle) r.core r.tag r.epoch)
/-- The places of the FRT of the issuing core that an answer changes (R321). -/
def State.answerLocs (s : State) (r : FkReq) : List Nat :=
  match r.kind with
  | .place new => s.frtLocs (fkCore new) (fkIdx new)
  | _ => []
/-- FIRKIN_ANSWER (R315, R316, R363): an answer from another package that no live request awaits is late; the forward cache takes the hint, or loses the entry that a STALE answer concerns. -/
def execFirkinAnswer (s : State) : Host.Outcome State Fault Refusal :=
  match s.input.body with
  | .answer r ans =>
    .next (s.atBanks (s.answerLocs r) .firkinAnswer fun s =>
      let live := s.reqs.find? fun e => FkReq.sentAs r e.2
      if live.isNone && (r.crossed || fkPkg r.handle ≠ s.pkgId.toNat) then s.count r.core evLate
      else
        let s := match live with
          | some e => (({ s with reqs := Table.del s.reqs e.1 } : State).fkAck r).pumpCore r.core
          | none => s
        let s := s.modCore r.core fun co =>
          if s.input.word ≠ 0 && ans ≠ .stale then co.fwdInstall r.named s.input.word
          else if ans = .stale then { co with fwd := co.fwd.filter fun e => e.1 ≠ r.named }
          else co
        if r.forwarded then s else (s.fkAcked r).fkAnswered r ans)
  | _ => .next s

/-- FKGET_RETRY (R322). -/
def execFkgetRetry (s : State) : Host.Outcome State Fault Refusal :=
  onFirkin s fun r => if s.fkAwaited r then s.fkIssue r else s

/-! The instructions. -/

/-- The executing group's partition may reach a core (R27, R366): of the package, or of another one as that package's map grants [log 66,
DESIGN CHOICE]. -/
def State.reaches (s : State) (pkg core : Nat) : Bool :=
  if pkg ≠ s.pkgId.toNat then Config.otherMap s.clk pkg core s.curPart
  else coreDie core = coreDie s.cur.core ||
  (List.range 8).any fun t => (s.partn t).pairs.getLsbD (coreDie core) && s.granted s.curPart t

/-- The checks of a handle at issue (R317); `reset` where a home in reset traps (R177). -/
def State.handleCheck (s : State) (h : Word) (reset : Bool) : Act Unit :=
  let trap := fun (c : BitVec 8) (d : Nat) => (.error (.trap { code := c, faddr := h, finfo := word d }) : Act Unit)
  if h.getLsbD 63 then trap cFirkinStale 0
  else if 10 ≤ field h 41 4 then trap cAddrRange 1
  else if !s.reaches (fkPkg h) (fkCore h) then trap cPartition 0
  else if reset && fkPkg h = s.pkgId.toNat && (s.core (fkCore h)).inReset then trap cTargetReset 0
  else .ok ()

/-- LAUNCHID of the creating grid, in its place in LINK; 0 for a task or the S-slot (Table 13-3). -/
def State.ownLaunch (s : State) : Word :=
  match s.curGrid? with
  | some g => word (recLaunchId g.record * 2 ^ 32)
  | none => 0

/-- A PENDING entry in the issuing core's FRT, with its handle. -/
inductive NewFk where
  | made (h : Word) (s : State)
  | full
  | poison
/-- The allocation of an entry (R318, R321). -/
def State.allocFirkin (s : State) (hold : Bool) (link origin : Word) : NewFk :=
  let c := s.cur.core
  match s.frtFind c with
  | .entry i g =>
    .made (fkHandle s.pkgId.toNat c i g) (s.frtWrite c i (frtWord 1 hold false 0 0 true g) 0 link origin)
  | .full => .full
  | .poison => .poison
/-- The allocation, once the banks of the entries that it takes are out of retention: until then the instruction waits (R197). -/
def State.newFirkin (s : State) (hold : Bool) (link origin : Word) : Act NewFk :=
  let r := s.wakeFor (s.scanLocs s.cur.core)
  if s.clk < r.2 then .error (.holdAfter (.until r.2) r.1) else .ok (r.1.allocFirkin hold link origin)

/-- An operation of the executing path. -/
def State.fkReq (s : State) (h : Word) (k : FkKind) (d c : BitVec 5) : FkReq :=
  { named := h, handle := h, kind := k, pkg := s.pkgId.toNat, core := s.cur.core, slot := s.cur.slot,
    gen := s.curSlot.gen, pathQ := s.cur.pathQ, d := d, c := c, forwarded := false, refusals := 0, id := s.nextId, tag := 0,
    epoch := 0, part := s.curPart }

/-- A task has used its direct-entry firkin (R358). -/
def Slot.settles (sl : Slot) (h : Word) : Slot :=
  if h = sl.taskfk then { sl with task := sl.task.map fun t => { t with settled := true } } else sl

/-- An instruction sends an operation and waits for its answer. -/
def State.fkAsk (s : State) (h : Word) (k : FkKind) (d c : BitVec 5) : State :=
  let r := s.fkReq h k d c
  ((s.fresh.2.fkIssue r).modPath fun p => { p with buf := Table.ins p.buf fkPlaceKey (word r.id) }).waitIn .firkin
    (([r.d.toNat, FkReq.second r].filter fun n => n ≠ 0).map fun n => (0, n))

/-- A firkin operation on s[a] that waits for its answer: the checks, the release of earlier accesses, the operation. A task that issues
it with its own firkin has settled that firkin, whatever comes of it (R358). -/
def fkInstr (i : Instr) (o : F2) (rel settle : Bool) (k : State → FkKind) (s : State) : Host.Outcome State Fault Refusal :=
  run i s fun s =>
    let h := s.sreg o.a
    let s1 := if settle then s.modCur fun sl => sl.settles h else s
    match s.handleCheck h true with
    | .error e => .error (e.leaving s1)
    | .ok () =>
      match s.releaseHold rel with
      | .error e => .error (e.leaving s1)
      | .ok () => .ok (s1.fkAsk h (k s) o.d o.c)

/-- RESOLVE (R320). -/
def execResolve (o : F2) (s : State) : Host.Outcome State Fault Refusal :=
  fkInstr (.resolve o) o true true (fun s => .resolve (s.sreg o.b)) s
/-- FKGET (R322). -/
def execFkget (o : F2) (s : State) : Host.Outcome State Fault Refusal :=
  fkInstr (.fkget o) o false false (fun _ => .get (o.x.getLsbD 0)) s
/-- FKSTATE (R322). -/
def execFkstate (o : F2) (s : State) : Host.Outcome State Fault Refusal :=
  fkInstr (.fkstate o) o false false (fun _ => .state (o.x.getLsbD 0)) s
/-- FKBREAK (R323). -/
def execFkbreak (o : F2) (s : State) : Host.Outcome State Fault Refusal :=
  fkInstr (.fkbreak o) o false true (fun _ => .brk (bits o.x 0 8)) s

/-- FKPLACE (R321). -/
def execFkplace (o : F2) (s : State) : Host.Outcome State Fault Refusal :=
  run (.fkplace o) s fun s =>
    let h := s.sreg o.a
    let s1 := s.modCur fun sl => sl.settles h
    match s.handleCheck h true with
    | .error e => .error (e.leaving s1)
    | .ok () =>
      match s1.newFirkin true 0 h with
      | .error e => .error e
      | .ok .full => .ok ((s1.setS o.d stBusy).setS (o.d + 1) 0).retire
      | .ok .poison => .ok (s1.coreCheck s.cur.core cPoison)
      | .ok (.made new s') =>
        let s' := s'.modCurCore fun co => { co with placing := Table.ins co.placing (fkIdx new) {} }
        .ok (s'.fkAsk h (.place new) o.d 0)

/-- INVF (R319). Its operands are read before s[d] is written [log 61, DESIGN CHOICE]. -/
def execInvf (o : F2) (s : State) : Host.Outcome State Fault Refusal :=
  run (.invf o) s fun s =>
    let h := s.sreg o.a
    match s.handleCheck h false with
    | .error e => .error e
    | .ok () =>
      match s.releaseHold true with
      | .error e => .error e
      | .ok () =>
        match s.newFirkin false s.ownLaunch 0 with
        | .error e => .error e
        | .ok .full => .ok (s.setS o.d 0).retire
        | .ok .poison => .ok (s.coreCheck s.cur.core cPoison)
        | .ok (.made new s') =>
          let r := s'.fkReq h (.invf (s.sreg o.b) (s.sreg o.c) new) o.d 0
          let s' := if fkPkg h = s.pkgId.toNat && (s.core (fkCore h)).inReset then s'.notice s.cur.core new (some (3, cTargetReset))
            else s'.fresh.2.fkIssue r
          .ok (s'.setS o.d new).retire

/-- The payload s[b] to s[b + len - 1] of a message. -/
def State.payload (s : State) (b : BitVec 5) (len : Nat) : List Word :=
  (List.range len).map fun i => s.curSlot.sreg (b.toNat + i)
/-- The checks of a destination word (R270, R318), and the tag that a message to another package needs, unless the instruction has
already begun to act. -/
def State.destCheck (s : State) (w : Word) (begun : Bool := false) : Act Unit :=
  if nCores ≤ tagCore w then .error (.trap { code := cAddrRange, faddr := w })
  else if !s.reaches (tagPkg w) (tagCore w) then .error (.trap { code := cPartition, faddr := w })
  else if !begun && tagPkg w ≠ s.pkgId.toNat && (s.freeTag s.cur.core).isNone then .error (.hold .tag)
  else .ok ()

/-- INVOKE (R318). -/
def execInvoke (o : F2) (s : State) : Host.Outcome State Fault Refusal :=
  run (.invoke o) s fun s =>
    let dst := s.sreg o.a
    match s.destCheck dst with
    | .error e => .error e
    | .ok () =>
      match s.releaseHold true with
      | .error e => .error e
      | .ok () =>
        match s.newFirkin false s.ownLaunch 0 with
        | .error e => .error e
        | .ok .full => .ok (s.setS o.d 0).retire
        | .ok .poison => .ok (s.coreCheck s.cur.core cPoison)
        | .ok (.made h s') =>
          let len := o.x.toNat
          -- s[d] is written first (R10)
          let s' := s'.setS o.d h
          let m : Msg :=
            { ty := 255, len := 6, src := s.returnTag s.cur.core s.cur.slot, dst := destWord (s'.sreg o.a ||| 63)
              payload := s'.payload o.b len ++ List.replicate (5 - len) 0 ++ [s'.sreg o.c], fk := h }
          .ok (s'.postMsg s.cur.core m).retire

end Sys2Proof.Machine
end

