-- ==== Sys2Proof/Machine/Messages.lean ====
section
/-! DEFINITION. The message unit: the vector table (R308 to R312), arrival, bounces and orphans (R267, R269), the start of tasks
from messages, waiters and the ready ring (R268, R273, R314, R387), `send` and `sendjc` (R270), the host's page answers
(R344). -/

namespace Sys2Proof.Machine

/-! The vector table. -/

/-- What a read of a vector table entry finds (R309, R311): a fault or poison, BOUND = 0, or the two doublewords. -/
inductive VRead where
  | bad
  | unbound
  | bound (dw0 dw1 : Word)
  deriving DecidableEq, Repr

/-- The address of the entry of a type. -/
def Core.vectorAddr (co : Core) (ty : BitVec 8) : Word := co.vtbase + 16 * ty.zeroExtend 64
/-- A read of the entry of a type, through the page table of the core's partition (R308). A translation that stalls finds
nothing yet; an entry outside the package's own tier 0 is a fault [log 27, DESIGN CHOICE]. -/
def State.vectorRead (s : State) (c : Nat) (ty : BitVec 8) : VRead :=
  match s.translate c (field ((s.core c).vectorAddr ty) 0 57) ⟨true, false, false⟩ with
  | .error (.fault _ _) => .bad
  | .error (.stall _) => .unbound
  | .ok h =>
    if h.tier ≠ 0 || (s.lentFault h.loc s.pkgId.toNat (s.partOf c)).isSome || s.poisoned h.loc then .bad
    else
      let dw1 := s.read64 (h.loc + 8)
      if dw1.getLsbD 0 then .bound (s.read64 h.loc) dw1 else .unbound
/-- What the read of an entry leaves in the TLBs and at the entry's home (R336, R240). -/
def State.vectorTouch (s : State) (c : Nat) (ty : BitVec 8) : State :=
  let va := field ((s.core c).vectorAddr ty) 0 57
  let u : Use := ⟨true, false, false⟩
  let s' := s.install c va u
  match s.translate c va u with
  | .ok h => if h.tier = 0 then s'.touchHome h.loc 16 s.pkgId.toNat (s.partOf c) else s'
  | .error _ => s'
/-- The read makes a message dispatchable (R309). -/
def VRead.dispatchable (r : VRead) : Bool := r ≠ .unbound
/-- PRI and CLASS of an entry; 0 where the read failed. -/
def VRead.pri : VRead → Nat
  | .bound _ w => field w 4 2
  | _ => 0
def VRead.cls : VRead → Nat
  | .bound _ w => field w 6 2
  | _ => 0
/-- DW1 has a reserved bit set. -/
def dw1Bad (w : Word) : Bool := field w 8 56 ≠ 0 || field w 1 3 ≠ 0
/-- An address that names no head (R28). -/
def headBad (a : Word) : Bool := a.getLsbD 0 || field a 0 6 = 0

/-- How the read at the start of a task decides (R309, R311, R312): the EPC with which the task starts trapped, or the PC. A read that
meets poison gives EPC 0, as one that faults [log 27, DEDUCED]. -/
def VRead.start (r : VRead) (m : Msg) : Except Word Word :=
  let direct := m.payload.getD 5 0
  match r with
  | .bound dw0 dw1 =>
    if m.ty = 255 then if dw1Bad dw1 || headBad direct then .error direct else .ok direct
    else
      let handler : Word := (bits dw0 0 57).zeroExtend 64
      if dw1Bad dw1 || field dw0 57 7 ≠ 0 || headBad handler then .error handler else .ok handler
  | _ => .error 0

/-! Arrival. -/

/-- The mark of a message that the host has sent through Filfel. -/
def fromHost : BitVec 8 := 1

/-- Types 0 to 247 and 255 are user messages (R267). -/
def Msg.user (m : Msg) : Bool := m.ty.toNat < 248 || m.ty = 255
/-- AUX of a tag. -/
def tagAux (w : Word) : BitVec 8 := bits w 28 8
/-- A tag with another AUX. -/
def withAux (w : Word) (aux : BitVec 8) : Word := (w &&& ~~~0xFF0000000#64) ||| (aux.zeroExtend 64 <<< 28)
/-- The bounce of a refused message (R269): a reply to its sender's slot, at its generation (R268, R381). -/
def Msg.bounced (m : Msg) : Msg := { m with ty := 254, src := withAux m.dst m.ty, dst := m.src }
/-- The orphan of an unmatched reply (R269). -/
def Msg.orphaned (m : Msg) : Msg := { m with ty := 253, src := withAux m.dst m.ty, dst := m.dst ||| 63 }
/-- A refused message goes back. -/
def State.bounce (s : State) (c : Nat) (m : Msg) : State := s.postMsg c (Msg.bounced m)

/-- Messages of a type that are held become dispatchable up to the one of number `n`, in order of arrival (R309). -/
def Core.release (co : Core) (ty : BitVec 8) (n pri : Nat) : Core :=
  { co with mailbox := co.mailbox.map fun e =>
      if e.msg.ty = ty && e.seq ≤ n && !e.ready then { e with ready := true, pri := pri } else e }
/-- What a read of a message's entry does while the message is held. -/
def State.heldRead (s : State) (c : Nat) (ty : BitVec 8) (n : Nat) : State :=
  let r := s.vectorRead c ty
  let s := s.vectorTouch c ty
  if r.dispatchable then (s.modCore c fun co => co.release ty n r.pri).soon .taskDispatch { a := c }
  else s.later (s.clk + 4096) .vectorTableReread { a := c, b := n }

/-- A message takes a mailbox entry. -/
def State.enterMail (s : State) (c : Nat) (m : Msg) : State :=
  ((s.fresh.2.modCore c fun co => { co with mailbox := co.mailbox ++ [⟨m, false, 0, s.nextId⟩] })).heldRead c m.ty s.nextId
/-- A message at the head of a core's port (R267); none where it has to be held there. A page answer is consumed (R344). -/
def State.acceptMail (s : State) (c : Nat) (m : Msg) : Option State :=
  let co := s.core c
  let used := co.mailbox.length
  if m.ty = 248 then some (s.soon .hostPageAnswer { a := c, body := .msg m })
  else if Msg.user m then
    if (co.mailbox.filter fun (e : Mail) => Msg.user e.msg).length < co.mblimit.toNat && used < 256 then some (s.enterMail c m)
    else some (s.bounce c m)
  else if used < 256 then some (s.enterMail c m)
  else none
/-- The messages held at a port, in order. -/
def State.drainPort (s : State) (c : Nat) : List Msg → State
  | [] => s.modCore c fun co => { co with port := [] }
  | m :: rest =>
    match s.acceptMail c m with
    | some s' => s'.drainPort c rest
    | none => s.modCore c fun co => { co with port := m :: rest }

/-- A message reaches a core (R267, R269, R318). A system message that names no sender is dropped at a core in reset [log 26, DEDUCED]. -/
def State.deliver (s : State) (c : Nat) (m : Msg) : State :=
  let co := s.core c
  if m.ty = 254 && (co.inReset || tagAux m.src = 255) then
    let s1 := s.count c evLate
    if co.inReset then s1 else s1.notice c m.fk (some (4, 0))
  else if co.inReset then (if Msg.user m || m.src ≠ 0 then s.bounce c m else s)
  else
    let s := if m.ty = 254 then s.count c evBounce else s
    if co.port = [] then s.drainPort c [m] else s.modCore c fun co => { co with port := co.port ++ [m] }
/-- A message of another package reaches the core under the key of the input: a reissue is answered from the core's pantry, so that each
message is delivered once (R270, R345); a full pantry refuses it; a partition that may not reach the core is told so (R366), but a bounce is never refused (R269). -/
def State.deliverAway (s : State) (c : Nat) (m : Msg) : State :=
  let loc := larderLoc c 0
  let inp := s.input
  if (s.pantry loc).any fun e => e.isFor inp.b inp.c inp.d inp.e then (s.count c evPantryHit).ackInput c
  else if s.pantryFull loc then s.send inp.c c inp.word.toNat 3 (.refusal inp.b inp.c inp.d inp.e)
  else if m.ty ≠ 254 && !s.foreignOk loc inp.b inp.word.toNat then s.send inp.c c inp.word.toNat 3 (.reply inp.b inp.c inp.d inp.e 0 cPartition)
  else ((s.pantryAdd loc ⟨inp.b, inp.c, inp.d, inp.e, 0, 0, none, 0⟩).ackInput c).deliver c m
/-- MESSAGE_ARRIVAL (R267, R269, R318): from the package, or from another one. Type 248 comes from the host alone: Hatch A refuses any
other (R370). -/
def execMessageArrival (s : State) : Host.Outcome State Fault Refusal :=
  let c := s.input.a
  match s.input.body with
  | .msg m =>
    if nCores ≤ c then .next s
    else if m.ty = 248 && s.input.cause ≠ fromHost then .next (s.ackInput c)
    else if s.input.flag then .next (s.deliverAway c m)
    else .next (s.deliver c m)
  | _ => .next s

/-- VECTOR_TABLE_REREAD (R309): the message of number `b`, if it is still held; number 0 stands for the ready waiters, which entry 255
holds back (R314). -/
def execVectorTableReread (s : State) : Host.Outcome State Fault Refusal :=
  if s.input.b = 0 then .next (s.soon .taskDispatch { a := s.input.a })
  else
  match (s.core s.input.a).mailbox.find? fun e => e.seq = s.input.b && !e.ready with
  | some e => .next (s.heldRead s.input.a e.msg.ty e.seq)
  | none => .next s

/-! Register banks (R109). -/

/-- No slot of a core holds registers in a bank; the S-slot's are in bank 15. -/
def Core.bankUnused (co : Core) (b : Nat) : Bool :=
  b ≠ 15 && !(co.slots.any fun e => e.1 ≠ 63 && e.2.state ≠ .free && (regBanks e.2.vbase e.2.valloc).contains b)
/-- A register bank is in retention or entering it. -/
def State.regIdle (s : State) (c b : Nat) : Bool :=
  (s.core c).bankUnused b && Table.get 0 (s.core c).regTouched b + 65536 ≤ s.clk
/-- The banks that an allocation needs leave retention; those for which its group or task has to wait. -/
def State.wakeRegs (s : State) (c r n : Nat) : State × List Nat :=
  let idle := (regBanks r n).filter fun b => s.regIdle c b && Table.get 0 (s.core c).regAsleep b ≠ 1
  let s' := idle.foldl (fun s b =>
    (s.modCore c fun co => { co with regAsleep := Table.ins co.regAsleep b 1 }).later
      (max s.clk (Table.get 0 (s.core c).regTouched b + 65536 + 2048) + 2048) .regbankRetentionExit { a := c, b := b }) s
  (s', (regBanks r n).filter fun b => Table.get 0 (s'.core c).regAsleep b = 1)

/-! The start of tasks (R268). -/

/-- What a task starts with (R84): its PC, its scalar registers from s1 on, TASKID, TASKFK, PRI and its class ceiling. -/
structure TaskStart where
  pc : Word
  regs : List Word
  taskid : Word
  taskfk : Word
  pri : Nat
  ceiling : Nat
  deriving DecidableEq, Repr

/-- Scalar registers from s1 on. -/
def startRegs (l : List Word) : Table Word := (l.zipIdx 1).filterMap fun (w, i) => if w = 0 then none else some (i, w)
/-- The first of the registers reserved for an H-class slot (R108). -/
def hBase (k : Nat) : Nat := 2032 - 16 * (63 - k)
/-- A free H-class slot. -/
def State.freeH (s : State) (c : Nat) : Option Nat :=
  (List.range 63).find? fun k => (s.core c).cls k = 1 && (s.slot c k).state = .free
/-- A task starts in a slot (R84, R110, R178). -/
def State.startTask (s : State) (c k : Nat) (t : TaskStart) : State :=
  let w := s.wakeRegs c (hBase k) 16
  w.1.modSlot c k fun sl =>
    { gen := sl.gen, state := .active, pri := BitVec.ofNat 2 t.pri, taskid := t.taskid, taskfk := t.taskfk
      sregs := startRegs t.regs, vbase := hBase k, task := some ⟨t.ceiling, false⟩
      p := { pc := t.pc, live := allLanes, wait := if w.2 = [] then .none else .start w.2 } }
/-- A task that starts trapped (R311, R387). -/
def State.startTrapped (s : State) (c k : Nat) (t : TaskStart) (code : BitVec 8) (faddr finfo : Word) : State :=
  (s.startTask c k t).trapSlot c k false { code := code, faddr := faddr, finfo := finfo }

/-- TASKID of a handler (Table 7-5). -/
def handlerId (ty : BitVec 8) (src : Word) : Word :=
  0x8000000000000000#64 ||| (ty.zeroExtend 64 <<< 48) ||| (src &&& 0xFFFFFFFFFFFF#64)
/-- The registers of a handler (Tables 4-1, 4-2). -/
def Msg.regs (m : Msg) : List Word :=
  (List.range 6).map (fun i => if i < m.len then m.payload.getD i 0 else 0) ++
    [m.src, BitVec.ofNat 64 (m.len * 256 + m.ty.toNat), if m.ty = 255 then m.fk else 0]
/-- A task starts from a message, or from a waiter in the shape of a message, by the read at its start. -/
def State.startMessage (s : State) (c k : Nat) (m : Msg) (r : VRead) : State :=
  let t : TaskStart := { pc := 0, regs := Msg.regs m, taskid := handlerId m.ty m.src,
                         taskfk := if m.ty = 255 then m.fk else 0, pri := r.pri, ceiling := r.cls }
  match r.start m with
  | .ok pc => s.startTask c k { t with pc := pc }
  | .error epc => s.startTrapped c k { t with pc := epc } cVectorEntry ((s.core c).vectorAddr m.ty) (m.ty.zeroExtend 64)

/-- The offset of the descriptor at the head of the ready ring. -/
def State.ringFirst (s : State) (c : Nat) : Nat := field (s.read64 (s.ringLoc c ((s.core c).rrhead.toNat % (s.core c).ringSize))) 0 21
/-- The places that the start of a codelet reads or writes (R273, R387). -/
def State.popLocs (s : State) (c : Nat) : List Nat :=
  let co := s.core c
  [s.ringLoc c (co.rrhead.toNat % co.ringSize), s.ringLoc c co.ringSize, s.ringLoc c (co.ringSize + 1),
   s.ringLoc c (co.rrtail.toNat % co.ringSize), linkLoc c (field (s.chainHead c) 0 21),
   larderLoc c ((s.ringFirst c + 8) % 2 ^ 21), larderLoc c ((s.ringFirst c + 16) % 2 ^ 21)]
/-- The head of the ready ring is taken (R273): its offset, or none where a structure word is poisoned (R387). -/
def State.popRing (s : State) (c : Nat) : Option (Nat × State) :=
  let co := s.core c
  let entry := s.ringLoc c (co.rrhead.toNat % co.ringSize)
  let headLoc := s.ringLoc c co.ringSize
  let tailLoc := s.ringLoc c (co.ringSize + 1)
  if s.structPoison [entry, headLoc] then none
  else
    let off := s.ringFirst c
    let s1 := s.modCore c fun co => { co with rrhead := word ((co.rrhead.toNat + 1) % 65536) }
    if s.chainHead c = noLink then some (off, s1)
    else
      let first := field (s.chainHead c) 0 21
      let link := linkLoc c first
      if s.poisoned link then none
      else
        let next := s.read64 link
        let s2 := s1.writeStruct (s.ringLoc c (co.rrtail.toNat % co.ringSize)) (word first)
        let s3 := (s2.writeStruct headLoc next).modCore c fun co => { co with rrtail := word ((co.rrtail.toNat + 1) % 65536) }
        some (off, if next = noLink then s3.writeStruct tailLoc noLink else s3)

/-- A codelet starts from a descriptor (R84, R268, R387). -/
def State.startCodelet (s : State) (c k off : Nat) : State :=
  let at_ := fun (i : Nat) => (off + 8 * i) % 2 ^ 21
  let addr := fun (o : Nat) => larderAddr s.pkgId.toNat (coreDie c) (coreX c) (coreY c) o
  let t : TaskStart := { pc := 0, regs := [s.read64 (larderLoc c (at_ 2)), addr off], taskid := BitVec.ofNat 64 (3 * 2 ^ 62 + off),
                         taskfk := 0, pri := 0, ceiling := 0 }
  match [1, 2].find? fun i => s.poisoned (larderLoc c (at_ i)) with
  | some i => s.startTrapped c k t cPoison (addr (at_ i)) 0
  | none => s.startTask c k { t with pc := s.read64 (larderLoc c (at_ 1)) }

/-- What the message unit can start. -/
inductive Start where
  | mail (e : Mail)
  | waiter (w i : Nat) (v : Word)
  | codelet
  deriving DecidableEq, Repr

/-- The oldest startable message or waiter of a priority. -/
def State.pickPri (s : State) (c pri : Nat) : Option Start :=
  let co := s.core c
  let mails := (co.mailbox.filter fun e => e.ready && e.pri = pri).map fun e => (e.seq, Start.mail e)
  let r := s.vectorRead c 255
  let waiters :=
    match co.ready with
    | (w, i, n, v) :: _ => if r.dispatchable && r.pri = pri then [(n, Start.waiter w i v)] else []
    | [] => []
  ((sortBy Prod.fst (mails ++ waiters)).head?).map Prod.snd
/-- The first available start in the order of R268. -/
def State.pick (s : State) (c : Nat) : Option Start :=
  let co := s.core c
  let ring := if co.rrhead ≠ co.rrtail then some Start.codelet else none
  s.pickPri c 3 <|> s.pickPri c 2 <|> s.pickPri c 1 <|> ring <|> s.pickPri c 0

/-- A reply whose generation does not match (R268). -/
def State.unmatched (s : State) (c : Nat) (m : Msg) : Bool :=
  tagSlot m.dst ≠ 63 && (s.slot c (tagSlot m.dst)).gen.toNat % 2 ^ 28 ≠ tagGen m.dst
/-- A reply becomes an orphan in its entry, and the entry of type 253 is read for it (R269). -/
def State.orphan (s : State) (c : Nat) (e : Mail) : State :=
  ((s.modCore c fun co => { co with mailbox := co.mailbox.map fun x =>
      if x.seq = e.seq then { x with msg := Msg.orphaned e.msg, ready := false } else x }).count c evOrphan).heldRead c 253 e.seq
/-- Unmatched replies at the head of their rank become orphans. -/
def State.orphanAll (s : State) (c : Nat) : Nat → State
  | 0 => s
  | n + 1 =>
    match s.pick c with
    | some (.mail e) => if s.unmatched c e.msg then (s.orphan c e).orphanAll c n else s
    | _ => s

/-- A mailbox entry is freed, and the port goes on. -/
def State.freeMail (s : State) (c : Nat) (e : Mail) : State :=
  let s := s.modCore c fun co => { co with mailbox := co.mailbox.filter fun x => x.seq ≠ e.seq }
  s.drainPort c (s.core c).port

/-- The message that the start of a waiter amounts to (R314), with its firkin's value. -/
def State.waiterMsg (s : State) (c w : Nat) (v : Word) : Msg :=
  { ty := 255, len := 6, src := tagWord s.pkgId.toNat c 63 0 0, dst := tagWord s.pkgId.toNat c 63 0 0
    payload := [v, s.frt c w 1, 0, 0, 0, s.frt c w 2], fk := s.frt c w 3 }

/-- One start in a slot. -/
def State.startOne (s : State) (c k : Nat) : Start → State
  | .mail e =>
    let r := s.vectorRead c e.msg.ty
    let s := s.vectorTouch c e.msg.ty
    if r = .unbound then
      (s.modCore c fun co => { co with mailbox := co.mailbox.map fun x => if x.seq = e.seq then { x with ready := false } else x }).later
        (s.clk + 4096) .vectorTableReread { a := c, b := e.seq }
    else (s.startMessage c k e.msg r).freeMail c e
  | .waiter w i v =>
    if s.frtPoisoned c w || s.frtPoisoned c i then s.coreCheck c cPoison
    else
      let s1 := s.startMessage c k (s.waiterMsg c w v) (s.vectorRead c 255)
      ((s1.freeFrt c w).modCore c fun co => { co with ready := co.ready.filter fun x => x.1 ≠ w }).frtRelease c i
  | .codelet =>
    match s.popRing c with
    | none => s.coreCheck c cPoison
    | some (off, s') => s'.startCodelet c k off

/-- The places of the core's structures that a start reads or writes. -/
def State.startLocs (s : State) (c : Nat) : Start → List Nat
  | .mail _ => []
  | .waiter w i _ => s.frtLocs c w ++ s.frtLocs c i
  | .codelet => s.popLocs c
/-- Ready waiters that entry 255 holds back are looked at again, as a held message is (R309, R314). -/
def State.reread255 (s : State) (c : Nat) : State :=
  if (s.core c).ready = [] || (s.vectorRead c 255).dispatchable ||
      s.agenda.any (fun e => e.2.1 = .vectorTableReread && e.2.2.a = c && e.2.2.b = 0) then s
  else (s.vectorTouch c 255).later (s.clk + 4096) .vectorTableReread { a := c }

/-- TASK_DISPATCH (R268): at most one start in a clk, when the banks of the structures that it takes are out of retention (R197). -/
def execTaskDispatch (s : State) : Host.Outcome State Fault Refusal :=
  let c := s.input.a
  let co := s.core c
  if co.inReset then .next s
  else if s.clk < co.nextStart then .next (s.later co.nextStart .taskDispatch { a := c })
  else
    match s.freeH c with
    | none => .next s
    | some k =>
      let s := (s.orphanAll c 257).reread255 c
      match s.pick c with
      | none => .next s
      | some x =>
        .next (s.atBanks (s.startLocs c x) .taskDispatch fun s =>
          ((s.startOne c k x).modCore c fun co => { co with nextStart := s.clk + 1 }).later (s.clk + 1) .taskDispatch { a := c })

/-- HOST_PAGE_ANSWER (R344) [log 28, DEDUCED]. -/
def execHostPageAnswer (s : State) : Host.Outcome State Fault Refusal :=
  let c := s.input.a
  match s.input.body with
  | .msg m =>
    let t := m.payload.getD 0 0
    let k := field t 0 6
    let code := bits (m.payload.getD 2 0) 0 16
    let sl := s.slot c k
    if sl.gen = bits t 32 32 && sl.state = .trapped && bits sl.cause 0 8 = cPageFault then
      let fail := fun (sl : Slot) =>
        if code = 0 then sl
        else { sl with cause := (sl.cause &&& ~~~0xFF#64) ||| cHostPageFail.zeroExtend 64
                       finfo := (sl.finfo &&& ~~~0xFFFF#64) ||| code.zeroExtend 64 }
      let s1 := s.modSlot c k fail
      .next (if sl.unsettled || (s.core c).events.any fun e => e.2 = k then s1
        else (s1.modCore c fun co => co.queueEvent s.clk k).soon .trapEventEntry { a := c })
    else .next (s.modCore c fun co => { co with pglate := word ((co.pglate.toNat + 1) % 2 ^ 32) })
  | _ => .next s

/-! The instructions. -/

/-- The message of `send` and `sendjc`. -/
def State.sendMsg (s : State) (o : F2) : Msg :=
  let len := field o.x 8 3
  { ty := bits o.x 0 8, len := len, src := s.returnTag s.cur.core s.cur.slot, dst := destWord (s.sreg o.a)
    payload := s.payload o.b len, fk := 0 }

/-- SEND (R270, R232). -/
def execSend (o : F2) (s : State) : Host.Outcome State Fault Refusal :=
  run (.send o) s fun s =>
    match s.destCheck (s.sreg o.a) with
    | .error e => .error e
    | .ok () =>
      match s.releaseHold true with
      | .error e => .error e
      | .ok () => .ok (s.postMsg s.cur.core (s.sendMsg o)).retire

/-- The add of 1 to a job counter (R270): performed here at once, or awaited from a larder bank or from across a link. -/
def State.jobAdd (s : State) (ea : Word) : Act State :=
  let u : Use1 := { addr := ea, size := 8, align := 8, rd := true, wr := true }
  if s.curPath.buf.any fun e => e.1 = jobKey then .ok s
  else
    match s.checkUses [u] with
    | .error e => .error e
    | .ok s' =>
      let h := s.home s.who u
      let s := s'
      let a := s.mkAccess s.cur.core s.cur.slot s.cur.pathQ (.amo 1 3) ea h 8 1
      if !s.across h then
        match s.lentFault a.loc a.pkg a.part with
        | some c => .error (.trapAfter (accTrap a c) s)
        | none =>
          let r := s.arriveAll a.loc 8
          if s.clk < r.2 then .error (.holdAfter .reply (r.1.awaitBank r.2 a .path jobKey true true))
          else
            match r.1.perform a with
            | (_, .fault c) => .error (.trapAfter (accTrap a c) r.1)
            | (s', _) => .ok s'
      else if s.lineBusy h then .error (.hold (.line h.pkg (h.loc / 64)))
      else
        match s.newReq h.pkg h.target a .path jobKey true true with
        | some s' => .error (.holdAfter .reply s')
        | none => .error (.hold .tag)

/-- SENDJC (R270, R232). -/
def execSendjc (o : F2) (s : State) : Host.Outcome State Fault Refusal :=
  run (.sendjc o) s fun s =>
    match s.destCheck (s.sreg o.a) (s.curPath.buf.any fun e => e.1 = jobKey) with
    | .error e => .error e
    | .ok () =>
      match s.releaseHold true with
      | .error e => .error e
      | .ok () =>
        match s.jobAdd (s.sreg o.c) with
        | .error e => .error e
        | .ok s' => .ok (s'.postMsg s.cur.core (s'.sendMsg o)).retire

end Sys2Proof.Machine
end

