-- ==== Sys2Proof/Machine/Traps.lean ====
section
/-! DEFINITION. The S-slot takes a trap event (R175), a slot takes a user interrupt (R186), a core leaves reset after a core
check (R177). -/

namespace Sys2Proof.Machine

/-- TRAP_EVENT_ENTRY (R175): the S-slot, if it is idle, takes the event at the head of the queue. -/
def execTrapEventEntry (s : State) : Host.Outcome State Fault Refusal :=
  let c := s.input.a
  let co := s.core c
  match co.events with
  | [] => .next s
  | (_, k) :: rest =>
    if co.inReset || !co.idle then .next s
    else
      let t := co.slot k
      let tw : Word := BitVec.ofNat 64 (t.gen.toNat * 2 ^ 32 + k)
      let s1 := s.modCore c fun co => { co with events := rest, idle := false }
      let s2 := s1.modSlot c k fun sl => { sl with handled := true }
      .next (s2.modSlot c 63 fun sl =>
        let sl := (sl.setS 1 tw).setS 2 t.cause
        { sl with dual := false, q := {}, p := { sl.p.moveTo co.trapvec with live := allLanes, parked := false } })

/-- USER_INTERRUPT_ENTRY (R186): the oldest pending interrupt of the slot is taken in path P. -/
def execUserInterruptEntry (s : State) : Host.Outcome State Fault Refusal :=
  match (s.slot s.input.a s.input.b).uiq with
  | [] => .next s
  | (handler, id) :: rest =>
    .next (s.modSlot s.input.a s.input.b fun sl =>
      { sl with
        ulipc := sl.p.pc, ulih := handler, cpxid := id, uia := true, uiq := rest
        p := sl.p.moveTo handler })

/-! Release from reset. -/

/-- The registers that firmware writes (Table 7-1, FW) [log 4, DESIGN CHOICE]. -/
def Core.boot (co : Core) (f : FwCore) : Core :=
  { co with vtbase := f.vtbase, rrbase := f.rrbase, frtbase := f.frtbase, wdoglim := f.wdoglim, trapvec := f.trapvec }
/-- A ready ring whose chain is empty: the chain words hold none (R271) [log 29, DEDUCED]. -/
def State.emptyChain (s : State) (c : Nat) : State :=
  (s.writeWord (s.ringLoc c (s.core c).ringSize) noLink).writeWord (s.ringLoc c ((s.core c).ringSize + 1)) noLink
/-- A place outside a core's larder. -/
def outsideLarder (c loc : Nat) : Bool := !(isLarder loc && larderCore loc = c)
/-- The larder of a core holds 0 and full in every word, without poison. -/
def State.clearLarder (s : State) (c : Nat) : State :=
  { s with
    mem := s.mem.filter fun e => outsideLarder c e.1
    empties := s.empties.filter fun w => outsideLarder c (8 * w)
    poison := s.poison.filter fun w => outsideLarder c (8 * w) }
/-- The banks of a core's larder and of its register file are awake from the present clk on. -/
def Core.wakeAll (co : Core) (clk : Nat) : Core :=
  { co with touched := (List.range 32).map fun b => (b, clk), regTouched := (List.range 16).map fun b => (b, clk) }
/-- A core as after package reset, with the generations of its slots (R177). -/
def Core.fresh (co : Core) : Core :=
  { slots := co.slots.map fun e => (e.1, { Slot.initial e.1 with gen := e.2.gen }), frtUsed := co.frtUsed, preGen := co.preGen }

/-- The release of a core from reset (R177): the generations of FRT entries and slots survive; its requests are awaited no longer. -/
def State.releaseCore (s : State) (c : Nat) : State :=
  let s : State := { s with reqs := s.reqs.filter fun e => e.2.acc.core ≠ c }
  let gens := (List.range (s.core c).frtsize.toNat).filterMap fun i =>
    let g := fGen (s.frt c i 0)
    if g = 0 then none else some (i, g)
  let s := (s.clearLarder c).modCore c fun co => (Core.fresh co).wakeAll s.clk
  let s := match s.firmware with
    | some f => (s.modCore c fun co => co.boot f).emptyChain c
    | none => s
  gens.foldl (fun s e => s.setFrt c e.1 0 (frtWord 0 false false 0 0 false e.2)) s

/-- CORE_RESET_RELEASE (R177): once every grid that the check tore down has completed its teardown [log 16, DESIGN CHOICE]. -/
def execCoreResetRelease (s : State) : Host.Outcome State Fault Refusal :=
  let c := s.input.a
  let co := s.core c
  if co.inReset && co.checkGrids = [] then .next ((s.releaseCore c).soon .admitterPass { a := s.partOf c }) else .next s

end Sys2Proof.Machine
end

