-- ==== Sys2Proof/Machine/Matrix.lean ====
section
/-! DEFINITION. The matrix unit (06_accumulator_tiles.md): the checks of Table 6-5, the command queue (R148), arbitration (R156),
service times (R155), the steps (R151 to R154, R75 to R77) with ZF8 decoding (R72 to R74), and the instructions (R164 to
R172). -/

namespace Sys2Proof.Machine

/-! Formats (Table 6-2). -/

/-- The bits of an element. -/
def matBits (f : Nat) : Nat := if f < 2 then 16 else if f < 10 then 8 else 4
/-- The K of a chunk. -/
def matChunk (f : Nat) : Nat := if f < 2 then 8 else if f < 10 then 16 else 32
/-- Formats with a scale array, the element bytes and the scale bytes of a block. -/
def matScaled (f : Nat) : Bool := (4 ≤ f && f ≤ 7) || f = 11 || f = 12
def matBE (f : Nat) : Nat := if f < 10 then 32 else 16
def matSB (f : Nat) : Nat := if f = 4 || f = 5 || f = 11 then 1 else 4
/-- The format of the elements. -/
def matFmt (f : Nat) : Fmt :=
  if f = 0 then ⟨8, 7, 127, 0⟩
  else if f = 1 then ⟨5, 10, 15, 0⟩
  else if f = 3 || f = 5 || f = 7 then ⟨5, 2, 15, 0⟩
  else if f < 10 then ⟨4, 3, 7, 1⟩
  else ⟨2, 1, 1, 2⟩
/-- FP32. -/
def f32 : Fmt := ⟨8, 23, 127, 0⟩

/-! Tiles and contexts. -/

/-- An element of a tile. -/
def tileElem (t : Tile) (i n : Nat) : Nat := field t (32 * (64 * i + n)) 32
/-- The tile with the elements `f i n`. -/
def tileOf (f : Nat → Nat → Nat) : Tile := BitVec.ofNat 131072 (packLanes (fun e => f (e / 64) (e % 64)) 4096 0)
def Core.modTile (co : Core) (n : Nat) (f : TileRec → TileRec) : Core := { co with tiles := Table.ins co.tiles n (f (co.tile n)) }
/-- The context of the slot that issues a command (R146). -/
def Core.ctx (co : Core) (k : Nat) : MatCtx := if k = 63 then co.privCtx else co.userCtx
def Core.modCtx (co : Core) (k : Nat) (f : MatCtx → MatCtx) : Core :=
  if k = 63 then { co with privCtx := f co.privCtx } else { co with userCtx := f co.userCtx }
/-- IX[i]; 0xFFFF after reset. -/
def MatCtx.ixAt (x : MatCtx) (i : Nat) : Nat := (Table.get 0xFFFF x.ix i).toNat
/-- The rules of R73 for a token table. -/
def tokenOk (w : Word) : Bool :=
  let lens := (List.range 16).map fun k => field w (4 * k) 4
  lens.all (fun l => 1 ≤ l && l ≤ 12) && (lens.map fun l => 2 ^ (12 - l)).sum ≤ 4096

/-! The checks at issue (Table 6-5, rows 1 and 2). -/

/-- A matrix trap with FADDR 0. -/
def matTrap (code : BitVec 8) (tile reason : Nat) : Trap := { code := code, finfo := matInfo 0 tile 0 reason }
/-- MATRIX_STATE as the end of an instruction. -/
def matState (tile reason : Nat) : Stop := .trap (matTrap cMatrixState tile reason)
/-- The tile that the d field names. -/
def tileNo (o : F3) : Nat := field o.d 0 4
/-- The number of tiles of the executing group's team. -/
def State.teamTiles (s : State) : Nat :=
  match s.curTeam? with
  | some t => if s.isGroup then t.tiles else 0
  | none => 0
/-- R146: the S-slot, or a group of the matrix team. An instruction that names no tile gives 0 as IDX [log 60, DESIGN CHOICE]. -/
def State.ctxCheck (s : State) (tile : Nat) : Act Unit :=
  if s.isS || s.teamTiles ≠ 0 then .ok () else .error (matState tile 1)
/-- R145, R146 for an instruction that names a tile; `any` for `msave` and `mrest`, which name physical tiles. -/
def State.tileCheck (s : State) (n : Nat) (any : Bool) : Act Unit :=
  if !any && ((s.isS && n < 14) || (s.isGroup && 14 ≤ n)) then .error (.trap (matTrap cTilePriv n 0))
  else
    match s.ctxCheck n with
    | .error e => .error e
    | .ok () => if !s.isS && s.teamTiles ≤ n then .error (matState n 2) else .ok ()

/-- What a batch record says of a tile (Table 6-7). -/
def recTile (r0 r1 r2 : Word) (t : TileRec) : TileRec :=
  { t with
    opened := r0.getLsbD 0, i32 := r0.getLsbD 1, chk := r0.getLsbD 2, afmt := bits r0 8 4, bfmt := bits r0 12 4
    owner := bits r0 16 6, ownerGen := bits r0 22 32, rowStride := r1, rowCount := r2 }
/-- The first doubleword of the record of a tile. -/
def tileRecord (t : TileRec) : Word :=
  BitVec.ofNat 64 (t.ownerGen.toNat * 2 ^ 22 + t.owner.toNat * 2 ^ 16 + t.bfmt.toNat * 2 ^ 12 + t.afmt.toNat * 2 ^ 8 +
    flag t.chk 2 + flag t.i32 1 + flag t.opened 0)

/-- The home of a byte for a unit that goes on with an access that has been checked: larder space as it stands, and
translated space through the leaf that the check used (R341). -/
def State.homeAt (s : State) (c : Nat) (a : Word) : Home :=
  if isLarderAddr a then larderHome a
  else
    match s.lookup c (field a 0 57) false with
    | (.leaf w, _) => s.homeOf w (field a 0 57)
    | _ => ⟨s.pkgId.toNat, field a 0 57, 0⟩

/-! The operands of a step. -/

/-- A step in the unit: the command's issuer, its tile, and the operands read at issue. -/
structure Step where
  core : Nat
  slot : Nat
  tile : Nat
  a : Word
  b : Word
  sa : Word
  sb : Word
  k : Nat
  stride : Nat
  deriving DecidableEq, Repr

/-- A stretch of an operand: the operand, the row or column, the block or chunk; its base, its first byte and its length,
in offsets of the base's larder that do not wrap (R154); whether it must start at an even address. -/
structure Seg where
  opnd : Nat
  idx : Nat
  blk : Nat
  base : Word
  start : Nat
  len : Nat
  even : Bool
  deriving DecidableEq, Repr

/-- The base's larder may be read by a step of a core (R154). -/
def State.baseOk (s : State) (c : Nat) (a : Word) : Bool :=
  isLarderAddr a && aPkg a = s.pkgId.toNat && aDie a = coreDie c && field a 21 20 = 0 && aY a < 10
/-- The address of the first byte of a stretch. -/
def Seg.addr (g : Seg) : Word := g.base + word (g.start - aOff g.base)
/-- The place of the first byte of a stretch. -/
def Seg.loc (g : Seg) : Nat := larderLoc (aCore g.base) g.start
/-- The windows that bind a slot (R201). -/
def State.winsOf (s : State) (c k : Nat) : Option (List Word) :=
  if (s.core c).cls k = 0 then some (s.slot c k).windows else none
/-- The first byte of at most 4 KiB that windows do not allow to be read or written. -/
def winShort (ws : Option (List Word)) (a : Word) (n : Nat) (rd wr : Bool) : Option (Word × Nat) :=
  match ws with
  | none => none
  | some ws =>
    let next := 4096 - aOff a % 4096
    ([0, next].filter fun i => i < n).findSome? fun i => (winFault ws (a + word i) rd wr).map fun d => (a + word i, d)
/-- The address fault of a stretch (R160, row 5): cause and FADDR. -/
def State.segFault (s : State) (st : Step) (g : Seg) : Option (BitVec 8 × Word) :=
  if !s.baseOk st.core g.base || 2 ^ 21 ≤ g.start then some (cAddrRange, g.addr)
  else if 2 ^ 21 < g.start + g.len then some (cAddrRange, g.base + word (2 ^ 21 - aOff g.base))
  else if g.even && g.start % 2 = 1 then some (cMisaligned, g.addr)
  else
    match winShort (s.winsOf st.core st.slot) g.addr g.len true false with
    | some (a, _) => some (cProtection, a)
    | none => if (s.core (aCore g.base)).inReset then some (cTargetReset, g.addr) else none
/-- The first poisoned byte of a stretch. -/
def State.segPoison (s : State) (g : Seg) : Option Word :=
  ((List.range g.len).find? fun i => s.poisoned (g.loc + i)).map fun i => g.addr + word i

/-- The batch of a step, and the formats. -/
def State.stepTile (s : State) (st : Step) : TileRec := (s.core st.core).tile st.tile
def State.fa (s : State) (st : Step) : Nat := (s.stepTile st).afmt.toNat
def State.fb (s : State) (st : Step) : Nat := (s.stepTile st).bfmt.toNat
/-- Row i is null (R151). -/
def State.rowNull (s : State) (st : Step) (i : Nat) : Bool :=
  let r := s.stepTile st
  let x := ((s.core st.core).ctx st.slot).ixAt i
  x = 0xFFFF || (r.rowCount.toNat ≤ x && !r.chk)
/-- The distance of row i from s[a] (R151). -/
def State.rowOff (s : State) (st : Step) (i : Nat) : Nat :=
  ((s.core st.core).ctx st.slot).ixAt i * (s.stepTile st).rowStride.toNat

/-- The stretches of an operand's row or column: one for each block of a scaled operand, else one for each chunk. BLK of an address or
data fault in the elements of a scaled operand is that of the block, also where a block has two chunks [log 73, DESIGN CHOICE]. -/
def stretches (f k opnd idx : Nat) (base : Word) (start : Nat) : List Seg :=
  let n := if matScaled f then 32 else matChunk f
  (List.range (k / n)).map fun q =>
    { opnd := opnd, idx := idx, blk := q, base := base, start := start + q * (n * matBits f / 8), len := n * matBits f / 8
      even := f < 2 && q = 0 }
/-- The stretches of the scales of a row or column. -/
def scaleSegs (f k opnd idx : Nat) (base : Word) (off : Nat) : List Seg :=
  (List.range (k / 32)).map fun q =>
    { opnd := opnd, idx := idx, blk := q, base := base, start := aOff base + (off + q * matBE f) / matBE f * matSB f
      len := matSB f, even := false }

/-- A ZF8 block as far as it can be read (R72): its first byte, its number, its header where that can be read. -/
structure ZBlk where
  q : Nat
  start : Nat
  hdr : Option Nat
  deriving DecidableEq, Repr
/-- The L of a header, and whether R74 allows it. -/
def zLen (h : Nat) : Nat := h / 2 ^ 20 % 512
def zOk (h : Nat) : Bool := 32 ≤ zLen h && zLen h ≤ 256
/-- The bytes of a block. -/
def zSize (h : Nat) : Nat := 20 + 2 * cdiv (zLen h) 16
/-- The stretch that a block occupies, as far as it is known. -/
def ZBlk.seg (z : ZBlk) (st : Step) (n : Nat) : Seg :=
  { opnd := 1, idx := n, blk := z.q, base := st.b, start := z.start, even := z.q = 0
    len := match z.hdr with
      | some h => if zOk h then zSize h else 4
      | none => 4 }
/-- The blocks of column n, up to one whose header cannot be read or whose L is bad [log 31, DEDUCED]. -/
def State.zBlocks (s : State) (st : Step) (n start q : Nat) : Nat → List ZBlk
  | 0 => []
  | fuel + 1 =>
    let g : Seg := { opnd := 1, idx := n, blk := q, base := st.b, start := start, len := 4, even := q = 0 }
    if (s.segFault st g).isSome || (s.segPoison g).isSome then [⟨q, start, none⟩]
    else
      let h := s.readN g.loc 4
      ⟨q, start, some h⟩ :: (if zOk h then s.zBlocks st n (start + zSize h) (q + 1) fuel else [])
/-- The distance of column n from s[a + 1]. -/
def Step.colStart (st : Step) (n : Nat) : Nat := aOff st.b + n * st.stride
def State.zColumn (s : State) (st : Step) (n : Nat) : List ZBlk := s.zBlocks st n (st.colStart n) 0 (st.k / 32)

/-- The rows that are not null. -/
def State.liveRows (s : State) (st : Step) : List Nat := (List.range 64).filter fun i => !s.rowNull st i
/-- The stretches of a step, in the order A, B, A scales, B scales. An operand without a stretch has no byte that could fault: with
every row null the bases of A and of its scales are not checked [log 59, DESIGN CHOICE]. -/
def State.segsA (s : State) (st : Step) : List Seg :=
  (s.liveRows st).flatMap fun i => stretches (s.fa st) st.k 0 i st.a (aOff st.a + s.rowOff st i)
def State.segsB (s : State) (st : Step) : List Seg :=
  (List.range 64).flatMap fun n =>
    if s.fb st = 8 then (s.zColumn st n).map fun z => z.seg st n else stretches (s.fb st) st.k 1 n st.b (st.colStart n)
def State.segsSA (s : State) (st : Step) : List Seg :=
  if matScaled (s.fa st) then (s.liveRows st).flatMap fun i => scaleSegs (s.fa st) st.k 2 i st.sa (s.rowOff st i) else []
def State.segsSB (s : State) (st : Step) : List Seg :=
  if matScaled (s.fb st) then (List.range 64).flatMap fun n => scaleSegs (s.fb st) st.k 3 n st.sb (n * st.stride) else []
def State.segs (s : State) (st : Step) : List Seg := s.segsA st ++ s.segsB st ++ s.segsSA st ++ s.segsSB st

/-! ZF8. -/

/-- The symbols of a token table with their lengths, in canonical order, and the codewords (R73). -/
def tokenCodes (w : Word) : List (Nat × Nat × Nat) :=
  let order := sortLt (fun a b => a.2 < b.2 || (a.2 = b.2 && a.1 < b.1)) ((List.range 16).map fun k => (k, field w (4 * k) 4))
  (order.foldl (fun (acc : List (Nat × Nat × Nat) × Nat × Nat) e =>
    let code := acc.2.1 * 2 ^ (e.2 - acc.2.2)
    (acc.1 ++ [(e.1, e.2, code)], code + 1, e.2)) ([], 0, 0)).1
/-- The number that `n` stream bits from a position make; the stream goes on in zeros after its L bits [log 32, DEDUCED]. -/
def streamBits (bit : Nat → Bool) (p : Nat) : Nat → Nat
  | 0 => 0
  | n + 1 => 2 * streamBits bit p n + (if bit (p + n) then 1 else 0)
/-- The symbols of a stream from a position on; none where a pattern matches no codeword. -/
def zSymbols (codes : List (Nat × Nat × Nat)) (bit : Nat → Bool) : Nat → Nat → Option (List Nat × Nat)
  | 0, p => some ([], p)
  | n + 1, p =>
    match codes.find? fun c => streamBits bit p c.2.1 = c.2.2 with
    | none => none
    | some c => (zSymbols codes bit n (p + c.2.1)).map fun r => (c.1 :: r.1, r.2)
/-- A block's stream. -/
def State.zBit (s : State) (st : Step) (z : ZBlk) (len j : Nat) : Bool :=
  j < len && s.readN (larderLoc (aCore st.b) (z.start + 20 + 2 * (j / 16))) 2 / 2 ^ (15 - j % 16) % 2 = 1
/-- The elements of a block, or the reason for MATRIX_OPERAND (R74). -/
def State.zDecode (s : State) (st : Step) (z : ZBlk) (h : Nat) : Except Nat (List Fp) :=
  if !zOk h then .error 2
  else
    let codes := tokenCodes (Table.get 0 ((s.core st.core).ctx st.slot).tt (h / 2 ^ 29))
    match zSymbols codes (s.zBit st z (zLen h)) 32 0 with
    | none => .error 3
    | some (syms, p) =>
      if p ≠ zLen h then .error 4
      else
        .ok (syms.zipIdx.map fun (e, j) =>
          let b := (s.byte (larderLoc (aCore st.b) (z.start + 4 + j / 2))).toNat
          let nib := if j % 2 = 1 then b / 16 else b % 16
          (matFmt 8).decode (nib / 8 * 128 + e * 8 + nib % 8))

/-! The checks of a step (Table 6-5). -/

/-- Why a step aborts: the cause, FADDR and FINFO. -/
abbrev Abort := BitVec 8 × Word × Word
/-- An abort at a stretch. -/
def Seg.abort (g : Seg) (code : BitVec 8) (faddr : Word) (reason : Nat) : Abort := (code, faddr, matInfo g.blk g.idx g.opnd reason)

/-- Row 2 from reason 4 on. A block whose header can be read names its table whatever its L is (R160). -/
def State.stepState (s : State) (st : Step) (gen : BitVec 32) : Option Abort :=
  let r := s.stepTile st
  let bad := fun (blk reason : Nat) => some (cMatrixState, (0 : Word), matInfo blk st.tile 0 reason)
  if !(r.opened && r.owner.toNat = st.slot && r.ownerGen = gen) then bad 0 4
  else if st.k % matChunk (s.fa st) ≠ 0 ||
      ((matScaled (s.fa st) || matScaled (s.fb st) || s.fb st = 8) && st.k % 32 ≠ 0) then bad 0 6
  else if s.fb st = 8 then
    let ctx := (s.core st.core).ctx st.slot
    firstSome (fun n => firstSome (fun (z : ZBlk) =>
      match z.hdr with
      | some h =>
        if ctx.loaded.getLsbD (h / 2 ^ 29) = false then some (cMatrixState, 0, matInfo z.q st.tile 1 8) else none
      | none => none) (s.zColumn st n)) (List.range 64)
  else none
/-- Row 3 (Table 6-3). -/
def State.stepPairing (s : State) (st : Step) : Option Abort :=
  let pair := fun (opnd reason : Nat) => some (cScalePairing, (0 : Word), matInfo 0 0 opnd reason)
  let bad := fun (f : Nat) (base : Word) => matScaled f && base.toNat % matSB f ≠ 0
  if matScaled (s.fa st) && (s.stepTile st).rowStride.toNat % matBE (s.fa st) ≠ 0 then pair 0 1
  else if matScaled (s.fb st) && st.stride % matBE (s.fb st) ≠ 0 then pair 1 2
  else if bad (s.fa st) st.sa && s.liveRows st ≠ [] then pair 2 3
  else if bad (s.fb st) st.sb then pair 3 3
  else none
/-- Row 4 (R152). -/
def State.stepChecked (s : State) (st : Step) : Option Abort :=
  let r := s.stepTile st
  if r.chk then
    ((List.range 64).find? fun i =>
      let x := ((s.core st.core).ctx st.slot).ixAt i
      x ≠ 0xFFFF && r.rowCount.toNat ≤ x).map fun i => (cMatrixOperand, 0, matInfo 0 i 0 1)
  else none
/-- Rows 6 and 7, block by block. -/
def State.stepData (s : State) (st : Step) : Option Abort :=
  let poison := fun (g : Seg) => (s.segPoison g).map fun a => g.abort cPoison a 0
  let zfail := fun (n : Nat) (z : ZBlk) =>
    match poison (z.seg st n) with
    | some a => some a
    | none =>
      match z.hdr with
      | none => none
      | some h =>
        match s.zDecode st z h with
        | .error r => some ((z.seg st n).abort cMatrixOperand 0 r)
        | .ok _ => none
  let colB := if s.fb st = 8 then firstSome (fun n => firstSome (zfail n) (s.zColumn st n)) (List.range 64)
    else firstSome poison (s.segsB st)
  firstSome poison (s.segsA st) <|> colB <|> firstSome poison (s.segsSA st) <|> firstSome poison (s.segsSB st)
/-- The first check of a step that fails. -/
def State.stepAbort (s : State) (st : Step) (gen : BitVec 32) : Option Abort :=
  s.stepState st gen <|> s.stepPairing st <|> s.stepChecked st <|>
  firstSome (fun g => (s.segFault st g).map fun f => g.abort f.1 f.2 0) (s.segs st) <|> s.stepData st

/-! The arithmetic of a step. -/

/-- Element `k` of a row or column that starts at a place, in its format's bits. -/
def State.matRaw (s : State) (f loc k : Nat) : Nat :=
  match matBits f with
  | 16 => s.readN (loc + 2 * k) 2
  | 8 => (s.byte (loc + k)).toNat
  | _ => (s.byte (loc + k / 2)).toNat / 16 ^ (k % 2) % 16
/-- An integer element: INT8, or a LUT4 code through the matrix copy of the table (R58). -/
def State.matIntElem (s : State) (st : Step) (f loc k : Nat) : Int :=
  let x := s.matRaw f loc k
  if f = 9 then (BitVec.ofNat 8 x).toInt else (Table.get 0 ((s.core st.core).ctx st.slot).lutM x).toInt
/-- The scale of a block. -/
def State.matScale (s : State) (f : Nat) (base : Word) (off q : Nat) : Fp :=
  let loc := larderLoc (aCore base) (aOff base + (off + q * matBE f) / matBE f * matSB f)
  if matSB f = 1 then scaleE8 (s.byte loc).toNat else scaleS20 (s.readN loc 4 % 2 ^ 20)
/-- 1. -/
def fpOne : Fp := .fin false 1 0
/-- The chunks of a row or column that is not ZF8, each with its scale. -/
def State.chunksOf (s : State) (f kc : Nat) (base : Word) (start : Nat) (sbase : Word) (off k : Nat) : List (List Fp × Fp) :=
  (List.range (k / kc)).map fun c =>
    ((List.range kc).map fun j => (matFmt f).decode (s.matRaw f (larderLoc (aCore base) start) (c * kc + j)),
     if matScaled f then s.matScale f sbase off (c * kc / 32) else fpOne)
/-- The chunks of a ZF8 column. -/
def State.zChunks (s : State) (st : Step) (n : Nat) : List (List Fp × Fp) :=
  (s.zColumn st n).flatMap fun z =>
    match z.hdr with
    | none => []
    | some h =>
      match s.zDecode st z h with
      | .error _ => []
      | .ok l => [(l.take 16, scaleS20 (h % 2 ^ 20)), (l.drop 16, scaleS20 (h % 2 ^ 20))]
/-- A chunk sum added to an accumulator element: a NaN there stays (R75, R76), one that is not canonical with its bits [log 58,
DESIGN CHOICE]. -/
def accAdd (acc : Nat) (v : Fp) : Nat :=
  match f32.decode acc with
  | .nan => acc
  | x => f32.encode .rne (Fp.add .rne x v)
/-- One chunk (R75, R76). -/
def chunkFp (acc : Nat) (p : (List Fp × Fp) × (List Fp × Fp)) : Nat :=
  accAdd acc ((Fp.mul (Fp.sum false ((p.1.1.zip p.2.1).map fun x => Fp.mul x.1 x.2)) p.1.2).mul p.2.2)
/-- One chunk of integers (R77). -/
def chunkInt (acc : Nat) (p : List Int × List Int) : Nat :=
  let sum := toSigned 32 acc + ((p.1.zip p.2).map fun x => x.1 * x.2).sum
  wrapTo 32 (max (-(2 ^ 31)) (min (2 ^ 31 - 1) sum))
/-- The chunks of a row or column of integers. -/
def State.chunksInt (s : State) (st : Step) (f kc loc k : Nat) : List (List Int) :=
  (List.range (k / kc)).map fun c => (List.range kc).map fun j => s.matIntElem st f loc (c * kc + j)

/-- The tile after a step (R151, R166). -/
def State.stepResult (s : State) (st : Step) : Tile :=
  let fa := s.fa st
  let fb := s.fb st
  let kc := matChunk fa
  let t := (s.stepTile st).data
  let rows := List.range 64
  let aStart := fun (i : Nat) => aOff st.a + s.rowOff st i
  if matInt fa then
    let cols := rows.map fun n => s.chunksInt st fb kc (larderLoc (aCore st.b) (st.colStart n)) st.k
    let lines := rows.map fun i =>
      if s.rowNull st i then rows.map fun n => tileElem t i n
      else
        let r := s.chunksInt st fa kc (larderLoc (aCore st.a) (aStart i)) st.k
        cols.zipIdx.map fun (c, n) => (r.zip c).foldl chunkInt (tileElem t i n)
    tileOf fun i n => (lines.getD i []).getD n 0
  else
    let cols := rows.map fun n =>
      if fb = 8 then s.zChunks st n else s.chunksOf fb kc st.b (st.colStart n) st.sb (n * st.stride) st.k
    let lines := rows.map fun i =>
      if s.rowNull st i then rows.map fun n => if st.k = 0 then tileElem t i n else accAdd (tileElem t i n) (.fin false 0 0)
      else
        let r := s.chunksOf fa kc st.a (aStart i) st.sa (s.rowOff st i) st.k
        cols.zipIdx.map fun (c, n) => (r.zip c).foldl chunkFp (tileElem t i n)
    tileOf fun i n => (lines.getD i []).getD n 0

/-! Service times (R155). -/

/-- The bytes that stretches read from each larder bank, at key 32 × core + bank. -/
def bankBytes (l : List Seg) : Table Nat :=
  l.foldl (fun t g =>
    let first := 64 - g.start % 64
    let c := aCore g.base
    let put := fun (t : Table Nat) (off n : Nat) =>
      if n = 0 then t else Table.ins t (32 * c + bankOf off) (Table.get 0 t (32 * c + bankOf off) + n)
    put (put t g.start (min first g.len)) (g.start + first) (g.len - first)) []
/-- The hops from a core to the nearest core of a bay of its die. -/
def hopsTo (c bay : Nat) : Nat :=
  let x0 := 4 * (bay % 20 % 4)
  let y0 := 2 * (bay % 20 / 4)
  (x0 - coreX c) + (coreX c - (x0 + 3)) + (y0 - coreY c) + (coreY c - (y0 + 1))
/-- T and F of a step. -/
def State.stepTime (s : State) (st : Step) : Nat × Nat :=
  let data := ((s.segsA st ++ s.segsB st).map Seg.len).sum
  let blocks := if s.fb st = 8 then ((List.range 64).map fun n => (s.zColumn st n).length).sum else 0
  let side := ((s.segsSA st ++ s.segsSB st).map Seg.len).sum + 4 * blocks
  let banks := bankBytes (s.segs st)
  let bank := (banks.map fun e => cdiv e.2 64).foldl max 0
  let hops := (banks.map fun e => hopsTo (e.1 / 32) (bayOf st.core)).foldl max 0
  (max (max (st.k / matChunk (s.fa st)) (cdiv data 2048)) (max (cdiv side 32) (max bank 1)), 48 + 2 * hops)

/-! The unit executes a command. -/

/-- The larder lines of the package that `n` bytes from an address of a command touch. -/
def State.imageLines (s : State) (c : Nat) (ea : Word) (n : Nat) : List Nat :=
  (List.range (n / 64)).filterMap fun i =>
    let h := s.homeAt c (ea + word (64 * i))
    if !s.across h && isLarder h.loc then some h.loc else none
/-- The larder lines that a command accesses. -/
def State.cmdLines (s : State) (c : Nat) (m : MatCmd) (segs : List Seg) : List Nat :=
  match m.op with
  | .mstep _ _ _ _ _ _ _ => segs.flatMap fun g => linesOf g.loc g.len
  | .mst _ ea bf16 => s.imageLines c ea (if bf16 then 8192 else 16384)
  | .mld _ ea _ => s.imageLines c ea 16384
  | .msave _ ea | .mrest _ ea => s.imageLines c ea 16448
  | .msaveCtx ea | .mrestCtx ea => s.imageLines c ea 256
  | _ => []
/-- The lines of a command at their banks. -/
structure Gather where
  st : State
  /-- The lines of the command alone, as banks that nothing else uses would serve them from clk 0 on, by 32 × core + bank. -/
  alone : Table (List (Nat × Nat)) := []
  /-- The clks by which other lines and retention delay the command. -/
  delay : Nat := 0
/-- One more line of a command arrives at its bank (R196, R197). -/
def Gather.line (g : Gather) (loc : Nat) : Gather :=
  let key := 32 * larderCore loc + bankOf (larderOff loc)
  let r := bankTake (Table.get [] g.alone key) 0 0 (larderOff loc / 64)
  { st := g.st.arrive loc, alone := Table.ins g.alone key r.1, delay := max g.delay (g.st.serviceClk loc - g.st.clk - r.2) }
/-- The gather unit's lines, and those of an image, arrive at their banks with all other accesses (R144, R196). -/
def State.gather (s : State) (l : List Nat) : Gather := l.foldl Gather.line { st := s }

/-- A 64-bit word stored by the unit, as the issuing group's store of a whole word (R161, R198); the cause of its fault where it
fails [log 34, DEDUCED]. A word across a link waits its turn at the slot, and its reply is awaited (R225, R363). -/
def State.unitStore (s : State) (m : MatCmd) (c : Nat) (ea v : Word) : Except (BitVec 8) State :=
  let h := s.homeAt c ea
  if s.across h then
    .ok (s.modSlot c m.slot fun sl =>
      { sl with laneq := sl.laneq ++ [⟨0, 0, h.pkg, h.target, s.mkAccess c m.slot m.pathQ (.store 15) ea h 8 v, false, true⟩] })
  else
    match s.lentFault h.loc h.pkg (s.partOf c) with
    | some cause => .error cause
    | none =>
      match s.storeAt h.loc 8 v with
      | none => .error cPoison
      | some s' =>
        let s' := (s'.spoil h.loc 8).touchHome h.loc 8 h.pkg (s.partOf c)
        .ok (if isLarder h.loc && s.poisonedIn h.loc 8 then s'.shelfPasses h.loc 8 else s')
/-- Words stored from an address of the issuer on; the address of one that fails, with its cause. -/
def State.unitStores (s : State) (m : MatCmd) (c : Nat) (ea : Word) : List Word → Except (BitVec 8 × Word) State
  | [] => .ok (s.pump c m.slot)
  | v :: rest =>
    match s.unitStore m c ea v with
    | .error cause => .error (cause, ea)
    | .ok s' => s'.unitStores m c (ea + 8) rest

/-- The place in a path's buffer of the first doubleword of a record that `mrest` has read across a link. -/
def restPlace : Nat := 5000
/-- A doubleword of the record of `mrest` or `mld`, or the cause of its fault. -/
def State.restWord (s : State) (c : Nat) (m : MatCmd) (ea : Word) (i : Nat) : Except (BitVec 8) Word :=
  let h := s.homeAt c (ea + word (8 * i))
  if s.across h then .ok (Table.get 0 ((s.slot c m.slot).path m.pathQ).buf (restPlace + i))
  else
    match s.readFault (s.partOf c) h.loc with
    | some cause => .error cause
    | none => .ok (s.read64 h.loc)
/-- A record of `n` doublewords as it is read: a doubleword that faults reads as 0 here. -/
def State.restWords (s : State) (c : Nat) (m : MatCmd) (ea : Word) (n : Nat) : List (Except (BitVec 8) Word) :=
  (List.range n).map (s.restWord c m ea)
/-- A doubleword of a record, or 0. -/
def wordAt (l : List (Except (BitVec 8) Word)) (i : Nat) : Word :=
  match l.getD i (.ok 0) with
  | .ok w => w
  | .error _ => 0
/-- A doubleword of a record can be read. -/
def readable (l : List (Except (BitVec 8) Word)) (i : Nat) : Bool :=
  match l.getD i (.ok 0) with
  | .ok _ => true
  | .error _ => false
/-- The fault of a record: the first doubleword of a lent region that may not be read (row 5), else the first poisoned one (row 6). -/
def recordFault (l : List (Except (BitVec 8) Word)) (ea : Word) : Option Abort :=
  let at_ := fun (poison : Bool) =>
    l.zipIdx.findSome? fun (x, i) =>
      match x with
      | .error cause => if (cause = cPoison) = poison then some (cause, ea + word (8 * i), (0 : Word)) else none
      | .ok _ => none
  at_ false <|> at_ true

/-- Doublewords of a tile, and back. -/
def tileWords (t : Tile) : List Word := (List.range 2048).map fun j => bits t (64 * j) 64
def tileOfWords (f : Nat → Word) : Tile := tileOf fun i n => field (f ((64 * i + n) / 2)) (32 * (n % 2)) 32
/-- The tile converted to BF16, four elements a word (R168). -/
def bf16Words (t : Tile) : List Word :=
  (List.range 1024).map fun j =>
    BitVec.ofNat 64 ((List.range 4).foldr (fun e acc =>
      acc * 65536 + (matFmt 0).encode .rne (f32.decode (field t (32 * (4 * j + e)) 32))) 0)
/-- The context record (R172). -/
def ctxWord (x : MatCtx) (i : Nat) : Word :=
  if i < 16 then BitVec.ofNat 64 ((List.range 4).foldr (fun e acc => acc * 65536 + x.ixAt (4 * i + e)) 0)
  else if i < 24 then Table.get 0 x.tt (i - 16)
  else if i < 26 then
    BitVec.ofNat 64 ((List.range 8).foldr (fun e acc => acc * 256 + (Table.get 0 x.lutM (8 * (i - 24) + e)).toNat) 0)
  else if i = 26 then x.loaded.zeroExtend 64
  else 0
/-- A LUT4 table from two words (R170). -/
def lutOf (w0 w1 : Word) : Table Byte :=
  (List.range 16).filterMap fun k =>
    let b : Byte := if k < 8 then bits w0 (8 * k) 8 else bits w1 (8 * (k - 8)) 8
    if b = 0 then none else some (k, b)
/-- IX from 64 half-words. -/
def ixOf (l : List Half) : Table Half := (l.zipIdx.filter fun e => e.1 ≠ 0xFFFF).map fun e => (e.2, e.1)
/-- The context that a record holds. -/
def ctxOf (w : Nat → Word) : MatCtx :=
  let lut := lutOf (w 24) (w 25)
  { ix := ixOf ((List.range 64).map fun i => bits (w (i / 4)) (16 * (i % 4)) 16)
    tt := (List.range 8).filterMap fun t => if w (16 + t) = 0 then none else some (t, w (16 + t))
    loaded := bits (w 26) 0 8, lutV := lut, lutM := lut }
/-- A batch record that `mrest` refuses (reason 11). -/
def recordBad (w : Nat → Word) : Bool :=
  field (w 0) 54 10 ≠ 0 || field (w 0) 3 5 ≠ 0 || [3, 4, 5, 6, 7].any (fun i => w i ≠ 0) ||
  !fmtPair (field (w 0) 8 4) (field (w 0) 12 4)

/-- The step of an `mstep` command. -/
def MatCmd.step (m : MatCmd) (c : Nat) : Step :=
  match m.op with
  | .mstep tile a b sa sb k stride => ⟨c, m.slot, tile, a, b, sa, sb, k, stride⟩
  | _ => ⟨c, m.slot, 0, 0, 0, 0, 0, 0, 0⟩

/-- The bytes of a record on the package are read at their homes (R240, R247). -/
def State.touchRecord (s : State) (c : Nat) (ea : Word) (n : Nat) : State :=
  (List.range (n / 64)).foldl (fun s i =>
    let h := s.homeAt c (ea + word (64 * i))
    if s.across h then s else s.touchHome h.loc 64 h.pkg (s.partOf c)) s
/-- The effect of a command, or why it aborts (R158). A record whose state is bad is refused before its poison (R160). -/
def State.runCmd (s : State) (c : Nat) (m : MatCmd) : Except Abort State :=
  let tile := fun (z : Nat) (f : TileRec → TileRec) => Except.ok (s.modCore c fun co => co.modTile z f)
  let store := fun (ea : Word) (l : List Word) =>
    match s.unitStores m c ea l with
    | .ok s' => Except.ok s'
    | .error a => .error (a.1, a.2, accInfo 0 true false none)
  match m.op with
  | .midx l => .ok (s.modCore c fun co => co.modCtx m.slot fun x => { x with ix := ixOf l })
  | .mopen z chk zero a b stride count =>
    -- the batch of a group that has been killed is closed (R157)
    tile z fun r =>
      { r with
        opened := (s.slot c m.slot).gen = m.gen, chk := chk, afmt := a, bfmt := b, owner := BitVec.ofNat 6 m.slot, ownerGen := m.gen
        rowStride := stride, rowCount := count, i32 := if zero then matInt a.toNat else r.i32
        data := if zero then 0 else r.data }
  | .mstep z _ _ _ _ _ _ =>
    let st := m.step c
    match s.stepAbort st m.gen with
    | some a => .error a
    | none =>
      let t := s.stepResult st
      tile z fun r => { r with data := t }
  | .mclose z => tile z fun r => { r with opened := false }
  | .mst z ea bf16 =>
    let t := ((s.core c).tile z).data
    store ea (if bf16 then bf16Words t else tileWords t)
  | .mld z ea i32 =>
    let l := s.restWords c m ea 2048
    match recordFault l ea with
    | some a => .error a
    | none =>
      let t := tileOfWords (wordAt l)
      tile z fun r => { r with data := t, i32 := i32 }
  | .mzero z => tile z fun r => { r with data := 0 }
  | .mtab t w =>
    .ok (s.modCore c fun co => co.modCtx m.slot fun x =>
      { x with tt := Table.put 0 x.tt t w, loaded := x.loaded ||| (1#8 <<< t) })
  | .mlut w0 w1 => .ok (s.modCore c fun co => co.modCtx m.slot fun x => { x with lutM := lutOf w0 w1 })
  | .msave z ea =>
    let r := (s.core c).tile z
    store ea ([tileRecord r, r.rowStride, r.rowCount, 0, 0, 0, 0, 0] ++ tileWords r.data)
  | .msaveCtx ea => store ea ((List.range 32).map fun i => ctxWord (s.core c).userCtx i)
  | .mrest z ea =>
    let l := s.restWords c m ea 2056
    let w := wordAt l
    if recordBad w then .error (cMatrixState, 0, matInfo 0 z 0 11)
    else
      match recordFault l ea with
      | some a => .error a
      | none =>
        let t := tileOfWords fun i => w (8 + i)
        .ok ((s.touchRecord c ea 16448).modCore c fun co => co.modTile z fun r => { recTile (w 0) (w 1) (w 2) r with data := t })
  | .mrestCtx ea =>
    let l := s.restWords c m ea 32
    let x := ctxOf (wordAt l)
    if (List.range 8).any fun t => x.loaded.getLsbD t && readable l (16 + t) && !tokenOk (wordAt l (16 + t)) then
      .error (cMatrixState, 0, matInfo 0 0 0 7)
    else
      match recordFault l ea with
      | some a => .error a
      | none => .ok ((s.touchRecord c ea 256).modCore c fun co => { co with userCtx := x })

/-- T and F of a command (R155). -/
def State.cmdTime (s : State) (c : Nat) (m : MatCmd) : Nat × Nat :=
  match m.op with
  | .mstep _ _ _ _ _ _ _ => s.stepTime (m.step c)
  | .mld _ _ _ | .mrest _ _ | .msave _ _ => (8, 0)
  | .mst _ _ bf16 => (if bf16 then 4 else 8, 0)
  | _ => (1, 0)
/-- The commands that take a credit (R156). -/
def MatOp.credited : MatOp → Bool
  | .mstep _ _ _ _ _ _ _ | .mld _ _ _ | .mst _ _ _ | .msave _ _ | .msaveCtx _ | .mrest _ _ | .mrestCtx _ => true
  | _ => false
/-- The tile that a command acts on. -/
def MatOp.tile : MatOp → Option Nat
  | .mopen z _ _ _ _ _ _ | .mstep z _ _ _ _ _ _ | .mclose z | .mst z _ _ | .mld z _ _ | .mzero z | .msave z _ | .mrest z _ => some z
  | _ => none

/-! Arbitration (R156). -/

/-- The weight of a core, by R6 and R156. -/
def State.weight (s : State) (c : Nat) : Nat :=
  let w := (s.core c).mweight.toNat
  if (s.partn (s.partOf c)).expertNow s.clk && w ≠ 0 then w else 1
/-- The head of a core's command queue, if it can start. -/
def State.cmdHead (s : State) (c : Nat) : Option MatCmd :=
  match (s.core c).mcmds.find? fun m => !m.started with
  | none => none
  | some m =>
    let busy := match m.op with
      | .msave z _ => (s.core c).mcmds.any fun x => x.started && x.op.tile = some z
      | _ => false
    if busy then none else some m
/-- The positions of a bay whose heads can start and have the highest class. -/
def State.arbTop (s : State) (b : Nat) : List Nat :=
  let e := (List.range 8).filterMap fun p => (s.cmdHead (bayCore b p)).map fun m => (p, m.cls)
  let top := e.foldl (fun n x => max n x.2) 0
  (e.filter fun x => x.2 = top).map Prod.fst
/-- The credits of a bay, refilled where no position that competes has any; at reset each is the weight of reset, 1. -/
def State.arbCredit (s : State) (b : Nat) (e : List Nat) (p : Nat) : Nat :=
  let have_ := fun (p : Nat) => Table.get 1 (s.bay b).credit p
  if e.all fun p => have_ p = 0 then s.weight (bayCore b p) else have_ p
/-- The position that the arbiter serves. -/
def State.arbPick (s : State) (b : Nat) : Option Nat :=
  let e := s.arbTop b
  ((List.range 8).map fun i => ((s.bay b).ptr + 1 + i) % 8).find? fun p => e.contains p && 0 < s.arbCredit b e p

/-- The lines that a command which starts accesses; a step that fails its checks accesses none. -/
def State.startLines (s : State) (c : Nat) (m : MatCmd) : List Nat :=
  s.cmdLines c m (match m.op with
    | .mstep _ _ _ _ _ _ _ => if (s.stepAbort (m.step c) m.gen).isSome then [] else s.segs (m.step c)
    | _ => [])
/-- A command starts: its effect, or the reason of its abort, and the clk at which it ends. Other accesses to its banks, and banks in
retention, delay it (R196, R197). -/
def State.startCmd (s : State) (c : Nat) (m : MatCmd) : State :=
  let time := s.cmdTime c m
  let r := s.gather (s.startLines c m)
  let s := r.st
  let free := s.clk + r.delay + time.1
  let ends := free + time.2
  let mark := fun (s : State) (a : Option Abort) =>
    s.modCore c fun co => { co with mcmds := co.mcmds.map fun x => if x.seq = m.seq then { x with started := true, abort := a } else x }
  let s := match s.runCmd c m with
    | .ok s' => (mark s' none).later ends .matrixCommandComplete { a := c, b := m.seq }
    | .error a => (mark s (some a)).later ends .matrixStepAbort { a := c, b := m.seq }
  let b := bayOf c
  (s.modBay b fun x => { x with busy := free }).later free .matrixArbitration { a := b }

/-- MATRIX_ARBITRATION (R156). -/
def execMatrixArbitration (s : State) : Host.Outcome State Fault Refusal :=
  let b := s.input.a
  if s.clk < (s.bay b).busy then .next (s.later (s.bay b).busy .matrixArbitration { a := b })
  else if s.gatedNow b then .next (s.later (s.clk + 1) .matrixArbitration { a := b })
  else
    match s.arbPick b with
    | none => .next s
    | some p =>
      let c := bayCore b p
      match s.cmdHead c with
      | none => .next s
      | some m =>
        let e := s.arbTop b
        let credit := (List.range 8).map fun q =>
          (q, s.arbCredit b e q - (if q = p && m.op.credited then 1 else 0))
        let all := e.all fun q => Table.get 1 (s.bay b).credit q = 0
        let left := s.arbCredit b e p - (if m.op.credited then 1 else 0)
        .next ((s.startCmd c m).modBay b fun x =>
          { x with ptr := p, credit := if all then credit else Table.ins x.credit p left })

/-- A command leaves its queue, and the arbiter looks again. -/
def State.retireCmd (s : State) (c seq : Nat) : State :=
  (s.modCore c fun co => { co with mcmds := co.mcmds.filter fun m => m.seq ≠ seq }).soon .matrixArbitration { a := bayOf c }
/-- The path that issued a command still waits for it. -/
def State.cmdAwaited (s : State) (c : Nat) (m : MatCmd) : Bool :=
  let sl := s.slot c m.slot
  sl.gen = m.gen && (sl.path (sl.eff m.pathQ)).wait = .matrix m.seq

/-- Words that an awaited `msave` has sent across a link are not acknowledged. -/
def State.savesOut (s : State) (c : Nat) (m : MatCmd) : Bool :=
  match m.op with
  | .msave _ _ | .msaveCtx _ =>
    s.cmdAwaited c m && ((s.outstanding c m.slot).any (fun e => s.awaits c m.slot m.pathQ e.2) ||
      (s.slot c m.slot).laneq.any fun x => x.inside && x.acc.pathQ = m.pathQ)
  | _ => false
/-- MATRIX_COMMAND_COMPLETE (R155, R148). -/
def execMatrixCommandComplete (s : State) : Host.Outcome State Fault Refusal :=
  let c := s.input.a
  match (s.core c).mcmds.find? fun m => m.seq = s.input.b with
  | none => .next s
  | some m =>
    if s.savesOut c m then .next (s.later (s.clk + 1) .matrixCommandComplete s.input)
    else
      let s := match m.op with
        | .mstep _ _ _ _ _ _ _ => s.count c evMstep
        | _ => s
      let sl := s.slot c m.slot
      let s := if s.cmdAwaited c m then s.advance c m.slot m.pathQ (sl.path (sl.eff m.pathQ)).succ else s
      .next (s.retireCmd c m.seq)

/-- MATRIX_STEP_ABORT (R158): the trap is raised at the instruction that waits. -/
def execMatrixStepAbort (s : State) : Host.Outcome State Fault Refusal :=
  let c := s.input.a
  match (s.core c).mcmds.find? fun m => m.seq = s.input.b with
  | none => .next s
  | some m =>
    let s := match m.abort with
      | some a => if s.cmdAwaited c m then s.trapAt c m.slot m.pathQ { code := a.1, faddr := a.2.1, finfo := a.2.2 } else s
      | none => s
    .next (s.retireCmd c m.seq)

/-! The instructions. -/

/-- A matrix instruction that takes an entry of the queue (R148), and releases the group's earlier accesses (R161). -/
def matrixInstr (i : Instr) (s : State) (body : State → Act State) : Host.Outcome State Fault Refusal :=
  run i s fun s =>
    if 2 ≤ s.curCore.mcmds.length then .error (.hold .matrixRoom)
    else
      match s.releaseHold true with
      | .error e => .error e
      | .ok () => body s

/-- The class of the executing slot's commands: 4 for the S-slot. -/
def State.cmdClass (s : State) : Nat := if s.isS then 4 else s.curSlot.pri.toNat
/-- A command enters the queue; its path waits or goes on. -/
def State.enterCmd (s : State) (op : MatOp) (waits : Bool) : State :=
  let m : MatCmd :=
    { seq := s.nextId, op := op, cls := s.cmdClass, slot := s.cur.slot, gen := s.curSlot.gen, pathQ := s.cur.pathQ
      started := false, abort := none }
  let s := (s.fresh.2.modCurCore fun co => { co with mcmds := co.mcmds ++ [m] }).soon .matrixArbitration { a := bayOf s.cur.core }
  if waits then s.waitFor (.matrix m.seq) else s.retire

/-- EA of a matrix instruction (R163). -/
def State.matEA (s : State) (o : F3) : Word := s.sreg o.a + o.imm.signExtend 64
/-- The end of an instruction by a check of its bytes: the matrix causes take FINFO of Table 6-4 [log 30, DEDUCED]. -/
def matStop (e : Stop) : Stop :=
  match e with
  | .trap t => if t.code = cAddrRange || t.code = cMisaligned || t.code = cPoison then .trap { t with finfo := 0 } else e
  | _ => e
/-- The checks of the bytes of an image: `n` uses of `size` bytes. -/
def State.imageCheck (s : State) (ea : Word) (n size : Nat) (wr : Bool) : Act State :=
  let us := (List.range n).map fun i =>
    ({ addr := ea + word (size * i), size := size, align := size, rd := !wr, wr := wr, base := some ea } : Use1)
  match s.checkUses us with
  | .error (.trapAfter t s') =>
    match matStop (.trap t) with
    | .trap t => .error (.trapAfter t s')
    | e => .error e
  | .error e => .error (matStop e)
  | .ok s' => .ok s'
/-- The home of a stretch that the executing path reads. -/
def State.pieceHome (s : State) (p : Word × Nat) : Home :=
  s.home s.who { addr := p.1, size := p.2, align := 1, rd := true, wr := false }
/-- The requests for stretches across a link, each with its place in the path's buffer. -/
def State.askPieces (s : State) : List ((Word × Nat) × Nat) → Option State
  | [] => some s
  | e :: rest =>
    let h := s.pieceHome e.1
    (s.newReq h.pkg h.target (s.mkAccess s.cur.core s.cur.slot s.cur.pathQ .load e.1.1 h e.1.2 0) .path e.2 true true).bind
      fun s' => s'.askPieces rest
/-- What a stretch on the package faults with: what a lent region answers, or poison, at the first byte of it (Table 8-2). -/
def State.pieceFault (s : State) (p : Word × Nat) : Option Trap :=
  let h := s.pieceHome p
  match s.lentFault h.loc h.pkg s.curPart with
  | some c => some { code := c, faddr := p.1 }
  | none =>
    ((List.range p.2).find? fun i => s.poisoned (h.loc + i)).map fun i => { code := cPoison, faddr := p.1 + word i }
/-- Stretches across a link are asked for, once no earlier access of the group to their lines is outstanding (R225). -/
def State.askAll (s : State) (l : List ((Word × Nat) × Nat)) : Stop :=
  let busy := fun (e : (Word × Nat) × Nat) =>
    let h := s.pieceHome e.1
    s.lineOut s.cur.core s.cur.slot h.pkg (h.loc / 64)
  match l.find? busy with
  | some e => .hold (.line (s.pieceHome e.1).pkg ((s.pieceHome e.1).loc / 64))
  | none =>
    match s.askPieces l with
    | some s' => .holdAfter .reply s'
    | none => .hold .tag
/-- The reads of stretches of a larder whose banks serve them later (R196, R226): accesses of the path. -/
def State.awaitPieces (s : State) (l : List ((Word × Nat) × Nat)) : State :=
  l.foldl (fun s e =>
    let h := s.pieceHome e.1
    let r := s.arriveAll h.loc e.1.2
    r.1.awaitBank r.2 (s.mkAccess s.cur.core s.cur.slot s.cur.pathQ .load e.1.1 h e.1.2 0) .path e.2 true true) s
/-- The bytes of stretches as doublewords, read at issue, which stand in the path's buffer from place `k` on: those across a link are
awaited, then those of the package whose banks do not serve them now (R196, R197). An instruction that waits here takes its place in the
matrix command queue after its read [log 73, DESIGN CHOICE]. -/
def State.readPieces (s : State) (k : Nat) (l : List (Word × Nat)) : Act (State × List Nat) :=
  let has := fun (i : Nat) => s.curPath.buf.any fun x => x.1 = k + i
  let todo := (l.zipIdx.filter fun e => !has e.2).map fun e => (e.1, k + e.2)
  let away := todo.filter fun e => s.across (s.pieceHome e.1)
  if away ≠ [] then .error (s.askAll away)
  else
    let r := todo.foldl (fun (r : State × Nat) e =>
      let x := r.1.arriveAll (s.pieceHome e.1).loc e.1.2
      (x.1, max r.2 x.2)) (s, s.clk)
    if s.clk < r.2 then .error (.holdAfter .reply (s.awaitPieces todo))
    else
      let here := todo.map Prod.fst
      let s := here.foldl (fun s p => s.touchHome (s.pieceHome p).loc p.2 s.pkgId.toNat s.curPart) r.1
      match here.findSome? s.pieceFault with
      | some t => .error (.trapAfter t s)
      | none =>
        .ok (s, l.zipIdx.map fun e =>
          if has e.2 then (Table.get 0 s.curPath.buf (k + e.2)).toNat else s.readN (s.pieceHome e.1).loc e.1.2)

/-- The 64 values of `midx` (R164), with the state after their reads. -/
def State.midxValues (s : State) (o : F3) : Act (State × List Half) :=
  let l := List.range 64
  if o.x = 0 then
    let ea := s.matEA o
    match s.imageCheck ea 64 2 false with
    | .error e => .error e
    | .ok s =>
      let ps := dwPieces ea 128
      match s.readPieces 128 ps with
      | .error e => .error e
      | .ok (s, vs) =>
        let all := (ps.zip vs).foldr (fun p acc => acc * 256 ^ p.1.2 + p.2) 0
        .ok (s, l.map fun i => BitVec.ofNat 16 (all / 65536 ^ i))
  else
    .ok (s,
      if o.x = 1 then l.map fun i => bits o.imm 0 16 + BitVec.ofNat 16 i
      else if o.x = 2 then l.map fun _ => 0xFFFF
      else l.map fun i => if i < (s.sreg o.a).toNat then BitVec.ofNat 16 i else 0xFFFF)

/-- MIDX (R164). -/
def execMidx (o : F3) (s : State) : Host.Outcome State Fault Refusal :=
  matrixInstr (.midx o) s fun s =>
    match s.ctxCheck 0 with
    | .error e => .error e
    | .ok () =>
      match s.midxValues o with
      | .error e => .error e
      | .ok (s, l) => .ok (s.enterCmd (.midx l) false)

/-- A matrix instruction on a tile: the checks of Table 6-5, rows 1 and 2, then `f` on the tile's number and its state to come. What
a load into the tile that is still queued will leave is known once it has ended (R165). -/
def tileInstr (i : Instr) (o : F3) (s : State) (f : State → Nat → TileRec → Act State) : Host.Outcome State Fault Refusal :=
  matrixInstr i s fun s =>
    match s.tileCheck (tileNo o) false with
    | .error e => .error e
    | .ok () =>
      if s.curCore.mcmds.any fun m => MatOp.loads m.op (tileNo o) then .error (.hold (.tile (tileNo o)))
      else f s (tileNo o) (s.foreseen s.cur.core (tileNo o))

/-- MOPEN (R165). -/
def execMopen (o : F3) (s : State) : Host.Outcome State Fault Refusal :=
  tileInstr (.mopen o) o s fun s z r =>
    let zero := o.imm.getLsbD 9
    let a := bits o.imm 0 4
    if r.opened then .error (matState z 3)
    else if !zero && r.i32 ≠ matInt a.toNat then .error (matState z 9)
    else .ok (s.enterCmd (.mopen z (o.imm.getLsbD 8) zero a (bits o.imm 4 4) s.curSlot.mrowstride s.curSlot.mrowcount) false)
/-- MSTEP (R166): the checks from reason 4 on are the unit's. -/
def execMstep (o : F3) (s : State) : Host.Outcome State Fault Refusal :=
  tileInstr (.mstep o) o s fun s z _ =>
    .ok (s.enterCmd (.mstep z (s.sreg o.a) (s.sreg (o.a + 1)) (s.sreg (o.a + 2)) (s.sreg (o.a + 3)) (field o.imm 0 10)
      (field o.imm 11 21)) true)
/-- MCLOSE (R167). -/
def execMclose (o : F3) (s : State) : Host.Outcome State Fault Refusal :=
  tileInstr (.mclose o) o s fun s z r => if s.owns r then .ok (s.enterCmd (.mclose z) false) else .error (matState z 4)
/-- MZERO (R169). -/
def execMzero (o : F3) (s : State) : Host.Outcome State Fault Refusal :=
  tileInstr (.mzero o) o s fun s z r => if r.opened then .error (matState z 5) else .ok (s.enterCmd (.mzero z) false)

/-- The address rules of `mst` and `mld` (R168): the issuing core's own larder, a multiple of 64, the windows. -/
def State.ownImage (s : State) (ea : Word) (n : Nat) (wr : Bool) : Act State :=
  let own := isLarderAddr ea && field ea 21 20 = 0 && aPkg ea = s.pkgId.toNat && aY ea < 10 && aCore ea = s.cur.core
  if !own then .error (.trap { code := cAddrRange, faddr := ea })
  else s.imageCheck ea (n / 64) 64 wr
/-- MST (R168). -/
def execMst (o : F3) (s : State) : Host.Outcome State Fault Refusal :=
  tileInstr (.mst o) o s fun s z r =>
    let bf16 := o.x.getLsbD 0
    if r.opened then .error (matState z 5)
    else if bf16 && r.i32 then .error (matState z 9)
    else
      match s.ownImage (s.matEA o) (if bf16 then 8192 else 16384) true with
      | .error e => .error e
      | .ok s => .ok (s.enterCmd (.mst z (s.matEA o) bf16) false)
/-- MLD (R168). -/
def execMld (o : F3) (s : State) : Host.Outcome State Fault Refusal :=
  tileInstr (.mld o) o s fun s z r =>
    if r.opened then .error (matState z 5)
    else
      match s.ownImage (s.matEA o) 16384 false with
      | .error e => .error e
      | .ok s => .ok (s.enterCmd (.mld z (s.matEA o) (o.x.getLsbD 0)) true)

/-- MTAB (R170). -/
def execMtab (o : F3) (s : State) : Host.Outcome State Fault Refusal :=
  matrixInstr (.mtab o) s fun s =>
    match s.ctxCheck 0 with
    | .error e => .error e
    | .ok () =>
      let w := s.sreg o.a
      if o.x = 8 then
        let w1 := s.sreg (o.a + 1)
        .ok ((s.modCurCore fun co => co.modCtx s.cur.slot fun x => { x with lutV := lutOf w w1 }).enterCmd (.mlut w w1) false)
      else if tokenOk w then .ok (s.enterCmd (.mtab o.x.toNat w) false)
      else .error (matState 0 7)

/-- MWAIT (R171). -/
def execMwait (o : F3) (s : State) : Host.Outcome State Fault Refusal :=
  run (.mwait o) s fun s =>
    match s.ctxCheck 0 with
    | .error e => .error e
    | .ok () => if s.waitOver s.cur.core s.cur.slot .matrices then .ok s.retire else .error (.hold .matrices)

/-- MSAVE (R172). -/
def execMsave (o : F3) (s : State) : Host.Outcome State Fault Refusal :=
  matrixInstr (.msave o) s fun s =>
    let ea := s.matEA o
    let ctx := o.x.getLsbD 0
    match s.imageCheck ea (if ctx then 4 else 257) 64 true with
    | .error e => .error e
    | .ok s => .ok (s.enterCmd (if ctx then .msaveCtx ea else .msave (tileNo o) ea) true)
/-- MREST (R172): what lies across a link of the record is read at issue, what lies on the package by the unit. The address rules are
checked at issue, before the record can be read for reasons 7 and 11 of row 2 [log 73, DESIGN CHOICE]. -/
def execMrest (o : F3) (s : State) : Host.Outcome State Fault Refusal :=
  matrixInstr (.mrest o) s fun s =>
    let ea := s.matEA o
    let ctx := o.x.getLsbD 0
    let n := if ctx then 32 else 2056
    match s.imageCheck ea (n / 8) 64 false with
    | .error e => .error e
    | .ok s =>
      let asked := ((dwPieces ea (8 * n)).zipIdx.filter fun e =>
        s.across (s.pieceHome e.1) && !(s.curPath.buf.any fun x => x.1 = restPlace + e.2)).map fun e => (e.1, restPlace + e.2)
      if asked = [] then .ok (s.enterCmd (if ctx then .mrestCtx ea else .mrest (tileNo o) ea) true)
      else .error (s.askAll asked)

end Sys2Proof.Machine
end

