-- ==== Sys2Proof/Machine/Copy.lean ====
section
/-! DEFINITION. The copy engine (R276 to R288): the instructions, the transfer of a line, faults, completion, multicast. -/

namespace Sys2Proof.Machine

/-! Requests. -/

/-- The request that a channel runs. -/
def Core.copyHead (co : Core) (ch : Nat) : Option CopyReq := co.copyq.find? fun r => r.chan = ch
/-- The queue with the first request of a channel changed. -/
def modFirst (ch : Nat) (f : CopyReq → CopyReq) : List CopyReq → List CopyReq
  | [] => []
  | r :: t => if r.chan = ch then f r :: t else r :: modFirst ch f t
/-- The queue without the first request of a channel. -/
def dropFirst (ch : Nat) : List CopyReq → List CopyReq
  | [] => []
  | r :: t => if r.chan = ch then t else r :: dropFirst ch t
def State.modCopy (s : State) (c ch : Nat) (f : CopyReq → CopyReq) : State :=
  s.modCore c fun co => { co with copyq := modFirst ch f co.copyq }
/-- The next line of a channel, at a clk. -/
def State.copyLater (s : State) (c ch due : Nat) : State := s.later due .copyLineTransfer { a := c, b := ch }
/-- The write pointer of a channel advances, and the request's progress with it (R356). -/
def State.copyAdvance (s : State) (c ch n : Nat) : State :=
  (s.modCopy c ch fun r => { r with done := r.done + n, buf := [] }).modCore c fun co =>
    { co with wp := Table.ins co.wp ch (Table.get 0 co.wp ch + word n) }

/-- The issuer of a request as it makes accesses (R281) [log 37, DEDUCED]. -/
def State.copyWho (s : State) (c : Nat) (r : CopyReq) : Who :=
  ⟨c, if (s.slot c r.slot).gen = r.gen then s.winsOf c r.slot else r.wins⟩
/-- A grid group that still holds its slot issued the request. -/
def State.copyGroup (s : State) (c : Nat) (r : CopyReq) : Bool :=
  (s.slot c r.slot).gen = r.gen && (s.slot c r.slot).member.isSome

/-! Faults and completion. -/

/-- An access of a transfer meets a fault (R281): the channel stops. A grid group will take it as a trap; any other request is
abandoned. -/
def State.copyFault (s : State) (c ch : Nat) (code : BitVec 8) (addr : Word) (wr : Bool) : State :=
  match (s.core c).copyHead ch with
  | none => s
  | some r =>
    let s := (s.modCopy c ch fun r => { r with fault := some (code, addr, accInfo (16 + ch) wr false none), buf := [] }).modCore c
      fun co => { co with copyFaulted := co.copyFaulted.add ch }
    if s.copyGroup c r then s.modSlot c r.slot fun sl => { sl with copyFaults := NatSet.add sl.copyFaults ch }
    else s.soon .copyCompletion { a := c, b := ch, flag := true }

/-- COPY_FAULT_TRAP (R281): the fault of the lowest channel. -/
def execCopyFaultTrap (s : State) : Host.Outcome State Fault Refusal :=
  let c := s.input.a
  let k := s.input.b
  match (s.slot c k).copyFaults with
  | [] => .next s
  | ch :: rest =>
    let s := s.modSlot c k fun sl => { sl with copyFaults := rest }
    match ((s.core c).copyq.find? fun r => r.chan = ch && r.slot = k && r.fault ≠ none).bind fun r => r.fault with
    | some (code, addr, info) => .next (s.trapAt c k false { code := code, faddr := addr, finfo := info })
    | none => .next s

/-- The completion action of a request (Table 12-3). -/
def State.copyAction (s : State) (c : Nat) (r : CopyReq) : State :=
  let target := r.pbWord 1
  match r.mode with
  | 0 =>
    if (s.slot c r.slot).gen = r.gen then s.modSlot c r.slot fun sl => { sl with uiq := sl.uiq ++ [(target, r.id)] } else s
  | 1 =>
    s.postMsg c { ty := bits (r.pbWord 0) 8 8, len := 2, src := s.copyTag c r, dst := destWord target,
                  payload := [r.id, r.pbWord 2], fk := 0 }
  | 2 =>
    s.fkIssue { named := target, handle := target, kind := .resolve r.id, pkg := s.pkgId.toNat, core := c, slot := r.slot,
                gen := r.gen, pathQ := false, d := 0, c := 0, forwarded := false, refusals := 0, id := 0, tag := 0, epoch := 0, part := s.partOf c }
  | 3 =>
    match r.team.bind fun t => (s.team? t).map fun tm => (t, tm.bar (field (r.pbWord 0) 16 4)) with
    | some (t, b) =>
      if !b.valid || genBefore r.barGen b.lastinv then s.count c evBarDiscard
      else (s.arriveAt t (field (r.pbWord 0) 16 4) none).1
    | none => s.count c evBarDiscard
  | _ => s

/-- The engine moves two lines in a clk (R276); its channels take turns from the one after the last. -/
def Core.copyBusy (co : Core) (clk : Nat) : Bool := co.copyUsed.1 = clk && 2 ≤ co.copyUsed.2
def Core.copyMoved (co : Core) (clk ch : Nat) : Core :=
  { co with copyTurn := ch, copyUsed := (clk, if co.copyUsed.1 = clk then co.copyUsed.2 + 1 else 1) }
/-- Another channel of the core has a line due and comes before this one in the order 0, 1, 2, 3 (R276). -/
def State.copyOther (s : State) (c ch : Nat) : Bool :=
  let turn := (s.core c).copyTurn
  let place := fun (x : Nat) => (x + 3 - turn % 4) % 4
  s.agenda.any fun e => e.2.1 = .copyLineTransfer && e.2.2.a = c && e.1 ≤ s.clk && place e.2.2.b < place ch

/-- The first request of a channel leaves the FIFO, and the next one starts. -/
def State.copyNext (s : State) (c ch : Nat) : State :=
  (s.modCore c fun co => { co with copyq := dropFirst ch co.copyq, copyFaulted := co.copyFaulted.rem ch }).copyLater c ch s.clk

/-- COPY_COMPLETION (R280, R281): the completion action, then DONE; with the flag, the abandonment of a faulted request. -/
def execCopyCompletion (s : State) : Host.Outcome State Fault Refusal :=
  let c := s.input.a
  let ch := s.input.b
  match (s.core c).copyHead ch with
  | none => .next s
  | some r =>
    if s.input.flag then
      match r.fault with
      | some (code, _, _) => .next ((s.abandonCopy c r code).copyNext c ch)
      | none => .next s
    else if r.done = r.len && r.awaited = 0 then .next (((s.copyAction c r).copyDone c r).copyNext c ch)
    else .next s

/-! The transfer of a line. -/

/-- What the checks of a stretch find. -/
inductive CopyCheck where
  | ok
  | fault (code : BitVec 8)
  | stall (s : State)
/-- The checks of a stretch within one doubleword or line, as of a `vld` or `vst` (R281). -/
def State.copyCheck (s : State) (who : Who) (part : Nat) (a : Word) (n : Nat) (wr : Bool) : CopyCheck :=
  let u : Use1 := { addr := a, size := n, align := 1, rd := !wr, wr := wr }
  match s.check who [u] with
  | .error (.trap t) => .fault t.code
  | .error (.holdAfter _ s') => .stall s'
  | .error _ => .stall s
  | .ok () =>
    let h := s.home who u
    if !s.across h then
      match s.lentFault h.loc h.pkg part with
      | some code => .fault code
      | none => .ok
    else .ok

/-- The leading stretches that can be read, and what stops at the first that cannot [log 36, DEDUCED]. -/
def State.copyReadable (s : State) (who : Who) (part : Nat) : List (Word × Nat) → List (Word × Nat) × CopyCheck
  | [] => ([], .ok)
  | p :: rest =>
    match s.copyCheck who part p.1 p.2 false with
    | .ok => let r := s.copyReadable who part rest; (p :: r.1, r.2)
    | x => ([], x)

/-- The home of a stretch that has passed the checks. -/
def State.copyHome (s : State) (who : Who) (a : Word) (n : Nat) (wr : Bool) : Home :=
  s.home who { addr := a, size := n, align := 1, rd := !wr, wr := wr }

/-- The places in a request's buffer: data, F/E bits, poison and causes of stretches read; the cause with which a line's write has failed,
the bytes written before, the address of the next one; the bytes being written. -/
def cbFull : Nat := 64
def cbPoison : Nat := 128
def cbCause : Nat := 192
def cbWrite : Nat := 256
def cbWCause : Nat := 320
def cbSent : Nat := 512
def cbArrived : Nat := 513
def CopyReq.got (r : CopyReq) (k : Nat) : Bool := r.buf.any fun e => e.1 = k

/-- What a stretch read holds: its bytes with their poison, and its word's F/E bit; a tier-2 source reads as full. -/
structure CopyData where
  bytes : List (Byte × Bool)
  full : Bool
  deriving DecidableEq, Repr
/-- The data of stretch `i`. -/
def State.copyData (s : State) (who : Who) (r : CopyReq) (i : Nat) (p : Word × Nat) : CopyData :=
  let h := s.copyHome who p.1 p.2 false
  let here := !s.across h
  let v := if here then s.readN h.loc p.2 else (Table.get 0 r.buf i).toNat
  let bad := if here then s.poisonedIn h.loc p.2 else Table.get 0 r.buf (cbPoison + i) ≠ 0
  { bytes := (List.range p.2).map fun j => (BitVec.ofNat 8 (v / 256 ^ j), bad)
    full := if here then isHost h.loc || s.full h.loc else Table.get 1 r.buf (cbFull + i) ≠ 0 }

/-- A request of the copy engine sent off the package. -/
def State.copySend (s : State) (c : Nat) (r : CopyReq) (h : Home) (a : Word) (n : Nat) (op : AccOp) (v : Word) (lane : Nat) :
    Option State :=
  let acc := { s.mkAccess c r.slot false op a h n v with gen := r.gen }
  (s.newReq h.pkg h.target acc (.copy r.chan) lane false false).map fun s =>
    s.modCopy c r.chan fun r => { r with awaited := r.awaited + 1 }

/-- The stretches of another package that have still to be read are asked for; none where a tag is missing. -/
def State.copyAsk (s : State) (c : Nat) (who : Who) (r : CopyReq) (ps : List ((Word × Nat) × Nat)) : Option State :=
  ps.foldl (fun (x : Option State) e => x.bind fun s' =>
    let h := s.copyHome who e.1.1 e.1.2 false
    (s'.copySend c r h e.1.1 e.1.2 .load 0 e.2).bind fun s' =>
      if r.fe && h.tier ≠ 2 then s'.copySend c r h e.1.1 e.1.2 .full 0 (cbFull + e.2) else some s') (some s)

/-- The bytes of a line written at their destination on the package, or sent to it across a link, as one request (R241). `bytes` may be
fewer than the line's. A poisoned datum bound for tier 2 faults as a read. -/
def State.copyWrite (s : State) (c ch : Nat) (r : CopyReq) (h : Home) (bytes : List (Byte × Bool)) (fulls : Option (List Bool)) :
    State × Bool :=
  let dst := r.w1 + word r.done
  let src := r.w0 + word r.done
  match (if h.tier = 2 then (bytes.zipIdx.find? fun b => b.1.2) else none) with
  | some (_, 0) => (s.copyFault c ch cPoison src false, false)
  | bad =>
    let n := match bad with
      | some (_, i) => i
      | none => bytes.length
    let op : AccOp := .line (bytes.take n) fulls
    if !s.across h then
      match s.perform { s.mkAccess c r.slot false op dst h n 0 with gen := r.gen } with
      | (s', .short k) => ((s'.copyAdvance c ch k).copyFault c ch cPoison (dst + word k) true, false)
      | (s', _) => (s'.copyAdvance c ch n, true)
    else
      match s.copySend c r h dst n op 0 cbWrite with
      | some s' => (s'.modCopy c ch fun r => { r with buf := Table.ins r.buf cbSent (word n) }, false)
      | none => (s.copyLater c ch (s.clk + 32), false)

/-! Multicast (R283, R346). -/

/-- The members of a tag on a die, with their bases: those whose join has reached the root. -/
def State.mcMembers (s : State) (die tag : Nat) : List Nat :=
  s.cores.flatMap fun e =>
    if coreDie e.1 = die then (e.2.mcast.filter fun m => m.tag = tag && m.joined).map fun m => e.1 * 2 ^ 21 + m.base else []
/-- The base of a member: its entry's, else the one that it had when the request started. -/
def State.mcBase (s : State) (c tag old : Nat) : Nat :=
  (((s.core c).mcast.find? fun m => m.tag = tag).map McEntry.base).getD old
/-- Bits as a word. -/
def wordOfBits (l : List Bool) : Word := word ((l.zipIdx.map fun e => flag e.1 e.2).sum)

/-- The stretches of a multicast line in a member's larder, up to the end of it: the bytes, the poison of each, the F/E bits of the
source's words. -/
def mcOuts (base off : Nat) (bytes : List Byte) (bad : Word) (fulls : BitVec 8) (fe : Bool) : List CopyOut :=
  let start := base + off
  let l := bytes.take (2 ^ 21 - start)
  ((dwPieces (word start) l.length).foldl (fun (acc : List CopyOut × Nat) p =>
    (acc.1 ++ [{ off := acc.2, addr := p.1, n := p.2, v := word (bytesNat ((l.drop acc.2).take p.2))
                 full := if fe then some (fulls.getLsbD (acc.2 / 8)) else none
                 poison := (List.range p.2).any fun j => bad.getLsbD (acc.2 + j) }], acc.2 + p.2)) ([], 0)).1
/-- A request with the failure of a line's write: the first byte that has not been written, its address. -/
def CopyReq.failAt (r : CopyReq) (cause : BitVec 8) (off : Nat) (a : Word) : CopyReq :=
  if r.got cbWCause && (Table.get 0 r.buf (cbWCause + 1)).toNat ≤ off then r
  else { r with buf := Table.ins (Table.ins (Table.ins r.buf cbWCause (cause.zeroExtend 64)) (cbWCause + 1) (word off)) (cbWCause + 2) a }
/-- A member has performed its bytes of a line, or those before one that it could not take: the root goes on with the last member's
answer. -/
def State.mcAnswer (s : State) (c ch : Nat) (bad : Option (Nat × Word)) : State :=
  let s := s.modCopy c ch fun r =>
    let r := { r with awaited := r.awaited - 1 }
    match bad with
    | some (off, a) => r.failAt cPoison off a
    | none => r
  match (s.core c).copyHead ch with
  | some r => if r.awaited = 0 && r.got cbSent then s.copyLater c ch s.clk else s
  | none => s
/-- MULTICAST_LINE_DELIVERY (R346): the line is written once the member's banks serve it (R196, R197). -/
def execMulticastLineDelivery (s : State) : Host.Outcome State Fault Refusal :=
  let c := s.input.a % 2 ^ 11
  let root := s.input.a / 2 ^ 11
  match s.input.body with
  | .bytes l =>
    let base := s.mcBase c s.input.b s.input.d
    let loc := larderLoc c (base + s.input.c)
    let n := min l.length (2 ^ 21 - (base + s.input.c))
    let r := if s.input.e / 8 % 2 = 1 then (s, s.clk) else s.arriveAll loc n
    if s.clk < r.2 then .next (r.1.later r.2 .multicastLineDelivery { s.input with e := s.input.e + 8 })
    else
      let w := r.1.copyOutHere loc false (mcOuts base s.input.c l s.input.word s.input.cause s.input.flag)
      let addr := fun (k : Nat) => larderAddr s.pkgId.toNat (coreDie c) (coreX c) (coreY c) (base + s.input.c + k)
      .next (((w.1.spoil loc n).shelfPasses loc n).mcAnswer root (s.input.e % 8) (w.2.map fun k => (k, addr k)))
  | _ => .next s

/-- The first byte of a line at which a member's poisoned word is written in part, with its address. -/
def State.mcFault (s : State) (r : CopyReq) (off : Nat) (bytes : List Byte) : Option (Nat × Word) :=
  r.members.foldl (fun best m =>
    let c := m / 2 ^ 21
    let base := s.mcBase c r.mctag (m % 2 ^ 21)
    match (mcOuts base off bytes 0 0 false).find? fun x => x.n ≠ 8 && s.poisoned (larderLoc c (base + off + x.off)) with
    | none => best
    | some x =>
      let this := (x.off, larderAddr s.pkgId.toNat (coreDie c) (coreX c) (coreY c) (base + off + x.off))
      match best with
      | some b => if x.off < b.1 then some this else best
      | none => some this) none
/-- A line of a multicast request is forwarded to every member, up to the first byte that one of them cannot take; the write pointer
advances once all have performed it (R279). -/
def State.mcWrite (s : State) (c ch : Nat) (r : CopyReq) (bytes : List (Byte × Bool)) (fulls : List Bool) : State × Bool :=
  let off := r.w1.toNat + r.done
  let l := bytes.map Prod.fst
  match s.mcFault r off l with
  | some (0, a) => (s.copyFault c ch cPoison a true, false)
  | stop =>
    let n := match stop with
      | some (k, _) => k
      | none => l.length
    let s := r.members.foldl (fun s m =>
      s.soon .multicastLineDelivery
        { a := c * 2 ^ 11 + m / 2 ^ 21, b := r.mctag, c := off, d := m % 2 ^ 21, e := ch, body := .bytes (l.take n)
          word := wordOfBits (bytes.map Prod.snd), cause := (wordOfBits fulls).setWidth 8, flag := r.fe }) s
    (s.modCopy c ch fun r => { r with awaited := r.members.length, buf := Table.ins r.buf cbSent (word n) }, false)

/-- A request starts at its first line; the members of a multicast request are fixed then. -/
def State.copyStart (s : State) (c ch : Nat) (r : CopyReq) : State :=
  if r.started then s
  else
    s.modCopy c ch fun r =>
      { r with started := true, members := if r.mctag = 0 then [] else s.mcMembers (coreDie c) r.mctag }

/-- The reads of a line have been answered: its bytes go to their destination, up to the first that cannot be read. -/
def State.copyLine (s : State) (c ch : Nat) (r : CopyReq) (who : Who) (ps : List (Word × Nat)) (stop : Option (BitVec 8 × Word)) :
    State :=
  let ds := ps.zipIdx.map fun e => s.copyData who r e.2 e.1
  let bytes := ds.flatMap CopyData.bytes
  let fulls := ds.map CopyData.full
  let dst := r.w1 + word r.done
  let w : State × Bool :=
    if bytes = [] then (s, true)
    else if r.mctag ≠ 0 then s.mcWrite c ch r bytes fulls
    else
      match s.copyCheck who (s.partOf c) dst bytes.length true with
      | .fault code => (s.copyFault c ch code dst true, false)
      | .stall s' => (s'.copyLater c ch (s.clk + 1), false)
      | .ok => s.copyWrite c ch r (s.copyHome who dst bytes.length true) bytes (if r.fe then some fulls else none)
  match w with
  | (s', false) => s'
  | (s', true) =>
    match stop with
    | some (code, a) => s'.copyFault c ch code a false
    | none => s'.copyLater c ch s.clk

/-- The writes that another package or the members of a tag have answered: the bytes before the first that failed are performed. -/
def State.copyWritten (s : State) (c ch : Nat) (r : CopyReq) : State :=
  let n := (Table.get 0 r.buf cbSent).toNat
  if r.got cbWCause then
    (s.copyAdvance c ch (min n (Table.get 0 r.buf (cbWCause + 1)).toNat)).copyFault c ch (bits (Table.get 0 r.buf cbWCause) 0 8)
      (Table.get 0 r.buf (cbWCause + 2)) true
  else (s.copyAdvance c ch n).copyLater c ch s.clk

/-- The banks of a line on the package: its bytes are read and written once those of the source and of the destination serve them (R196,
R197). The state, and the clk. -/
def State.copyArrive (s : State) (who : Who) (r : CopyReq) (ps : List (Word × Nat)) (n : Nat) : State × Nat :=
  let reads := ps.foldl (fun (x : State × Nat) p =>
    let h := s.copyHome who p.1 p.2 false
    if s.across h then x
    else
      let y := x.1.arriveAll h.loc p.2
      (y.1, max x.2 y.2)) (s, s.clk)
  let dst := r.w1 + word r.done
  if r.mctag ≠ 0 then reads
  else
    match s.copyCheck who (s.partOf who.core) dst n true with
    | .ok =>
      let h := s.copyHome who dst n true
      if s.across h then reads
      else
        let y := reads.1.arriveAll h.loc n
        (y.1, max reads.2 y.2)
    | _ => reads
/-- The lines of a Vault stack that a line's reads touch (R240, R247). -/
def State.copyTouch (s : State) (who : Who) (ps : List (Word × Nat)) : State :=
  ps.foldl (fun s p =>
    let h := s.copyHome who p.1 p.2 false
    if s.across h then s else s.touchHome h.loc p.2 s.pkgId.toNat (s.partOf who.core)) s

/-- COPY_LINE_TRANSFER (R276, R279): one line of the first request of a channel, up to the end of its destination line, two lines of the
engine in a clk, the channels in turn [log 35, DESIGN CHOICE]. -/
def execCopyLineTransfer (s : State) : Host.Outcome State Fault Refusal :=
  let c := s.input.a
  let ch := s.input.b
  match (s.core c).copyHead ch with
  | none => .next s
  | some r =>
    if (s.core c).copyFaulted.contains ch || r.awaited ≠ 0 then .next s
    else if (s.core c).copyBusy s.clk then .next (s.copyLater c ch (s.clk + 1))
    else if s.copyOther c ch then .next (s.copyLater c ch s.clk)
    else if r.mctag ≠ 0 && !r.started && s.mcPackets (coreDie c) r.mctag then .next (s.copyLater c ch (s.clk + 1))
    else if r.fault ≠ none then
      -- a request restored FAULTED (R302) has come to the head
      .next (if s.copyGroup c r then s.modCore c fun co => { co with copyFaulted := co.copyFaulted.add ch }
             else s.soon .copyCompletion { a := c, b := ch, flag := true })
    else
      let s := s.copyStart c ch r
      match (s.core c).copyHead ch with
      | none => .next s
      | some r =>
        if r.got cbSent then .next (s.copyWritten c ch r)
        else if r.mctag ≠ 0 && r.members = [] then
          .next ((s.copyAdvance c ch (r.len - r.done)).soon .copyCompletion { a := c, b := ch })
        else if r.done = r.len then .next (s.soon .copyCompletion { a := c, b := ch })
        else
          let who := s.copyWho c r
          let n := min (r.len - r.done) (64 - (r.w1 + word r.done).toNat % 64)
          let ps := dwPieces (r.w0 + word r.done) n
          let s := s.installAll c (ps.map fun p => { addr := p.1, size := p.2, align := 1, rd := true, wr := false })
          let s := if r.mctag ≠ 0 then s else s.installAll c [{ addr := r.w1 + word r.done, size := n, align := 1, rd := false, wr := true }]
          let ok := s.copyReadable who (s.partOf c) ps
          match ok.2 with
          | .stall s' => .next (s'.copyLater c ch (s.clk + 1))
          | x =>
            let away := ok.1.zipIdx.filter fun e =>
              s.across (s.copyHome who e.1.1 e.1.2 false) && !r.got e.2 && !r.got (cbPoison + e.2) && !r.got (cbCause + e.2)
            let due := if r.got cbArrived then (s, s.clk) else s.copyArrive who r ok.1 n
            if away ≠ [] then
              match s.copyAsk c who r away with
              | some s' => .next s'
              | none => .next (s.copyLater c ch (s.clk + 32))
            else if s.clk < due.2 then
              .next ((due.1.modCopy c ch fun r => { r with buf := Table.ins r.buf cbArrived 1 }).copyLater c ch due.2)
            else
              let s := (due.1.modCore c fun co => co.copyMoved s.clk ch).copyTouch who ok.1
              -- a read of another package may have failed as well
              match ok.1.zipIdx.find? fun e => r.got (cbCause + e.2) with
              | some (p, i) =>
                .next (s.copyLine c ch r who (ok.1.take i) (some (bits (Table.get 0 r.buf (cbCause + i)) 0 8, p.1)))
              | none =>
                let stop := match x with
                  | .fault code => some (code, (ps.getD ok.1.length (0, 0)).1)
                  | _ => none
                .next (s.copyLine c ch r who ok.1 stop)

/-- The reply to a request of the copy engine: what it brings goes into the buffer, and the transfer goes on with the last. -/
def State.copyReply (s : State) (c ch lane : Nat) (data : Word) (cause : BitVec 8) : State :=
  let put := fun (r : CopyReq) =>
    let b :=
      if cbWrite ≤ lane then (if cause = 0 then r else r.failAt cause data.toNat (r.w1 + word r.done + data)).buf
      else if cause = 0 then Table.ins r.buf lane data
      else if cause = cPoison then Table.ins r.buf (cbPoison + lane % 64) 1
      else Table.ins r.buf (cbCause + lane % 64) (cause.zeroExtend 64)
    { r with buf := b, awaited := r.awaited - 1 }
  let s := s.modCopy c ch put
  match (s.core c).copyHead ch with
  | some r => if r.awaited = 0 then s.copyLater c ch s.clk else s
  | none => s

/-! The instructions. -/

/-- The parameter block breaks R278 or R285, for an issuer that is a grid group or not. -/
def State.blockBad (s : State) (pb : List Word) : Bool :=
  let w := fun (i : Nat) => pb.getD i 0
  let mode := field (w 0) 0 3
  let t := w 1
  field (w 0) 20 44 ≠ 0 || field (w 0) 3 5 ≠ 0 || 5 ≤ mode || w 3 ≠ 0 ||
  (mode ≠ 3 && field (w 0) 16 4 ≠ 0) || (mode ≠ 1 && field (w 0) 8 8 ≠ 0) || (mode = 1 && 248 ≤ field (w 0) 8 8) ||
  (mode ≠ 1 && w 2 ≠ 0) || (3 ≤ mode && t ≠ 0) || (!s.isGroup && (mode = 0 || mode = 3)) ||
  (mode = 1 && (nCores ≤ tagCore t || !s.reaches (tagPkg t) (tagCore t))) ||
  (mode = 2 && (t.getLsbD 63 || 10 ≤ field t 41 4 || !s.reaches (fkPkg t) (fkCore t)))
/-- The request words break R277 or R279. -/
def requestBad (w0 w1 w2 : Word) : Bool :=
  field w2 40 24 ≠ 0 || field w2 25 4 ≠ 0 || field w2 0 25 = 0 || 2 ^ 24 < field w2 0 25 ||
  (w2.getLsbD 29 && (w0.toNat % 8 ≠ 0 || w1.toNat % 8 ≠ 0 || field w2 0 25 % 8 ≠ 0)) ||
  (field w2 32 8 ≠ 0 && field w1 21 43 ≠ 0)

/-- The parameter block that `cpy` reads (R278). -/
def State.readBlock (s : State) (pb : Word) : Act (State × List Word) :=
  if pb = 0 then .ok (s, [])
  else if pb.toNat % 32 ≠ 0 then .error (.trap { code := cMisaligned, faddr := pb })
  else
    let us := (List.range 4).map fun i =>
      ({ addr := pb + word (8 * i), size := 8, align := 1, rd := true, wr := false, base := some pb } : Use1)
    match s.checkUses us with
    | .error e => .error e
    | .ok s =>
      match s.readPieces 0 (dwPieces pb 32) with
      | .error e => .error e
      | .ok (s, l) => .ok (s, l.map word)

/-- A request enters the FIFO (R285). -/
def State.acceptCopy (s : State) (o : F2) (w0 w1 w2 : Word) (pb : List Word) : State :=
  let c := s.cur.core
  let ch := field w2 30 2
  let seq := s.curSlot.issuedOf ch + 1
  let id : Word := BitVec.ofNat 64 (2 ^ 63 + ch * 2 ^ 32 + seq.toNat)
  let r : CopyReq :=
    { slot := s.cur.slot, gen := s.curSlot.gen, w0 := w0, w1 := w1, w2 := w2, pb := pb, id := id
      barGen := (s.bar (field (pb.getD 0 0) 16 4)).gen, team := s.curSlot.member.map Member.team, done := 0, started := false
      wins := s.winsOf c s.cur.slot, members := [], fault := none, buf := [], awaited := 0 }
  let idle := (s.curCore.copyHead ch).isNone
  let s := (s.modCurCore fun co => { co with copyq := co.copyq ++ [r] }).modCur fun sl =>
    ({ sl with issued := Table.ins sl.issued ch seq, done := Table.ins sl.done ch (sl.doneOf ch) }).setS o.d.toNat id
  (if idle then s.copyLater c ch s.clk else s).retire

/-- The places in a path's buffer of what a `cpy` that waits has read: the three request words and the block (R278). -/
def cpKept : Nat := 6000
/-- The request words and the block of a `cpy`, as kept by its wait. -/
def Path.cpyKept (p : Path) : Option (List Word × List Word) :=
  match p.buf.find? fun e => e.1 = cpKept with
  | none => none
  | some e => some ((List.range 3).map fun i => Table.get 0 p.buf (cpKept + 1 + i),
      if e.2 = 0 then [] else (List.range 4).map fun i => Table.get 0 p.buf (cpKept + 4 + i))
/-- A path with the words of its `cpy`: the block and the registers are read once. -/
def Path.keepCpy (p : Path) (w pb : List Word) : Path :=
  let l := w.zipIdx.map (fun e => (cpKept + 1 + e.2, e.1)) ++ pb.zipIdx.map (fun e => (cpKept + 4 + e.2, e.1))
  { p with buf := l.foldl (fun t e => Table.ins t e.1 e.2) (Table.ins p.buf cpKept (if pb = [] then 0 else 1)) }
/-- The mode-0 requests of the executing slot whose completion action has not been performed, with its pending interrupts (R186). -/
def State.openMode0 (s : State) : Nat :=
  s.curSlot.uiq.length + (s.curCore.copyq.filter fun r => r.slot = s.cur.slot && r.gen = s.curSlot.gen && r.mode = 0).length
/-- A request that has passed its checks is accepted, or waits for room in the FIFO and for the group's earlier stores (R285, R232). The
allowance of mode 0 holds at the acceptance as before the wait (R186). -/
def State.enterCopy (s : State) (o : F2) (w pb : List Word) : Act State :=
  let kept := s.modPath fun p => p.keepCpy w pb
  if pb ≠ [] && field (pb.getD 0 0) 0 3 = 0 && 8 ≤ s.openMode0 then .ok (s.setS o.d stBusy).retire
  else if 8 ≤ s.curCore.copyq.length then
    if o.x.getLsbD 0 then .ok (s.setS o.d stBusy).retire else .error (.holdAfter .copyRoom kept)
  else
    match s.releaseHold true with
    | .error e => .error (e.leaving kept)
    | .ok () => .ok (s.acceptCopy o (w.getD 0 0) (w.getD 1 0) (w.getD 2 0) pb)
/-- CPY (R285). -/
def execCpy (o : F2) (s : State) : Host.Outcome State Fault Refusal :=
  run (.cpy o) s fun s =>
    match s.curPath.cpyKept with
    | some (w, pb) => s.enterCopy o w pb
    | none =>
      let w0 := s.sreg o.a
      let w1 := s.sreg (o.a + 1)
      let w2 := s.sreg (o.a + 2)
      match s.readBlock (s.sreg (o.a + 3)) with
      | .error e => .error e
      | .ok (s, pb) =>
        if requestBad w0 w1 w2 || (pb ≠ [] && s.blockBad pb) then .ok (s.setS o.d stRefused).retire
        else s.enterCopy o [w0, w1, w2] pb

/-- The state of a copy channel. -/
def Core.channelState (co : Core) (ch : Nat) : Nat :=
  if co.copyFaulted.contains ch then 2 else if (co.copyHead ch).isSome then 1 else 0
/-- CPST (R286). -/
def execCpst (o : F2) (s : State) : Host.Outcome State Fault Refusal :=
  run (.cpst o) s fun s =>
    let ch := field (s.sreg o.a) 0 2
    let co := s.curCore
    let v := if o.x.getLsbD 0 then
        word ((s.curSlot.doneOf ch).toNat * 2 ^ 32 + co.copyq.length * 4096 + co.channelState ch)
      else Table.get 0 co.wp ch
    .ok (s.setS o.d v).retire

/-- CPWAIT (R287). -/
def execCpwait (o : F2) (s : State) : Host.Outcome State Fault Refusal :=
  run (.cpwait o) s fun s =>
    let sl := s.curSlot
    let finish := fun (done : Bool) (w : Wait) =>
      if done then (.ok (s.setS o.d stOK).retire : Act State)
      else if s.isTask then .ok (s.setS o.d stNotReady).retire
      else .error (.hold w)
    if o.x.getLsbD 0 then finish sl.copiesDone .transfers
    else
      let t := s.sreg o.a
      let ch := field t 32 2
      let n := bits t 0 32
      if t.getLsbD 63 = false || field t 34 29 ≠ 0 then .ok (s.setS o.d stRefused).retire
      else if 2 ^ 31 ≤ (sl.issuedOf ch - n).toNat then .ok (s.setS o.d stStale).retire
      else finish (sl.copyIsDone ch n) (.transfer ch n)

/-! Joining and leaving multicast tags. -/

/-- A packet at the root: it waits while a request of its tag is in progress (R283). -/
def State.mcAtRoot (s : State) (i : Instr) (join : Bool) : State :=
  let c := s.input.a
  let tag := s.input.b
  if s.multicasting (coreDie c) tag then s.later (s.clk + 1) i s.input
  else
    (s.mcPacket c tag join).modCore c fun co =>
      { co with mcast := co.mcast.map fun e => if e.tag = tag then { e with joined := e.joined || join } else e }
/-- MULTICAST_JOIN_PACKET (R282, R283). -/
def execMulticastJoinPacket (s : State) : Host.Outcome State Fault Refusal := .next (s.mcAtRoot .multicastJoinPacket true)
/-- MULTICAST_LEAVE_PACKET (R282, R283). -/
def execMulticastLeavePacket (s : State) : Host.Outcome State Fault Refusal := .next (s.mcAtRoot .multicastLeavePacket false)

/-- The entry of the executing core for a tag. -/
def State.mcEntry (s : State) (tag : Nat) : Option McEntry := s.curCore.mcast.find? fun e => e.tag = tag
/-- The executing group holds an entry. -/
def State.mcMine (s : State) (e : McEntry) : Bool := e.slot = s.cur.slot && e.gen = s.curSlot.gen

/-- The checks of `mcjoin` on s[b], in order (R288) [log 38, DEDUCED]. -/
def State.joinTrap (s : State) (b : Word) : Option Trap :=
  let own := isLarderAddr b && aPkg b = s.pkgId.toNat && field b 21 20 = 0 && aY b < 10 && aCore b = s.cur.core
  let writable := (s.curSlot.windows.filter fun w => winHas w (aPkg b) (aDie b) (aX b) (aY b) (aOff b)).any fun w => w.getLsbD 61
  if !own then some { code := cAddrRange, faddr := b, finfo := accInfo 4 false false none }
  else if b.toNat % 64 ≠ 0 then some { code := cMisaligned, faddr := b }
  else if !writable then some { code := cProtection, faddr := b, finfo := accInfo 3 false false none }
  else none

/-- The place in a path's buffer that says that its packet has left. -/
def mcSent : Nat := 7000
/-- A join or leave whose packet has left: the path waits until it has reached the root (R288). -/
def State.mcWaits (s : State) (tag : Nat) : Act State :=
  .error (.holdAfter (.multicast tag) (s.modPath fun p => { p with buf := [(mcSent, 0)] }))
def Path.mcDone (p : Path) : Bool := p.buf.any fun e => e.1 = mcSent
/-- MCJOIN (R288). -/
def execMcjoin (o : F2) (s : State) : Host.Outcome State Fault Refusal :=
  run (.mcjoin o) s fun s =>
    let b := s.sreg o.b
    let tag := (s.sreg o.a).toNat
    if !s.isGroup then s.raiseIllegal (.mcjoin o)
    else if s.curPath.mcDone then .ok (s.setS o.d stOK).retire
    else
      match s.joinTrap b with
      | some t => .error (.trap t)
      | none =>
        if tag = 0 || 255 < tag then .ok (s.setS o.d stRefused).retire
        else
          match s.mcEntry tag with
          | some e =>
            if !s.mcMine e then .ok (s.setS o.d stRefused).retire
            else
              .ok ((s.modCurCore fun co => { co with mcast := co.mcast.map fun x =>
                if x.tag = tag then { x with base := aOff b } else x }).setS o.d stOK).retire
          | none =>
            if 16 ≤ s.curCore.mcast.length then .ok (s.setS o.d stBusy).retire
            else
              let e : McEntry := { tag := tag, slot := s.cur.slot, gen := s.curSlot.gen, base := aOff b }
              ((s.modCurCore fun co => { co with mcast := co.mcast ++ [e] }).soon .multicastJoinPacket
                { a := s.cur.core, b := tag }).mcWaits tag

/-- MCLEAVE (R288). -/
def execMcleave (o : F2) (s : State) : Host.Outcome State Fault Refusal :=
  run (.mcleave o) s fun s =>
    let tag := (s.sreg o.a).toNat
    if !s.isGroup then s.raiseIllegal (.mcleave o)
    else if s.curPath.mcDone then .ok (s.setS o.d stOK).retire
    else if !((s.mcEntry tag).any s.mcMine) then .ok (s.setS o.d stRefused).retire
    else
      ((s.modCurCore fun co => { co with mcast := co.mcast.filter fun e => e.tag ≠ tag }).soon .multicastLeavePacket
        { a := s.cur.core, b := tag }).mcWaits tag

end Sys2Proof.Machine
end

