-- ==== Sys2Proof/Machine/Launch.lean ====
section
/-! DEFINITION. Launch records and their checks (R295, R296), `launch` (R297), the launch rings (R368), `lwait` (R354). -/

namespace Sys2Proof.Machine

/-! Launch records. -/

/-- DIEMASK, ONEDIE and SWAP of a record (Table 12-7). -/
def recOneDie (r : List Word) : Bool := (recWord r 5).getLsbD 1
def recSwap (r : List Word) : Bool := (recWord r 5).getLsbD 0
def recDieList (r : List Word) : List Nat := (List.range 8).filter fun d => recDies r / 2 ^ d % 2 = 1
/-- The cores of a grid. -/
def recCells (r : List Word) : Nat := recNclus r * (recW r * recH r)
/-- The registers that the groups of a team need. -/
def recRegs (r : List Word) : Nat := recGroups r * vallocOf (recVcode r)

/-- The stretches of a larder that are not grid area: the ready ring with its chain words, the FRT, a race trace ring in the
core's own larder (R296). -/
def State.reserved (s : State) (c : Nat) : List (Nat × Nat) :=
  let co := s.core c
  let ring := field co.trbase 12 52 * 4096
  let trace :=
    if co.trbase.getLsbD 0 && isLarderAddr (word ring) && aPkg (word ring) = s.pkgId.toNat && aCore (word ring) = c then
      [(ring % 2 ^ 21, 16 * 2 ^ (field co.trbase 8 4 + 6))]
    else []
  (co.rrbase.toNat, 8 * co.rrsize.toNat + 16) :: (co.frtbase.toNat, 32 * co.frtsize.toNat) :: trace
/-- Two stretches of a larder, each taken around its end, have a byte in common. -/
def overlap (a n b m : Nat) : Bool := 0 < n && 0 < m && ((b + 2 ^ 21 - a % 2 ^ 21) % 2 ^ 21 < n || (a + 2 ^ 21 - b % 2 ^ 21) % 2 ^ 21 < m)
/-- `units` units from unit `u` are grid area of a core. -/
def State.gridArea (s : State) (c u units : Nat) : Bool :=
  u + units ≤ 512 && (s.reserved c).all fun e => !overlap (u * 4096) (units * 4096) e.1 e.2
/-- A core could hold a team of the record, were it empty (Table 12-8, reason 9). -/
def State.couldHold (s : State) (r : List Word) (c : Nat) : Bool :=
  let h := (s.core c).hslots.toNat
  recGroups r + h ≤ 63 && recRegs r + 16 * h ≤ 2032 &&
  (recLarder r = 0 || (List.range 512).any fun u => s.gridArea c u (recLarder r))

/-- The lowest reason of Table 12-8 for a record of partition `part`; 0 for none. Bits [63:57] of doubleword 0 are a reserved
field of Table 12-7, so that reason 1 holds of them and is the lowest [log 42, DEDUCED]. -/
def State.recordReason (s : State) (host : Bool) (part : Nat) (r : List Word) : Nat :=
  let w := recWord r
  if field (w 0) 57 7 ≠ 0 || field (w 3) 52 12 ≠ 0 || field (w 5) 2 62 ≠ 0 || w 6 ≠ 0 || w 7 ≠ 0 || (host && recParent r ≠ 0) then 1
  else if (w 0).getLsbD 0 || field (w 0) 0 6 = 0 then 2
  else if recNclus r = 0 || 1280 < recNclus r then 3
  else if recW r = 0 || 12 < recW r || recH r = 0 || 12 < recH r || 12 < recW r * recH r then 4
  else if 5 ≤ recVcode r then 5
  else if 14 < recTiles r || (0 < recTiles r && 63 < recGroups r) then 6
  else if 512 < recLarder r then 7
  else if recDies r = 0 || !((recDieList r).all fun d => (s.partn part).pairs.getLsbD d) then 8
  else if 160 * (recDieList r).length < recCells r || (recOneDie r && 160 < recCells r) ||
      !((recDieList r).any fun d => (List.range 160).any fun i => s.couldHold r (d * 160 + i)) then 9
  else if field (w 2) 0 3 ≠ 0 then 10
  else 0

/-! Launch. -/

/-- The 64 bytes of a record, read as a `vld` of the issuing group would read them (R297). -/
def State.readRecord (s : State) (a : Word) : Act (State × List Word) :=
  let us := (List.range 8).map fun i =>
    ({ addr := a + word (8 * i), size := 8, align := 8, rd := true, wr := false, base := some a } : Use1)
  match s.checkUses us with
  | .error e => .error e
  | .ok s =>
    match s.readPieces 0 (dwPieces a 64) with
    | .error e => .error e
    | .ok (s, l) => .ok (s, l.map word)
/-- A team's head entry begins its transfer to the admitter (R298). -/
def State.beginTransfer (s : State) (t : Nat) : State := s.later (s.clk + 64) .pendingLaunchTransfer { a := t }
/-- A record with its PARENT. -/
def withParent (r : List Word) (id : Nat) : List Word := r.set 4 (word (id * 2 ^ 32 + recLaunchId r))

/-- The place in a path's buffer of the record that a `launch` has read. -/
def launchKept : Nat := 6100
/-- A record that has passed its checks enters the team's queue once the group's earlier stores are released (R297, R232). -/
def State.enterLaunch (s : State) (o : F2) (r : List Word) : Act State :=
  match s.curSlot.member, s.curTeam?, s.curGrid? with
  | some m, some t, some g =>
    if 4 ≤ t.pend.length then .ok (s.setS o.d stBusy).retire
    else
      match s.releaseHold true with
      | .error e =>
        .error (e.leaving (s.modPath fun p => { p with buf := r.zipIdx.foldl (fun b e => Table.ins b (launchKept + e.2) e.1) p.buf }))
      | .ok () =>
        let s := s.modTeam m.team fun t => { t with pend := t.pend ++ [withParent r (recLaunchId g.record)] }
        let s := s.modGrid m.grid fun g => { g with children := g.children + 1 }
        .ok (((if t.pend = [] then s.beginTransfer m.team else s).setS o.d stOK).retire)
  | _, _, _ => .ok (s.setS o.d stRefused).retire
/-- LAUNCH (R297): the record is read once. -/
def execLaunch (o : F2) (s : State) : Host.Outcome State Fault Refusal :=
  run (.launch o) s fun s =>
    let a := s.sreg o.a
    if !s.isGroup then s.raiseIllegal (.launch o)
    else if s.curPath.buf.any fun e => e.1 = launchKept then
      s.enterLaunch o ((List.range 8).map fun i => Table.get 0 s.curPath.buf (launchKept + i))
    else if a.toNat % 64 ≠ 0 then .error (.trap { code := cMisaligned, faddr := a })
    else
      match s.readRecord a with
      | .error e => .error e
      | .ok (s, r) =>
        let why := s.recordReason false s.curPart r
        if why ≠ 0 then .error (.trapAfter { code := cLaunchRecord, faddr := a, finfo := word why } s)
        else s.enterLaunch o r

/-! The rings. -/

def Part.ring (p : Part) (c : Nat) : Ring := Table.get {} p.rings c
def Part.modRing (p : Part) (c : Nat) (f : Ring → Ring) : Part := { p with rings := Table.ins p.rings c (f (p.ring c)) }
/-- No slot of a ring is reserved and not yet accepted. -/
def Ring.empty (r : Ring) : Bool := r.head = r.tail
/-- Every slot of a ring is reserved. -/
def Ring.full (r : Ring) : Bool := 2 ^ r.log ≤ r.tail - r.head
/-- The place of a ring's slot. -/
def Ring.loc (r : Ring) (pos : Nat) : Nat := r.base + 64 * (pos % 2 ^ r.log)
/-- A slot of a ring is rung. -/
def Ring.ring (r : Ring) (pos : Nat) : Ring := { r with rung := r.rung.add pos }
/-- The position of the reserved slot with an index. -/
def Ring.pos (r : Ring) (idx : Nat) : Option Nat :=
  let pos := r.head + (idx + 2 ^ r.log - r.head % 2 ^ r.log) % 2 ^ r.log
  if idx < 2 ^ r.log && pos < r.tail then some pos else none
/-- The slot at TAIL is reserved (R368). -/
def Ring.reserve (r : Ring) : Ring := { r with tail := r.tail + 1 }

/-- DBRES (R368): the index of the slot at TAIL, which is reserved, or all ones. -/
def execDbres (s : State) : Host.Outcome State Fault Refusal :=
  let p := s.input.a
  let c := s.input.b
  let r := (s.partn p).ring c
  .next (
    if r.full then s.emit (.doorbell p c (BitVec.allOnes 64))
    else (s.modPart p fun x => x.modRing c Ring.reserve).emit (.doorbell p c (word (r.tail % 2 ^ r.log))))
/-- DBELL (R368): a reserved slot is rung; an index that names none has no effect. -/
def execDbell (s : State) : Host.Outcome State Fault Refusal :=
  let p := s.input.a
  let c := s.input.b
  .next (
    match ((s.partn p).ring c).pos s.input.c with
    | some pos => (s.modPart p fun x => x.modRing c fun r => r.ring pos).soon .launchRingAccept { a := p, b := c }
    | none => s)

/-! Waiting on a completion counter. -/

/-- The places in a path's buffer of what a waiting `lwait` keeps: its destination, its address, the word read from another
package. -/
def lwDest : Nat := 900
def lwAddr : Nat := 901
def lwWord : Nat := 902
/-- One reading of `lwait` at an address, with its destination (R354): the value, or the wait until the next reading. A group that
pre-emption stops waits no more: it stands at the `lwait` (R301). -/
def State.lwaitOn (s : State) (d : BitVec 5) (a : Word) : Act State :=
  let u : Use1 := { addr := a, size := 8, align := 8, rd := true, wr := false }
  match s.checkUses [u] with
  | .error e => .error e
  | .ok s =>
    let h := s.home s.who u
    if s.across h && !(s.curPath.buf.any fun e => e.1 = lwWord) && s.lineBusy h then .error (.hold (.line h.pkg (h.loc / 64)))
    else
      match s.pathRead h a lwWord 1 with
      | .error e => .error e
      | .ok r =>
        match r.bad with
        | some (_, code) =>
          match u.trap code 0 with
          | .trap t => .error (.trapAfter t r.st)
          | e => .error e
        | none =>
          let v := r.ws.getD 0 0
          let s := r.st
          if s.isGroup && 0 < v.toInt then
            if s.curSlot.state = .stopping then .ok (s.modPath Path.withdrawn)
            else
              let s := (s.modPath fun p => { p with buf := [(lwDest, d.zeroExtend 64), (lwAddr, a)] }).later (s.clk + 256) .lwaitReread
                { a := s.cur.core, b := s.cur.slot, flag := s.cur.pathQ }
              .error (.holdAfter .counter s)
          else .ok (s.setS d v).retire

/-- LWAIT (R354). -/
def execLwait (o : F2) (s : State) : Host.Outcome State Fault Refusal :=
  run (.lwait o) s fun s => s.lwaitOn o.d (s.sreg o.a)

/-- LWAIT_REREAD (R354): a path that waits on a counter reads it again. -/
def execLwaitReread (s : State) : Host.Outcome State Fault Refusal :=
  let c := s.input.a
  let k := s.input.b
  let p := (s.slot c k).path s.input.flag
  let due := s.agenda.any fun e => e.2.1 = .lwaitReread && e.2.2 = s.input
  .next (
    if p.wait ≠ .counter || due then s
    else
      let s' := { s with cur := ⟨c, k, s.input.flag⟩ }
      let d := BitVec.ofNat 5 (Table.get 0 p.buf lwDest).toNat
      { finish (.lwait { d := d, a := 0, b := 0, c := 0, x := 0 }) s' (s'.lwaitOn d (Table.get 0 p.buf lwAddr)) with cur := s.cur })

end Sys2Proof.Machine
end

