-- ==== Sys2Proof/Machine/Leases.lean ====
section
/-! DEFINITION. Leases of cellar engines (12 and 13, R327 to R335): requests and their service, wakes, evictions, the instructions
`lease`, `lrel`, `estat`, `epush` and `epop`, and the start of commands (R289). -/

namespace Sys2Proof.Machine

/-- The kind of an engine (Table 13-10). -/
def engKind (e : Nat) : Nat := if e < 20 then 0 else if e < 32 then 1 else if e < 48 then 2 else 3
/-- The time that a kind takes to wake (R328). -/
def wakeTime (k : Nat) : Nat :=
  match k with
  | 0 => 2000
  | 1 => 3000
  | 2 => 2500
  | _ => 3500

/-! Grants. -/

/-- The generation of the next lease of an engine; 0 is skipped. -/
def nextLgen (g : BitVec 32) : BitVec 32 := if g + 1 = 0 then 1 else g + 1
/-- An engine is granted to a request (R329). -/
def State.grantEngine (s : State) (d e : Nat) (r : LeaseReq) : State :=
  let g := nextLgen ((s.die d).engine e).lgen
  (s.modEngine d e fun x =>
    { x with lgen := g, state := .leased, who := r.who, cls := r.cls, since := s.clk, fifos := {}, next := none }).later
    (s.clk + 20000) .leaseHoldThreshold { a := d, b := e, c := g.toNat }
/-- The handle of the lease of an engine. -/
def State.handleOf (s : State) (d e : Nat) : Word := leaseHandle d e ((s.die d).engine e).lgen
/-- A word 2 of Table 13-12. -/
def leaseInfo (cls kind : Nat) : Word := word (cls * 256 + kind)
/-- A grant reaches the requester that waits for it: a group gets the handle in its destination, a core a type-249 message
(R332, R335). -/
def State.tellGrant (s : State) (d e : Nat) (r : LeaseReq) : State :=
  let h := s.handleOf d e
  if r.who.slot = 63 then s.postSys r.who.core 63 0 249 [h, leaseInfo r.cls r.kind]
  else
    let sl := s.slot r.who.core r.who.slot
    let p := sl.path (sl.eff r.pathQ)
    (s.modSlot r.who.core r.who.slot fun sl => sl.setS (Table.get 0 p.buf 0).toNat h).advance r.who.core r.who.slot r.pathQ p.succ
/-- A grant to a request that waits. -/
def State.grantLater (s : State) (d e : Nat) (r : LeaseReq) : State := (s.grantEngine d e r).tellGrant d e r

/-! The service of a request (R329). -/

/-- The engines of a die with their records, the lowest first. -/
def Die.all (d : Die) : List (Nat × Engine) := (List.range 64).map fun e => (e, d.engine e)
/-- What serves a request. -/
inductive Served where
  | granted (e : Nat)
  | waking (e : Nat)
  | evicted (e : Nat)
  | no
  deriving DecidableEq, Repr

/-- Step 3: where the budget is full, an idle engine of another kind sleeps [log 40, DEDUCED]. -/
def Die.makeRoom (d : Die) (cap kind : Nat) : Die :=
  if d.awake < cap then d
  else
    match d.all.find? fun e => e.2.state = .idle && engKind e.1 ≠ kind with
    | some e => d.modEngine e.1 fun x => { x with state := .asleep }
    | none => d
/-- The order of the candidates of step 5: those of the kind first, then lowest class, longest held, lowest number. -/
def evictBefore (kind : Nat) (a b : Nat × Engine) : Bool :=
  let pa := if engKind a.1 = kind then 0 else 1
  let pb := if engKind b.1 = kind then 0 else 1
  pa < pb || (pa = pb && (a.2.cls < b.2.cls || (a.2.cls = b.2.cls &&
    (a.2.since < b.2.since || (a.2.since = b.2.since && a.1 < b.1)))))
/-- The engine that step 5 evicts. -/
def Die.victim (d : Die) (clk cap : Nat) (r : LeaseReq) : Option Nat :=
  let l := d.all.filter fun e =>
    e.2.state = .leased && e.2.cls < r.cls && e.2.since + 20000 ≤ clk && (engKind e.1 = r.kind || cap ≤ d.awake)
  (sortLt (evictBefore r.kind) l).head?.map Prod.fst
/-- Steps 4 and 5 on a die: what serves a request. -/
def Die.serve (d : Die) (clk cap : Nat) (r : LeaseReq) : Served :=
  match d.all.find? fun e => e.2.state = .asleep && engKind e.1 = r.kind && d.awake < cap with
  | some e => .waking e.1
  | none =>
    match d.victim clk cap r with
    | some e => .evicted e
    | none => .no

/-- The message of an eviction goes to the holder (R330, step 4). -/
def State.tellEviction (s : State) (d e : Nat) (x : Engine) (cls : Nat) : State :=
  s.postSys x.who.core x.who.slot x.who.gen.toNat 251
    [leaseHandle d e x.lgen, leaseInfo cls (engKind e), word x.fifos.pending]
/-- The FIFOs of an evicted lease: every command not finished is evicted (R289). -/
def Fifos.evict (f : Fifos) : Fifos := { cmds := [], results := f.results, run := none, evicted := f.run.toList ++ f.cmds }
/-- An engine is evicted for a request (R330). -/
def State.evict (s : State) (d e : Nat) (r : LeaseReq) : State :=
  let x := (s.die d).engine e
  let s := s.modEngine d e fun x =>
    { x with state := .evicting, dead := some ⟨x.lgen, x.who, x.cls, x.fifos.evict⟩, fifos := {}, who := ⟨0, 0, 0⟩,
             next := some r, buf := [], plan := none, toIdle := false }
  let s := s.tellEviction d e x r.cls
  if x.awaited = 0 then s.soon .evictionDrainComplete { a := d, b := e } else s

/-- Steps 4 and 5 of R329 for a request. -/
def State.serveFrom4 (s : State) (d : Nat) (r : LeaseReq) : State × Served :=
  match (s.die d).serve s.clk (s.wakeCap d) r with
  | .waking e =>
    ((s.modEngine d e fun x => { x with state := .waking, next := some r }).later (s.clk + wakeTime r.kind) .engineWakeComplete
      { a := d, b := e }, .waking e)
  | .evicted e => (s.evict d e r, .evicted e)
  | x => (s, x)
/-- Steps 2 to 5 of R329 for a request. The state says what has been begun; a grant is not yet told. -/
def State.serve (s : State) (d : Nat) (r : LeaseReq) : State × Served :=
  match (s.die d).all.find? fun e => e.2.state = .idle && engKind e.1 = r.kind with
  | some e => (s.grantEngine d e.1 r, .granted e.1)
  | none => (s.modDie d fun x => x.makeRoom (s.wakeCap d) r.kind).serveFrom4 d r

/-- One queued request is examined again, unless one of its kind before it could not be served (R331). -/
def State.reserve (x : State × List Nat) (d : Nat) (r : LeaseReq) : State × List Nat :=
  if x.2.contains r.kind then x
  else
    match x.1.serve d r with
    | (s, .granted e) => ((s.modDie d fun y => { y with leaseq := y.leaseq.erase r }).tellGrant d e r, x.2)
    | (s, .no) => (s, r.kind :: x.2)
    | (s, _) => (s.modDie d fun y => { y with leaseq := y.leaseq.erase r }, x.2)
/-- The queued requests of a die are examined again, from class 3 down, in order of arrival (R329, R331). -/
def State.reexamineNow (s : State) (d : Nat) : State :=
  ((sortBy (fun (r : LeaseReq) => 3 - r.cls) (s.die d).leaseq).foldl (fun x r => State.reserve x d r) (s, [])).1

/-- LEASE_QUEUE_REEXAMINE (R329). -/
def execLeaseQueueReexamine (s : State) : Host.Outcome State Fault Refusal := .next (s.reexamineNow s.input.a)

/-- LEASE_HOLD_THRESHOLD (R329): a holder has reached 20,000 clk. -/
def execLeaseHoldThreshold (s : State) : Host.Outcome State Fault Refusal :=
  let x := (s.die s.input.a).engine s.input.b
  .next (if x.state = .leased && x.lgen.toNat = s.input.c then s.reexamineNow s.input.a else s)

/-- ENGINE_WAKE_COMPLETE (R328, R331): the engine is granted to the request for which it woke, or is idle where that has been
withdrawn. -/
def execEngineWakeComplete (s : State) : Host.Outcome State Fault Refusal :=
  let x := (s.die s.input.a).engine s.input.b
  .next (
    if x.state ≠ .waking then s
    else
      match x.next with
      | some r => (s.grantLater s.input.a s.input.b r).reexamineNow s.input.a
      | none => s.idleEngine s.input.a s.input.b)

/-- ENGINE_IDLE_SLEEP (R328). -/
def execEngineIdleSleep (s : State) : Host.Outcome State Fault Refusal :=
  let x := (s.die s.input.a).engine s.input.b
  .next (
    if x.state = .idle && x.since = s.input.c then
      (s.modEngine s.input.a s.input.b fun x => { x with state := .asleep }).reexamineNow s.input.a
    else s)

/-- A request for which an engine of another kind was evicted goes on at step 4 (R330); what cannot be served keeps its place before
the later ones of its class. -/
def State.serveEvictor (s : State) (d : Nat) (r : LeaseReq) : State :=
  match s.serveFrom4 d r with
  | (s, .no) => s.modDie d fun x => { x with leaseq := r :: x.leaseq }
  | (s, _) => s

/-- EVICTION_DRAIN_COMPLETE (R330, step 5): every access of an evicted engine is performed. -/
def execEvictionDrainComplete (s : State) : Host.Outcome State Fault Refusal :=
  let d := s.input.a
  let e := s.input.b
  let x := (s.die d).engine e
  .next (
    if x.state ≠ .evicting || x.awaited ≠ 0 then s
    else if x.toIdle then s.idleEngine d e
    else
      let asleep := s.modEngine d e fun x => { x with state := .asleep, next := none, since := s.clk }
      match x.next with
      | some r =>
        (if engKind e = r.kind then s.grantLater d e r else asleep.serveEvictor d r).reexamineNow d
      | none => asleep.reexamineNow d)

/-! The instructions. -/

/-- The ceiling of the executing slot's lease requests (R332). -/
def State.leaseCeiling (s : State) : Nat :=
  if s.isS then 3
  else
    match s.curSlot.task with
    | some t => t.ceiling
    | none =>
      match s.curGrid? with
      | some g => recClass g.record
      | none => s.curSlot.pri.toNat

/-- A request that cannot be served at once waits: in the queue of its class unless `begun`, as a group's path that waits or
as a request of the core (R332). -/
def State.leaseWait (s : State) (o : F2) (d : Nat) (r : LeaseReq) (begun : Bool) : Act State :=
  let full := 32 ≤ ((s.die d).leaseq.filter fun x => x.cls = r.cls).length
  if !begun && full then .ok (s.setS o.d stRefused).retire
  else
    let r := if s.isGroup then r else { r with who := ⟨s.cur.core, 63, 0⟩ }
    let s := if begun then s else s.modDie d fun x => { x with leaseq := x.leaseq ++ [r] }
    if s.isGroup then .error (.holdAfter .lease (s.modPath fun p => { p with buf := [(0, o.d.zeroExtend 64)] }))
    else .ok (s.setS o.d stQueued).retire

/-- The executing slot as a holder: SLOT 63 with generation 0 is the core (Table 13-10). -/
def State.asHolder (s : State) : Holder := ⟨s.cur.core, s.cur.slot, if s.isS then 0 else s.curSlot.gen⟩

/-- LEASE (R332). -/
def execLease (o : F2) (s : State) : Host.Outcome State Fault Refusal :=
  run (.lease o) s fun s =>
    let kind := (s.sreg o.a).toNat
    let d := coreDie s.cur.core
    let r : LeaseReq := ⟨s.asHolder, kind, min (field o.x 0 2) s.leaseCeiling, s.cur.pathQ⟩
    let later : LeaseReq := if s.isGroup then r else { r with who := ⟨s.cur.core, 63, 0⟩ }
    if 3 < kind then .ok (s.setS o.d stRefused).retire
    else if (s.die d).leaseq.any fun x => x.kind = kind && r.cls ≤ x.cls then s.leaseWait o d r false
    else
      match s.serve d later with
      | (s, .no) => s.leaseWait o d r false
      | (s, .granted e) =>
        .ok ((s.modEngine d e fun x => { x with who := r.who }).setS o.d (s.handleOf d e)).retire
      | (s, _) => s.leaseWait o d r true

/-- LREL (R333). -/
def execLrel (o : F2) (s : State) : Host.Outcome State Fault Refusal :=
  run (.lrel o) s fun s =>
    let h := s.sreg o.a
    match s.leaseState s.cur.core s.cur.slot h with
    | .live => .ok ((s.dropLease (leaseDie h) (leaseEng h)).setS o.d stOK).retire
    | .dead => .ok ((s.modEngine (leaseDie h) (leaseEng h) fun x => { x with dead := none }).setS o.d stOK).retire
    | .stale => .ok (s.setS o.d stStale).retire

/-- The word of Table 13-11. -/
def estatWord (held cls kind results cmds state : Nat) : Word :=
  word (min held (2 ^ 32 - 1) * 2 ^ 32 + cls * 2 ^ 28 + kind * 2 ^ 24 + results * 2 ^ 16 + cmds * 2 ^ 8 + state)
/-- The word that `estat` writes for a handle; CMDS is at most 16, and every field of a stale handle is 0 [log 40, DEDUCED]. -/
def State.estatOf (s : State) (h : Word) : Word :=
  let x := (s.die (leaseDie h)).engine (leaseEng h)
  let kind := engKind (leaseEng h)
  match s.leaseState s.cur.core s.cur.slot h, x.dead with
  | .live, _ => estatWord ((s.clk - x.since) / 1024) x.cls kind x.fifos.results.length (min 16 x.fifos.pending) 1
  | .dead, some d => estatWord 0 d.cls kind d.fifos.results.length (min 16 d.fifos.evicted.length) 2
  | _, _ => 0
/-- ESTAT (R334). -/
def execEstat (o : F2) (s : State) : Host.Outcome State Fault Refusal :=
  run (.estat o) s fun s => .ok (s.setS o.d (s.estatOf (s.sreg o.a))).retire

/-! Commands. -/

/-- The operation of a command, and the kind of engine that performs it (Table 12-6). -/
def cmdOp (c : List (BitVec 32)) : Nat := field (c.getD 0 0) 0 8
def opStep (op : Nat) : Option (Nat × Instr) :=
  match op with
  | 0x01 => some (0, .softmax)
  | 0x02 => some (0, .rowmax)
  | 0x03 => some (0, .rowsum)
  | 0x04 => some (0, .exp)
  | 0x05 => some (0, .log)
  | 0x11 => some (1, .sort)
  | 0x12 => some (1, .topk)
  | 0x13 => some (1, .segsort)
  | 0x21 => some (2, .zf8enc)
  | 0x22 => some (2, .zf8dec)
  | 0x31 => some (3, .gather)
  | 0x32 => some (3, .embbag)
  | 0x33 => some (3, .segred)
  | _ => none
/-- The first eight words of a result entry (Table 12-5). -/
def resultEntry (c : List (BitVec 32)) (estat : Nat) (cause : BitVec 8) (outn : Nat) (faddr : Word) : List (BitVec 32) :=
  [BitVec.ofNat 32 (estat + cause.toNat * 256 + field (c.getD 0 0) 16 16 * 65536), BitVec.ofNat 32 outn, bits faddr 0 32,
   bits faddr 32 32]
/-- The command in execution ends without a write: its result entry is all that is left. -/
def State.endCommand (s : State) (d e : Nat) (r : List (BitVec 32)) : State :=
  (s.modEngine d e fun x => { x with plan := some ⟨[], 0, 0, 1, r⟩, buf := [] }).soon .cellarResultWritten { a := d, b := e }
/-- The command in execution goes on. -/
def State.kickCommand (s : State) (d e : Nat) : State :=
  match ((s.die d).engine e).fifos.run with
  | none => s
  | some c =>
    match opStep (cmdOp c) with
    | some (k, i) => if k = engKind e then s.soon i { a := d, b := e } else s.endCommand d e (resultEntry c 2 0 0 0)
    | none => s.endCommand d e (resultEntry c 2 0 0 0)
/-- A leased engine starts its next command where its result FIFO has a free entry (R289). -/
def State.startCommand (s : State) (d e : Nat) : State :=
  let x := (s.die d).engine e
  if x.state = .leased && x.fifos.run.isNone && x.fifos.results.length < 16 then
    match x.fifos.cmds with
    | c :: t => (s.modEngine d e fun x =>
        { x with fifos := { x.fifos with cmds := t, run := some c }, plan := none, buf := [] }).kickCommand d e
    | [] => s
  else s

/-- CELLAR_RESULT_WRITTEN (R289): a command with nothing left to write or to be answered appends its result. -/
def execCellarResultWritten (s : State) : Host.Outcome State Fault Refusal :=
  let d := s.input.a
  let e := s.input.b
  let x := (s.die d).engine e
  .next (
    match x.plan with
    | some p =>
      if x.state = .leased && x.fifos.run.isSome && p.writes = [] && x.awaited = 0 then
        (s.modEngine d e fun x =>
          { x with plan := none, buf := [], fifos := { x.fifos with run := none, results := x.fifos.results ++ [p.result] } }).startCommand d e
      else s
    | none => s)

/-- Lanes 0 to 15 of a vector register, and the register with them replaced (R290). -/
def lanes16 (v : VReg) : List (BitVec 32) := (List.range 16).map fun i => lane v i
def setLanes16 (v : VReg) (l : List (BitVec 32)) : VReg :=
  setLanes v 0xFFFF#128 fun i => (l.getD i 0).toNat
/-- The vector register that `epush` or `epop` names, and NB, with which a task always acts (R294). -/
def fifoReg (o : F2) : Nat := field o.x 0 8
def State.fifoNB (s : State) (o : F2) : Bool := o.x.getLsbD 8 || s.curSlot.task.isSome

/-- EPUSH (R294), a release at die (R232). -/
def execEpush (o : F2) (s : State) : Host.Outcome State Fault Refusal :=
  run (.epush o) s fun s =>
    let h := s.sreg o.a
    let d := leaseDie h
    let e := leaseEng h
    match s.leaseState s.cur.core s.cur.slot h with
    | .stale => .ok (s.setS o.d stStale).retire
    | .dead => .ok (s.setS o.d stEvicted).retire
    | .live =>
      if ((s.die d).engine e).fifos.full then
        if s.fifoNB o then .ok (s.setS o.d stBusy).retire else .error (.hold (.command h))
      else
        match s.releaseHold true with
        | .error x => .error x
        | .ok () =>
          let c := lanes16 (s.vreg (fifoReg o))
          let s := s.modEngine d e fun x => { x with fifos := { x.fifos with cmds := x.fifos.cmds ++ [c] } }
          .ok ((s.startCommand d e).setS o.d stOK).retire

/-- The entry of an evicted command. -/
def evictedEntry (c : List (BitVec 32)) : List (BitVec 32) := resultEntry c 1 0 0 0
/-- A dead lease after an `epop`: the record goes once its FIFOs are drained (R294). -/
def Engine.setDead (x : Engine) (d : Dead) (f : Fifos) : Engine :=
  { x with dead := if f.results = [] && f.evicted = [] then none else some { d with fifos := f } }
/-- `epop` on the FIFOs of a dead lease. -/
def State.popDead (s : State) (o : F2) (h : Word) (d : Dead) : State :=
  let upd := fun (f : Fifos) (s : State) => s.modEngine (leaseDie h) (leaseEng h) fun x => x.setDead d f
  let put := fun (l : List (BitVec 32)) (s : State) => s.setV (fifoReg o) (setLanes16 (s.vreg (fifoReg o)) l)
  match d.fifos.results, d.fifos.evicted with
  | r :: t, _ => (put r (upd { d.fifos with results := t } s)).setS o.d stOK
  | [], c :: t => (put (evictedEntry c) (upd { d.fifos with evicted := t } s)).setS o.d stEvicted
  | [], [] => (upd d.fifos s).setS o.d stStale
/-- EPOP (R294). -/
def execEpop (o : F2) (s : State) : Host.Outcome State Fault Refusal :=
  run (.epop o) s fun s =>
    let h := s.sreg o.a
    let d := leaseDie h
    let e := leaseEng h
    let x := (s.die d).engine e
    match s.leaseState s.cur.core s.cur.slot h, x.dead with
    | .live, _ =>
      match x.fifos.results with
      | r :: t =>
        let s := s.modEngine d e fun x => { x with fifos := { x.fifos with results := t } }
        .ok (((s.setV (fifoReg o) (setLanes16 (s.vreg (fifoReg o)) r)).startCommand d e).setS o.d stOK).retire
      | [] =>
        if x.fifos.pending ≠ 0 && !s.fifoNB o then .error (.hold (.result h)) else .ok (s.setS o.d stNotReady).retire
    | .dead, some dd => .ok (s.popDead o h dd).retire
    | _, _ => .ok (s.setS o.d stStale).retire

end Sys2Proof.Machine
end

