-- ==== Sys2Proof/Machine/System.lean ====
section
/-! DEFINITION. The control registers (R178, R190, Tables 7-1 to 7-5) and the operations on another slot (R183, R191). -/

namespace Sys2Proof.Machine

/-! Reading. -/

/-- A path that cannot go on: parked, or waiting inside an instruction; one that waits for the matrix command queue is merely not
ready (R148). -/
def Path.stuck (p : Path) : Bool := p.parked || (p.wait.inside && p.wait ≠ .matrixRoom)

/-- STATE of Table 7-2; a group is WAITING when every path of it is inside an instruction or parked [log 17, DEDUCED]. -/
def Slot.stateCode (sl : Slot) : Nat :=
  match sl.state with
  | .free => 0
  | .active => if sl.p.stuck && (!sl.dual || sl.q.stuck) then 2 else 1
  | .trapped => 3
  | .stopping => 4

/-- STATUS (Table 7-2). -/
def State.statusWord (s : State) (c k : Nat) : Word :=
  let sl := s.slot c k
  BitVec.ofNat 64 (sl.gen.toNat * 2 ^ 32 + (s.core c).cls k * 2 ^ 22 + sl.pri.toNat * 2 ^ 20 + sl.stateCode * 2 ^ 16 +
    flag sl.dual 15 + flag (s.publishes c k) 14 + flag sl.sub.isSome 13 + flag sl.uia 12 + flag (sl.uie && k ≠ 63) 11 +
    sl.uiq.length * 2 ^ 7 + flag (k = 63) 6 + k)

/-- The control register `n` for slot `k` of core `c` (Table 7-1). -/
def State.ctlGet (s : State) (c k n : Nat) : Word :=
  let sl := s.slot c k
  let co := s.core c
  let p := s.partn (s.partOf c)
  match n with
  | 0x00 => s.statusWord c k
  | 0x01 => sl.cause
  | 0x02 => sl.epc
  | 0x03 => sl.faddr
  | 0x04 => sl.finfo
  | 0x05 => sl.ulih
  | 0x06 => sl.ulipc
  | 0x07 => sl.cpxid
  | 0x08 => sl.subst
  | 0x09 => sl.taskid
  | 0x0A => sl.mrowstride
  | 0x0B => sl.mrowcount
  | 0x0C => Table.get 0 sl.lwin 0
  | 0x0D => Table.get 0 sl.lwin 1
  | 0x0E => Table.get 0 sl.lwin 2
  | 0x0F => Table.get 0 sl.lwin 3
  | 0x10 => sl.taskfk
  | 0x40 => co.vtbase
  | 0x41 => co.rrbase
  | 0x42 => co.rrsize
  | 0x43 => co.rrhead
  | 0x44 => co.rrtail
  | 0x45 => co.rrovf
  | 0x46 => co.frtbase
  | 0x47 => co.frtsize
  | 0x48 => co.mblimit
  | 0x49 => co.hslots
  | 0x4A => co.issuepol
  | 0x4B => co.wdoglim
  | 0x4C => co.trbase
  | 0x4D => co.mweight
  | 0x4E => co.trapvec
  | 0x4F => co.pglate
  | 0x80 => p.expert
  | 0x81 => p.clkfix
  | _ => if 0x60 ≤ n && n < 0x70 then Table.get 0 co.pmc (n - 0x60) else 0

/-! Writing. -/

/-- The core has no G-class and no H-class slot occupied (the Q of Table 7-1). -/
def State.quiet (s : State) (c : Nat) : Bool := s.liveSlots c = []
/-- A word below `2 ^ w`. -/
def fits (v : Word) (w : Nat) : Bool := v.toNat < 2 ^ w
/-- A power of two from `lo` to `hi`. -/
def powerIn (v : Word) (lo hi : Nat) : Bool := lo ≤ v.toNat && v.toNat ≤ hi && v &&& (v - 1) = 0

/-- A window that stays within the mesh and the larder (Table 7-4). -/
def winOk (v : Word) : Bool :=
  field v 43 4 + field v 35 4 ≤ 15 && field v 39 4 + field v 31 4 ≤ 9 && field v 22 9 + field v 13 9 < 512

/-- A write of a per-slot register; none where it is refused (R178). Fields of Access HW keep their value. -/
def Slot.ctlSet (sl : Slot) (k n : Nat) (v : Word) : Option Slot :=
  let win := fun (i : Nat) => if winOk v then some { sl with lwin := Table.ins sl.lwin i (v &&& ~~~0x1FFF#64) } else none
  match n with
  | 0x00 => some (if k = 63 then sl else { sl with uie := v.getLsbD 11 })
  | 0x01 => some { sl with cause := v &&& 0x3FF#64 }
  | 0x02 => some { sl with epc := v }
  | 0x03 => some { sl with faddr := v }
  | 0x04 => some { sl with finfo := v }
  | 0x05 => some { sl with ulih := v }
  | 0x06 => some { sl with ulipc := v }
  | 0x07 => some { sl with cpxid := v }
  | 0x0A => some { sl with mrowstride := v }
  | 0x0B => some { sl with mrowcount := v }
  | 0x0C => win 0
  | 0x0D => win 1
  | 0x0E => win 2
  | 0x0F => win 3
  | _ => some sl

/-- A write of a per-core register but TRBASE; none where the value is outside its range (Table 7-1). A PMC counts from the next clk
on (R359). -/
def Core.ctlSet (co : Core) (clk n : Nat) (v : Word) : Option Core :=
  let put := fun (ok : Bool) (c : Core) => if ok then some c else none
  match n with
  | 0x40 => put (v.toNat % 4096 = 0 && fits v 57) { co with vtbase := v }
  | 0x41 => put (v.toNat % 64 = 0 && fits v 21) { co with rrbase := v }
  | 0x42 => put (powerIn v 16 4096) { co with rrsize := v }
  | 0x43 => put (fits v 16) { co with rrhead := v }
  | 0x44 => put (fits v 16) { co with rrtail := v }
  | 0x45 => put (fits v 32) { co with rrovf := v }
  | 0x46 => put (v.toNat % 4096 = 0 && fits v 21) { co with frtbase := v }
  | 0x47 => put (64 ≤ v.toNat && v.toNat ≤ 4096 && v.toNat % 64 = 0) { co with frtsize := v }
  | 0x48 => put (1 ≤ v.toNat && v.toNat ≤ 224) { co with mblimit := v }
  | 0x49 => put (2 ≤ v.toNat && v.toNat ≤ 32) { co with hslots := v }
  | 0x4A => put (field v 0 2 ≠ 3) { co with issuepol := v &&& 3 }
  | 0x4B => put (fits v 32) { co with wdoglim := v }
  | 0x4D => some { co with mweight := v &&& 0xF }
  | 0x4E => put (v.getLsbD 0 = false && field v 0 6 ≠ 0 && fits v 57) { co with trapvec := v }
  | 0x4F => put (fits v 32) { co with pglate := v }
  | _ => if 0x60 ≤ n && n < 0x70 then 
      some { co with pmc := Table.put 0 co.pmc (n - 0x60) v, pmcFrom := Table.ins co.pmcFrom (n - 0x60) (clk + 1) }
    else some co

/-- The registers that are written only while the core is quiet (Q, Table 7-1). -/
def ctlQuiet (n : Nat) : Bool := n = 0x40 || n = 0x41 || n = 0x42 || n = 0x43 || n = 0x44 || n = 0x46 || n = 0x47 || n = 0x49

/-- A write of TRBASE (R235): none where a ring in larder space does not lie in the core's own larder. With EN cleared no
entry is written any more but one that has left for its home [log 25, DEDUCED]. -/
def State.trbaseSet (s : State) (c : Nat) (v : Word) : Option State :=
  let v := v &&& ~~~0xFE#64
  let base := v &&& ~~~0xFFF#64
  let ok := !isLarderAddr base ||
    (base = larderAddr s.pkgId.toNat (coreDie c) (coreX c) (coreY c) (aOff base) &&
     aOff base + 16 * 2 ^ (field v 8 4 + 6) ≤ 2 ^ 21)
  if ok then
    some (s.modCore c fun co =>
      if v.getLsbD 0 then { co with trbase := v, traceSeq := 0 }
      else { co with trbase := v, traceq := [], sendq := co.sendq.filter fun x => x.2.2.2 ≠ .engine })
  else none

/-- A write of CLKFIX (R375, R328): none where WCAP is above 16. Engines above a lower cap sleep, and queued requests are
examined again. -/
def State.clkfixSet (s : State) (p : Nat) (v : Word) : Option State :=
  let v := v &&& 0x1F01#64
  if 16 < field v 8 5 then none
  else
    let s := s.modPart p fun r => { r with clkfix := v }
    let s := if v.getLsbD 0 then s.setClock 100 else s
    let dies := (List.range 8).filter fun d => (s.partn p).pairs.getLsbD d
    some (dies.foldl (fun s d => (s.modDie d fun x => x.trim (s.wakeCap d) 64).reexamine d) s)

/-- The slot that a `ctl` instruction names: its own, or with T = 1 slot s[b][5:0]. -/
def State.ctlSlot (s : State) (o : F2) : Nat := if o.x.getLsbD 10 then field (s.sreg o.b) 0 6 else s.cur.slot
/-- T = 1 with s[b][5:0] = 63 (R190). -/
def State.ctlSelf (s : State) (o : F2) : Bool := o.x.getLsbD 10 && field (s.sreg o.b) 0 6 = 63
/-- T = 1 with a generation that is not the slot's (Table 7-10). -/
def State.ctlStale (s : State) (o : F2) : Bool :=
  o.x.getLsbD 10 && bits (s.sreg o.b) 32 32 ≠ (s.slot s.cur.core (s.ctlSlot o)).gen

/-- The number of the register. -/
def ctlNum (o : F2) : Nat := field o.x 0 10

/-- A `ctl.wr`: the status, and the state where the write is accepted. -/
def ctlWrite (i : Instr) (o : F2) (set : State → Option State) (s : State) : Host.Outcome State Fault Refusal :=
  run i s fun s =>
    if s.ctlSelf o then s.raiseIllegal i
    else if s.ctlStale o then .ok (s.setS o.d stStale).retire
    else
      match set s with
      | some s' => .ok (s'.setS o.d stOK).retire
      | none => .ok (s.setS o.d stRefused).retire

/-- CTL_RD (R190). -/
def execCtlRd (o : F2) (s : State) : Host.Outcome State Fault Refusal :=
  run (.ctlRd o) s fun s =>
    if s.ctlSelf o then s.raiseIllegal (.ctlRd o)
    else .ok (s.setS o.d (s.ctlGet s.cur.core (s.ctlSlot o) (ctlNum o))).retire

/-- CTL_WR of a register without a behaviour of its own (R190). -/
def execCtlWr (o : F2) (s : State) : Host.Outcome State Fault Refusal :=
  ctlWrite (.ctlWr o) o (fun s =>
    let v := s.sreg o.a
    let n := ctlNum o
    if n < 0x40 then
      ((s.slot s.cur.core (s.ctlSlot o)).ctlSet (s.ctlSlot o) n v).map fun sl =>
        s.modSlot s.cur.core (s.ctlSlot o) fun _ => sl
    else if ctlQuiet n && !s.quiet s.cur.core then none
    else (s.curCore.ctlSet s.clk n v).map fun co => s.modCurCore fun _ => co) s

/-- CTL_WR_STATUS (R190): UIE only. -/
def execCtlWrStatus (o : F2) (s : State) : Host.Outcome State Fault Refusal :=
  ctlWrite (.ctlWrStatus o) o (fun s =>
    ((s.slot s.cur.core (s.ctlSlot o)).ctlSet (s.ctlSlot o) 0 (s.sreg o.a)).map fun sl =>
      s.modSlot s.cur.core (s.ctlSlot o) fun _ => sl) s
/-- CTL_WR_TRBASE (R235). -/
def execCtlWrTrbase (o : F2) (s : State) : Host.Outcome State Fault Refusal :=
  ctlWrite (.ctlWrTrbase o) o (fun s => s.trbaseSet s.cur.core (s.sreg o.a)) s
/-- CTL_WR_EXPERT (R6): the enable acts from the next clk on. -/
def execCtlWrExpert (o : F2) (s : State) : Host.Outcome State Fault Refusal :=
  ctlWrite (.ctlWrExpert o) o (fun s => 
    some (s.modPart s.curPart fun p => { p with
      expert := s.sreg o.a &&& 1, expertWas := if s.clk ≤ p.expertClk then p.expertWas else p.expert, expertClk := s.clk })) s
/-- CTL_WR_CLKFIX (R375). -/
def execCtlWrClkfix (o : F2) (s : State) : Host.Outcome State Fault Refusal :=
  ctlWrite (.ctlWrClkfix o) o (fun s => s.clkfixSet s.curPart (s.sreg o.a)) s

/-! Operations on another slot (R191). -/

/-- The slot that a target word names. -/
def State.targetSlot (s : State) (o : F2) : Nat := field (s.sreg o.b) 0 6
def State.targetOf (s : State) (o : F2) : Slot := s.slot s.cur.core (s.targetSlot o)

/-- The status of a `slot` operation by the order of checks of R191: `trapped` where it needs TRAPPED, `refuse` its own
conditions. -/
def State.slotStatus (s : State) (o : F2) (trapped : Bool) (refuse : Slot → Bool) : Word :=
  let t := s.targetOf o
  if t.state = .free || t.gen ≠ bits (s.sreg o.b) 32 32 then stStale
  else if s.targetSlot o = 63 then stRefused
  else if trapped && t.state ≠ .trapped then stBusy
  else if refuse t then stRefused
  else stOK

/-- A `slot` operation: the status in s[d], and the effect where it is OK; where the effect writes s[d] too, the status stands [log 61,
DESIGN CHOICE]. -/
def slotOp (i : Instr) (o : F2) (trapped : Bool) (refuse : State → Slot → Bool) (eff : State → State) (s : State) :
    Host.Outcome State Fault Refusal :=
  run i s fun s =>
    let st := s.slotStatus o trapped (refuse s)
    if st = stOK then .ok ((eff s).setS o.d stOK).retire else .ok (s.setS o.d st).retire

/-- The path of a trapped slot that raised the trap (R121). -/
def Slot.faulting (sl : Slot) : Path := sl.path (sl.eff sl.trapQ)

/-- Copy channels of a slot whose fault has been taken become ACTIVE again (R281). -/
def State.resumeCopies (s : State) (c k : Nat) : State :=
  let sl := s.slot c k
  let mine := fun (r : CopyReq) => r.slot = k && r.gen = sl.gen && !sl.copyFaults.contains r.chan
  ((s.core c).copyq.filter fun r => mine r && r.fault ≠ none).foldl (fun s r =>
    let head := ((s.core c).copyq.filter fun x => x.chan = r.chan).head?
    (s.modCore c fun co => { co with
      copyFaulted := if head.any mine then co.copyFaulted.rem r.chan else co.copyFaulted
      copyq := co.copyq.map fun x => if x.chan = r.chan && mine x then { x with fault := none } else x }).soon
      .copyLineTransfer { a := c, b := r.chan }) s

/-- The grid of a slot is being pre-empted or swapped out (R301). -/
def State.stopsGrid (s : State) (c k : Nat) : Bool :=
  match (s.slot c k).member with
  | some m => (s.partn (s.partOf c)).stopping.contains m.grid
  | none => false
/-- The end of the handling of a trap by resumption, skip or redirection (R182, R183): the faulting path goes on at `pc`. A
subscriber that does not simply resume leaves its channel with REASON 5. A group whose grid stops is stopping again: its saving has
waited for the end of the handling (R182). -/
def State.restart (s : State) (c k : Nat) (pc : Word) (skip : Bool) : State :=
  let sl := s.slot c k
  let q := sl.eff sl.trapQ
  let old := (sl.path q).pc
  let st := if s.stopsGrid c k then .stopping else .active
  let s := s.modSlot c k fun sl => { sl with state := st, unsettled := false, handled := false, fetchTrap := false }
  let s := s.modCore c fun co => { co with events := co.events.filter fun e => e.2 ≠ k }
  let s :=
    if skip || pc ≠ old then
      if sl.sub.isSome && !q then s.leave c k 5 old pc
      else s.modSlot c k fun sl => sl.setPath q fun p => p.moveTo pc
    else s
  s.resumeCopies c k

/-- SLOT_RESUME (R183). -/
def execSlotResume (o : F2) (s : State) : Host.Outcome State Fault Refusal :=
  slotOp (.slotResume o) o true (fun _ _ => false)
    (fun s => s.restart s.cur.core (s.targetSlot o) (s.targetOf o).epc false) s

/-- SLOT_KILL (R184). -/
def execSlotKill (o : F2) (s : State) : Host.Outcome State Fault Refusal :=
  slotOp (.slotKill o) o false (fun _ _ => false)
    (fun s => s.killSlot s.cur.core (s.targetSlot o) (s.targetOf o).killCause) s

/-- The successor of a PC in a line that holds it as a head. -/
def skipIn (pc : Word) (l : List Half) : Option Word :=
  if pcReason (lineBits l) pc = 0 then some (lineNext (lineBits l) pc) else none
/-- The line across a link that a `slot.skip` needs: one request of 64 bytes, whose fault is no trap (R183). -/
def State.askSkip (s : State) (h : Home) (pc : Word) : Act (Option Word) :=
  let buf := s.curPath.buf
  if buf.any fun e => e.1 = failKey then .ok none
  else if (List.range 8).all fun i => buf.any fun e => e.1 = i then
    .ok (skipIn pc (halvesOf ((List.range 8).map fun i => Table.get 0 buf i)))
  else
    match s.newReq h.pkg h.target (s.mkAccess s.cur.core s.cur.slot s.cur.pathQ .load (lineBase pc) h 64 0) .path 0 true true with
    | some s' => .error (.holdAfter .reply (s'.modPath fun p => { p with buf := Table.ins p.buf quietKey 1 }))
    | none => .error (.hold .tag)
/-- The successor of a trapped slot's EPC, from the line that holds it (R183); none where there is none. -/
def State.skipTarget (s : State) (sl : Slot) : Act (Option Word) :=
  match s.lineHome s.cur.core sl.epc with
  | .error (.hold w) => .error (.hold w)
  | .error _ => .ok none
  | .ok h =>
    match s.curCore.cached h.lineKey with
    | some l => .ok (skipIn sl.epc l)
    | none =>
      if s.across h then s.askSkip h sl.epc
      else
        let w := s.wordsHere s.curPart h.loc 8
        .ok (if w.bad.isSome then none else skipIn sl.epc (halvesOf w.ws))

/-- SLOT_SKIP (R183). -/
def execSlotSkip (o : F2) (s : State) : Host.Outcome State Fault Refusal :=
  run (.slotSkip o) s fun s =>
    let st := s.slotStatus o true fun t => t.fetchTrap
    if st ≠ stOK then .ok (s.setS o.d st).retire
    else
      match s.skipTarget (s.targetOf o) with
      | .error e => .error e
      | .ok none => .ok (s.setS o.d stRefused).retire
      | .ok (some pc) => .ok ((s.restart s.cur.core (s.targetSlot o) pc true).setS o.d stOK).retire

/-- IDX of `slot`. -/
def slotIdx (o : F2) : Nat := field o.x 4 5

/-- SLOT_RDS (R191). -/
def execSlotRds (o : F2) (s : State) : Host.Outcome State Fault Refusal :=
  slotOp (.slotRds o) o true (fun _ _ => false) (fun s => s.setS o.c ((s.targetOf o).sreg (slotIdx o))) s
/-- SLOT_WRS (R191). -/
def execSlotWrs (o : F2) (s : State) : Host.Outcome State Fault Refusal :=
  slotOp (.slotWrs o) o true (fun _ _ => false)
    (fun s => s.modSlot s.cur.core (s.targetSlot o) fun sl => sl.setS (slotIdx o) (s.sreg o.a)) s
/-- s[a][7:0] lies at or beyond the target's allocation. -/
def State.vregBeyond (s : State) (o : F2) (t : Slot) : Bool := t.valloc ≤ field (s.sreg o.a) 0 8
/-- SLOT_RDV (R191). -/
def execSlotRdv (o : F2) (s : State) : Host.Outcome State Fault Refusal :=
  slotOp (.slotRdv o) o true (fun s t => s.vregBeyond o t)
    (fun s => s.setV o.c.toNat ((s.targetOf o).vreg (field (s.sreg o.a) 0 8))) s
/-- SLOT_WRV (R191). -/
def execSlotWrv (o : F2) (s : State) : Host.Outcome State Fault Refusal :=
  slotOp (.slotWrv o) o true (fun s t => s.vregBeyond o t)
    (fun s => s.modSlot s.cur.core (s.targetSlot o) fun sl => sl.setV (field (s.sreg o.a) 0 8) (s.vreg o.c.toNat)) s
/-- SLOT_RDM (R191). -/
def execSlotRdm (o : F2) (s : State) : Host.Outcome State Fault Refusal :=
  slotOp (.slotRdm o) o true (fun _ t => o.c = 0 || (t.task.isSome && 8 ≤ slotIdx o))
    (fun s => s.setM o.c.toNat ((s.targetOf o).mreg ((s.targetOf o).eff (s.targetOf o).trapQ) (slotIdx o))) s
/-- SLOT_WRM (R191). -/
def execSlotWrm (o : F2) (s : State) : Host.Outcome State Fault Refusal :=
  slotOp (.slotWrm o) o true (fun _ t => slotIdx o = 0 || (t.task.isSome && 8 ≤ slotIdx o))
    (fun s => s.modSlot s.cur.core (s.targetSlot o) fun sl => sl.setM (slotIdx o) (s.mreg o.c.toNat)) s
/-- SLOT_TDOWN (R191): the admitter is asked to tear down the target's grid. -/
def execSlotTdown (o : F2) (s : State) : Host.Outcome State Fault Refusal :=
  slotOp (.slotTdown o) o false (fun _ t => t.task.isSome)
    (fun s =>
      match (s.targetOf o).member with
      | some m => s.soon .gridCompletion { a := m.grid, flag := true, cause := bits (s.sreg o.a) 0 8 }
      | none => s) s

end Sys2Proof.Machine
end

