-- ==== Sys2Proof/Machine/Admit.lean ====
section
/-! DEFINITION. The package admitter (R298 to R304, R369): placement, admission, pre-emption, swap-out, restoration, completion,
teardown, the class queues, and the cluster watchdog (R357). -/

namespace Sys2Proof.Machine

/-! Placement (R299). -/

/-- A window holds a unit of a core's larder. -/
def Team.inWay (t : Team) (c u units : Nat) : Bool := t.core = c && overlap (u * 4096) (units * 4096) (t.off * 4096) (t.units * 4096)
/-- `units` units from unit `u` are free on a core. -/
def State.unitsFree (s : State) (c u units : Nat) : Bool := s.gridArea c u units && !(s.teams.any fun t => t.2.inWay c u units)
/-- The free G-class slots of a core, the lowest first (R305). -/
def State.freeG (s : State) (c : Nat) : List Nat :=
  (List.range (63 - (s.core c).hslots.toNat)).filter fun k => (s.slot c k).state = .free
/-- The registers that the grid groups of a core hold. -/
def State.regsHeld (s : State) (c : Nat) : Nat :=
  (((s.core c).slots.filter fun e => (s.core c).cls e.1 = 0 && e.2.state ≠ .free).map fun e => e.2.valloc).sum
/-- The aligned blocks of `n` registers of a core that no group or task holds, below the registers reserved for the H-class slots
and the S-slot (R108, R109). -/
def State.regBlocks (s : State) (c n : Nat) : List Nat :=
  let held := (s.core c).slots.filter fun e => e.1 ≠ 63 && e.2.state ≠ .free
  ((List.range ((2032 - 16 * (s.core c).hslots.toNat) / n)).filter fun i =>
    !(held.any fun e => i * n < e.2.vbase + e.2.valloc && e.2.vbase < (i + 1) * n)).map fun i => i * n
/-- A core can take a team of a record, its window apart (R299, R108, R109, R146): the registers are counted, and every group finds an
aligned block [log 22, DEDUCED]. -/
def State.coreTakes (s : State) (r : List Word) (c : Nat) : Bool :=
  let co := s.core c
  !co.inReset && !(s.die (coreDie c)).absent && recGroups r ≤ (s.freeG c).length &&
  s.regsHeld c + recRegs r + 16 * co.hslots.toNat ≤ 2032 && recGroups r ≤ (s.regBlocks c (vallocOf (recVcode r))).length &&
  (recTiles r = 0 || !(s.teams.any fun t => t.2.core = c && 0 < t.2.tiles))
/-- Where a cluster stands: the die, the origin of its rectangle, the first unit of its windows. -/
structure Spot where
  die : Nat
  x : Nat
  y : Nat
  off : Nat
  deriving DecidableEq, Repr
/-- The cores of a rectangle, row by row. -/
def rectCores (r : List Word) (d x y : Nat) : List Nat :=
  (List.range (recH r)).flatMap fun j => (List.range (recW r)).map fun i => coreIdx d (x + i) (y + j)
/-- The lowest common offset at which a rectangle takes a cluster. -/
def State.fitAt (s : State) (r : List Word) (used : List Nat) (d x y : Nat) : Option Spot :=
  let cores := rectCores r d x y
  if cores.any (fun c => used.contains c || !s.coreTakes r c) then none
  else if recLarder r = 0 then some ⟨d, x, y, 0⟩
  else ((List.range 512).find? fun u => cores.all fun c => s.unitsFree c u (recLarder r)).map fun u => ⟨d, x, y, u⟩
/-- The first place for a cluster on a list of dies. -/
def State.fitCluster (s : State) (r : List Word) (used dies : List Nat) : Option Spot :=
  firstSome (fun d => firstSome (fun y => firstSome (fun x => s.fitAt r used d x y) (List.range (17 - recW r)))
    (List.range (11 - recH r))) dies
/-- Places for `n` clusters, in order. -/
def State.fitAll (s : State) (r : List Word) (dies : List Nat) : Nat → List Nat → Option (List Spot)
  | 0, _ => some []
  | n + 1, used =>
    match s.fitCluster r used dies with
    | none => none
    | some p => (s.fitAll r dies n (used ++ rectCores r p.die p.x p.y)).map fun l => p :: l
/-- The placement of a grid of a partition. -/
def State.placeGrid (s : State) (part : Nat) (r : List Word) : Option (List Spot) :=
  let dies := (recDieList r).filter fun d => (s.partn part).pairs.getLsbD d
  if recOneDie r then firstSome (fun d => s.fitAll r [d] (recNclus r) []) dies else s.fitAll r dies (recNclus r) []

/-- LWIN0 of the groups of a cluster (R299, Table 7-4). -/
def State.clusterWindow (s : State) (r : List Word) (p : Spot) : Word :=
  if recLarder r = 0 then 0
  else
    word (7 * 2 ^ 61 + s.pkgId.toNat * 2 ^ 50 + p.die * 2 ^ 47 + p.x * 2 ^ 43 + p.y * 2 ^ 39 + (recW r - 1) * 2 ^ 35 +
      (recH r - 1) * 2 ^ 31 + p.off * 2 ^ 22 + (recLarder r - 1) * 2 ^ 13)
/-- The words of `units` units of a larder hold 0 and full, without poison (08, larder reset); the banks of the window begin to leave
retention where they are in it (R197), and the accesses on the shelf for its words are examined (R210, R274). -/
def State.clearWindow (s : State) (c off units : Nat) : State :=
  if units = 0 then s
  else
  let s := (s.wakeBanks ((List.range 32).map fun b => (c, b))).1
  let lo := larderLoc c (off * 4096)
  let hi := lo + units * 4096
  let s : State := { s with
    mem := s.mem.filter fun e => e.1 < lo || hi ≤ e.1
    empties := s.empties.filter fun w => 8 * w < lo || hi ≤ 8 * w
    poison := s.poison.filter fun w => 8 * w < lo || hi ≤ 8 * w }
  s.lookShelf lo (units * 4096)
/-- The clk from which on the banks of the windows of a grid's teams are out of retention (R197). -/
def State.windowsAwake (s : State) (g : Nat) : Nat :=
  (s.teams.filter fun t => t.2.grid = g && t.2.units ≠ 0).foldl (fun m t =>
    (List.range 32).foldl (fun m b => max m ((s.core t.2.core).bankFrom s.clk b)) m) s.clk
/-- The block of registers that a group takes: the first free one (R109); a core that takes the group has one. -/
def State.regBlock (s : State) (c n : Nat) : Nat := (s.regBlocks c n).headD 0

/-! Groups. -/

/-- A group's slot as its grid is admitted (R83, R110, R178): it starts when its window is clear. -/
def groupSlot (r : List Word) (m : Member) (gen : BitVec 32) (win : Word) (vbase : Nat) : Slot :=
  { gen := gen, state := .active, pri := BitVec.ofNat 2 (recClass r), sregs := startRegs [recWord r 1]
    lwin := if win = 0 then [] else [(0, win)], vbase := vbase, valloc := vallocOf (recVcode r), member := some m
    p := { pc := recWord r 0, live := allLanes, wait := .window } }
/-- A slot of a core is taken, its register banks leave retention, and the slot holds what `f` makes of its generation and of
its first register; the banks that have still to wake. -/
def State.takeSlot (s : State) (c k n : Nat) (f : BitVec 32 → Nat → List Nat → Slot) : State :=
  let base := s.regBlock c n
  let w := s.wakeRegs c base n
  w.1.modSlot c k fun sl => f sl.gen base w.2
/-- The matrix unit of a core as a matrix team of `n` tiles starts: its own tiles z0 to z(n-1) are as after reset (R145; 06, Reset of the
tiles and of the user context), and its user context; the privileged context stays [log 39, DEDUCED]. -/
def Core.startMatrix (n : Nat) (co : Core) : Core := { co with tiles := co.tiles.filter fun e => n ≤ e.1, userCtx := {} }
/-- A team is placed on a core. -/
def State.startTeam (s : State) (g cl : Nat) (r : List Word) (win : Word) (off c : Nat) : State × Nat :=
  let (t, s) := s.fresh
  let ks := (s.freeG c).take (recGroups r)
  let team : Team := { grid := g, cluster := cl, core := c, off := off, units := recLarder r, tiles := recTiles r
                       valloc := vallocOf (recVcode r), groups := recGroups r, slots := ks }
  let s := (s.clearWindow c off (recLarder r))
  let s := if 0 < recTiles r then s.modCore c (Core.startMatrix (recTiles r)) else s
  let s := { s with teams := Table.ins s.teams t team }
  (ks.zipIdx.foldl (fun s e => s.takeSlot c e.1 team.valloc fun gen base _ => groupSlot r ⟨g, cl, t, e.2⟩ gen win base) s, t)
/-- The teams of a cluster are placed, row by row. -/
def State.startTeams (s : State) (g cl : Nat) (r : List Word) (win : Word) (off : Nat) : List Nat → State × List Nat
  | [] => (s, [])
  | c :: rest =>
    let a := s.startTeam g cl r win off c
    let b := a.1.startTeams g cl r win off rest
    (b.1, a.2 :: b.2)
/-- A cluster is placed; its barrier expects its groups (R353), and its watchdog runs (R357). -/
def State.startCluster (s : State) (g : Nat) (r : List Word) (x : Spot × Nat) : State × Nat :=
  let p := x.1
  let (n, s) := s.fresh
  let cores := rectCores r p.die p.x p.y
  let a := s.startTeams g n r (s.clusterWindow r p) p.off cores
  let cl : Cluster := { grid := g, index := x.2, die := p.die, x0 := p.x, y0 := p.y, w := recW r, h := recH r, teams := a.2
                        exp := cores.length * recGroups r, progress := a.1.clk }
  (({ a.1 with clusters := Table.ins a.1.clusters n cl }).later (s.clk + 1024) .watchdogTick { a := n }, n)
def State.startClusters (s : State) (g : Nat) (r : List Word) : List (Spot × Nat) → State × List Nat
  | [] => (s, [])
  | p :: rest =>
    let a := s.startCluster g r p
    let b := a.1.startClusters g r rest
    (b.1, a.2 :: b.2)

/-- A grid is admitted at its places (R23, R304): its groups start when their windows are clear, at 2 KiB per clk once their banks are out
of retention [log 44, DESIGN CHOICE]. -/
def State.admitNew (s : State) (part : Nat) (q : Queued) (spots : List Spot) : State :=
  let r := q.record
  let (g, s) := s.fresh
  let a := s.startClusters g r spots.zipIdx
  let grid : Grid := { record := r, part := part, clusters := a.2, admitted := g, live := recCells r * recGroups r
                       parent := q.parent, children := 0 }
  ({ a.1 with grids := Table.ins a.1.grids g grid }).later (a.1.windowsAwake g + 2 * recLarder r) .groupStart { a := g }

/-- GROUP_START (R304): the groups of grid `a` whose windows are clear, or filled by a restoration. -/
def execGroupStart (s : State) : Host.Outcome State Fault Refusal :=
  let start := fun (s : State) (c k : Nat) =>
    let sl := s.slot c k
    if sl.member.any (fun m => m.grid = s.input.a) then
      let l := (regBanks sl.vbase sl.valloc).filter fun b => Table.get 0 (s.core c).regAsleep b = 1
      let go := fun (p : Path) => if p.wait = .window then { p with wait := if l = [] then .none else .start l } else p
      s.modSlot c k fun sl => { sl with p := go sl.p, q := go sl.q }
    else s
  .next ((s.teams.filter fun t => t.2.grid = s.input.a).foldl (fun s t => t.2.slots.foldl (fun s k => start s t.2.core k) s) s)

/-! Withdrawing waits (R301, step 1). -/

/-- What a path's wait becomes when its grid stops, or when the watchdog trips: it is withdrawn, the path standing at its
instruction; or it goes on to its end, where the instruction has had an effect or its answer comes by itself. -/
def Path.withdrawable (p : Path) : Bool :=
  match p.wait with
  | .none | .shelved | .matrix _ | .matrices | .reply | .until _ | .load | .firkin | .ending | .multicast _ => false
  | _ => !(p.buf.any fun e => e.1 = jobKey)
/-- A `fkget` of a path is between two of its operations (R322). -/
def State.retries (s : State) (c k : Nat) (q : Bool) (e : Nat × Instr × Input) : Bool :=
  e.2.1 = .fkgetRetry &&
  match e.2.2.body with
  | .firkin r => r.core = c && r.slot = k && (s.slot c k).eff r.pathQ = (s.slot c k).eff q
  | _ => false
/-- An access of a path, as the paths stand now (R121). -/
def State.ofPath (s : State) (c k : Nat) (q : Bool) (a : Access) : Bool :=
  s.isOf c k a && (s.slot c k).eff a.pathQ = (s.slot c k).eff q
/-- A refused access of a path that is to be sent again. -/
def State.resends (s : State) (c k : Nat) (q : Bool) (e : Nat × Instr × Input) : Bool :=
  e.2.1 = .shelfRetry &&
  match e.2.2.body with
  | .access a => s.ofPath c k q a
  | _ => false
/-- The withdrawal of a path's waiting access reaches its shelf (R209): on the package the access goes from the shelf, from its larder
bank, or is not sent again; another package's shelf is asked, once, and its reply says what came of it. -/
def State.withdrawNow (s : State) (c k : Nat) (q : Bool) : State :=
  match s.reqs.find? fun e => s.awaits c k q e.2 with
  | some e =>
    if untagged ≤ e.1 then
      ({ s with reqs := Table.del s.reqs e.1 } : State).modPathOf c k q Path.withdrawn
    else if s.reqs.any fun x => x.2.owner = .withdrawal e.2.acc.tag e.2.epoch && x.2.acc.core = c then s
    else s.postReq e.2.toPkg e.2.toTgt (s.mkAccess c 63 false .load 0 ⟨0, 0, 0⟩ 8 0) (.withdrawal e.2.acc.tag e.2.epoch)
  | none =>
    let drop := fun (l : List Access) => l.filter fun a => !s.ofPath c k q a
    let s' : State := { s with
      cores := s.cores.map fun e => (e.1, { e.2 with shelf := drop e.2.shelf })
      vaults := s.vaults.map fun e => (e.1, { e.2 with shelf := drop e.2.shelf })
      agenda := s.agenda.filter fun e => !s.resends c k q e }
    s'.modPathOf c k q Path.withdrawn
/-- A withdrawal from another package reaches a shelf (R209): an access that it holds is answered withdrawn, one that has been performed
has had its reply; the withdrawal itself is acknowledged. -/
def State.withdrawAway (s : State) (n pkg core tag epoch : Nat) (own : Nat) : State :=
  let loc := homeLoc n
  let s' :=
    match (s.shelfOf loc).find? fun a => a.pkg = pkg && a.core = core && a.tag = tag && a.epoch = epoch with
    | some a =>
      (s.setShelf loc ((s.shelfOf loc).erase a)).send core n a.part 3 (.reply pkg core tag epoch 0 0xFD)
    | none => s
  s'.send core n 0 3 (.reply pkg core (own % 4096) (own / 4096) 0 0)
/-- SHELF_WITHDRAWAL (R209): nothing where the access has been performed before. -/
def execShelfWithdrawal (s : State) : Host.Outcome State Fault Refusal :=
  let p := (s.slot s.input.a s.input.b).path s.input.flag
  .next (
    if s.input.cause = 1 then s.withdrawAway s.input.a s.input.b s.input.c s.input.d s.input.e s.input.word.toNat
    else if p.wait = .shelved then
      (s.withdrawNow s.input.a s.input.b s.input.flag).settle s.input.a s.input.b
    else s)
/-- The wait of one path is withdrawn where it can be (R301, R209, R322, R332). -/
def State.withdrawWait (s : State) (c k : Nat) (q : Bool) : State :=
  let p := (s.slot c k).path q
  let s := match p.wait with
    | .lease => s.modDie (coreDie c) fun d => d.withdraw ⟨c, k, (s.slot c k).gen⟩
    | _ => s
  if p.wait = .shelved then s.soon .shelfWithdrawal { a := c, b := k, flag := q }
  else if p.wait = .firkin && s.agenda.any (s.retries c k q) then
    ({ s with agenda := s.agenda.filter fun e => !s.retries c k q e }).modPathOf c k q Path.withdrawn
  else if Path.withdrawable p then s.modPathOf c k q Path.withdrawn
  else s

/-! Pre-emption and swap-out (R301, R303). -/

/-- The groups of a grid that still hold slots, by core and slot. -/
def State.gridSlots (s : State) (g : Nat) : List (Nat × Nat) :=
  (s.teams.filter fun t => t.2.grid = g).flatMap fun t =>
    (t.2.slots.filter fun k => (s.slot t.2.core k).member.any fun m => m.grid = g && m.team = t.1).map fun k => (t.2.core, k)
/-- A group waits in step 3 of R103 with its last path. -/
def Slot.ending (sl : Slot) : Bool := !sl.dual && sl.p.wait = .ending
/-- Every group of a grid stops at its next instruction boundary. -/
def State.stopGrid (s : State) (g : Nat) : State :=
  (s.gridSlots g).foldl (fun s e =>
    if (s.slot e.1 e.2).ending then s
    else
      let s := s.modSlot e.1 e.2 fun sl => if sl.state = .active then { sl with state := .stopping } else sl
      ((s.withdrawWait e.1 e.2 false).withdrawWait e.1 e.2 true).settle e.1 e.2) s
/-- The bytes that a save area needs (R301). -/
def saveBytes (r : List Word) : Nat :=
  recCells r * (recLarder r * 4096 + 16448 * recTiles r + 20480 + recGroups r * (8192 + 512 * vallocOf (recVcode r)))
/-- The save areas in use in a partition, those of grids that are being stopped included. -/
def State.poolUsed (s : State) (part : Nat) : Nat :=
  ((s.grids.filter fun e => e.2.part = part && (e.2.state = .saved || (s.partn part).stopping.contains e.1)).map fun e =>
    saveBytes e.2.record).sum
def State.poolHolds (s : State) (part n : Nat) : Bool := s.poolUsed part + n ≤ (s.partn part).poolSize
/-- A pre-emption or a swap-out begins. -/
def State.beginStop (s : State) (part g : Nat) (swap : Bool) : State :=
  let s := (s.modPart part fun p => { p with stopping := p.stopping ++ [g] }).modGrid g fun x => { x with swapped := swap }
  (s.stopGrid g).soon .preemptionEnd { a := part, b := g }

/-- A path has nothing left to complete. -/
def Path.still (p : Path) : Bool := p.wait = .none && !(p.buf.any fun e => e.1 = jobKey)
/-- A group can be saved: its paths stand, its handling has ended, its accesses are performed, its matrix commands and copies
are done or FAULTED, and its leases have a result for every command (R301, R182) [log 44, DESIGN CHOICE]. -/
def State.canSave (s : State) (c k : Nat) : Bool :=
  let sl := s.slot c k
  let co := s.core c
  let copying := co.copyq.any fun r => r.slot = k && r.gen = sl.gen && !co.copyFaulted.contains r.chan
  let leased := (s.die (coreDie c)).engines.any fun e =>
    e.2.state = .leased && e.2.who = ⟨c, k, sl.gen⟩ && e.2.fifos.pending ≠ 0
  sl.ending ||
  ((sl.state = .stopping || (sl.state = .trapped && !sl.handled && !sl.unsettled)) && Path.still sl.p && (!sl.dual || Path.still sl.q) &&
    !s.unperformed c k false && !copying && !leased && !(co.mcmds.any fun m => m.slot = k && m.gen = sl.gen))

/-- A group that waits in `end` counts as having executed it; its slot goes on until its accesses and copies are done (R106). -/
def State.detach (s : State) (c k : Nat) : State :=
  let gen := (s.slot c k).gen
  let s := (s.releaseHeld ⟨c, k, gen⟩).leaveTags c k
  let s := if s.publishes c k then s.closeChannel c else s
  let s := s.unsubscribe c k
  match (s.slot c k).member with
  | some m => ((s.queueEnd m false).modSlot c k fun sl => { sl with member := none }).groupEnded m
  | none => s
/-- What pre-emption keeps of a group beside its slot: the tags joined (R288); a line that a path has fetched is fetched again. -/
def State.savedSlot (s : State) (c k : Nat) : Slot :=
  let sl := s.slot c k
  { sl with
    joined := ((s.core c).mcast.filter fun e => e.slot = k && e.gen = sl.gen).map fun e => (e.tag, e.base), handled := false
    p := { sl.p with line := none }, q := { sl.q with line := none } }
/-- Keys of a table moved down by a distance, those of a range only. -/
def rebase (l : NatSet) (lo n : Nat) : NatSet := (l.filter fun w => lo ≤ w && w < lo + n).map fun w => w - lo
/-- A team as pre-emption saves it. -/
def State.savedTeam (s : State) (no : Nat) (t : Team) : SavedTeam :=
  let c := t.core
  let co := s.core c
  let lo := larderLoc c (t.off * 4096)
  let n := t.units * 4096
  let ks := t.slots.filter fun k => (s.slot c k).member.any fun m => m.team = no
  let mine := fun (r : CopyReq) => (ks.find? fun k => r.slot = k && r.gen = (s.slot c k).gen)
  { no := no, team := { t with slots := ks }, slots := ks.map fun k => s.savedSlot c k
    bytes := (s.mem.filter fun e => lo ≤ e.1 && e.1 < lo + n).map fun e => (e.1 - lo, e.2)
    empties := rebase s.empties (lo / 8) (n / 8), poison := rebase s.poison (lo / 8) (n / 8)
    tiles := co.tiles.filter fun e => e.1 < t.tiles
    ctx := if 0 < t.tiles then co.userCtx else {}
    copies := co.copyq.filterMap fun r => (mine r).bind fun k => (s.slot c k).member.map fun m => (m.index, r)
    pub := co.chan.bind fun ch => (ks.find? fun k => ch.slot = k && ch.gen = (s.slot c k).gen).bind fun k =>
      (s.slot c k).member.map fun m => m.index }
/-- A copy request of a core leaves its FIFO with its group. -/
def State.dropCopies (s : State) (c k : Nat) : State :=
  let gen := (s.slot c k).gen
  let mine := fun (r : CopyReq) => r.slot = k && r.gen = gen
  let chans := (((s.core c).copyq.filter mine).map CopyReq.chan).eraseDups
  let s := s.modCore c fun co => { co with
    copyq := co.copyq.filter fun r => !mine r, copyFaulted := co.copyFaulted.filter fun ch => !chans.contains ch }
  chans.foldl (fun s ch => s.copyLater c ch s.clk) s
/-- A message in the mailbox is addressed to a group. -/
def Mail.isFor (e : Mail) (k : Nat) (gen : BitVec 32) : Bool := tagSlot e.msg.dst = k && tagGen e.msg.dst = gen.toNat % 2 ^ 28
/-- A saved group's slot is freed (R301, steps 3 and 6), and with it the mailbox entries of the messages to it. -/
def State.vacate (s : State) (c k : Nat) : State :=
  let sl := s.slot c k
  let s := ((s.releaseHeld ⟨c, k, sl.gen⟩).leaveTags c k).dropCopies c k
  let s := s.modCore c fun co => { co with mailbox := co.mailbox.filter fun e => !Mail.isFor e k sl.gen }
  let s := s.drainPort c (s.core c).port
  let s := s.modCore c fun co => { co with
    events := co.events.filter fun e => e.2 ≠ k
    chan := if s.publishes c k then none else co.chan
    regTouched := (regBanks sl.vbase sl.valloc).foldl (fun t b => Table.ins t b s.clk) co.regTouched }
  s.modSlot c k Slot.freed
/-- Some grid that `g` launched is queued or resident (R303); one that has been pre-empted counts as queued. -/
def State.hasChildren (s : State) (part g : Nat) : Bool :=
  (s.partn part).queues.any (fun e => e.2.any fun q => q.parent = some g) ||
  (s.partn part).rings.any (fun e => e.2.own.any fun q => q.2.parent = some g) || s.grids.any fun e => e.2.parent = some g

def Part.queue (p : Part) (c : Nat) : List Queued := Table.get [] p.queues c
def Part.modQueue (p : Part) (c : Nat) (f : List Queued → List Queued) : Part := { p with queues := Table.ins p.queues c (f (p.queue c)) }
/-- A saved grid goes back to the head of its class queue (R301, R303). -/
def State.requeue (s : State) (g : Nat) : State :=
  match s.grid? g with
  | some x =>
    ((s.modGrid g fun x => { x with swapped := false }).modPart x.part fun p =>
      p.modQueue (recClass x.record) fun q => ⟨x.record, x.parent, some g, none⟩ :: q).soon .admitterPass { a := x.part }
  | none => s
/-- The teams and clusters of a grid are no longer resident. -/
def State.withoutTeams (s : State) (g : Nat) : State :=
  { s with teams := s.teams.filter fun t => t.2.grid ≠ g, clusters := s.clusters.filter fun c => c.2.grid ≠ g }
/-- The save area is written (R301): its place in the pool and its format are not stated, so that every byte of the pool that takes a
write holds a free value [log 44, DESIGN CHOICE]. -/
def State.writePool (s : State) (part : Nat) : State :=
  let base := (s.partn part).poolBase
  let t : State := { s with freeCtr := s.freeCtr + 1 }
  (List.range (s.partn part).poolSize).foldl (fun t i =>
    if t.poisoned (base + i) then t else t.setByte (base + i) (Config.poolByte s.freeCtr (base + i))) t
/-- A stopped grid is saved and its resources are freed (R301, steps 5 and 6). -/
def State.saveGrid (s : State) (part g : Nat) : State :=
  let s := (s.gridSlots g).foldl (fun s e => if (s.slot e.1 e.2).ending then s.detach e.1 e.2 else s) s
  let saved := (s.teams.filter fun t => t.2.grid = g).map fun t => s.savedTeam t.1 t.2
  let clusters := s.clusters.filter fun c => c.2.grid = g
  let s := (s.gridSlots g).foldl (fun s e => s.vacate e.1 e.2) s
  -- the watchdogs of its clusters stop
  let s : State := { s with agenda := s.agenda.filter fun e => !(e.2.1 = .watchdogTick && clusters.any fun c => c.1 = e.2.2.a) }
  let s := (s.withoutTeams g).modGrid g fun x =>
    { x with saved := saved, savedClusters := clusters, state := if x.state = .completing then .completing else .saved }
  let s := (s.modPart part fun p => { p with stopping := p.stopping.erase g }).writePool part
  match s.grid? g with
  | some x =>
    if x.state = .saved && !(x.swapped && s.hasChildren part g) then s.requeue g else s.soon .admitterPass { a := part }
  | none => s
/-- PREEMPTION_END (R300): the groups of a grid that is being stopped are saved, once each can be; before that a wait in which a path finds
itself after its grid has begun to stop is withdrawn too, every 16 clk [log 44, DESIGN CHOICE]. -/
def execPreemptionEnd (s : State) : Host.Outcome State Fault Refusal :=
  let part := s.input.a
  let g := s.input.b
  if !(s.partn part).stopping.contains g then .next s
  else
    match s.grid? g with
    | none => .next ((s.modPart part fun p => { p with stopping := p.stopping.erase g }).soon .admitterPass { a := part })
    | some _ =>
      if (s.gridSlots g).all fun e => s.canSave e.1 e.2 then .next (s.saveGrid part g)
      else .next ((s.stopGrid g).later (s.clk + 16) .preemptionEnd s.input)

/-! Restoration (R302). -/

/-- A saved group in its new slot: its registers as saved but for LWIN0 and the generation; a path in a wait of none. -/
def restoredSlot (old : Slot) (gen : BitVec 32) (win : Word) (vbase : Nat) (banks : List Nat) (core : Nat → Nat) (clk : Nat) : Slot :=
  { old with
    gen := gen, vbase := vbase, lwin := Table.put 0 old.lwin 0 win, joined := []
    state := if old.state = .trapped then .trapped else .active, unsettled := false, handled := false
    sub := old.sub.map fun b => { b with chan := core b.chan, buffer := b.buffer.map fun e => { e with due := clk } }
    p := if banks ≠ [] && old.p.wait = .none then { old.p with wait := .start banks } else old.p
    q := if banks ≠ [] && old.q.wait = .none then { old.q with wait := .start banks } else old.q }
/-- A copy request saved with a group, for its new slot; its buffer goes, so that its line is read again, and the members of a multicast
request are those of its new die (R283). -/
def restoredCopy (r : CopyReq) (k : Nat) (sl : Slot) : CopyReq :=
  { r with slot := k, gen := sl.gen, wins := r.wins.map fun _ => sl.windows, buf := [], awaited := 0, started := false, members := [] }
/-- The base of a tag that a saved team held: it moves as the window that holds it (R288). -/
def SavedTeam.movedBase (t : SavedTeam) (off base : Nat) : Nat :=
  if t.team.off * 4096 ≤ base && base < (t.team.off + t.team.units) * 4096 then base - t.team.off * 4096 + off * 4096 else base
/-- A group of a saved team takes a slot: its tags, its copies and its trap event with it. A tag is joined again where the match table of
the new core has room for it and no other group there holds it; else it is skipped [log 44, DESIGN CHOICE]. -/
def State.restoreGroup (s : State) (t : SavedTeam) (win : Word) (off c k : Nat) (core : Nat → Nat) (old : Slot) : State :=
  let s := s.takeSlot c k old.valloc fun gen base banks => restoredSlot old gen win base banks core s.clk
  let sl := s.slot c k
  let s := old.joined.foldl (fun s e =>
    if (s.core c).mcast.length < 16 && !((s.core c).mcast.any fun x => x.tag = e.1) then
      (s.modCore c fun co => { co with mcast := co.mcast ++ [⟨e.1, k, sl.gen, t.movedBase off e.2, false⟩] }).soon .multicastJoinPacket
        { a := c, b := e.1 }
    else s) s
  let mine := (t.copies.filter fun e => old.member.any fun m => m.index = e.1).map fun e => restoredCopy e.2 k sl
  let s := mine.foldl (fun s r => (s.modCore c fun co => { co with copyq := co.copyq ++ [r] }).copyLater c r.chan s.clk) s
  if sl.state = .trapped then (s.modCore c fun co => co.queueEvent s.clk k).soon .trapEventEntry { a := c } else s
/-- The window of a saved team at its new place. -/
def State.fillWindow (s : State) (t : SavedTeam) (c off : Nat) : State :=
  let lo := larderLoc c (off * 4096)
  let s := s.clearWindow c off t.team.units
  let s := t.bytes.foldl (fun s e => s.setByte (lo + e.1) e.2) s
  { s with
    empties := t.empties.foldl (fun m w => m.add (lo / 8 + w)) s.empties
    poison := t.poison.foldl (fun m w => m.add (lo / 8 + w)) s.poison }.lookShelf lo (t.team.units * 4096)
/-- A batch that a group of a saved team owned: it is owned from the group's new slot (R172, R302) [log 39, DEDUCED]. -/
def rehomed (moves : List ((Nat × BitVec 32) × (Nat × BitVec 32))) (r : TileRec) : TileRec :=
  match moves.find? fun m => r.opened && r.owner.toNat = m.1.1 && r.ownerGen = m.1.2 with
  | some m => { r with owner := BitVec.ofNat 6 m.2.1, ownerGen := m.2.2 }
  | none => r
/-- A saved team takes a core (R302), which has no line cached from before (R45). A group that publishes publishes again, but where a group
of another grid publishes on that core: that channel stands [log 44, DESIGN CHOICE]. -/
def State.restoreTeam (s : State) (t : SavedTeam) (win : Word) (off c : Nat) (core : Nat → Nat) : State :=
  let ks := (s.freeG c).take t.slots.length
  let s := (s.fillWindow t c off).modCore c fun co => { co with icache := [] }
  let s := if 0 < t.team.tiles then
      (s.modCore c (Core.startMatrix t.team.tiles)).modCore c fun co =>
        { co with tiles := t.tiles.foldl (fun m e => Table.ins m e.1 e.2) co.tiles, userCtx := t.ctx }
    else s
  let s := { s with teams := Table.ins s.teams t.no { t.team with core := c, off := off, slots := ks } }
  let s := (t.slots.zip ks).foldl (fun s e => s.restoreGroup t win off c e.2 core e.1) s
  let moves := ((t.team.slots.zip t.slots).zip ks).map fun e => ((e.1.1, e.1.2.gen), (e.2, (s.slot c e.2).gen))
  let s := if 0 < t.team.tiles then
      s.modCore c fun co => { co with tiles := co.tiles.map fun e => if e.1 < t.team.tiles then (e.1, rehomed moves e.2) else e }
    else s
  let s := match t.pub.bind fun i => (t.slots.zip ks).find? fun e => e.1.member.any fun m => m.index = i with
    | some (_, k) =>
      if (s.core c).chan.isSome then s
      else s.modCore c fun co => { co with chan := some { slot := k, gen := (s.slot c k).gen, subs := [] } }
    | none => s
  if t.team.pend = [] then s else s.beginTransfer t.no
/-- A group of grid `g` publishes on a core. -/
def State.publishedBy (s : State) (g c : Nat) : Bool :=
  match (s.core c).chan with
  | some ch => (s.slot c ch.slot).gen = ch.gen && (s.slot c ch.slot).member.any fun m => m.grid = g
  | none => false
/-- The restored subscribers of a grid are on the lists of their channels (R264); one whose publisher does not publish again finds its
channel closed (R263). -/
def State.rejoin (s : State) (g : Nat) : State :=
  (s.gridSlots g).foldl (fun s e =>
    match (s.slot e.1 e.2).sub with
    | some b =>
      if b.closed then s
      else if s.publishedBy g b.chan then
        s.modCore b.chan fun co => { co with chan := co.chan.map fun ch => { ch with subs := ch.subs ++ [e] } }
      else s.modSlot e.1 e.2 fun sl => { sl with sub := sl.sub.map fun b => { b with closed := true } }
    | none => s) s
/-- The restored groups of a grid begin when the banks of their windows are out of retention (R197). -/
def State.awaitWindows (s : State) (g : Nat) : State :=
  let t := s.windowsAwake g
  if t ≤ s.clk then s
  else
    ((s.gridSlots g).foldl (fun s e => s.modSlot e.1 e.2 fun sl =>
      { sl with p := { sl.p with wait := .window }, q := { sl.q with wait := .window } }) s).later t .groupStart { a := g }
/-- A saved grid is restored at its places. -/
def State.restoreGrid (s : State) (g : Nat) (spots : List Spot) : State :=
  match s.grid? g with
  | none => s
  | some x =>
    let r := x.record
    let pairs := x.savedClusters.zip spots
    let cores := pairs.flatMap fun e =>
      e.1.2.teams.zip (rectCores r e.2.die e.2.x e.2.y) |>.map fun y => (y.1, y.2, e.2.off, s.clusterWindow r e.2)
    let place := fun (no : Nat) => (cores.find? fun y => y.1 = no).getD (no, 0, 0, 0)
    let core := fun (old : Nat) =>
      match x.saved.find? fun t => t.team.core = old with
      | some t => (place t.no).2.1
      | none => old
    let moved := fun (cl : Cluster) (p : Spot) =>
      { cl with die := p.die, x0 := p.x, y0 := p.y, wdog := 0, progress := s.clk }
    let s := pairs.foldl (fun s e =>
      { s with clusters := Table.ins s.clusters e.1.1 (moved e.1.2 e.2) }.later (s.clk + 1024) .watchdogTick { a := e.1.1 }) s
    let s := x.saved.foldl (fun s t => let y := place t.no; s.restoreTeam t y.2.2.2 y.2.2.1 y.2.1 core) s
    (s.modGrid g fun x => { x with state := .resident, saved := [], savedClusters := [] }).rejoin g |>.awaitWindows g

/-! The class queues (R298, R300). -/

/-- A queue whose head is changed. -/
def onHead (f : Queued → Queued) : List Queued → List Queued
  | [] => []
  | q :: t => f q :: t
/-- The blocked mark of a queue's head is cleared. -/
def unblockHead : List Queued → List Queued := onHead fun q => { q with blocked := none }
/-- The head of a class queue is admitted or restored at its places. -/
def State.admitQueued (s : State) (part c : Nat) (q : Queued) (spots : List Spot) : State :=
  let s := s.modPart part fun p => p.modQueue c fun l => unblockHead l.tail
  let s := match q.saved with
    | some g => s.restoreGrid g spots
    | none => s.admitNew part q spots
  if ((s.partn part).ring c).empty then s else s.soon .launchRingAccept { a := part, b := c }

/-- BLIMIT (R300). -/
def blimit : Nat := 2500000
/-- A queue head that cannot be placed is marked; its limit expires BLIMIT later. -/
def State.markBlocked (s : State) (part c : Nat) (q : Queued) : State :=
  if q.blocked.isSome then s
  else
    (s.modPart part fun p => p.modQueue c (onHead fun q => { q with blocked := some s.clk })).later (s.clk + blimit)
      .backfillLimitExpiry { a := part, b := c }
/-- The state as it would be without the resources of some grids. -/
def State.without (s : State) (gs : List Nat) : State :=
  let emptied := fun (sl : Nat × Slot) =>
    if sl.2.member.any fun m => gs.contains m.grid then (sl.1, Slot.initial sl.1) else sl
  { s with
    teams := s.teams.filter fun t => !gs.contains t.2.grid
    cores := s.cores.map fun e => (e.1, { e.2 with slots := e.2.slots.map fun sl => emptied sl }) }
/-- A group waits, is trapped or has ended, for a swap-out (R303). -/
def Slot.swappable (sl : Slot) : Bool :=
  sl.state = .trapped || sl.stateCode = 2
/-- The parent that can be swapped out for a child (R303). -/
def State.swapParent (s : State) (part : Nat) (q : Queued) : Option Nat :=
  match q.parent with
  | none => none
  | some g =>
    match s.grid? g with
    | none => none
    | some x =>
      if x.state = .resident && recSwap x.record && ((s.gridSlots g).all fun e => (s.slot e.1 e.2).swappable) &&
          s.poolHolds part (saveBytes x.record) && ((s.without [g]).placeGrid part q.record).isSome then some g
      else none
/-- The grids that may be pre-empted for a record of class `c`, in order (R300). -/
def State.victims (s : State) (part c : Nat) (r : List Word) : List Nat :=
  let on := fun (x : Grid) => x.clusters.any fun n => (s.cluster? n).any fun cl => (recDieList r).contains cl.die
  let l := s.grids.filter fun e => e.2.part = part && e.2.state = .resident && recClass e.2.record < c && on e.2
  (sortLt (fun (a b : Nat × Grid) =>
    recClass a.2.record < recClass b.2.record || (recClass a.2.record = recClass b.2.record && b.2.admitted < a.2.admitted)) l).map
    Prod.fst
/-- The shortest prefix whose pre-emption makes a record placeable, if the save pool holds it. -/
def State.prefixFor (s : State) (part : Nat) (r : List Word) (v : List Nat) : Option (List Nat) :=
  match (List.range v.length).find? fun k => ((s.without (v.take (k + 1))).placeGrid part r).isSome with
  | none => none
  | some k =>
    let l := v.take (k + 1)
    let need := (l.filterMap fun g => (s.grid? g).map fun x => saveBytes x.record).sum
    if s.poolHolds part need then some l else none

/-- The procedure of R300 for a partition, from the classes given on. -/
def State.admitPass (s : State) (part : Nat) : Nat → List Nat → State
  | 0, _ => s
  | _, [] => s
  | n + 1, c :: rest =>
    match (s.partn part).queue c with
    | [] => s.admitPass part n rest
    | q :: _ =>
      match s.placeGrid part q.record with
      | some spots => (s.admitQueued part c q spots).admitPass part n [3, 2, 1, 0]
      | none =>
        let s := s.markBlocked part c q
        match s.swapParent part q with
        | some g => s.beginStop part g true
        | none =>
          if s.clk < q.blocked.getD s.clk + blimit then s.admitPass part n rest
          else
            match s.prefixFor part q.record (s.victims part c q.record) with
            | some l => l.foldl (fun s g => s.beginStop part g false) s
            | none => s

/-- ADMITTER_PASS (R300); not while a pre-emption or swap-out of the partition is in progress, nor before the admitter is open
(R371). -/
def execAdmitterPass (s : State) : Host.Outcome State Fault Refusal :=
  let p := s.input.a
  .next (if s.admitting && (s.partn p).stopping = [] then s.admitPass p 2000 [3, 2, 1, 0] else s)
/-- BACKFILL_LIMIT_EXPIRY (R300): the procedure runs again. -/
def execBackfillLimitExpiry (s : State) : Host.Outcome State Fault Refusal :=
  let p := s.input.a
  .next (if s.admitting && (s.partn p).stopping = [] then s.admitPass p 2000 [3, 2, 1, 0] else s)

/-! The admitter's writes (R304, R369). -/

/-- Where a write of the admitter goes: an access of the partition, to which no window applies. -/
def State.admitterHome (s : State) (part : Nat) (a : Word) (rd : Bool) : Except Miss Home :=
  if isLarderAddr a then
    let t := (List.range 8).any fun t => (s.partn t).pairs.getLsbD (aDie a) && s.granted part t
    if 10 ≤ aY a || field a 21 20 ≠ 0 then .error (.fault cAddrRange 0)
    else if aPkg a = s.pkgId.toNat && !t then .error (.fault cPartition 0)
    else if aPkg a = s.pkgId.toNat && (s.core (aCore a)).inReset then .error (.fault cTargetReset 0)
    else .ok (larderHome a)
  else
    let va := field a 0 57
    if field a 57 6 ≠ 0 then .error (.fault cAddrRange 3)
    else if (s.partn part).marks.any (fun m => m.has va) then .error (.stall (.draining va))
    else
      match s.walk part va with
      | .fault code d => .error (.fault code d)
      | .leaf w =>
        if s.inMove part va w then .error (.stall (.moving va))
        else
          match s.leafFault part va w ⟨rd, true, false⟩ with
          | some (code, d) => .error (.fault code d)
          | none => .ok (s.homeOf w va)
/-- A write of the admitter would stall, or needs a free tag (R363). -/
def State.admitterStalls (s : State) (part : Nat) (a : Word) : Bool :=
  match s.admitterHome part a true with
  | .error (.stall _) => true
  | .ok h => s.across h && (s.freeTag hatchA).isNone
  | _ => false
/-- A write of the admitter reaches its home on the package: performed, or counted as CCFAIL (R304). -/
def State.admitterAct (s : State) (a : Access) : State :=
  match (match s.lentFault a.loc a.pkg a.part with
    | some code => (s, Res.fault code, false)
    | none => s.act a) with
  | (s', .value _, fe) =>
    let s' := (s'.touchHome a.loc 8 a.pkg a.part).spoil a.loc 8
    if fe then s'.shelfPasses a.loc 8 else s'
  | _ => s.countAll evCcFail
/-- An access of the admitter for a partition; `gen` is 1 where the add of -1 follows it. -/
def admitterAcc (pkg part : Nat) (op : AccOp) (a : Word) (loc size : Nat) (v : Word) (gen : BitVec 32) : Access :=
  { op := op, addr := a, loc := loc, size := size, data := v, data2 := 0, pkg := pkg, part := part, core := hatchA, slot := 63, gen := gen
    pathQ := false, dest := 0, status := 0, grid := false, tag := 0, epoch := 0, refusals := 0 }
/-- A write of the admitter: performed, once its larder bank serves it (R196), sent, or counted as CCFAIL; whether it has ended. -/
def State.admitterWrite (s : State) (part : Nat) (a : Word) (op : AccOp) (v : Word) (rd : Bool) (gen : BitVec 32) : State × Bool :=
  let h := s.admitterHome part a rd
  let s := if isLarderAddr a then s else s.touchWalk part (field a 0 57)
  match h with
  | .error _ => (s.countAll evCcFail, true)
  | .ok h =>
    let acc := admitterAcc s.pkgId.toNat part op a h.loc 8 v gen
    if s.across h then (s.postReq h.pkg h.target acc .engine, false)
    else
      let r := s.arriveAll h.loc 8
      if r.2 ≤ s.clk then (r.1.admitterAct acc, true) else (r.1.awaitBank r.2 acc .engine 0 false false, false)
/-- The decrement of a completion counter (R304); it waits while the page of the counter is drained or moved. -/
def State.countDown (s : State) (part : Nat) (cc : Word) : State :=
  if cc = 0 then s
  else if s.admitterStalls part cc then s.later (s.clk + 1) .accessAtHome { a := part, b := 3, word := cc }
  else (s.admitterWrite part cc (.amo 1 3) (BitVec.allOnes 64) true 0).1
/-- The word beside a completion counter, and then, with release, the add of -1 to the counter (R304, R369). -/
def State.ccWord (s : State) (part : Nat) (cc : Word) (id kind code : Nat) : State :=
  if cc = 0 then s
  else
    let r := s.admitterWrite part (cc + 8) (.store 15) (word (id * 2 ^ 32 + kind * 256 + code)) false 1
    if r.2 then r.1.countDown part cc else r.1
/-- A write of the admitter that has been awaited has ended: the add that its release has held follows. -/
def State.admitterNext (s : State) (a : Access) : State := if a.gen = 1 then s.countDown a.part (a.addr - 8) else s

/-! Completion and teardown (R304). -/

/-- A grid that `g` launched is gone (R23, R303) [log 43, DEDUCED]. -/
def State.childGone (s : State) (g : Nat) : State :=
  let s := s.modGrid g fun x => { x with children := x.children - 1 }
  match s.grid? g with
  | none => s
  | some x =>
    if x.live = 0 && x.children = 0 && x.state ≠ .completing then
      (s.modGrid g fun x => { x with state := .completing }).soon .gridCompletion { a := g }
    else if x.state = .saved && x.swapped && !s.hasChildren x.part g then s.requeue g
    else s
/-- No record of a saved grid stands in a class queue any longer. -/
def State.dequeueSaved (s : State) (part g : Nat) : State :=
  s.modPart part fun p => { p with queues := p.queues.map fun e => (e.1, e.2.filter fun q => q.saved ≠ some g) }
/-- A core check no longer waits for a grid (R177). -/
def State.checkDone (s : State) (g : Nat) : State :=
  (s.cores.filter fun e => e.2.checkGrids.contains g).foldl (fun s e =>
    let s := s.modCore e.1 fun co => { co with checkGrids := co.checkGrids.erase g }
    if (s.core e.1).checkGrids = [] then s.soon .coreResetRelease { a := e.1 } else s) s
/-- The end of a grid: its resources, its parent. -/
def State.completeGrid (s : State) (g : Nat) (x : Grid) : State :=
  let s := { (s.withoutTeams g).dequeueSaved x.part g with grids := s.grids.filter fun e => e.1 ≠ g }
  let s := s.modPart x.part fun p => { p with stopping := p.stopping.erase g }
  let s := match x.parent with
    | some p => s.childGone p
    | none => s
  (s.checkDone g).soon .admitterPass { a := x.part }

/-- At teardown, every PENDING firkin entry whose LAUNCHID names the grid breaks with reason 2 (R324). -/
def State.breakLaunch (s : State) (id : Nat) (cause : BitVec 8) : State :=
  (s.cores.filter fun e => e.2.frtUsed).foldl (fun s e =>
    (List.range e.2.frtsize.toNat).foldl (fun s i =>
      if fState (s.frt e.1 i 0) = 1 && field (s.frt e.1 i 2) 32 32 = id then s.breakFrt e.1 i 2 cause else s) s) s
/-- The queued records that name a parent are discarded: those of the class queues and those that the admitter has put in the
rings. -/
def State.discardChildren (s : State) (part g : Nat) : State :=
  s.modPart part fun p => { p with
    queues := p.queues.map fun e => (e.1, e.2.filter fun q => !(q.parent = some g && q.saved.isNone))
    rings := p.rings.map fun e => (e.1, { e.2 with own := e.2.own.map fun o =>
      (o.1, if o.2.parent = some g then { o.2 with record := [] } else o.2) }) }
/-- A grid is torn down, its children first (R304). -/
def State.teardown (s : State) (cause : BitVec 8) : Nat → Nat → State
  | 0, _ => s
  | n + 1, g =>
    match s.grid? g with
    | none => s
    | some x =>
      let s := s.discardChildren x.part g
      let s := ((s.grids.filter fun e => e.2.parent = some g).map Prod.fst).foldl (fun s k => s.teardown cause n k) s
      let s := s.breakLaunch (recLaunchId x.record) cause
      let s := s.modGrid g fun x => { x with state := .completing }
      let s := (s.gridSlots g).foldl (fun s e => s.killSlot e.1 e.2 cause) s
      let s := s.ccWord x.part (recWord x.record 2) (recLaunchId x.record) 1 cause.toNat
      s.completeGrid g x

/-- GRID_COMPLETION (R304): the end of a grid, or its teardown. It waits while the page of its counter is being moved or
drained. -/
def execGridCompletion (s : State) : Host.Outcome State Fault Refusal :=
  let g := s.input.a
  match s.grid? g with
  | none => .next (s.checkDone g)
  | some x =>
    let cc := recWord x.record 2
    if cc ≠ 0 && (s.admitterStalls x.part cc || (s.input.flag && s.admitterStalls x.part (cc + 8))) then
      .next (s.later (s.clk + 1) .gridCompletion s.input)
    else if s.input.flag then .next (s.teardown s.input.cause (s.grids.length + 1) g)
    else if x.live = 0 && x.children = 0 then .next ((s.countDown x.part cc).completeGrid g x)
    else .next s

/-! Acceptance (R298, R368, R369). -/

/-- The address of a slot's record among the admitter's requests: the partition and the class. -/
def ringKey (part c : Nat) : Word := word (4 * part + c)
/-- The admitter rings the slot `pos` of a ring (R298, R368). -/
def State.ringBell (s : State) (part c pos : Nat) : State :=
  (s.modPart part fun p => p.modRing c fun x => x.ring pos).soon .launchRingAccept { a := part, b := c }
/-- A record that the admitter has not been able to write at its slot: the slot is rung, and its record is lost as one whose own read
fails (R369) [log 13, DESIGN CHOICE]. -/
def State.recordLost (s : State) (part c pos : Nat) : State :=
  (s.modPart part fun p => p.modRing c fun x => { x with lost := x.lost.add pos }).ringBell part c pos
/-- The admitter writes a record at a slot of a ring, as a producer does, and rings the slot once the write is performed (R298, R368): in
Vault memory by stores, of which those to a poisoned line write nothing (R241), in host memory over the Filfel link. -/
def State.writeRecord (s : State) (part c pos loc : Nat) (r : List Word) : State :=
  if isHost loc then
    s.postReq s.pkgId.toNat filfelTgt
      { admitterAcc s.pkgId.toNat part (.line (r.flatMap fun w => (List.range 8).map fun i => (bits w (8 * i) 8, false)) none)
          (ringKey part c) loc 64 0 0 with data := word pos } .engine
  else if (s.lentFault loc s.pkgId.toNat part).isSome || s.poisonedIn loc 64 then s.recordLost part c pos
  else ((s.touchHome loc 64 s.pkgId.toNat part).writeN loc 64 (r.foldr (fun w n => w.toNat + 2 ^ 64 * n) 0)).ringBell part c pos
/-- The reply to a write of the admitter: of a record, or at a completion counter. -/
def State.admitterReply (s : State) (a : Access) (cause : BitVec 8) : State :=
  match a.op with
  | .line _ _ =>
    let key := a.addr.toNat
    if cause = 0 then s.ringBell (key / 4) (key % 4) a.data.toNat else s.recordLost (key / 4) (key % 4) a.data.toNat
  | _ => (if cause = 0 then s else s.countAll evCcFail).admitterNext a
/-- PENDING_LAUNCH_TRANSFER (R298): the head of a team's queue goes to its class queue, or to the ring; with a full ring it
stays. The admitter accepts nothing before boot has ended (R371). -/
def execPendingLaunchTransfer (s : State) : Host.Outcome State Fault Refusal :=
  match s.team? s.input.a with
  | none => .next s
  | some t =>
    match t.pend, s.grid? t.grid with
    | r :: rest, some g =>
      if !s.admitting then .next (s.beginTransfer s.input.a)
      else
      let part := g.part
      let c := recClass r
      let p := s.partn part
      let ring := p.ring c
      let q : Queued := ⟨r, some t.grid, none, none⟩
      let accepted := fun (s : State) =>
        let s := s.modTeam s.input.a fun t => { t with pend := rest }
        if rest = [] then s else s.beginTransfer s.input.a
      if ring.empty && (p.queue c).length < 64 then
        .next (accepted ((s.modPart part fun p => p.modQueue c fun l => l ++ [q]).soon .admitterPass { a := part }))
      else if ring.full then .next (s.beginTransfer s.input.a)
      else
        let pos := ring.tail
        let s := s.modPart part fun p => p.modRing c fun x => { x.reserve with own := Table.ins x.own pos q }
        .next (accepted (s.writeRecord part c pos (ring.loc pos) r))
    | _, _ => .next s

/-- A host record that fails R296 is reported (R369). -/
def State.rejectRecord (s : State) (part : Nat) (r : List Word) (why : Nat) : State :=
  let cc := recWord r 2
  if cc ≠ 0 && field cc 0 3 = 0 then s.ccWord part cc (recLaunchId r) 2 why else s
/-- The ring's head slot has been accepted. -/
def State.popSlot (s : State) (part c : Nat) : State :=
  s.modPart part fun p => p.modRing c fun x =>
    { x with head := x.head + 1, rung := x.rung.rem x.head, own := Table.del x.own x.head, lost := x.lost.rem x.head }
/-- The admitter reads a ring's record at a place (R369): in Vault memory at once, where it may meet a lent region or poison; in host
memory across Filfel, under R363, whose reply comes with the input. The state, and the words or none where the read has failed; an
outer none while the reply is awaited. -/
def State.readSlot (s : State) (part c loc : Nat) : State × Option (Option (List Word)) :=
  if isHost loc then
    match s.input.body with
    | .bytes l => (s, some (some ((List.range 8).map fun i => word (bytesNat ((l.drop (8 * i)).take 8)))))
    | _ =>
      if s.input.cause ≠ 0 then (s, some none)
      else if s.reqs.any fun e => e.2.acc.core = hatchA && e.2.acc.op = .load && e.2.acc.addr = ringKey part c then (s, none)
      else
        match s.newReq s.pkgId.toNat filfelTgt (admitterAcc s.pkgId.toNat part .load (ringKey part c) loc 64 0 0) .engine 0 true false with
        | some s' => (s', none)
        | none => (s.later (s.clk + 1) .launchRingAccept { a := part, b := c }, none)
  else if (s.lentFault loc s.pkgId.toNat part).isSome || s.poisonedIn loc 64 then (s, some none)
  else (s.touchHome loc 64 s.pkgId.toNat part, some (some ((List.range 8).map fun i => s.read64 (loc + 8 * i))))
/-- LAUNCH_RING_ACCEPT (R298, R368, R371): the record of the head slot, once it is rung and while its class queue has room. -/
def execLaunchRingAccept (s : State) : Host.Outcome State Fault Refusal :=
  let part := s.input.a
  let c := s.input.b
  let p := s.partn part
  let ring := p.ring c
  if !s.admitting || ring.empty || !ring.rung.contains ring.head || 64 ≤ (p.queue c).length then .next s
  else
    let read := s.readSlot part c (ring.loc ring.head)
    match read.2 with
    | none => .next read.1
    | some r =>
    let s := read.1
    let own := (ring.own.find? fun e => e.1 = ring.head).map Prod.snd
    let r := if ring.lost.contains ring.head then none else r
    let s := s.popSlot part c
    let again := fun (s : State) => s.soon .launchRingAccept { a := part, b := c }
    let parentGone := fun (s : State) =>
      match own.bind Queued.parent with
      | some g => s.childGone g
      | none => s
    let accept := fun (s : State) (q : Queued) =>
      again ((s.modPart part fun p => p.modQueue c fun l => l ++ [q]).soon .admitterPass { a := part })
    match r with
    | none => .next (again (parentGone (s.countAll evRecFail)))
    | some r =>
      match own with
      | some q => if q.record = ([] : List Word) then .next (again s) else .next (accept s q)
      | none =>
        let why := s.recordReason true part r
        if why ≠ 0 then
          if recWord r 2 ≠ 0 && (s.admitterStalls part (recWord r 2) || s.admitterStalls part (recWord r 2 + 8)) then
            -- the slot is examined again when the writes can be made
            .next ((s.modPart part fun _ => p).later (s.clk + 1) .launchRingAccept { a := part, b := c })
          else .next (again (s.rejectRecord part r why))
        else .next (accept s ⟨r, none, none, none⟩)

/-! The watchdog (R357). -/

/-- The groups of a cluster by core and slot. -/
def State.clusterSlots (s : State) (cl : Cluster) : List (Nat × Nat) :=
  sortBy (fun (e : Nat × Nat) => e.1 * 64 + e.2) (cl.teams.flatMap fun n =>
    match s.team? n with
    | some t => (t.slots.filter fun k => (s.slot t.core k).member.any fun m => m.team = n).map fun k => (t.core, k)
    | none => [])
/-- The wait of a path can be withdrawn for a trip: as for pre-emption, or the instruction is executed again without a second effect. A path
whose access, command or operation is under way goes on to its end, as for pre-emption [log 44, DEDUCED]. -/
def State.canTrip (s : State) (c k : Nat) (q : Bool) : Bool :=
  let p := (s.slot c k).path q
  (!q || (s.slot c k).dual) && !p.parked &&
  match p.wait with
  | .shelved | .ending | .finish | .multicast _ | .matrices | .until _ => true
  | .firkin => s.agenda.any (s.retries c k q)
  | _ => Path.withdrawable p
/-- The path at which the watchdog traps a waiting group: P where its wait can be withdrawn. -/
def State.waiter (s : State) (c k : Nat) : Bool := !s.canTrip c k false
/-- A group is WAITING and one of its waits can be withdrawn (R357). -/
def State.trips (s : State) (c k : Nat) : Bool :=
  (s.slot c k).stateCode = 2 && (s.canTrip c k false || s.canTrip c k true)
/-- The trap of a trip at a path, once its wait is withdrawn. -/
def State.tripTrap (s : State) (c k : Nat) (q : Bool) : State := s.trapSlot c k q { code := cWatchdog }
/-- The place in a path's buffer that says that a trip awaits the withdrawal of an access from another package's shelf. -/
def tripKey : Nat := 950
/-- The watchdog trips on a group: it traps at its waiting instruction, and the wait is withdrawn. -/
def State.trip (s : State) (c k : Nat) : State :=
  let q := s.waiter c k
  let p := (s.slot c k).path q
  if p.wait = .shelved then
    let s' := s.withdrawNow c k q
    if ((s'.slot c k).path q).wait = .shelved then s'.modPathOf c k q fun p => { p with buf := Table.ins p.buf tripKey 1 }
    else s'.tripTrap c k q
  else (s.withdrawWait c k q).tripTrap c k q
/-- WATCHDOG_TICK (R357). -/
def execWatchdogTick (s : State) : Host.Outcome State Fault Refusal :=
  let n := s.input.a
  match s.cluster? n with
  | none => .next s
  | some cl =>
    let again := fun (s : State) (due : Nat) => s.later due .watchdogTick { a := n }
    let first := coreIdx cl.die cl.x0 cl.y0
    let lim := (s.core first).wdoglim.toNat
    let slots := s.clusterSlots cl
    if s.clk < cl.progress + 1024 then .next (again s (cl.progress + 1024))
    else if slots.any (fun e => (s.slot e.1 e.2).state = .trapped) then .next (again s (s.clk + 1024))
    else
      let count := if lim ≠ 0 && lim ≤ cl.wdog then cl.wdog else (cl.wdog + 1) % 2 ^ 32
      let s := s.modCluster n fun cl => { cl with wdog := count }
      if lim = 0 || count < lim then .next (again s (s.clk + 1024))
      else
        match slots.find? fun e => s.trips e.1 e.2 with
        | none => .next (again s (s.clk + 1024))
        | some e =>
          let s := (s.modCluster n fun cl => { cl with wdog := 0 }).count first evWdTrip
          .next (again (s.trip e.1 e.2) (s.clk + 1024))

end Sys2Proof.Machine
end

