-- ==== Sys2Proof/Machine/Ports.lean ====
section
/-! DEFINITION. The Omyan ports: the competition of flits (R361), the fabric wheels (R364), lanes that fail (R362). -/

namespace Sys2Proof.Machine

/-! The torus (R17). -/

/-- The direction of a port's link (Table 1-3): 0 +x, 1 −x, 2 +y, 3 −y, 4 +z, 5 −z. -/
def portDir (i : Nat) : Nat := i % 6
/-- The Hatch die of a port: 0 for Hatch A, 1 for Hatch B (Table 1-3). -/
def portHatch (i : Nat) : Nat := i / 6
/-- The port of a Hatch die in a direction (Table 1-3). -/
def portOf (hatch dir : Nat) : Nat := 6 * hatch + dir
/-- The output directions of a port. -/
def outputs : List Nat := List.range 6

/-- The clks of a hop (R361). -/
def hopClk : Nat := 40
/-- The flits of a clk that a port's link carries at its width (R362). -/
def Port.places (p : Port) : Nat := if !p.up || p.retraining then 0 else p.lanes / 8
/-- The places that a port's link has left in clk `clk`. -/
def Port.room (p : Port) (clk : Nat) : Nat := p.places - (if p.clk = clk then p.sent else 0)
/-- A flit comes before another for an output: the higher AGE, on a tie the lower (SPKG, STGT, TAG) (R361). -/
def Flit.before (f g : Flit) : Bool :=
  g.age.toNat < f.age.toNat || (f.age = g.age &&
    (f.spkg.toNat < g.spkg.toNat || (f.spkg = g.spkg && (f.stgt.toNat < g.stgt.toNat || (f.stgt = g.stgt && f.tag.toNat < g.tag.toNat)))))
/-- The code of a flit on the wheels (Table 10-3): its partition, 8 for granary traffic (R364): what Hatch B sends or receives, and the
requests for a lent region with their answers. -/
def Flit.code (f : Flit) : Nat :=
  let base := fun (n : Nat) => 0x500 ≤ n && n < 0x508
  if f.ty = 9 || f.stgt.toNat = hatchB || f.dtgt.toNat = hatchB || (f.ty.toNat ≤ 3 && base f.dtgt.toNat) ||
    ((f.ty = 6 || f.ty = 8) && base f.stgt.toNat) then 8 else f.part.toNat
/-- A flit of a granary controller's copy (R249): Hatch B reads at the pace of RESBW. -/
def Flit.isCopy (f : Flit) : Bool :=
  (f.ty = 0 && f.stgt.toNat = hatchB) || ((f.ty = 6 || f.ty = 8) && f.dtgt.toNat = hatchB && f.stgt.toNat ≠ hatchB)
/-- The wheel's entry for an output in a clk: it turns one entry per clk (R364). -/
def Port.entry (p : Port) (clk o : Nat) : Nat := Table.get 15 p.wheel (64 * o + clk % 64)
/-- A code owns an entry of a wheel of the port. -/
def Port.owns (p : Port) (code : Nat) : Bool := p.wheel.any fun e => e.2 = code
def Port.buffer (p : Port) (code : Nat) : List Flit := Table.get [] p.buffers code
/-- The flits that the replay buffer keeps in clk `clk`: the acknowledgement of a flit is back two hops after it has left [log 50, DESIGN
CHOICE]. -/
def Port.kept (p : Port) (clk : Nat) : List (Nat × Flit) := p.replay.filter fun e => clk < e.1 + 2 * hopClk
/-- A flit leaves by a port's link in clk `clk`. -/
def Port.leave (p : Port) (clk : Nat) (f : Flit) : Port :=
  { p with sent := (if p.clk = clk then p.sent else 0) + 1, clk := clk, replay := p.kept clk ++ [(clk, f)] }
/-- What a link has not acknowledged is to be sent again, before all else (R362, R185). -/
def Port.rewind (p : Port) (clk : Nat) : Port := { p with again := (p.kept clk).map Prod.snd ++ p.again, replay := [] }
/-- The port without a flit. -/
def Port.drop (p : Port) (f : Flit) : Port :=
  { p with flits := p.flits.erase f, buffers := p.buffers.map fun e => (e.1, e.2.erase f), inject := p.inject.erase f }
/-- The link of port `l` carries a flit in the present clk: it reaches the next port one hop later. -/
def State.carry (s : State) (l : Nat) (f : Flit) : State := (s.modPort l fun p => p.leave s.clk f).emit (.flit l (s.clk + hopClk) f)
/-- A flit leaves port `i` by the link of port `l`, as `g`. -/
def State.depart (s : State) (i l : Nat) (f g : Flit) : State := (s.modPort i fun p => p.drop f).carry l { g with out := portDir l }
/-- What a link sends again, while it has places. -/
def State.resend (s : State) (l : Nat) : List Flit → State
  | [] => s
  | f :: rest =>
    if 0 < (s.port l).room s.clk then ((s.modPort l fun p => { p with again := p.again.erase f }).carry l f).resend l rest else s
/-- Flits leave their ports by a link, in order, while it has places. -/
def State.leaveBy (s : State) (l : Nat) : List (Nat × Flit) → State
  | [] => s
  | x :: rest => if 0 < (s.port l).room s.clk then (s.depart x.1 l x.2 x.2).leaveBy l rest else s
/-- The ports of a Hatch die. -/
def hatchPorts (h : Nat) : List Nat := outputs.map (portOf h)
/-- The flits in transit at the ports of a Hatch die that want an output. -/
def State.wanting (s : State) (h o : Nat) : List (Nat × Flit) :=
  (hatchPorts h).flatMap fun i =>
    (((s.port i).flits ++ (s.port i).buffers.flatMap fun e => e.2).filter fun f => f.out = o).map fun f => (i, f)
/-- The flits that are buffered at the ports of a Hatch die for the owner of the present entry of each port's wheel (R364). -/
def State.owned (s : State) (h o : Nat) : List (Nat × Flit) :=
  (hatchPorts h).flatMap fun i =>
    (((s.port i).buffer ((s.port i).entry s.clk o)).filter fun f => f.out = o).map fun f => (i, f)
/-- Flits in the order of R361. -/
def byAge (l : List (Nat × Flit)) : List (Nat × Flit) := sortLt (fun a b => Flit.before a.2 b.2) l
/-- The places of an output in one clk (R364): what is sent again and the granary controllers' copies (R249); the buffered flits of the
entry's owner, oldest first; then all others by R361, with buffered flits by age [log 50, DESIGN CHOICE]. -/
def State.fill (s : State) (h o : Nat) : State :=
  let l := portOf h o
  let s1 := s.resend l (s.port l).again
  let s2 := s1.leaveBy l (byAge ((s1.wanting h o).filter fun x => Flit.isCopy x.2))
  let s3 := s2.leaveBy l (s2.owned h o)
  s3.leaveBy l (byAge (s3.wanting h o))
/-- A flit whose AGE is one higher, up to 4,095 (R361). -/
def aged (f : Flit) : Flit := { f with age := if f.age = 4095 then f.age else f.age + 1 }
/-- The flits at a Hatch die that leave by another output: losers without FCH, and buffered ones whose link retrains or is down (R361,
R362). -/
def State.losers (s : State) (h : Nat) : List (Nat × Flit) :=
  (hatchPorts h).flatMap fun i =>
    let p := s.port i
    (p.flits ++ (p.buffers.flatMap fun e => e.2).filter fun f => (s.port (portOf h f.out)).places = 0).map fun f => (i, f)
/-- The output by which a loser leaves: another one with a place, else, since no flit without FCH is stored, one beyond its places, another
before its own [log 50, DESIGN CHOICE]. -/
def State.wayOut (s : State) (h out : Nat) : Option Nat :=
  (outputs.find? fun o => o ≠ out && 0 < (s.port (portOf h o)).room s.clk) <|>
  (outputs.find? fun o => o ≠ out && 0 < (s.port (portOf h o)).places) <|>
  (outputs.find? fun o => 0 < (s.port (portOf h o)).places)
/-- Losers leave by other outputs (R361); they wait only where no link of the Hatch die works. -/
def State.deflect (s : State) (h : Nat) : List (Nat × Flit) → State
  | [] => s
  | x :: rest =>
    match s.wayOut h x.2.out with
    | some o => ((s.depart x.1 (portOf h o) x.2 (aged x.2)).countAll evDeflect).deflect h rest
    | none => s.deflect h rest
/-- A flit waits in its code's buffer of 8 flits (R364). -/
def Port.keep (p : Port) (f : Flit) : Port :=
  { p with buffers := Table.ins p.buffers (Flit.code f) (p.buffer (Flit.code f) ++ [f]) }
/-- This package's own flits that wait at a port: one with FCH enters its code's buffer of 8 flits, another leaves where its output
still has a place (R361, R364); where the link has stopped it looks for another port. -/
def State.injectAll (s : State) (i : Nat) : List Flit → State
  | [] => s
  | f :: rest =>
    let p := s.port i
    if p.places = 0 then
      if (List.range 12).any fun j => 0 < (s.port j).places then
        ((s.modPort i fun p => p.drop f).soon .omyanHop { flag := true, body := .flits [f] }).injectAll i rest
      else s.injectAll i rest
    else if f.fch then
      if (p.buffer (Flit.code f)).length < 8 then (s.modPort i fun p => (p.drop f).keep f).injectAll i rest
      else s.injectAll i rest
    else if 0 < p.room s.clk then (s.depart i i f f).injectAll i rest
    else s.injectAll i rest

/-- A port holds flits. -/
def Port.holds (p : Port) : Bool := p.flits ≠ [] || p.inject ≠ [] || p.again ≠ [] || p.buffers.any fun e => e.2 ≠ []
/-- The ports of a Hatch die that hold flits take their turn at the clk `t`, once. -/
def State.turnAt (s : State) (h t : Nat) : State :=
  if ((hatchPorts h).any fun i => (s.port i).holds) &&
      !(s.agenda.any fun e => e.2.1 = .fabricWheelTurn && e.2.2.a = h && e.1 ≤ t) then
    s.later t .fabricWheelTurn { a := h }
  else s
/-- One clk of a Hatch die's ports: the places of their links are filled, the losers without FCH are deflected, the package's own flits
enter last (R361). -/
def State.hatchTurn (s : State) (h : Nat) : State :=
  let s := outputs.foldl (fun s o => s.fill h o) s
  let s := s.deflect h (byAge (s.losers h))
  ((hatchPorts h).foldl (fun s i => s.injectAll i (s.port i).inject) s).turnAt h (s.clk + 1)

/-- The input of a step that a request from another package brings, under the request's key. -/
def Flit.input (f : Flit) (a t e : Nat) (w : Word) (cause : BitVec 8) : Input :=
  { a := a, b := f.spkg.toNat, c := f.stgt.toNat, d := t, e := e, flag := true, word := w, cause := cause }
/-- A notice between granary controllers is answered to its sender (R363). -/
def State.confirmFlit (s : State) (f : Flit) (t e : Nat) : State :=
  s.send f.stgt.toNat hatchB 0 3 (.reply f.spkg.toNat f.stgt.toNat t e 0 0)
/-- What a flit brings to this package: the step of the device that its payload asks for. -/
def State.deliverFlit (s : State) (f : Flit) : State :=
  match f.cargo with
  | .words _ => s
  | .request _ _ _ _ a => s.soon .accessAtHome { body := .access a }
  | .reply _ c t e data cause => s.soon .replyArrival { a := c * 4096 + t, b := e, word := data, cause := cause }
  | .line _ c t e l => s.soon .replyArrival { a := c * 4096 + t, b := e, body := .bytes l }
  | .firkin _ t e r => s.soon (FkReq.event r) { body := .firkin { r with tag := t, epoch := e, crossed := true } }
  | .answer _ r ans hint => s.soon .firkinAnswer { word := hint, body := .answer r ans }
  | .notice _ t e h brk =>
    match brk with
    | some (reason, cause) => s.soon .breakNotice (Flit.input f reason t e h cause)
    | none => s.soon .dropNotice (Flit.input f 0 t e h 0)
  | .marker _ t e h n => s.soon .drainMarker (Flit.input f n t e h 0)
  | .withdraw _ c t e own =>
    s.soon .shelfWithdrawal { a := f.dtgt.toNat, b := f.spkg.toNat, c := c, d := t, e := e, word := word own, cause := 1 }
  | .reclaim _ t e base gen reason =>
    let s := s.confirmFlit f t e
    match s.borrowed.find? fun x =>
      (x.2.state = .mapped || x.2.state = .moving) && x.2.lender = f.spkg.toNat && x.2.lbase = base && x.2.gen = gen with
    | some x => s.soon .reclaimNotice { a := x.1, b := reason }
    | none => s
  | .release _ t e base gen =>
    let s := s.confirmFlit f t e
    match s.lent.find? fun x => x.2.state ≠ .free && x.2.borrower = f.spkg.toNat && x.2.base = base && x.2.gen = gen with
    | some x => s.soon .releaseNotice { a := x.1 }
    | none => s
  | .refusal _ c t e => s.soon .replyArrival { a := c * 4096 + t, b := e, cause := 0xFE }
  | .ack _ c t e => s.soon .pantryExpiry { a := f.dtgt.toNat, b := f.spkg.toNat, c := c, d := t, e := e, flag := true }
  | .message _ t e part m =>
    s.soon .messageArrival { Flit.input f (tagCore m.dst) t e (word part) 0 with body := .msg m }
/-- A flit reaches a port (R364): one for this package leaves the fabric; one of a code that owns an entry carries FCH and waits in the
code's buffer, which a full buffer holds back; another wants its output at once. -/
def State.portTakes (s : State) (i : Nat) (f : Flit) : State :=
  let p := s.port i
  if f.dpkg = s.pkgId then s.deliverFlit f
  else if p.owns (Flit.code f) then
    if (p.buffer (Flit.code f)).length < 8 then s.modPort i fun p => p.keep { f with fch := true }
    else s.later (s.clk + 1) .omyanHop { a := i, body := .flits [f] }
  else s.modPort i fun p => { p with flits := p.flits ++ [f] }

/-- The port by which this package injects a flit: the first from the routed one on whose link is up [log 50, DESIGN CHOICE]. -/
def State.portFor (s : State) (dpkg : Nat) : Nat :=
  let first := Config.route s.pkgId.toNat dpkg % 12
  (((List.range 12).map fun i => (first + i) % 12).find? fun i => 0 < (s.port i).places).getD first
/-- A flit of this package comes to a port, where it competes from the next clk on [log 50, DESIGN CHOICE]; one of a code that owns an entry
of the port's wheels carries FCH (R364). -/
def State.enter (s : State) (f : Flit) : State :=
  let i := s.portFor f.dpkg.toNat
  let g := { f with fch := (s.port i).owns (Flit.code f), out := portDir i }
  (s.modPort i fun p => { p with inject := p.inject ++ [g] }).turnAt (portHatch i) (s.clk + 1)

/-- OMYAN_HOP (R361): the flits that reach port `a`; with the flag, flits of this package that enter. -/
def execOmyanHop (s : State) : Host.Outcome State Fault Refusal :=
  match s.input.body with
  | .flits l =>
    if s.input.flag then .next (l.foldl State.enter s)
    else .next ((l.foldl (fun s f => s.portTakes s.input.a f) s).turnAt (portHatch s.input.a) s.clk)
  | _ => .next s

/-- FABRIC_WHEEL_TURN (R364): a clk of the ports of Hatch die `a`. -/
def execFabricWheelTurn (s : State) : Host.Outcome State Fault Refusal := .next (s.hatchTurn s.input.a)

/-! Links that fail. -/

/-- The flits of a link that are not acknowledged are sent again (R362, R185). -/
def State.replay (s : State) (i : Nat) : State := (s.modPort i fun p => p.rewind s.clk).turnAt (portHatch i) s.clk
/-- The clks of 50 µs at the present clock (R362). -/
def State.retrainClk (s : State) : Nat := 1250 * s.clockStep

/-- The regions lent to the package at the other end of a link that has gone down: unless another link to it is up, its records become
FREE after Tr (R254). -/
def State.portLost (s : State) (i : Nat) : State :=
  match (s.port i).peer with
  | none => s
  | some pkg =>
    if (List.range 12).any fun j => (s.port j).up && (s.port j).peer = some pkg then s
    else
      (s.lent.filter fun e => (e.2.state = .active || e.2.state = .reclaiming) && e.2.borrower = pkg).foldl (fun s e =>
        s.later (s.clk + s.msClk e.2.tr) .borrowerLost { a := e.1, b := e.2.gen.toNat, c := pkg, flag := true }) s

/-- LANE_FAILURE (R362): an erasure at full width; then 16 lanes, then 8, then the port is down, and what its link has not acknowledged
leaves by the other outputs. -/
def execLaneFailure (s : State) : Host.Outcome State Fault Refusal :=
  let i := s.input.a
  let p := s.port i
  if !p.up then .next s
  else if p.lanes = 32 && p.failed = 0 then .next (s.modPort i fun p => { p with failed := 1 })
  else if p.lanes ≤ 8 then
    .next (((s.modPort i fun p =>
      let r := p.rewind s.clk
      { r with up := false, retraining := false, again := [], flits := p.flits ++ r.again }).portLost i).turnAt (portHatch i) s.clk)
  else
    .next ((s.modPort i fun p => { p.rewind s.clk with lanes := p.lanes / 2, retraining := true }).later
      (s.clk + s.retrainClk) .portRetrainComplete { a := i })

/-- PORT_RETRAIN_COMPLETE (R362): every flit not acknowledged when the link failed is sent again, within the link's places. -/
def execPortRetrainComplete (s : State) : Host.Outcome State Fault Refusal :=
  let i := s.input.a
  if (s.port i).retraining then .next ((s.modPort i fun p => { p with retraining := false }).turnAt (portHatch i) s.clk)
  else .next s

end Sys2Proof.Machine
end

