-- ==== Sys2Proof/Machine/Boot.lean ====
section
/-! DEFINITION. Package reset and boot (R371 to R374), the setting up of partitions (R367), the binding of system types (R312). -/

namespace Sys2Proof.Machine

/-- PACKAGE_RESET (R371, R372): the machine as after reset, with the id on the strap pins; what is the host's stays. -/
def execPackageReset (s : State) : Host.Outcome State Fault Refusal :=
  .next { State.reset with
    pkgId := BitVec.ofNat 11 s.input.a, freeCtr := s.freeCtr, outbox := s.outbox, mem := s.mem.filter fun e => isHost e.1 }

/-- A boot step runs in its place (R371). -/
def bootOnly (n : Nat) (s : State) (f : State → State) : Host.Outcome State Fault Refusal :=
  if s.bootStep = n then .next (f s) else .next s

/-- SECURE_ROM_VERIFY (R371, step 1). -/
def execSecureRomVerify (s : State) : Host.Outcome State Fault Refusal :=
  if s.bootStep ≠ 1 then .next s
  else
    let d := match s.input.body with
      | .digest d => d
      | _ => 0
    if Config.imageVerdict 0 d then
      let s' : State := { s with bootStep := 2 }
      .next (s'.soon .dieImageVerify { a := 0, body := .digest 0 })
    else .fault .packageStopped

/-- The dies whose images boot verifies: the Peck dies 0 to 7, the Bushel dies 8 to 15, Hatch A 16 and Hatch B 17 [log 46, DESIGN CHOICE]. -/
def imageDies : Nat := 18
/-- The links that train, with the dies at their ends (R15, Table 1-2) [log 46, DESIGN CHOICE]: 0 to 7 those along the two rows of the spine,
8 to 12 those along its five columns, 13 to 20 the operand queues between the Peck and the Bushel die of each pair, 21 to 28 the spurs of
the Vault bases. -/
def bootLinks : Nat := 29
def hatchDie (hatch : Nat) : Nat := 16 + hatch
def spur (k : Nat) : Nat := 21 + k
/-- The die at a stop of the spine (Table 1-2). -/
def stopDie (row col : Nat) : Nat := if col = 0 then hatchDie row else 4 * row + col - 1
/-- The dies at the ends of a link; a spur has one. -/
def linkEnds (l : Nat) : List Nat :=
  if l < 8 then [stopDie (l / 4) (l % 4), stopDie (l / 4) (l % 4 + 1)]
  else if l < 13 then [stopDie 0 (l - 8), stopDie 1 (l - 8)]
  else if l < 21 then [l - 13, l - 13 + 8]
  else [l - 21]
/-- DIE_IMAGE_VERIFY (R371, step 2): the manifest records the image; a die whose image fails is held in reset. -/
def execDieImageVerify (s : State) : Host.Outcome State Fault Refusal :=
  bootOnly 2 s fun s =>
    let d := s.input.a
    let m := match s.input.body with
      | .digest m => m
      | _ => 0
    let s : State := { s with manifest := s.manifest ++ [⟨d, BitVec.ofNat 32 s.input.b, m⟩] }
    let s := if Config.imageVerdict (d + 1) m then s.modDie d fun x => { x with absent := false } else s
    if d + 1 < imageDies then s.soon .dieImageVerify { a := d + 1, body := .digest 0 }
    else ({ s with bootStep := 3 } : State).soon .dieLinkTraining { a := 0, b := 1, c := 1 }

/-- DIE_LINK_TRAINING (R371, step 3; R373): link `a` runs at the highest revision that both ends set; the package's is the lowest over all
links. A link without a common bit, or of a die that is held in reset, stays down. -/
def execDieLinkTraining (s : State) : Host.Outcome State Fault Refusal :=
  bootOnly 3 s fun s =>
    let l := s.input.a
    let common := (s.input.b % 65536) &&& (s.input.c % 65536)
    let r := Nat.log2 common
    let s : State :=
      if common = 0 || (linkEnds l).any (fun d => (s.die d).absent) then s
      else { s with links := Table.ins s.links l r, revision := some (min r (s.revision.getD r)) }
    if l + 1 < bootLinks then s.soon .dieLinkTraining { a := l + 1, b := 1, c := 1 }
    else ({ s with bootStep := 4 } : State).soon .vaultTrainAndClear { a := 0, flag := true }

/-- The link is up. -/
def State.linkUp (s : State) (l : Nat) : Bool := s.links.any fun e => e.1 = l
/-- VAULT_TRAIN_AND_CLEAR (R371, step 4; R240): a stack trains over its spur; every line is zero, full and without poison; scrub begins. -/
def execVaultTrainAndClear (s : State) : Host.Outcome State Fault Refusal :=
  bootOnly 4 s fun s =>
    let k := s.input.a
    let outside := fun (loc : Nat) => !(isVault loc && loc / 2 ^ 37 = k)
    let s :=
      if s.input.flag && s.linkUp (spur k) then
        let s : State := { s with
          mem := s.mem.filter fun e => outside e.1
          empties := s.empties.filter fun w => outside (8 * w)
          poison := s.poison.filter fun w => outside (8 * w) }
        (List.range 32).foldl (fun s ch => s.later (s.clk + 256) .patrolScrub { a := k, b := ch })
          (s.modVault k fun v => { v with absent := false })
      else s
    if k + 1 < 8 then s.soon .vaultTrainAndClear { a := k + 1, flag := true }
    else ({ s with bootStep := 5 } : State).soon .omyanPortTraining { a := 0 }

/-- OMYAN_PORT_TRAINING (R371, step 5; R372): a port without a neighbour, or whose neighbour has the package's own id, or whose Hatch die
is absent, stays down; the others learn the id of their neighbour. -/
def execOmyanPortTraining (s : State) : Host.Outcome State Fault Refusal :=
  bootOnly 5 s fun s =>
    let p := s.input.a
    let id := s.input.b % 2048
    let s :=
      if !s.input.flag || (s.die (hatchDie (portHatch p))).absent then s
      else if id = s.pkgId.toNat then { s with badPorts := s.badPorts ++ [(p, id)] }
      else s.modPort p fun x => { x with up := true, peer := some id }
    if p + 1 < 12 then s.soon .omyanPortTraining { a := p + 1 }
    else
      let s := if (s.die (hatchDie 0)).absent then s else s.modPort filfelPort fun x => { x with up := true }
      ({ s with bootStep := 6 } : State).soon .systemTypeBinding
        { body := .fw { vtbase := 0, rrbase := 0, frtbase := 0, wdoglim := 0, trapvec := 0, sysHandler := 0, sysDw1 := 0 } }

/-! Partitions. -/

/-- A pair whose Peck die, Bushel die or Vault stack has failed is absent (R371). -/
def State.pairPresent (s : State) (d : Nat) : Bool := !(s.die d).absent && !(s.die (8 + d)).absent && !(s.vault d).absent
/-- The pairs of a set that are present. -/
def State.presentOf (s : State) (pairs : BitVec 8) : BitVec 8 :=
  BitVec.ofNat 8 (((List.range 8).filter fun d => pairs.getLsbD d && s.pairPresent d).foldl (fun n d => n + 2 ^ d) 0)

/-- The entries of the system types 249 to 254 in a partition's memory (R312); one in a poisoned line takes no write (R241). -/
def State.bindTypes (s : State) (part : Nat) (f : FwCore) : State :=
  (List.range 6).foldl (fun s i =>
    let va := field (f.vtbase + word (16 * (249 + i))) 0 57
    match s.walk part va with
    | .leaf w =>
      let h := s.homeOf w va
      if h.tier = 0 then ((s.storeAt h.loc 8 f.sysHandler).bind fun s => s.storeAt (h.loc + 8) 8 f.sysDw1).getD s else s
    | .fault _ _ => s) s
/-- A core starts: its S-slot is resident, its banks awake, its FW registers written (R175, R177). -/
def State.startCore (s : State) (c : Nat) (f : FwCore) : State :=
  (s.modCore c fun co => ((co.wakeAll s.clk).modSlot 63 id).boot f).emptyChain c
/-- The partitions in use. -/
def State.usedParts (s : State) : List Nat := (List.range 8).filter fun p => (s.partn p).pairs ≠ 0
/-- The cores of the pairs that are present. -/
def State.presentCores (s : State) : List Nat := (List.range 1280).filter fun c => s.pairPresent (coreDie c)

/-- The admitter is open: it looks at every queue and ring (R371). -/
def State.openAdmitter (s : State) : State :=
  s.usedParts.foldl (fun s p =>
    (List.range 4).foldl (fun s c => s.soon .launchRingAccept { a := p, b := c }) (s.soon .admitterPass { a := p }))
    { s with admitting := true }
/-- SYSTEM_TYPE_BINDING (R371, step 6): the cores start, the system types are bound, the admitter, on Hatch A, opens. -/
def execSystemTypeBinding (s : State) : Host.Outcome State Fault Refusal :=
  bootOnly 6 s fun s =>
    match s.input.body with
    | .fw f =>
      let s := s.presentCores.foldl (fun s c => s.startCore c f) s
      let s := s.usedParts.foldl (fun s p => s.bindTypes p f) s
      let s : State := { s with firmware := some f, bootStep := 7 }
      if (s.die (hatchDie 0)).absent then s else s.openAdmitter
    | _ => s

/-- A wheel's entries are codes that set-up writes: 0 to 8 and 15 (R367, Table 10-3). -/
def wheelOk (w : Table (List Nat)) : Bool := w.all fun e => e.2.all fun c => c ≤ 8 || c = 15
/-- The pairs named are another partition's (R367). -/
def State.pairsTaken (s : State) (part : Nat) (pairs : BitVec 8) : Bool :=
  (List.range 8).any fun p => p ≠ part && (s.partn p).pairs &&& pairs ≠ 0
/-- A partition has a resident or saved grid. -/
def State.hasGrids (s : State) (part : Nat) : Bool := s.grids.any fun e => e.2.part = part

/-- A list as a table. -/
def tableOf (l : List Nat) : Table Nat := l.zipIdx.map fun e => (e.2, e.1)
/-- The channel wheels of a partition's stacks: those that set-up gives, and the partition's number elsewhere (R247). -/
def State.setWheels (s : State) (part : Nat) (pairs : BitVec 8) (w : Table (List Nat)) : State :=
  ((List.range 8).filter fun d => pairs.getLsbD d).foldl (fun s d =>
    s.modVault d fun v => { v with wheel := tableOf (Table.get (List.replicate 64 part) w d) }) s
/-- PARTITION_SETUP (R367) [log 46, DESIGN CHOICE]. -/
def execPartitionSetup (s : State) : Host.Outcome State Fault Refusal :=
  let p := s.input.a
  match s.input.body with
  | .setup u =>
    if s.bootStep < 6 || 8 ≤ p || s.hasGrids p || !wheelOk u.vwheel || !wheelOk u.fwheel || s.pairsTaken p u.pairs then .next s
    else
      let pairs := s.presentOf u.pairs
      let rings := (List.range 4).map fun c => (c, ({ base := u.ringBase.getD c 0, log := max 4 (min 16 (u.ringLog.getD c 4)) } : Ring))
      let s := s.modPart p fun r =>
        { r with
          pairs := pairs, grant := u.grant, foreign := u.foreign, root := u.root, poolBase := u.poolBase, poolSize := u.poolSize
          expert := if u.expert then 1 else 0, expertWas := r.expert, expertClk := s.clk, rings := rings, pageRing := u.pageRing }
      let s := s.setWheels p pairs u.vwheel
      let s := u.fwheel.foldl (fun s e => s.modPort e.1 fun x => { x with wheel := tableOf e.2 }) s
      let s := (s.clkfixSet p u.clkfix).getD s
      .next (match s.firmware with
        | some f => s.bindTypes p f
        | none => s)
  | _ => .next s

/-! Attestation. -/

/-- The words of the manifest, and the ports that boot has found to see the package's own id (R374, R372). -/
def State.manifestWords (s : State) : List Word :=
  (s.manifest.flatMap fun m =>
    [word m.die, m.version.zeroExtend 64, bits m.measure 0 64, bits m.measure 64 64, bits m.measure 128 64, bits m.measure 192 64]) ++
  s.badPorts.map fun e => word (e.1 * 2 ^ 32 + e.2)
/-- ATTESTATION_QUOTE (R374): a signature over the manifest and the nonce [log 12, DESIGN CHOICE]. -/
def execAttestationQuote (s : State) : Host.Outcome State Fault Refusal :=
  .next (({ s with freeCtr := s.freeCtr + 1 } : State).emit (.quote (Config.signature (s.manifestWords ++ [s.input.word]) s.freeCtr)))

end Sys2Proof.Machine
end

