-- ==== Sys2Proof/Machine/Engines.lean ====
section
/-! DEFINITION. The operations of the cellar engines (12, R290 to R293): how an engine reads and writes memory, the operations of
the SFX, SRT, CDC and SPX kinds. A command reads all of its sources and then writes. -/

namespace Sys2Proof.Machine

/-! Reading memory. -/

/-- Why a command cannot go on: a fault, stretches of other packages that it has to read, a translation or bank that it has to
wait for, BADCMD. -/
inductive EngStop where
  | fault (code : BitVec 8) (addr : Word)
  | need (l : List (Word × Nat))
  | stall (s : State)
  | bad
  deriving DecidableEq, Repr

/-- The result of a part of a command. -/
abbrev Eng (α : Type) := Except EngStop α

/-- What a command runs with: its engine, the rights of the lease's holder, its words, the stretches read from other packages. -/
structure EngCtx where
  die : Nat
  eng : Nat
  who : Who
  cmd : List (BitVec 32)
  buf : Table Word
  deriving DecidableEq, Repr

/-- Word `i` of a command (Table 12-5). -/
def EngCtx.w (x : EngCtx) (i : Nat) : Nat := (x.cmd.getD i 0).toNat
/-- The address in words `i` and `i` + 1. -/
def EngCtx.addr (x : EngCtx) (i : Nat) : Word := word (x.w i + x.w (i + 1) * 2 ^ 32)
def EngCtx.n (x : EngCtx) : Nat := x.w 1
def EngCtx.m (x : EngCtx) : Nat := x.w 2
def EngCtx.ty (x : EngCtx) : BitVec 4 := BitVec.ofNat 4 (x.w 3)
def EngCtx.k (x : EngCtx) : Nat := x.w 3 / 65536
def EngCtx.fl (x : EngCtx) : Nat := x.w 0 / 256 % 256
def EngCtx.src (x : EngCtx) : Word := x.addr 4
def EngCtx.dst (x : EngCtx) : Word := x.addr 6
def EngCtx.aux (x : EngCtx) : Word := x.addr 8
def EngCtx.aux2 (x : EngCtx) : Word := x.addr 10

/-- The check of a stretch within a line for an engine (R291): a larder address lies on the engine's die. -/
def State.engCheck (s : State) (x : EngCtx) (a : Word) (n : Nat) (wr : Bool) : CopyCheck :=
  if isLarderAddr a && (aPkg a ≠ s.pkgId.toNat || aDie a ≠ x.die) then .fault cAddrRange
  else s.copyCheck x.who (s.partOfDie x.die) a n wr
/-- One stretch within a doubleword that a command reads. -/
def State.engPiece (s : State) (x : EngCtx) (p : Word × Nat) : Eng (List Byte) :=
  let bytes := fun (v : Nat) => (List.range p.2).map fun j => BitVec.ofNat 8 (v / 256 ^ j)
  match s.engCheck x p.1 p.2 false with
  | .fault code => .error (.fault code p.1)
  | .stall s' => .error (.stall s')
  | .ok =>
    let h := s.copyHome x.who p.1 p.2 false
    if !s.across h then
      if s.poisonedIn h.loc p.2 then .error (.fault cPoison p.1) else .ok (bytes (s.readN h.loc p.2))
    else if x.buf.any fun e => e.1 = p.1.toNat then .ok (bytes (Table.get 0 x.buf p.1.toNat).toNat)
    else .error (.need [p])
/-- Stretches that a command reads in order; those of other packages are asked for together. -/
def State.engPieces (s : State) (x : EngCtx) : List (Word × Nat) → Eng (List Byte)
  | [] => .ok []
  | p :: rest =>
    match s.engPiece x p with
    | .ok l =>
      match s.engPieces x rest with
      | .ok r => .ok (l ++ r)
      | .error e => .error e
    | .error (.need l) =>
      match s.engPieces x rest with
      | .error (.need r) => .error (.need (l ++ r))
      | _ => .error (.need l)
    | .error e => .error e
/-- The `n` bytes of a region. -/
def State.engRead (s : State) (x : EngCtx) (a : Word) (n : Nat) : Eng (List Byte) :=
  if n = 0 then .ok [] else s.engPieces x (dwPieces a n)
/-- `n` elements of `w` bytes from bytes. -/
def elems (w : Nat) : Nat → List Byte → List Nat
  | 0, _ => []
  | n + 1, l => bytesNat (l.take w) :: elems w n (l.drop w)
/-- `n` elements of `w` bytes at an address. -/
def State.engElems (s : State) (x : EngCtx) (w n : Nat) (a : Word) : Eng (List Nat) :=
  (s.engRead x a (w * n)).map fun l => elems w n l
/-- The bytes of elements of `w` bytes. -/
def elemsBytes (w : Nat) (l : List Nat) : List Byte := l.flatMap fun v => (List.range w).map fun j => BitVec.ofNat 8 (v / 256 ^ j)
/-- Rows of `m` of a list. -/
def rowsOf {α : Type} (m : Nat) : Nat → List α → List (List α)
  | 0, _ => []
  | n + 1, l => l.take m :: rowsOf m n (l.drop m)

/-! What a command leaves. -/

/-- What a command reads and writes and its result: the regions, ESTAT, OUTN, and the bytes that OUTN counts as one. -/
structure EngOut where
  reads : List (Word × Nat)
  writes : List (Word × List Byte)
  estat : Nat := 0
  outn : Nat
  unit : Nat
  deriving DecidableEq, Repr

/-- The limits of a command (R290, R291): the words from 8 on that are not unused hold zero, FL within a mask, P without its
fields that are not used, the regions within 16 MiB [log 41, DEDUCED]. -/
def EngCtx.ok (x : EngCtx) (unused : List Nat) (fl : Nat) (ty k : Bool) (regions : List Nat) : Bool :=
  (13 :: 14 :: 15 :: unused).all (fun i => x.w i = 0) && x.fl &&& fl = x.fl && x.w 3 / 16 % 4096 = 0 &&
  (ty || x.w 3 % 16 = 0) && (k || x.k = 0) && regions.all fun n => n ≤ 2 ^ 24
/-- BADCMD unless a condition holds. -/
def engGuard (b : Bool) : Eng Unit := if b then .ok () else .error .bad

/-! SFX. -/

def f64 : Fmt := fmtOf 11
/-- A value rounded to FP32. -/
def toF32 (v : Fp) : Fp := f32.decode (f32.encode .rne v)
/-- A sum in ascending order, each addition rounded to a format; the first term starts it. -/
def sumIn (f : Fmt) : List Fp → Fp
  | [] => .fin false 0 0
  | a :: t => t.foldl (fun acc v => f.decode (f.encode .rne (Fp.add .rne acc v))) a
/-- The largest of a row by maximumNumber. -/
def maxIn (l : List Fp) : Fp := l.foldl Fp.maximum .nan
/-- T is f32 or bf16. -/
def sfxTy (t : BitVec 4) : Bool := t = 10 || t = 9
def EngCtx.scale (x : EngCtx) : Fp := f32.decode (x.w 12)
/-- A row of softmax. -/
def softmaxRow (f : Fmt) (scale : Fp) (row : List Nat) : List Nat :=
  let t := row.map fun v => toF32 (Fp.mul scale (f.decode v))
  let m := maxIn t
  let e := t.map fun v => toF32 (Fp.exp (toF32 (Fp.add .rne v m.neg)))
  let sum := sumIn f64 e
  e.map fun v => f.encode .rne (Fp.div v sum)
/-- The source of a SFX command. -/
def EngCtx.whole (x : EngCtx) : List (Word × Nat) := [(x.src, x.n * x.m * elemBytes x.ty)]
/-- The rows of a SFX command. -/
def State.sfxRows (s : State) (x : EngCtx) : Eng (List (List Nat)) :=
  (s.engElems x (elemBytes x.ty) (x.n * x.m) x.src).map fun l => rowsOf x.m x.n l
/-- The limits of SFX commands. -/
def sfxOk (x : EngCtx) (rows : Bool) : Bool :=
  let size := x.n * x.m * elemBytes x.ty
  sfxTy x.ty && x.ok [8, 9, 10, 11] 0 true false [size, if rows then 4 * x.n else 0] &&
  (!rows || (1 ≤ x.n && x.n ≤ 65536 && 1 ≤ x.m && x.m ≤ 65536))

def opSoftmax (s : State) (x : EngCtx) : Eng EngOut := do
  engGuard (sfxOk x true)
  let rows ← s.sfxRows x
  let out := rows.flatMap (softmaxRow (fmtOf x.ty) x.scale)
  return { reads := x.whole, writes := [(x.dst, elemsBytes (elemBytes x.ty) out)], outn := out.length, unit := elemBytes x.ty }
/-- A command that writes one FP32 value for each row. -/
def opRow (f : List Fp → Fp) (s : State) (x : EngCtx) : Eng EngOut := do
  engGuard (sfxOk x true)
  let rows ← s.sfxRows x
  let out := rows.map fun r => f32.encode .rne (f (r.map (fmtOf x.ty).decode))
  return { reads := x.whole, writes := [(x.dst, elemsBytes 4 out)], outn := x.n, unit := 4 }
def opRowmax : State → EngCtx → Eng EngOut := opRow maxIn
def opRowsum : State → EngCtx → Eng EngOut := opRow (sumIn f64)
/-- A command that acts on each element. -/
def opElement (f : Fp → Fp) (s : State) (x : EngCtx) : Eng EngOut := do
  engGuard (sfxOk x false)
  let l ← s.engElems x (elemBytes x.ty) (x.n * x.m) x.src
  let out := l.map fun v => (fmtOf x.ty).encode .rne (f ((fmtOf x.ty).decode v))
  return { reads := x.whole, writes := [(x.dst, elemsBytes (elemBytes x.ty) out)], outn := out.length, unit := elemBytes x.ty }
def opExp (s : State) (x : EngCtx) : Eng EngOut := opElement (fun v => Fp.exp (toF32 (Fp.mul x.scale v))) s x
def opLog : State → EngCtx → Eng EngOut := opElement Fp.ln

/-! SRT. -/

/-- T is i32, n32 or f32. -/
def srtTy (t : BitVec 4) : Bool := t = 2 || t = 6 || t = 10
/-- The rank of a key in rising order; all NaNs are equal, and above infinity. -/
def sortRank (t : BitVec 4) (v : Nat) : Nat :=
  let v := v % 2 ^ 32
  if t = 6 then v
  else if t = 2 then (v + 2 ^ 31) % 2 ^ 32
  else if 0x7F800000 < v % 2 ^ 31 then 2 ^ 32
  else if v < 2 ^ 31 then 2 ^ 31 + v else 2 ^ 32 - 1 - v
/-- Keys with what goes with them in stable order; DESC reverses the order of unequal keys. -/
def sortKeys {α : Type} (t : BitVec 4) (desc : Bool) (l : List (Nat × α)) : List (Nat × α) :=
  sortBy (fun e => if desc then 2 ^ 32 - sortRank t e.1 else sortRank t e.1) l

def opSort (s : State) (x : EngCtx) : Eng EngOut := do
  let val := x.fl / 2 % 2 = 1
  engGuard (srtTy x.ty && 1 ≤ x.n && x.n ≤ 1048576 && x.m = 0 &&
    x.ok (12 :: if val then [] else [8, 9, 10, 11]) 3 true false [4 * x.n])
  let keys ← s.engElems x 4 x.n x.src
  let vals ← if val then s.engElems x 4 x.n x.aux else .ok []
  let out := sortKeys x.ty (x.fl % 2 = 1) (keys.zipIdx.map fun e => (e.1, vals.getD e.2 0))
  let dst := (x.dst, elemsBytes 4 (out.map Prod.fst))
  return { reads := (x.src, 4 * x.n) :: if val then [(x.aux, 4 * x.n)] else []
           writes := if val then [dst, (x.aux2, elemsBytes 4 (out.map Prod.snd))] else [dst], outn := x.n, unit := 4 }
def opTopk (s : State) (x : EngCtx) : Eng EngOut := do
  engGuard (srtTy x.ty && 1 ≤ x.k && x.k ≤ min x.m 1024 && x.ok [8, 9, 12] 1 true true [4 * x.n * x.m])
  let keys ← s.engElems x 4 (x.n * x.m) x.src
  let out := (rowsOf x.m x.n keys).flatMap fun r => (sortKeys x.ty (x.fl % 2 = 1) r.zipIdx).take x.k
  return { reads := [(x.src, 4 * x.n * x.m)], writes := [(x.dst, elemsBytes 4 (out.map Prod.fst)), (x.aux2, elemsBytes 4 (out.map Prod.snd))]
           outn := out.length, unit := 4 }
/-- An offset array ascends from 0 to `n` (R292). -/
def offsetsOk (n : Nat) (l : List Nat) : Bool :=
  l.head? = some 0 && l.getLast? = some n && (l.zip (l.drop 1)).all fun e => e.1 ≤ e.2
/-- The offsets of `m` segments of `n` values. -/
def State.engOffsets (s : State) (x : EngCtx) (n m : Nat) (a : Word) : Eng (List Nat) := do
  let l ← s.engElems x 4 (m + 1) a
  engGuard (offsetsOk n l)
  return l
/-- The segments of a list. -/
def segmentsOf {α : Type} (offs : List Nat) (l : List α) : List (List α) :=
  (offs.zip (offs.drop 1)).map fun e => (l.drop e.1).take (e.2 - e.1)
def opSegsort (s : State) (x : EngCtx) : Eng EngOut := do
  engGuard (srtTy x.ty && x.ok [10, 11, 12] 0 true false [4 * x.n, 4 * (x.m + 1)])
  let offs ← s.engOffsets x x.n x.m x.aux
  let keys ← s.engElems x 4 x.n x.src
  let out := (segmentsOf offs keys).flatMap fun g => (sortKeys x.ty false (g.map fun k => (k, ()))).map Prod.fst
  return { reads := [(x.aux, 4 * (x.m + 1)), (x.src, 4 * x.n)], writes := [(x.dst, elemsBytes 4 out)], outn := x.n, unit := 4 }

/-! CDC. -/

def fE4M3 : Fmt := fmtOf 12
/-- S20 as a format without its sign (R69). -/
def fS20 : Fmt := ⟨8, 12, 127, 0⟩
/-- The value is NaN or infinite. -/
def fpSpecial : Fp → Bool
  | .fin _ _ _ => false
  | _ => true
/-- The scale of a block, and its elements as E4M3 (R293, steps 1 to 3). -/
def zf8Quantise (l : List Fp) : Nat × List Nat :=
  if l.any fpSpecial then (255 * 4096, l.map fun _ => 0)
  else
    let a := (l.map Fp.abs).foldl Fp.maximum (.fin false 0 0)
    if a = .fin false 0 0 || (l.all fun v => v.cmp (.fin false 0 0) = some 0) then (0, l.map fun _ => 0)
    else
      let scale := fS20.encode .rup (Fp.div a (.fin false 448 0))
      (scale, l.map fun v => fE4M3.encode .rne (Fp.div v (scaleS20 scale)))
/-- The stream that a token table gives for symbols, as its length and its bits, the first the most significant. -/
def zf8Code (table : Word) (syms : List Nat) : Nat × Nat :=
  let codes := tokenCodes table
  syms.foldl (fun acc y =>
    match codes.find? fun c => c.1 = y with
    | some c => (acc.1 + c.2.1, acc.2 * 2 ^ c.2.1 + c.2.2 % 2 ^ c.2.1)
    | none => acc) (0, 0)
/-- The enabled table that gives the smallest stream of at most 256 bits, with its stream; the lower number on a tie. -/
def zf8Choose (tables : List Word) (mask : Nat) (syms : List Nat) : Option (Nat × Nat × Nat) :=
  let l := (tables.zipIdx.filter fun t => mask / 2 ^ t.2 % 2 = 1 && tokenOk t.1).map fun t => (t.2, zf8Code t.1 syms)
  (sortBy (fun (e : Nat × Nat × Nat) => e.2.1) (l.filter fun e => e.2.1 ≤ 256)).head?
/-- The bytes of a block (R72). -/
def zf8Bytes (sel scale : Nat) (q : List Nat) (len stream : Nat) : List Byte :=
  let nibs := q.map fun v => v / 128 * 8 + v % 8
  let halves := cdiv len 16
  let padded := stream * 2 ^ (16 * halves - len)
  elemsBytes 4 [sel * 2 ^ 29 + len * 2 ^ 20 + scale % 2 ^ 20] ++
  ((List.range 16).map fun i => BitVec.ofNat 8 (nibs.getD (2 * i) 0 + 16 * nibs.getD (2 * i + 1) 0)) ++
  elemsBytes 2 ((List.range halves).map fun i => padded / 2 ^ (16 * (halves - 1 - i)) % 65536)
/-- A block encoded; none where no enabled table can code it. -/
def zf8Block (tables : List Word) (mask : Nat) (l : List Fp) : Option (List Byte) :=
  let (scale, q) := zf8Quantise l
  (zf8Choose tables mask (q.map fun v => v / 8 % 16)).map fun c => zf8Bytes c.1 scale q c.2.1 c.2.2
/-- Blocks encoded up to one that cannot be; the bytes, and the index of that one. -/
def zf8Blocks (tables : List Word) (mask : Nat) : Nat → List (List Fp) → List Byte × Option Nat
  | _, [] => ([], none)
  | i, b :: t =>
    match zf8Block tables mask b with
    | none => ([], some i)
    | some l => let r := zf8Blocks tables mask (i + 1) t; (l ++ r.1, r.2)
/-- The eight token tables at AUX. -/
def State.engTables (s : State) (x : EngCtx) : Eng (List Word) := (s.engElems x 8 8 x.aux).map fun l => l.map word
def opZf8enc (s : State) (x : EngCtx) : Eng EngOut := do
  engGuard (sfxTy x.ty && x.fl ≠ 0 && x.m = 0 && x.ok [10, 11, 12] 255 true false [32 * x.n * elemBytes x.ty, 52 * x.n])
  let tables ← s.engTables x
  let l ← s.engElems x (elemBytes x.ty) (32 * x.n) x.src
  let r := zf8Blocks tables x.fl 0 (rowsOf 32 x.n (l.map (fmtOf x.ty).decode))
  return { reads := [(x.aux, 64), (x.src, 32 * x.n * elemBytes x.ty)], writes := [(x.dst, r.1)], estat := if r.2.isSome then 4 else 0, outn := r.2.getD r.1.length, unit := 1 }
/-- The values of a block from its header and the bytes after it; none where R74 or R73 fails. -/
def zf8Values (tables : List Word) (h : Nat) (l : List Byte) : Option (List Fp) :=
  let table := tables.getD (h / 2 ^ 29) 0
  if !tokenOk table then none
  else
    let bit := fun (j : Nat) =>
      j < zLen h && bytesNat ((l.drop (16 + 2 * (j / 16))).take 2) / 2 ^ (15 - j % 16) % 2 = 1
    match zSymbols (tokenCodes table) bit 32 0 with
    | none => none
    | some (syms, p) =>
      if p ≠ zLen h then none
      else
        some (syms.zipIdx.map fun (e, j) =>
          let b := (l.getD (j / 2) 0).toNat
          let nib := if j % 2 = 1 then b / 16 else b % 16
          Fp.mul (fE4M3.decode (nib / 8 * 128 + e * 8 + nib % 8)) (scaleS20 (h % 2 ^ 20)))
/-- `n` blocks decoded from an address on, up to one that cannot be: the values, that one's index, and the bytes read. -/
def State.zf8Decode (s : State) (x : EngCtx) (tables : List Word) (i : Nat) : Nat → Word → Eng (List Fp × Option Nat × Nat)
  | 0, _ => .ok ([], none, 0)
  | n + 1, a => do
    let hb ← s.engRead x a 4
    let h := bytesNat hb
    if !zOk h then return ([], some i, 4)
    let l ← s.engRead x (a + 4) (zSize h - 4)
    match zf8Values tables h l with
    | none => return ([], some i, zSize h)
    | some vs =>
      let r ← s.zf8Decode x tables (i + 1) n (a + word (zSize h))
      return (vs ++ r.1, r.2.1, r.2.2 + zSize h)
def opZf8dec (s : State) (x : EngCtx) : Eng EngOut := do
  engGuard (sfxTy x.ty && x.m = 0 && x.ok [10, 11, 12] 0 true false [52 * x.n, 32 * x.n * elemBytes x.ty])
  let tables ← s.engTables x
  let r ← s.zf8Decode x tables 0 x.n x.src
  let out := r.1.map (fun v => (fmtOf x.ty).encode .rne v)
  return { reads := [(x.aux, 64), (x.src, r.2.2)]
           writes := [(x.dst, elemsBytes (elemBytes x.ty) out)], estat := if r.2.1.isSome then 4 else 0, outn := r.2.1.getD out.length
           unit := elemBytes x.ty }

/-! SPX. -/

/-- Reads made one after the other, those of other packages asked for together. -/
def engAll {α : Type} : List (Eng α) → Eng (List α)
  | [] => .ok []
  | .ok v :: rest =>
    match engAll rest with
    | .ok r => .ok (v :: r)
    | .error e => .error e
  | .error (.need l) :: rest =>
    match engAll rest with
    | .error (.need r) => .error (.need (l ++ r))
    | _ => .error (.need l)
  | .error e :: _ => .error e
def opGather (s : State) (x : EngCtx) : Eng EngOut := do
  engGuard (1 ≤ x.m && x.m ≤ 65536 && x.ok [10, 11, 12] 0 false false [4 * x.n, x.n * x.m])
  let ix ← s.engElems x 4 x.n x.aux
  let rows ← engAll (ix.map fun i =>
    if i = 0xFFFFFFFF then .ok (List.replicate x.m 0) else s.engRead x (x.src + word (i * x.m)) x.m)
  return { reads := (x.aux, 4 * x.n) :: (ix.filter fun i => i ≠ 0xFFFFFFFF).map fun i => (x.src + word (i * x.m), x.m)
           writes := [(x.dst, rows.flatten)], outn := x.n * x.m, unit := 1 }
/-- The reduction of FP32 values by a code of FL[1:0] of EMBBAG. -/
def bagReduce (fl : Nat) (l : List Fp) : Fp :=
  if l = [] then .fin false 0 0
  else
    match fl with
    | 0 => sumIn f32 l
    | 1 => Fp.div (sumIn f32 l) (.fin false l.length 0)
    | _ => maxIn l
def opEmbbag (s : State) (x : EngCtx) : Eng EngOut := do
  engGuard (sfxTy x.ty && x.fl ≠ 3 && x.ok [12] 3 true true [4 * x.n, 4 * (x.k + 1), 4 * x.k * x.m, x.m * elemBytes x.ty])
  let offs ← s.engOffsets x x.n x.k x.aux2
  let ix ← s.engElems x 4 x.n x.aux
  let rows ← engAll (ix.map fun i => s.engElems x (elemBytes x.ty) x.m (x.src + word (i * x.m * elemBytes x.ty)))
  let out := (segmentsOf offs (rows.map fun r => r.map (fmtOf x.ty).decode)).flatMap fun bag =>
    (List.range x.m).map fun j => f32.encode .rne (bagReduce x.fl (bag.map fun r => r.getD j .nan))
  let size := x.m * elemBytes x.ty
  return { reads := (x.aux2, 4 * (x.k + 1)) :: (x.aux, 4 * x.n) :: ix.map fun i => (x.src + word (i * size), size)
           writes := [(x.dst, elemsBytes 4 out)], outn := out.length, unit := 4 }
/-- The reduction of a segment by FL[1:0] of SEGRED; an empty one as Table 5-8 has it. -/
def segReduce (t : BitVec 4) (fl : Nat) (l : List Nat) : Nat :=
  if t = 2 then
    let v := l.map fun y => elemInt t y
    wrapTo 32 (match fl with
      | 0 => v.sum
      | 1 => v.foldl min (tyMax t)
      | _ => v.foldl max (tyMin t))
  else
    let v := l.map f32.decode
    f32.encode .rne (match fl with
      | 0 => sumIn f32 v
      | 1 => if v = [] then .inf false else v.foldl Fp.minimum .nan
      | _ => if v = [] then .inf true else maxIn v)
def opSegred (s : State) (x : EngCtx) : Eng EngOut := do
  engGuard ((x.ty = 2 || x.ty = 10) && x.fl ≠ 3 && x.ok [10, 11, 12] 3 true false [4 * x.n, 4 * (x.m + 1), 4 * x.m])
  let offs ← s.engOffsets x x.n x.m x.aux
  let l ← s.engElems x 4 x.n x.src
  let out := (segmentsOf offs l).map (segReduce x.ty x.fl)
  return { reads := [(x.aux, 4 * (x.m + 1)), (x.src, 4 * x.n)], writes := [(x.dst, elemsBytes 4 out)], outn := x.m, unit := 4 }

/-! Running a command. -/

/-- The homes of the lines of a region on the package. -/
def State.engHomes (s : State) (x : EngCtx) (wr : Bool) (p : Word × Nat) : List Home :=
  ((List.range ((p.1.toNat % 64 + p.2 + 63) / 64)).map fun i => s.copyHome x.who (p.1 + word (if i = 0 then 0 else 64 * i - p.1.toNat % 64)) 1 wr).filter
    fun h => !s.across h
/-- The regions that a command accesses: larder banks in retention wake, and the lines of Vault stacks are touched (R197, R240). The
state, and the clk from which all of the banks serve. -/
def State.engTouch (s : State) (x : EngCtx) (wr : Bool) (l : List (Word × Nat)) : State × Nat :=
  let hs := l.flatMap (s.engHomes x wr)
  let s1 := hs.foldl (fun s h => s.touchHome h.loc 1 s.pkgId.toNat (s.partOfDie x.die)) s
  s1.wakeBanks ((hs.filter fun h => isLarder h.loc).map fun h => (larderCore h.loc, bankOf (larderOff h.loc))).eraseDups

/-- The number under which an engine allocates request tags: above those of the cores [log 15, DESIGN CHOICE]. -/
def engSource (d e : Nat) : Nat := 2048 + 64 * d + e
/-- An access of a command. -/
def State.engAcc (s : State) (x : EngCtx) (h : Home) (a : Word) (n : Nat) (op : AccOp) (v : Word) : Access :=
  { s.mkAccess x.who.core 63 false op a h n v with core := engSource x.die x.eng, grid := false }
/-- An access of a command sent off the package. -/
def State.engSend (s : State) (x : EngCtx) (h : Home) (a : Word) (n : Nat) (op : AccOp) (v : Word) : Option State :=
  (s.newReq h.pkg h.target (s.engAcc x h a n op v) .engine 0 false false).map fun s =>
    s.modEngine x.die x.eng fun y => { y with awaited := y.awaited + 1 }
/-- The stretches that a command asks for, as far as there are tags. -/
def State.engAsk (s : State) (x : EngCtx) : List (Word × Nat) → State
  | [] => s
  | p :: rest =>
    match s.engSend x (s.copyHome x.who p.1 p.2 false) p.1 p.2 .load 0 with
    | some s' => s'.engAsk x rest
    | none => s

/-- The parts of a stretch that lie in one line each. -/
def lineParts : Nat → Word → List Byte → List (Word × List Byte)
  | 0, _, _ => []
  | fuel + 1, a, l =>
    if l = [] then []
    else
      let n := 64 - a.toNat % 64
      (a, l.take n) :: lineParts fuel (a + word n) (l.drop n)

/-- What the write of a part of a line comes to. -/
inductive EngWrote where
  | done (s : State)
  | sent (s : State)
  | fault (s : State) (code : BitVec 8) (a : Word) (n : Nat)
  | wait (s : State)
  deriving DecidableEq, Repr
/-- A part of a line written, or sent to another package (R291, R241). -/
def State.engWritePart (s : State) (x : EngCtx) (a : Word) (l : List Byte) : EngWrote :=
  match s.engCheck x a l.length true with
  | .fault code => .fault s code a 0
  | .stall s' => .wait s'
  | .ok =>
    let h := s.copyHome x.who a l.length true
    let op : AccOp := .line (l.map fun b => (b, false)) none
    let banks := s.engTouch x true [(a, l.length)]
    if s.clk < banks.2 then .wait banks.1
    else
    let s := banks.1
    if !s.across h then
      match s.perform (s.engAcc x h a l.length op 0) with
      | (s', .short k) => .fault s' cPoison (a + word k) k
      | (s', _) => .done s'
    else
      match s.engSend x h a l.length op 0 with
      | some s' => .sent s'
      | none => .wait s

/-- The plan of a command after `n` bytes more of its first region. -/
def EngPlan.wrote (p : EngPlan) (n : Nat) : EngPlan := { p with done := min p.first (p.done + n) }
/-- The plan of a command that ends with FAULT (R291). -/
def EngPlan.failed (p : EngPlan) (c : List (BitVec 32)) (code : BitVec 8) (a : Word) : EngPlan :=
  { p with writes := [], result := resultEntry c 3 code (p.done / p.unit) a }
/-- The plan of a command whose part across a link has been answered: written, or stopped after `n` bytes of it (R291). -/
def EngPlan.answered (p : EngPlan) (c : List (BitVec 32)) (a : Access) (n : Nat) (cause : BitVec 8) : EngPlan :=
  match p.writes with
  | [] => p
  | w :: rest =>
    if cause = 0 then { p.wrote w.2.length with writes := rest } else (p.wrote n).failed c cause (a.addr + word n)
/-- The writes of a command, part by part; the parts left and whether it has to be tried again. A part that has gone across a link is left
until it is answered. -/
def State.engWrites (s : State) (x : EngCtx) (p : EngPlan) : List (Word × List Byte) → State × EngPlan × Bool
  | [] => (s, { p with writes := [] }, false)
  | w :: rest =>
    match s.engWritePart x w.1 w.2 with
    | .done s' => s'.engWrites x (p.wrote w.2.length) rest
    | .sent s' => (s', { p with writes := w :: rest }, false)
    | .fault s' code a n => (s', (p.wrote n).failed x.cmd code a, false)
    | .wait s' => (s', { p with writes := w :: rest }, true)

/-- The plan of a result of the operation. -/
def EngOut.plan (o : EngOut) (c : List (BitVec 32)) : EngPlan :=
  { writes := o.writes.flatMap fun w => lineParts w.2.length w.1 w.2, done := 0
    first := match o.writes with
      | w :: _ => w.2.length
      | [] => 0
    unit := o.unit, result := resultEntry c o.estat 0 o.outn 0 }

/-- The command of an engine goes on with what it has to write. -/
def State.engPlanned (s : State) (x : EngCtx) (p : EngPlan) (again : Instr) : State :=
  match s.engWrites x p p.writes with
  | (s, p, retry) =>
    let s := s.modEngine x.die x.eng fun y => { y with plan := some p, buf := [] }
    if retry then s.later (s.clk + 1) again { a := x.die, b := x.eng }
    else if ((s.die x.die).engine x.eng).awaited = 0 then s.soon .cellarResultWritten { a := x.die, b := x.eng }
    else s

/-- What the command in execution of an engine runs with. -/
def State.engCtx (s : State) (d e : Nat) (c : List (BitVec 32)) : EngCtx :=
  let y := (s.die d).engine e
  { die := d, eng := e, cmd := c, buf := y.buf
    who := ⟨y.who.core, if (s.slot y.who.core y.who.slot).member.isSome then some (s.slot y.who.core y.who.slot).windows else none⟩ }

/-- A step of the operation `op` on the engine that the input names: nothing unless the engine executes a command of that
operation and awaits no reply. -/
def engineStep (op : Nat) (again : Instr) (f : State → EngCtx → Eng EngOut) (s : State) : Host.Outcome State Fault Refusal :=
  let d := s.input.a
  let e := s.input.b
  let y := (s.die d).engine e
  .next (
    match y.fifos.run with
    | none => s
    | some c =>
      if y.state ≠ .leased || cmdOp c ≠ op || y.awaited ≠ 0 then s
      else
        let x := s.engCtx d e c
        match y.plan with
        | some p => s.engPlanned x p again
        | none =>
          match f s x with
          | .ok o =>
            let r := s.engTouch x false o.reads
            if s.clk < r.2 then r.1.later r.2 again { a := d, b := e } else r.1.engPlanned x (o.plan c) again
          | .error .bad => s.endCommand d e (resultEntry c 2 0 0 0)
          | .error (.fault code a) => s.endCommand d e (resultEntry c 3 code 0 a)
          | .error (.stall s') => s'.later (s.clk + 1) again { a := d, b := e }
          | .error (.need l) =>
            let s' := s.engAsk x l
            if ((s'.die d).engine e).awaited = 0 then s'.later (s.clk + 32) again { a := d, b := e } else s')

/-- A reply to a request of an engine (R363): data for a stretch that it reads, or the end of a write. Once all are answered,
the command goes on, or the engine's accesses are performed. -/
def State.engReply (s : State) (a : Access) (data : Word) (cause : BitVec 8) : State :=
  let d := (a.core - 2048) / 64
  let e := (a.core - 2048) % 64
  let y := (s.die d).engine e
  let upd := fun (y : Engine) =>
    let y := { y with awaited := y.awaited - 1 }
    match y.fifos.run with
    | none => y
    | some c =>
      if a.op ≠ .load then { y with buf := [], plan := y.plan.map fun p => p.answered c a data.toNat cause }
      else if cause ≠ 0 then
        { y with buf := [], plan := some ((y.plan.getD ⟨[], 0, 0, 1, []⟩).failed c cause a.addr) }
      else if y.plan.isNone && a.op = .load then { y with buf := Table.ins y.buf a.addr.toNat data }
      else y
  let s := s.modEngine d e upd
  if y.awaited ≠ 1 then s
  else if y.state = .evicting then s.soon .evictionDrainComplete { a := d, b := e }
  else
    match ((s.die d).engine e).plan with
    | some p => if p.writes = [] then s.soon .cellarResultWritten { a := d, b := e } else s.kickCommand d e
    | none => s.kickCommand d e

/-- SOFTMAX (R292). -/
def execSoftmax (s : State) : Host.Outcome State Fault Refusal := engineStep 0x01 .softmax opSoftmax s
/-- ROWMAX (R292). -/
def execRowmax (s : State) : Host.Outcome State Fault Refusal := engineStep 0x02 .rowmax opRowmax s
/-- ROWSUM (R292). -/
def execRowsum (s : State) : Host.Outcome State Fault Refusal := engineStep 0x03 .rowsum opRowsum s
/-- EXP (R292). -/
def execExp (s : State) : Host.Outcome State Fault Refusal := engineStep 0x04 .exp opExp s
/-- LOG (R292). -/
def execLog (s : State) : Host.Outcome State Fault Refusal := engineStep 0x05 .log opLog s
/-- SORT (R292). -/
def execSort (s : State) : Host.Outcome State Fault Refusal := engineStep 0x11 .sort opSort s
/-- TOPK (R292). -/
def execTopk (s : State) : Host.Outcome State Fault Refusal := engineStep 0x12 .topk opTopk s
/-- SEGSORT (R292). -/
def execSegsort (s : State) : Host.Outcome State Fault Refusal := engineStep 0x13 .segsort opSegsort s
/-- ZF8ENC (R293). -/
def execZf8enc (s : State) : Host.Outcome State Fault Refusal := engineStep 0x21 .zf8enc opZf8enc s
/-- ZF8DEC (R292, R72 to R74). -/
def execZf8dec (s : State) : Host.Outcome State Fault Refusal := engineStep 0x22 .zf8dec opZf8dec s
/-- GATHER (R292). -/
def execGather (s : State) : Host.Outcome State Fault Refusal := engineStep 0x31 .gather opGather s
/-- EMBBAG (R292). -/
def execEmbbag (s : State) : Host.Outcome State Fault Refusal := engineStep 0x32 .embbag opEmbbag s
/-- SEGRED (R292). -/
def execSegred (s : State) : Host.Outcome State Fault Refusal := engineStep 0x33 .segred opSegred s

end Sys2Proof.Machine
end

