-- ==== Sys2Proof/Machine/Tlb.lean ====
section
/-! DEFINITION. The invalidation of translations in two phases (R341, R342), and the page walk (R336). -/

namespace Sys2Proof.Machine

/-- The entry maps some address of a mark's range. -/
def TlbEntry.overlaps (e : TlbEntry) (m : Mark) : Bool :=
  e.page * 65536 < m.lo + m.len && m.lo < (e.page + e.count) * 65536
/-- The entries of a partition that a mark leaves. -/
def Mark.keep (m : Mark) (part : Nat) (l : List TlbEntry) : List TlbEntry := l.filter fun e => e.part ≠ part || !e.overlaps m
/-- The mark's scope takes in the L2 TLB of a bay, the L3 TLB of a die [log 20, DEDUCED]. -/
def Mark.coversBay (m : Mark) (b : Nat) : Bool :=
  nCores ≤ m.core ||
  match m.scope.toNat with
  | 2 => false
  | 3 => b = bayOf m.core
  | 4 | 5 => b / 20 = coreDie m.core
  | _ => true
def Mark.coversDie (m : Mark) (d : Nat) : Bool :=
  nCores ≤ m.core ||
  match m.scope.toNat with
  | 2 | 3 => false
  | 4 | 5 => d = coreDie m.core
  | _ => true
/-- The DRAINING entries of a mark leave every TLB of its scope (R342). -/
def State.dropEntries (s : State) (part : Nat) (m : Mark) : State :=
  { s with
    cores := s.cores.map fun e =>
      if m.covers e.1 then (e.1, { e.2 with l1d := m.keep part e.2.l1d, l1i := m.keep part e.2.l1i }) else e
    bays := s.bays.map fun e => if m.coversBay e.1 then (e.1, { e.2 with l2 := m.keep part e.2.l2 }) else e
    dies := s.dies.map fun e => if m.coversDie e.1 then (e.1, { e.2 with l3 := m.keep part e.2.l3 }) else e }
/-- A mark of a partition is confirmed: its entries go, and the accesses that stall retranslate. -/
def State.confirmMark (s : State) (part : Nat) (m : Mark) : State :=
  (s.dropEntries part m).modPart part fun p => { p with marks := p.marks.erase m }

/-- The range of a mark is one (R341). -/
def markRange (lo len : Nat) : Bool :=
  lo % 65536 = 0 && len % 65536 = 0 && 65536 ≤ len && lo + len ≤ 2 ^ 57
/-- The scopes of a mark: team, bay, clu, die, pkg, part. -/
def markScope (sc : BitVec 4) : Bool := 2 ≤ sc.toNat && sc.toNat ≤ 7

/-- TLBI_MARK (R341) [log 51, DESIGN CHOICE]. -/
def execTlbiMark (o : F2) (s : State) : Host.Outcome State Fault Refusal :=
  run (.tlbiMark o) s fun s =>
    let lo := (s.sreg o.a).toNat
    let len := (s.sreg o.b).toNat
    let sc := bits o.x 0 4
    let marks := (s.partn s.curPart).marks
    if !markRange lo len || !markScope sc then .ok (s.setS o.d stRefused).retire
    else if marks.any (fun m => m.core = s.cur.core) || 16 ≤ marks.length then .ok (s.setS o.d stBusy).retire
    else
      .ok ((s.modPart s.curPart fun p => { p with marks := p.marks ++ [⟨lo, len, sc, s.cur.core⟩] }).setS o.d stOK).retire

/-- TLBI_CONF (R342). -/
def execTlbiConf (o : F2) (s : State) : Host.Outcome State Fault Refusal :=
  run (.tlbiConf o) s fun s =>
    match (s.partn s.curPart).marks.find? fun m => m.core = s.cur.core with
    | none => .ok (s.setS o.d stRefused).retire
    | some m =>
      if !s.confirmed s.cur.core then .error (.hold .confirm)
      else .ok ((s.confirmMark s.curPart m).setS o.d stOK).retire

/-- TLB_WALK (R336): the leaf that a walk reads is installed at every level; a walk that meets a page being moved stalls (R251). -/
def execTlbWalk (s : State) : Host.Outcome State Fault Refusal :=
  let c := s.input.a
  let va := field s.input.word 0 57
  let u : Use := ⟨false, false, s.input.flag⟩
  if s.draining c va then .next s
  else
    match (s.leafFor c va u).1 with
    | .leaf _ => .next (s.install c va u)
    | .fault _ _ => .next (s.count c evTlbWalk)

end Sys2Proof.Machine
end

