-- ==== Sys2Proof/Machine/Granary.lean ====
section
/-! DEFINITION. Granaries: the grant (R249), the reclaim and the move of a region's pages (R251), revocation (R252), the demotion
event (R253), collisions (R254). -/

namespace Sys2Proof.Machine

/-- The records of the two controllers. -/
def State.lentRec (s : State) (i : Nat) : Lent := Table.get {} s.lent i
def State.modLent (s : State) (i : Nat) (f : Lent → Lent) : State := { s with lent := Table.ins s.lent i (f (s.lentRec i)) }
def State.borrowedRec (s : State) (i : Nat) : Borrowed := Table.get {} s.borrowed i
def State.modBorrowed (s : State) (i : Nat) (f : Borrowed → Borrowed) : State :=
  { s with borrowed := Table.ins s.borrowed i (f (s.borrowedRec i)) }

/-! The grant. -/

/-- The copy of a region fits its bound, and so does its bandwidth beside that of the borrower's other regions (R249). -/
def Grant.fits (g : Grant) (others : Nat) : Bool :=
  1 ≤ g.units && g.units ≤ 1024 && 1 ≤ g.tr && g.tr ≤ 100 && (g.ftier = 0 || g.ftier = 2) &&
  g.units * 2 ^ 30 * 10000 ≤ g.resbw * 10 ^ 9 * 9 * g.tr && g.resbw + others ≤ (if g.ftier = 2 then 256 else 448)
/-- The entries of a page table at each level (Table 13-13). -/
def tableEntries (level : Nat) : Nat :=
  match level with
  | 0 => 16384
  | 1 => 8192
  | 2 => 512
  | _ => 32
/-- The valid entries of a page table: those whose highest byte is listed, with V set. -/
def State.validEntries (s : State) (level table : Nat) : List Word :=
  let top := s.mem.filter fun e => table ≤ e.1 && e.1 < table + 8 * tableEntries level && (e.1 - table) % 8 = 7 && 128 ≤ e.2
  top.map fun e => s.read64 (e.1 - 7)
/-- A page table maps some of the 1 GiB units from `base` on as the package's own memory (R249). -/
def State.tableMaps (s : State) (base units : Nat) : Nat → Nat → Nat → Bool
  | 0, _, _ => false
  | fuel + 1, level, table =>
    (s.validEntries level table).any fun w =>
      if w.getLsbD 55 then
        level ≠ 0 && leafOk w level && field w 58 2 = 0 && base ≤ field w 16 24 / 2 ^ 14 && field w 16 24 / 2 ^ 14 < base + units
      else level < 3 && s.tableMaps base units fuel (level + 1) (field w 8 32 * 256)
/-- No partition of the package maps the units. -/
def State.unmapped (s : State) (base units : Nat) : Bool :=
  (List.range 8).all fun t => (s.partn t).pairs = 0 || !s.tableMaps base units 4 0 (s.partn t).root
/-- The units are free, on one stack, and no partition maps them (R249, R238). -/
def State.unitsLendable (s : State) (g : Grant) : Bool :=
  g.base / 128 < 8 && g.base % 128 + g.units ≤ 96 && s.unmapped g.base g.units &&
  !(s.lent.any fun e => e.2.state ≠ .free && e.2.base < g.base + g.units && g.base < e.2.base + e.2.units)
/-- A package lies within one hop of the torus: it is at the other end of a port's link (R249, R372). -/
def State.neighbour (s : State) (pkg : Nat) : Bool := (List.range 12).any fun i => (s.port i).peer = some pkg
/-- The records of units that are lent anew no longer answer as revoked (R250). -/
def State.relend (s : State) (base units : Nat) : State :=
  { s with lent := s.lent.map fun e =>
      if e.2.base < base + units && base < e.2.base + e.2.units then (e.1, { e.2 with revoked := false }) else e }
/-- The RESBW of the regions that this package has borrowed with a fallback tier. -/
def State.resbwOf (s : State) (ftier : Nat) : Nat :=
  s.borrowed.foldl (fun n e =>
    if (e.2.state = .mapped || e.2.state = .moving) && e.2.ftier = ftier then n + e.2.resbw else n) 0

/-- GRANARY_GRANT (R249): the record of number `a`, at the lender or at the borrower. A refused grant changes no record [log 49, DESIGN CHOICE].
A borrowed record that is DEMOTED or REVOKED is taken as one that is FREE [log 64, DESIGN CHOICE]. -/
def execGranaryGrant (s : State) : Host.Outcome State Fault Refusal :=
  let i := s.input.a
  match s.input.body with
  | .grant g =>
    if 64 ≤ i then .next s
    else if g.lend then
      let r := s.lentRec i
      if r.state ≠ .free || !s.neighbour g.peer || !Grant.fits g g.others || !s.unitsLendable g then .next s
      else
        let gen := r.gen + 1
        .next (((s.relend g.base g.units).modLent i fun _ =>
          { state := .active, borrower := g.peer, bpart := g.part, base := g.base, units := g.units, tr := g.tr, gen := gen
            termend := s.clk + g.term, deadline := 0 }).later (s.clk + g.term) .termEnd { a := i, b := gen.toNat })
    else
      let r := s.borrowedRec i
      let busy := r.state = .mapped || r.state = .moving
      if busy || !s.neighbour g.peer || !g.unmapped || !Grant.fits g (s.resbwOf g.ftier) || g.faddr % 2 ^ 30 ≠ 0 || g.vbase % 2 ^ 30 ≠ 0 then
        .next s
      else
        .next (s.modBorrowed i fun _ =>
          { state := .mapped, lender := g.peer, lbase := g.base, units := g.units, part := g.part, tr := g.tr, gen := g.gen
            vbase := g.vbase, ftier := g.ftier, faddr := g.faddr, resbw := g.resbw, notify := g.notify.take 8 })
  | _ => .next s

/-- An access of the granary controller. -/
def hatchAccess (pkg part : Nat) (op : AccOp) (addr : Word) (loc i size : Nat) (gen : BitVec 20) : Access :=
  { op := op, addr := addr, loc := loc, size := size, data := 0, data2 := 0, pkg := pkg, part := part, core := hatchB, slot := i
    gen := gen.zeroExtend 32, pathQ := false, dest := 0, status := 0, grid := false, tag := 0, epoch := 0, refusals := 0 }
/-- A notice to the granary controller of another package (R251), which answers it (R363). -/
def State.tellHatch (s : State) (pkg part : Nat) (o : Owner) : State :=
  s.postReq pkg hatchB (hatchAccess s.pkgId.toNat part .load 0 (hostLoc 0) 0 8 0) o

/-! The lender's side of a reclaim. -/

/-- The lender starts a reclaim: a deadline, a notice (R251). -/
def State.startReclaim (s : State) (i reason : Nat) : State :=
  let r := s.lentRec i
  if r.state ≠ .active then s
  else
    let d := s.clk + s.msClk r.tr
    ((s.modLent i fun r => { r with state := .reclaiming, deadline := d }).tellHatch r.borrower 0 (.reclaim r.base r.gen reason)).later d
      .reclaimDeadline { a := i, b := r.gen.toNat }
/-- RECLAIM_REQUEST (R251). -/
def execReclaimRequest (s : State) : Host.Outcome State Fault Refusal := .next (s.startReclaim s.input.a 0)
/-- TERM_END (R251). -/
def execTermEnd (s : State) : Host.Outcome State Fault Refusal :=
  .next (if (s.lentRec s.input.a).gen.toNat = s.input.b then s.startReclaim s.input.a 1 else s)

/-- The accesses that wait on the lender's shelf for a revoked region are answered as revoked (R275). -/
def State.revokeShelved (s : State) (r : Lent) : State :=
  s.vaults.foldl (fun s e =>
    (e.2.shelf.filter fun a => isVault a.loc && r.holds a.loc).foldl (fun s a =>
      (s.setShelf a.loc ((s.shelfOf a.loc).erase a)).answerShelved a (.fault cGranaryRevoked)) s) s
/-- RECLAIM_DEADLINE (R252). -/
def execReclaimDeadline (s : State) : Host.Outcome State Fault Refusal :=
  let r := s.lentRec s.input.a
  if r.state = .reclaiming && r.gen.toNat = s.input.b then
    .next ((s.modLent s.input.a fun r => { r with state := .revoked, revoked := true, deadline := 0 }).revokeShelved r)
  else .next s
/-- RELEASE_NOTICE (R251): the lender's record is free. -/
def execReleaseNotice (s : State) : Host.Outcome State Fault Refusal :=
  .next (s.modLent s.input.a fun r => { r with state := .free, deadline := 0 })
/-- BORROWER_LOST (R254): the borrower's package resets; or, with the flag, its port has been down for Tr, if it is the lease `b` to the
package `c` still and no link to it has come up. -/
def execBorrowerLost (s : State) : Host.Outcome State Fault Refusal :=
  let i := s.input.a
  let r := s.lentRec i
  let up := (List.range 12).any fun j => (s.port j).up && (s.port j).peer = some r.borrower
  .next (
    if s.input.flag && (r.gen.toNat ≠ s.input.b || r.borrower ≠ s.input.c || up) then s
    else s.modLent i fun r => { r with state := .free, deadline := 0 })

/-! The borrower's side. -/

/-- The place of the leaf that translates an address, and the leaf (R336, R337); none behind a poisoned entry. -/
def State.leafFrom (s : State) (va : Nat) : Nat → Nat → Nat → Option (Nat × Word)
  | 0, _, _ => none
  | fuel + 1, level, table =>
    let loc := table + 8 * levelIndex va level
    let w := s.read64 loc
    if s.poisonedIn loc 8 || w.getLsbD 63 = false then none
    else if w.getLsbD 55 then (if level = 0 || !leafOk w level then none else some (loc, w))
    else if level = 3 then none
    else s.leafFrom va fuel (level + 1) (field w 8 32 * 256)
def State.leafAt (s : State) (part va : Nat) : Option (Nat × Word) := s.leafFrom va 4 0 (s.partn part).root

/-- A leaf maps a page of a region: tier 1, at the lender, in its units. -/
def Borrowed.maps (r : Borrowed) (leaf : Word) : Bool :=
  let unit := field leaf 30 10
  field leaf 58 2 = 1 && field leaf 40 11 = r.lender && r.lbase ≤ unit && unit < r.lbase + r.units
/-- The first address from `va` on at which a page of a region is mapped (R251). -/
def State.nextPage (s : State) (r : Borrowed) : Nat → Nat → Option Nat
  | 0, _ => none
  | n + 1, va =>
    if r.vbase + r.units * 2 ^ 30 ≤ va then none
    else
      match s.leafAt r.part va with
      | some (_, w) => if r.maps w then some va else s.nextPage r n (va / pageBytes (field w 56 2) * pageBytes (field w 56 2) + pageBytes (field w 56 2))
      | none => s.nextPage r n (va + 65536)
/-- The steps of a search through a region of 64 KiB pages. -/
def Borrowed.pages (r : Borrowed) : Nat := 16384 * r.units + 1

/-- The leaves of a page: a 128 MiB page has 64 (R337). -/
def leafPlaces (loc : Nat) (leaf : Word) : List Nat :=
  if field leaf 56 2 = 2 then (List.range 64).map fun i => loc / 512 * 512 + 8 * i else [loc]
/-- The entries of a page are rewritten (R251, R252); one in a poisoned line takes no write (R241). -/
def State.setLeaf (s : State) (loc : Nat) (leaf new : Word) : State :=
  (leafPlaces loc leaf).foldl (fun s p => ((s.storeAt p 8 new).getD s).touchCopy p) s
/-- The leaf of a page after its move: the fallback's tier and frame; its home is this package. -/
def State.movedLeaf (s : State) (r : Borrowed) (va : Nat) (leaf : Word) : Word :=
  let a := r.faddr + (va - r.vbase)
  (leaf &&& 0xF3F800000000FFFF#64) |||
    BitVec.ofNat 64 (r.ftier * 2 ^ 58 + s.pkgId.toNat * 2 ^ 40 + a / 2 ^ 16 % 2 ^ 24 * 2 ^ 16)
/-- The mark of the controller for a page. -/
def granaryMark (i va n : Nat) : Mark := ⟨va, n, 7, nCores + i⟩
/-- The marks of the controller for a region go, with the entries they made DRAINING. -/
def State.dropMarks (s : State) (part i : Nat) : State :=
  (((s.partn part).marks).filter fun m => m.core = nCores + i).foldl (fun s m => s.confirmMark part m) s

/-- The type 250 message of a region's end (R253), to each core of NOTIFY. -/
def State.demotion (s : State) (r : Borrowed) (reason : Nat) : State :=
  r.notify.foldl (fun s c =>
    s.postSys c 63 0 250
      [word r.vbase, word r.moved, word r.poisoned, word (r.ftier + reason * 256), word r.faddr,
       word (r.gen.toNat * 2 ^ 44 + r.lender)]) s
/-- Every page of a region from an address on that is still tier 1 is poisoned (R252). -/
def State.poisonPages (s : State) (i : Nat) : Nat → Nat → State
  | 0, _ => s
  | n + 1, va =>
    let r := s.borrowedRec i
    match s.nextPage r r.pages va with
    | none => s
    | some va =>
      match s.leafAt r.part va with
      | none => s
      | some (loc, w) =>
        let size := pageBytes (field w 56 2)
        let s := (s.setLeaf loc w (w ||| 0x8000#64)).dropEntries r.part (granaryMark i va size)
        (s.modBorrowed i fun r => { r with poisoned := r.poisoned + 1 }).poisonPages i n (va + size)
/-- The end of a move (R251, R252): the state, the release notice, the event. -/
def State.endMove (s : State) (i : Nat) : State :=
  let s := s.modBorrowed i fun r => { r with state := if r.poisoned ≠ 0 then .revoked else .demoted }
  let r := s.borrowedRec i
  (s.tellHatch r.lender r.part (.release r.lbase r.gen)).demotion r (if r.poisoned ≠ 0 then 2 else r.reason)
/-- Every unmoved page of a region is poisoned and its move ends: its lender is lost (R254). -/
def State.loseLender (s : State) (i : Nat) : State :=
  let r := s.borrowedRec i
  let s := (s.dropMarks r.part i).poisonPages i r.pages r.vbase
  let s := s.modBorrowed i fun r => { r with state := .revoked }
  s.demotion (s.borrowedRec i) 2

/-- The borrower's region begins to move (R251). -/
def State.startMove (s : State) (i reason : Nat) : State :=
  let r := s.borrowedRec i
  if r.state ≠ .mapped then s
  else
    (s.modBorrowed i fun r => { r with state := .moving, moved := 0, poisoned := 0, reason := reason }).soon .pageMove
      { a := i, b := r.vbase, c := r.gen.toNat }
/-- GRANARY_RELEASE (R251). -/
def execGranaryRelease (s : State) : Host.Outcome State Fault Refusal := .next (s.startMove s.input.a 3)
/-- RECLAIM_NOTICE (R251, R254): ignored for a region that moves already. -/
def execReclaimNotice (s : State) : Host.Outcome State Fault Refusal := .next (s.startMove s.input.a s.input.b)

/-- The move of region `i` goes on in phase `d` at an address of it (R251). -/
def State.moveOn (s : State) (i va d : Nat) : State := s.soon .pageMove { a := i, b := va, c := (s.borrowedRec i).gen.toNat, d := d }
/-- The same, in the next clk. -/
def State.moveLater (s : State) : State := s.later (s.clk + 1) .pageMove s.input
/-- Phase 0 (R251): the next page of the region that is mapped into it is marked. -/
def State.markPage (s : State) (i va : Nat) : State :=
  let r := s.borrowedRec i
  match s.nextPage r r.pages va with
  | none => s.endMove i
  | some va =>
    match s.leafAt r.part va with
    | none => s.endMove i
    | some (_, w) =>
      let m := granaryMark i va (pageBytes (field w 56 2))
      let marks := (s.partn r.part).marks
      if 16 ≤ marks.length || marks.any (fun x => x.lo < m.lo + m.len && m.lo < x.lo + x.len) then s.moveLater
      else ((s.touchWalk r.part va).modPart r.part fun p => { p with marks := p.marks ++ [m] }).moveOn i va 1
/-- The page that region `i` moves, with the place of its leaf; a page that is no longer in the region gives where the search goes on. -/
def State.pageAt (s : State) (i va : Nat) : Except Nat (Nat × Word) :=
  let r := s.borrowedRec i
  match s.leafAt r.part va with
  | none => .error (va + 65536)
  | some (loc, w) => if r.maps w then .ok (loc, w) else .error (va + pageBytes (field w 56 2))
/-- The page is left as it is. -/
def State.passPage (s : State) (i next : Nat) : State := (s.dropMarks (s.borrowedRec i).part i).moveOn i next 0
/-- Phase 1 (R251): every write under the old mapping is awaited; then the page's lines are read. -/
def State.drainPage (s : State) (i va : Nat) : State :=
  match s.pageAt i va with
  | .error next => s.passPage i next
  | .ok (_, w) =>
    let n := pageBytes (field w 56 2)
    if !s.drained (s.borrowedRec i).part (granaryMark i va n) then s.moveLater
    else (s.modBorrowed i fun r => { r with due := s.clk, left := n / 64 }).moveOn i va 2
/-- The clk in which the line `e` bytes into a page is read (R249): RESBW is in GB/s, and a clk in units of 40 ps by the present clock
[log 49, DESIGN CHOICE]. -/
def State.paceClk (s : State) (r : Borrowed) (e : Nat) : Nat := r.due + e * s.clockStep / (40 * max 1 r.resbw)
/-- Phase 2 (R249, R251): the line `e` bytes into the page is read from the lender, at up to RESBW. -/
def State.readPageLine (s : State) (i va e : Nat) : State :=
  let r := s.borrowedRec i
  match s.pageAt i va with
  | .error next => s.passPage i next
  | .ok (_, w) =>
    if s.clk < s.paceClk r e then s.later (s.paceClk r e) .pageMove s.input
    else
      let loc := field w 16 24 * 2 ^ 16 + e
      match s.newReq r.lender (homeNo loc) (hatchAccess s.pkgId.toNat r.part .load (word (va + e)) loc i 64 r.gen) .engine 0 true false with
      | none => s.moveLater
      | some s' =>
        if pageBytes (field w 56 2) ≤ e + 64 then s'
        else s'.later (s'.paceClk r (e + 64)) .pageMove { s.input with e := e + 64 }
/-- The page of a region that is moved has all its lines (R251): its entry is rewritten, its draining entries go, and the next page
follows. -/
def State.pageMoved (s : State) (i va : Nat) : State :=
  let r := s.borrowedRec i
  match s.leafAt r.part va with
  | none => s.passPage i (va + 65536)
  | some (loc, w) =>
    let start := va / pageBytes (field w 56 2) * pageBytes (field w 56 2)
    ((s.setLeaf loc w (s.movedLeaf r start w)).modBorrowed i fun r => { r with moved := r.moved + 1 }).passPage i
      (start + pageBytes (field w 56 2))
/-- A line of the page stands at the fallback. -/
def State.lineMoved (s : State) (i va : Nat) : State :=
  let s := s.modBorrowed i fun r => { r with left := r.left - 1 }
  if (s.borrowedRec i).left = 0 then s.pageMoved i va else s
/-- The rest of the region counts as revoked (R251, R252). -/
def State.loseRest (s : State) (i va : Nat) : State :=
  let r := s.borrowedRec i
  let start := match s.leafAt r.part va with
    | some (_, w) => va / pageBytes (field w 56 2) * pageBytes (field w 56 2)
    | none => va
  ((s.dropMarks r.part i).poisonPages i r.pages start).endMove i
/-- A line of a page is written at the fallback (R241, R251): a whole line, whose words are full, with its poison (R245); host memory is
written over the Filfel link. -/
def State.writePageLine (s : State) (i va : Nat) (l : List (Byte × Bool)) : State :=
  let r := s.borrowedRec i
  let dst := r.faddr + (va - r.vbase)
  let op := AccOp.line l (some (List.replicate 8 true))
  if r.ftier = 2 then
    s.postReq s.pkgId.toNat hatchA (hatchAccess s.pkgId.toNat r.part op (word va) (hostLoc dst) i 64 r.gen) .engine
  else
    let x := s.act (hatchAccess s.pkgId.toNat r.part op (word va) dst i 64 r.gen)
    ((x.1.touchCopy dst).shelfPasses dst 64).lineMoved i va
/-- Phase 3 (R251): the answer to the read of a line, or to its write at the fallback (with the flag): the line is written; a poisoned
line leaves a poisoned line in a local Vault; a line refused as revoked, or lost in another way, ends the move [log 49, DESIGN CHOICE]. -/
def State.lineAnswered (s : State) (i va : Nat) (wr : Bool) (cause : BitVec 8) (b : Body) : State :=
  match b with
  | .bytes l => s.writePageLine i va (l.map fun x => (x, false))
  | _ =>
    if wr && cause = 0 then s.lineMoved i va
    else if !wr && cause = cPoison && (s.borrowedRec i).ftier ≠ 2 then s.writePageLine i va (List.replicate 64 (0, true))
    else s.loseRest i va
/-- The reply to a line's read or write reaches the granary controller. -/
def State.lineReply (s : State) (a : Access) (cause : BitVec 8) (b : Body) : State :=
  s.soon .pageMove
    { a := a.slot, b := a.addr.toNat, c := a.gen.toNat, d := 3, flag := accWrites a.op, cause := cause, body := if cause = 0 then b else .none }

/-- PAGE_MOVE (R251, R252) for the lease of generation `c` of region `a`: phase 0 marks the next page, phase 1 awaits the writes under the
old mapping, phase 2 reads a line of it, phase 3 takes the answer to a line. -/
def execPageMove (s : State) : Host.Outcome State Fault Refusal :=
  let i := s.input.a
  let va := s.input.b
  let r := s.borrowedRec i
  if r.state ≠ .moving || r.gen.toNat ≠ s.input.c then .next s
  else
    .next (match s.input.d with
      | 0 => s.markPage i va
      | 1 => s.drainPage i va
      | 2 => s.readPageLine i va s.input.e
      | _ => s.lineAnswered i va s.input.flag s.input.cause s.input.body)

end Sys2Proof.Machine
end

