-- ==== Sys2Proof/Machine/Links.lean ====
section
/-! DEFINITION. What crosses the links: requests at their home (R222, R202, R345, R366), refusals (R274), replies, timeouts and
reissue (R363); and the accesses of the package that a larder bank serves later (R196). -/

namespace Sys2Proof.Machine

/-! A request at its home. -/

/-- The access is one that came with a tag and an epoch before. -/
def sameKey (a b : Access) : Bool := a.pkg = b.pkg && a.core = b.core && a.tag = b.tag && a.epoch = b.epoch
/-- A home refuses a request (R274, R345): another package's, or one that crossed the Filfel link. -/
def State.refuseAway (s : State) (a : Access) : State :=
  let s := if isLarder a.loc then s else s.countAll evVRefusal
  if a.pkg = s.pkgId.toNat then s.sendReply a 0 0xFE
  else s.send a.core (homeNo a.loc) a.part 3 (.refusal a.pkg a.core a.tag a.epoch)
/-- A plain store (R202). -/
def AccOp.plainStore : AccOp → Bool
  | .store _ | .store16 | .nibble _ _ => true
  | _ => false
/-- A request for a line, of code (R45), of a record (R369) or of a page that moves (R251), is answered with its bytes. -/
def State.answerLine (s : State) (a : Access) : State :=
  let s := if a.pkg ≠ s.pkgId.toNat && a.core = hatchB then s.touchCopy a.loc else s.touchHome a.loc a.size a.pkg a.part
  if s.poisonedIn a.loc a.size then s.sendReply a 0 cPoison
  else
    let l := (List.range a.size).map fun i => s.byte (a.loc + i)
    if a.pkg ≠ s.pkgId.toNat then s.send a.core (homeNo a.loc) a.part 3 (.line a.pkg a.core a.tag a.epoch l)
    else s.overFilfel .replyArrival { a := a.core * 4096 + a.tag, b := a.epoch, body := .bytes l }

/-- A request that crossed a link is served at its home (R222): its line is prepared, its bytes are answered, or it is performed,
shelved or refused [log 52, DEDUCED]. -/
def State.serveAway (s : State) (a : Access) : State :=
  if a.op = .load && 8 < a.size then s.answerLine a
  else
    match s.perform a with
    | (s', .shelved) => s'
    | (s', .refused) => s'.refuseAway a
    | (s', r) => s'.replyAway a r
/-- A request that crossed a link reaches its home (R222): the Filfel link, which carries nothing while it retrains (R362), a core in reset, a reissue that a pantry or a shelf knows, the partition map, a
lent region, a full pantry; then its larder bank, of which `served` says that it has served it (R196). -/
def State.awayHome (s : State) (a : Access) (served : Bool) : State :=
  if isHost a.loc && s.filfelClk ≠ some s.clk then s.overFilfel .accessAtHome { body := .access a }
  else if isLarder a.loc && (s.core (larderCore a.loc)).inReset then
    if AccOp.plainStore a.op then s.sendReply a 0 0 else s.refuseReset a
  else
    match (s.pantry a.loc).find? fun e => e.isFor a.pkg a.core a.tag a.epoch with
    | some e => (if isLarder a.loc then s.count (larderCore a.loc) evPantryHit else s.countAll evVPantryHit).sendReply a e.data e.cause
    | none =>
      if (s.shelfOf a.loc).any (fun x => sameKey x a) then s
      else if !s.foreignOk a.loc a.pkg a.part then s.replyAway a (.fault cPartition)
      else
        match s.lentFault a.loc a.pkg a.part with
        | some c => s.replyAway a (.fault c)
        | none =>
          if AccOp.once a.op && s.pantryFull a.loc then s.refuseAway a
          else if a.op = .pref then (s.prepare a.loc a.pkg a.part).replyAway a (.value 0)
          else
            let r := s.arriveAll a.loc a.size
            if !served && s.clk < r.2 then r.1.later r.2 .accessAtHome { b := 1, body := .access a }
            else (if served then s else r.1).serveAway a

/-- The path that issued an access of this package still waits in its shelf. -/
def State.stillShelved (s : State) (a : Access) : Bool :=
  let sl := s.slot a.core a.slot
  sl.gen = a.gen && (sl.path (sl.eff a.pathQ)).wait = .shelved
/-- An access of this package that a shelf has refused reaches its home again. -/
def State.ownHome (s : State) (a : Access) : State :=
  if !s.stillShelved a then s
  else if isLarder a.loc && (s.core (larderCore a.loc)).inReset then s.refuseReset a
  else
    let r := s.arriveAll a.loc a.size
    if s.clk < r.2 then r.1.awaitBank r.2 a .path 128 (AccOp.reads a.op) true
    else
      match r.1.perform a with
      | (s', .shelved) => s'
      | (s', .refused) => s'.retryAccess a
      | (s', r) => s'.answerPath a r

/-- SHELF_RETRY (R274): to its home on the package, or, with the tag of its live request, across the link. -/
def execShelfRetry (s : State) : Host.Outcome State Fault Refusal :=
  match s.input.body with
  | .access a =>
    if s.input.flag then
      let key := a.core * 4096 + a.tag
      match s.reqs.find? fun e => e.1 = key && e.2.epoch = a.epoch with
      | some e =>
        .next ((s.sendReq e.2).later (s.clk + reqTO e.2.toTgt) .requestTimeout { a := key, b := a.epoch, c := e.2.acc.refusals })
      | none => .next s
    else .next (s.ownHome a)
  | _ => .next s

/-- PANTRY_EXPIRY (R345): an entry expires, or its reply is acknowledged. -/
def execPantryExpiry (s : State) : Host.Outcome State Fault Refusal :=
  let loc := homeLoc s.input.a
  .next (s.setPantry loc ((s.pantry loc).filter fun e =>
    !(e.isFor s.input.b s.input.c s.input.d s.input.e && (s.input.flag || e.till ≤ s.clk))))

/-! Replies. -/

/-- The lane of a vector access that a request is; none for a scalar access. -/
def Req.laneOf (r : Req) : Option Nat := if r.lane < 128 then some r.lane else none
/-- FINFO of a fault that a reply brings: the Access rows of R180, of which FABRIC_TIMEOUT has only [8] WR (Table 7-6) [log 47, DEDUCED]. -/
def replyInfo (cause : BitVec 8) (wr fetch : Bool) (lane : Option Nat) : Word :=
  if cause = cFabricTimeout then accInfo 0 wr false none else accInfo 0 wr fetch lane
/-- The requests that a path awaits inside its instruction count no longer as awaited. -/
def State.abandonReplies (s : State) (a : Access) : State :=
  { s with reqs := s.reqs.map fun e => if s.awaits a.core a.slot a.pathQ e.2 then (e.1, { e.2 with inside := false }) else e }
/-- A request that a path awaits inside its instruction ends in a fault: the trap is precise there (R202, R363). -/
def State.insideTrap (s : State) (r : Req) (cause : BitVec 8) : State :=
  let a := r.acc
  (s.abandonReplies a).trapAt a.core a.slot a.pathQ
    { code := cause, faddr := a.addr, finfo := replyInfo cause (accWrites a.op) false none }
/-- A request that no path awaits ends in a fault (R363). -/
def State.laterTrap (s : State) (r : Req) (cause : BitVec 8) : State :=
  s.endLate r.acc ⟨cause, r.acc.addr, replyInfo cause (accWrites r.acc.op) false r.laneOf, r.ins, r.lane⟩
/-- The path of an access. -/
def State.pathOf (s : State) (a : Access) : Path := (s.slot a.core a.slot).path ((s.slot a.core a.slot).eff a.pathQ)
def State.modAccPath (s : State) (a : Access) (f : Path → Path) : State :=
  s.modPathOf a.core a.slot ((s.slot a.core a.slot).eff a.pathQ) f

/-- The reply to a lane that fails, or nothing. The lowest failing lane so far is kept. -/
def VLoad.worse (v : VLoad) (r : Req) (cause : BitVec 8) : Option (BitVec 8 × Nat × Word × Bool) :=
  let this := some (cause, r.lane, r.acc.addr, accWrites r.acc.op)
  if cause = 0 then v.bad
  else
    match v.bad with
    | some b => if b.2.1 ≤ r.lane then v.bad else this
    | none => this
/-- A lane of a vector access is answered (R214): with the last one the register is written, or the lowest failing lane traps; a `vamo`
keeps the lanes that have been performed. -/
def State.laneReply (s : State) (r : Req) (v : VLoad) (data : Word) (cause : BitVec 8) : State :=
  let a := r.acc
  let v := { v with lanes := if cause = 0 then Table.ins v.lanes r.lane data else v.lanes, left := v.left - 1, bad := v.worse r cause }
  if v.left ≠ 0 then s.modAccPath a fun p => { p with vload := some v }
  else
    match v.bad with
    | some b =>
      let keep : Bool := match a.op with
        | .amo _ _ => true
        | _ => false
      (s.modAccPath a fun p => if keep then p.keepDone v.lanes else p).trapAt a.core a.slot a.pathQ
        { code := b.1, faddr := b.2.2.1, finfo := replyInfo b.1 b.2.2.2 false (some b.2.1) }
    | none =>
      (s.modSlot a.core a.slot fun sl => match v.dest with
        | some d => sl.writeLanes v.ty d v.lanes
        | none => sl).advance a.core a.slot a.pathQ (s.pathOf a).succ

/-- A withdrawal was in time (R209): the path stands at its instruction, or takes the watchdog's trap there. -/
def State.shelfWithdrawn (s : State) (a : Access) : State :=
  let q := (s.slot a.core a.slot).eff a.pathQ
  let tripped := (s.pathOf a).buf.any fun e => e.1 = tripKey
  let s := s.modAccPath a Path.withdrawn
  if tripped then s.tripTrap a.core a.slot q else s.settle a.core a.slot

/-- The words of a reply: those of a line, or its one doubleword. -/
def replyWords (data : Word) : Body → List Word
  | .bytes l => (List.range (l.length / 8)).map fun i => word (bytesNat ((l.drop (8 * i)).take 8))
  | _ => [data]
/-- The words of a reply stand in the buffer of the path, from the lane of the request on. -/
def Path.receive (p : Path) (lane : Nat) (l : List Word) : Path :=
  { p with buf := l.zipIdx.foldl (fun b e => Table.ins b (lane + e.2) e.1) p.buf }
/-- A reply to a request of a path (R206, R208, R363): cause 0 for a value, 0xFF for NOTREADY, 0xFD for a withdrawn access. -/
def State.pathReply (s : State) (r : Req) (data : Word) (b : Body) (cause : BitVec 8) : State :=
  let a := r.acc
  if (s.slot a.core a.slot).gen ≠ a.gen then s
  else if !r.inside then (if cause = 0 then s else s.laterTrap r cause)
  else
    match (s.pathOf a).wait with
    | .reply =>
      if cause = 0 then s.modAccPath a fun p => p.receive r.lane (replyWords data b)
      else if (s.pathOf a).buf.any fun e => e.1 = quietKey then
        s.modAccPath a fun p => { p with buf := Table.ins p.buf failKey 1 }
      else s.insideTrap r cause
    | .load =>
      match (s.pathOf a).vload with
      | some v => s.laneReply r v data cause
      | none => if cause = 0 then s.answerPath a (.value data) else s.insideTrap r cause
    | .shelved =>
      if cause = 0 then s.answerPath a (.value data)
      else if cause = 0xFF then s.answerPath a .notReady
      else if cause = 0xFD then s.shelfWithdrawn a
      else s.insideTrap r cause
    | .matrix _ => if cause = 0 then s else s.insideTrap r cause
    | _ => s
/-- The reply to the request for a code line (R45): the path that awaits it has fetched the line, or traps at fetch. -/
def State.codeReply (s : State) (key : Nat) (r : Req) (b : Body) (cause : BitVec 8) : State :=
  let a := r.acc
  let p := s.pathOf a
  if (s.slot a.core a.slot).gen ≠ a.gen || p.wait ≠ .code key then s
  else if cause = 0 then
    s.modAccPath a fun p => { p with wait := .none, line := some ⟨lineBase p.pc, halvesOf (replyWords 0 b), false⟩ }
  else
    s.trapAt a.core a.slot a.pathQ { code := cause, faddr := p.pc, finfo := replyInfo cause false true none, fetch := true }

/-- A request of a core has its answer: its tag is free, and what waits for one is sent. -/
def State.endReq (s : State) (key c : Nat) : State := ({ s with reqs := Table.del s.reqs key } : State).pumpCore c
/-- The request is one that its home performs once (R345). -/
def Req.once (r : Req) : Bool :=
  match r.owner with
  | .message _ => true
  | _ => AccOp.once r.acc.op
/-- The reply to a request of a unit: a cellar engine, the admitter, whose write that fails is CCFAIL (R304) and whose read of a ring
goes on (R369), the granary controller, whose copy reads and writes lines (R251), the race trace ring of a core, where a write that fails clears EN (R235). -/
def State.deviceReply (s : State) (a : Access) (data : Word) (b : Body) (cause : BitVec 8) : State :=
  if 2048 ≤ a.core then s.engReply a data cause
  else if a.core = hatchA then
    if a.op = .load then
      s.soon .launchRingAccept { a := a.addr.toNat / 4, b := a.addr.toNat % 4, cause := cause, body := if cause = 0 then b else .none }
    else s.admitterReply a cause
  else if a.core = hatchB then s.lineReply a cause b
  else (if cause = 0 then s else s.traceOff a.core).soon .accessAtHome { a := a.core }

/-- A reply that matches no live request is dropped and counted (R363). -/
def State.lateReply (s : State) (key : Nat) : State := if key / 4096 < nCores then s.count (key / 4096) evLate else s
/-- A refusal reaches the requester (R274, R345): the request is sent again after its back-off. -/
def State.refused (s : State) (key : Nat) (r : Req) : State :=
  let s := if r.acc.core < nCores then s.count r.acc.core evRefusal else s
  match r.owner with
  | .firkin f =>
    let f := { f with refusals := f.refusals + 1 }
    (s.endReq key r.acc.core).later (s.clk + backOff f.refusals) .firkinOpRetry { body := .firkin f }
  | _ =>
    let r := { r with acc := { r.acc with refusals := r.acc.refusals + 1 } }
    ({ s with reqs := Table.ins s.reqs key r }).later (s.clk + backOff r.acc.refusals) .shelfRetry { flag := true, body := .access r.acc }
/-- The reply to a request that its home has kept is acknowledged (R345): across Omyan, or to the Filfel link of the package. -/
def State.ackReply (s : State) (r : Req) : State :=
  if r.toPkg ≠ s.pkgId.toNat then
    s.send r.toTgt (s.unitOf r.acc.core) r.acc.part (if r.acc.core < nCores then (s.core r.acc.core).cls r.acc.slot else 3)
      (.ack r.toPkg r.acc.core r.acc.tag r.epoch)
  else
    s.soon .pantryExpiry { a := homeNo r.acc.loc, b := r.acc.pkg, c := r.acc.core, d := r.acc.tag, e := r.epoch, flag := true }
/-- The answer of a request reaches who awaits it. A message that a partition map turns away traps PARTITION (R366). -/
def State.replyTo (s : State) (key : Nat) (r : Req) (data : Word) (b : Body) (cause : BitVec 8) : State :=
  match r.owner with
  | .path => s.pathReply r data b cause
  | .code => s.codeReply key r b cause
  | .copy ch => s.copyReply r.acc.core ch r.lane data cause
  | .engine => s.deviceReply r.acc data b cause
  | .message m => if cause = 0 || m.ty = 254 then s else s.endLate r.acc ⟨cause, r.acc.addr, 0, 0, 128⟩
  | .pref | .notice _ _ | .marker _ _ | .withdrawal _ _ | .reclaim _ _ _ | .release _ _ | .firkin _ => s

/-- REPLY_ARRIVAL (R206, R363): the reply to the live request of a tag and an epoch, which is acknowledged where its home has kept it
(R345). A firkin operation is answered by FIRKIN_ANSWER alone. -/
def execReplyArrival (s : State) : Host.Outcome State Fault Refusal :=
  let key := s.input.a
  let cause := s.input.cause
  let data := s.input.word
  let b := s.input.body
  match s.reqs.find? fun e => e.1 = key && e.2.epoch = s.input.b with
  | none => .next (s.lateReply key)
  | some (_, r) =>
    if cause = 0xFE then .next (s.refused key r)
    else
      match r.owner with
      | .firkin _ => .next s
      | _ =>
        let s1 := s.endReq key r.acc.core
        let s1 := if r.once && cause = 0 then s1.ackReply r else s1
        .next (s1.replyTo key r data b cause)

/-! Accesses of the package that their larder bank serves later (R196). -/

/-- A path's access is served by its bank: performed, shelved or refused, and its path answered, where it still awaits the answer; an
access of a slot that has gone has been issued, and is performed (R184). -/
def State.servePath (s : State) (key : Nat) (r : Req) : State :=
  let a := r.acc
  let s := (({ s with reqs := Table.del s.reqs key } : State)).pump a.core a.slot
  if (s.core (larderCore a.loc)).inReset then s.pathReply r 0 .none cTargetReset
  else
    match s.perform a with
    | (s', .shelved) => s'
    | (s', .refused) => s'.retryAccess a
    | (s', x) => s'.pathReply r x.reply.1 .none x.reply.2
/-- An access that has waited for its bank is served. -/
def State.serveBank (s : State) (key : Nat) : State :=
  match s.reqs.find? fun e => e.1 = key with
  | none => s
  | some (_, r) =>
    match r.owner with
    | .path => s.servePath key r
    | _ => (({ s with reqs := Table.del s.reqs key } : State).admitterAct r.acc).admitterNext r.acc

/-- A step of a home on its own structures, of kind `k`: the race trace ring of core `a` (R236), the shelf's accesses for the place `a`
(R274), a push of the descriptor at the offset `c` on the ready ring of core `a` (R273), the admitter's add of -1 to the counter at `w`
(R304). -/
def State.homeStep (s : State) (k a c : Nat) (w : Word) : State :=
  match k with
  | 0 => s.flushTrace a ((s.core a).traceq.length + 1)
  | 1 => s.shelfPass a 4096
  | 2 => s.pushDescriptor a c
  | _ => s.countDown a w
/-- ACCESS_AT_HOME (R222): with the flag, the access `a` that its larder bank serves now; without an access, a home's own step of kind `b`;
a request of this package comes over the Filfel link; `b` is 1 where the larder bank has served it. -/
def execAccessAtHome (s : State) : Host.Outcome State Fault Refusal :=
  match s.input.body with
  | .access a => .next (if s.input.flag then s.serveBank s.input.a else s.awayHome a (s.input.b = 1))
  | _ => .next (s.homeStep s.input.b s.input.a s.input.c s.input.word)

/-! Timeouts (R363). -/

/-- A region of another package at which a request was aimed: the lender is lost with the first timeout (R254). -/
def State.lenderLost (s : State) (r : Req) : State :=
  let a := r.acc
  if isLarderAddr a.addr || !isVault a.loc then s
  else
    match s.borrowed.find? fun e =>
      (e.2.state = .mapped || e.2.state = .moving) && e.2.lender = r.toPkg && e.2.part = a.part && e.2.lbase ≤ a.loc / 2 ^ 30 &&
        a.loc / 2 ^ 30 < e.2.lbase + e.2.units with
    | some e => s.loseLender e.1
    | none => s

/-- A path's request has ended without a reply: a wait for its own reply ends in a trap; a load or atomic ends without a value, and
its trap is taken at the next boundary, as is that of a request which no path awaits. -/
def State.pathTimeout (s : State) (r : Req) : State :=
  let a := r.acc
  let p := s.pathOf a
  if (s.slot a.core a.slot).gen ≠ a.gen then s
  else if r.inside && p.wait = .load then
    ((s.abandonReplies a).advance a.core a.slot a.pathQ p.succ).laterTrap r cFabricTimeout
  else s.pathReply r 0 .none cFabricTimeout

/-- A firkin operation has ended without an answer (R315). -/
def State.firkinTimeout (s : State) (f : FkReq) : State :=
  if f.forwarded then s
  else
    let s := s.fkAcked f
    match f.kind with
    | .invf _ _ res => s.notice f.core res (some (7, cFabricTimeout))
    | _ =>
      if f.id = 0 then s.count f.core evStaleFk
      else if s.fkAwaited f then s.fkTrap f cFabricTimeout
      else s

/-- A request has timed out for the fourth time: it ends, and its tag is quarantined. A bounce is never bounced (R269). -/
def State.endTimeout (s : State) (key : Nat) (r : Req) : State :=
  let s : State := { s with reqs := Table.del s.reqs key, quarantined := NatSet.add s.quarantined key }
  let s := ((s.pumpCore r.acc.core).later (s.clk + omyanTO) .tagQuarantineEnd { a := key }).lenderLost r
  match r.owner with
  | .path => s.pathTimeout r
  | .firkin f => s.firkinTimeout f
  | .message m => if m.ty = 254 then s else s.bounce r.acc.core m
  | _ => s.replyTo key r 0 .none cFabricTimeout

/-- REQUEST_TIMEOUT (R363, R224): three reissues, then the end of the request. -/
def execRequestTimeout (s : State) : Host.Outcome State Fault Refusal :=
  let key := s.input.a
  match s.reqs.find? fun e => e.1 = key && e.2.epoch = s.input.b && e.2.acc.refusals = s.input.c with
  | none => .next s
  | some (_, r) =>
    if r.reissues < 3 then
      let s := if r.acc.core < nCores then s.count r.acc.core evReissue else s
      let r := { r with reissues := r.reissues + 1 }
      .next ((({ s with reqs := Table.ins s.reqs key r } : State).sendReq r).later (s.clk + reqTO r.toTgt) .requestTimeout s.input)
    else .next (s.endTimeout key r)

/-- TAG_QUARANTINE_END (R363). -/
def execTagQuarantineEnd (s : State) : Host.Outcome State Fault Refusal :=
  .next (({ s with quarantined := NatSet.rem s.quarantined s.input.a } : State).pumpCore (s.input.a / 4096))

end Sys2Proof.Machine
end

