-- ==== Sys2Proof/Machine/Power.lean ====
section
/-! DEFINITION. The issue selector's act (R307), the clock and the gating of issue slots (R375). -/

namespace Sys2Proof.Machine

/-- ISSUE_SELECT (R307): the selector of a core acts. -/
def execIssueSelect (s : State) : Host.Outcome State Fault Refusal := .next (s.select s.input.a)

/-- CLOCK_STEP (R375): one step of 25 MHz between 1.0 and 2.5 GHz, or the gating of a bay in fixed-clock mode [log 14, DESIGN CHOICE]. -/
def execClockStep (s : State) : Host.Outcome State Fault Refusal :=
  let b := s.input.b
  if s.input.c = 1 then .next (if s.fixed then { s with gated := NatSet.add s.gated b } else s)
  else if s.input.c = 2 then
    let s' : State := { s with gated := NatSet.rem s.gated b }
    .next (s'.soon .matrixArbitration { a := b })
  else if s.fixed then .next (s.setClock 100)
  else .next (s.setClock (if s.input.flag then min 100 (s.clockStep + 1) else max 40 (s.clockStep - 1)))

end Sys2Proof.Machine
end

