-- ==== Sys2Proof/Machine/Scalar.lean ====
section
/-! DEFINITION. The scalar instructions: the compact forms (R42), the integer operations (R87, R88), identity (R94), address
formation (R96), the scalar floating-point operations (R89 to R93). -/

namespace Sys2Proof.Machine

/-- An instruction whose one effect is a value in a scalar register. -/
def setScalar (i : Instr) (d : BitVec 5) (v : State → Word) (s : State) : Host.Outcome State Fault Refusal :=
  run i s fun s => .ok ((s.setS d (v s)).retire)

/-- MOVC (R42). -/
def execMovc (o : F1) (s : State) : Host.Outcome State Fault Refusal := setScalar (.movc o) o.d (fun s => s.sreg o.a) s
/-- ADDC (R42). -/
def execAddc (o : F1) (s : State) : Host.Outcome State Fault Refusal :=
  setScalar (.addc o) o.d (fun s => s.sreg o.a + o.x.signExtend 64) s

/-! Register to register (R87). -/

/-- A two-source operation on s[a] and s[b]. -/
def alu2 (i : Instr) (o : F2) (f : Word → Word → Word) (s : State) : Host.Outcome State Fault Refusal :=
  setScalar i o.d (fun s => f (s.sreg o.a) (s.sreg o.b)) s
/-- A one-source operation on s[a]. -/
def alu1 (i : Instr) (o : F2) (f : Word → Word) (s : State) : Host.Outcome State Fault Refusal :=
  setScalar i o.d (fun s => f (s.sreg o.a)) s
/-- U of x12: operands read as unsigned. -/
def F2.unsigned (o : F2) : Bool := o.x.getLsbD 0
/-- A shift amount. -/
def shAmt (b : Word) : Nat := field b 0 6
/-- An operand as an integer under U. -/
def opInt (u : Bool) (a : Word) : Int := if u then a.toNat else a.toInt

def execAdd (o : F2) (s : State) : Host.Outcome State Fault Refusal := alu2 (.add o) o (· + ·) s
def execSub (o : F2) (s : State) : Host.Outcome State Fault Refusal := alu2 (.sub o) o (· - ·) s
def execAnd (o : F2) (s : State) : Host.Outcome State Fault Refusal := alu2 (.and o) o (· &&& ·) s
def execOr (o : F2) (s : State) : Host.Outcome State Fault Refusal := alu2 (.or o) o (· ||| ·) s
def execXor (o : F2) (s : State) : Host.Outcome State Fault Refusal := alu2 (.xor o) o (· ^^^ ·) s
def execAndn (o : F2) (s : State) : Host.Outcome State Fault Refusal := alu2 (.andn o) o (fun a b => a &&& ~~~b) s
def execShl (o : F2) (s : State) : Host.Outcome State Fault Refusal := alu2 (.shl o) o (fun a b => a <<< shAmt b) s
def execShr (o : F2) (s : State) : Host.Outcome State Fault Refusal := alu2 (.shr o) o (fun a b => a >>> shAmt b) s
def execSar (o : F2) (s : State) : Host.Outcome State Fault Refusal :=
  alu2 (.sar o) o (fun a b => a.sshiftRight (shAmt b)) s
def execRol (o : F2) (s : State) : Host.Outcome State Fault Refusal :=
  alu2 (.rol o) o (fun a b => a.rotateLeft (shAmt b)) s
def execMin (o : F2) (s : State) : Host.Outcome State Fault Refusal :=
  alu2 (.min o) o (fun a b => if opInt (F2.unsigned o) b < opInt (F2.unsigned o) a then b else a) s
def execMax (o : F2) (s : State) : Host.Outcome State Fault Refusal :=
  alu2 (.max o) o (fun a b => if opInt (F2.unsigned o) a < opInt (F2.unsigned o) b then b else a) s
def execMul (o : F2) (s : State) : Host.Outcome State Fault Refusal := alu2 (.mul o) o (· * ·) s
def execMulh (o : F2) (s : State) : Host.Outcome State Fault Refusal :=
  alu2 (.mulh o) o (fun a b => BitVec.ofInt 64 (opInt (F2.unsigned o) a * opInt (F2.unsigned o) b / 2 ^ 64)) s
def execDiv (o : F2) (s : State) : Host.Outcome State Fault Refusal :=
  alu2 (.div o) o (fun a b => BitVec.ofInt 64 (intDiv 64 (!F2.unsigned o) (opInt (F2.unsigned o) a) (opInt (F2.unsigned o) b)).1) s
def execRem (o : F2) (s : State) : Host.Outcome State Fault Refusal :=
  alu2 (.rem o) o (fun a b => BitVec.ofInt 64 (intDiv 64 (!F2.unsigned o) (opInt (F2.unsigned o) a) (opInt (F2.unsigned o) b)).2) s
def execSel (o : F2) (s : State) : Host.Outcome State Fault Refusal :=
  setScalar (.sel o) o.d (fun s => if s.sreg o.c ≠ 0 then s.sreg o.a else s.sreg o.b) s
def execCmp (o : F2) (s : State) : Host.Outcome State Fault Refusal :=
  alu2 (.cmp o) o (fun a b => if condHolds (bits o.x 0 4) a b then 1 else 0) s
def execClz (o : F2) (s : State) : Host.Outcome State Fault Refusal := alu1 (.clz o) o (fun a => word (clz64 a)) s
def execCtz (o : F2) (s : State) : Host.Outcome State Fault Refusal := alu1 (.ctz o) o (fun a => word (ctz64 a)) s
def execPopc (o : F2) (s : State) : Host.Outcome State Fault Refusal := alu1 (.popc o) o (fun a => word (popCount a)) s
/-- pos and len of `bext` and `bins`. -/
def F2.pos (o : F2) : Nat := field o.x 0 6
def F2.blen (o : F2) : Nat := field o.x 6 6 + 1
def execBext (o : F2) (s : State) : Host.Outcome State Fault Refusal :=
  alu1 (.bext o) o (fun a => word (a.toNat / 2 ^ F2.pos o % 2 ^ F2.blen o)) s
def execBins (o : F2) (s : State) : Host.Outcome State Fault Refusal :=
  alu2 (.bins o) o (fun a b =>
    let m : Word := BitVec.ofNat 64 ((2 ^ F2.blen o - 1) * 2 ^ F2.pos o)
    (a &&& ~~~m) ||| ((b <<< F2.pos o) &&& m)) s

/-! Immediate (R88). -/

/-- An operation on s[a] and the sign-extended immediate. -/
def aluImm (i : Instr) (o : F3) (f : Word → Word → Word) (s : State) : Host.Outcome State Fault Refusal :=
  setScalar i o.d (fun s => f (s.sreg o.a) (o.imm.signExtend 64)) s

def execLi (o : F3) (s : State) : Host.Outcome State Fault Refusal := aluImm (.li o) o (fun _ v => v) s
def execLih (o : F3) (s : State) : Host.Outcome State Fault Refusal :=
  setScalar (.lih o) o.d (fun s => o.imm ++ bits (s.sreg o.a) 0 32) s
def execAddi (o : F3) (s : State) : Host.Outcome State Fault Refusal := aluImm (.addi o) o (· + ·) s
def execAndi (o : F3) (s : State) : Host.Outcome State Fault Refusal := aluImm (.andi o) o (· &&& ·) s
def execOri (o : F3) (s : State) : Host.Outcome State Fault Refusal := aluImm (.ori o) o (· ||| ·) s
def execXori (o : F3) (s : State) : Host.Outcome State Fault Refusal := aluImm (.xori o) o (· ^^^ ·) s
def execShli (o : F3) (s : State) : Host.Outcome State Fault Refusal := aluImm (.shli o) o (fun a _ => a <<< o.imm.toNat) s
def execShri (o : F3) (s : State) : Host.Outcome State Fault Refusal := aluImm (.shri o) o (fun a _ => a >>> o.imm.toNat) s
def execSari (o : F3) (s : State) : Host.Outcome State Fault Refusal :=
  aluImm (.sari o) o (fun a _ => a.sshiftRight o.imm.toNat) s
def execCmpi (o : F3) (s : State) : Host.Outcome State Fault Refusal :=
  aluImm (.cmpi o) o (fun a v => if condHolds (bits o.x 0 4) a v then 1 else 0) s
def execMuli (o : F3) (s : State) : Host.Outcome State Fault Refusal := aluImm (.muli o) o (· * ·) s

/-! Identity (R94, R95). -/

/-- All ones: a value that a task or the S-slot does not have (R94). -/
def noValue : Word := BitVec.allOnes 64
/-- A value of the group's place. -/
def State.memberVal (s : State) (f : Member → Team → Cluster → Grid → Nat) : Word :=
  match s.curSlot.member, s.curTeam?, s.curCluster?, s.curGrid? with
  | some m, some t, some cl, some g => word (f m t cl g)
  | _, _, _, _ => noValue

/-- The value of a `sid` selector (Table 4-11). -/
def State.identity (s : State) (sel : Nat) : Word :=
  let c := s.cur.core
  match sel with
  | 0x00 => word c
  | 0x01 => word (coreDie c)
  | 0x02 => word (coreX c)
  | 0x03 => word (coreY c)
  | 0x04 => word (coreBay c)
  | 0x05 => word s.pkgId.toNat
  | 0x06 => word s.curPart
  | 0x07 => word s.cur.slot
  | 0x08 => if s.curSlot.dual && s.cur.pathQ then 1 else 0
  | 0x09 => s.memberVal fun m _ _ _ => m.index
  | 0x0A => s.memberVal fun _ t _ _ => t.groups
  | 0x0B => s.memberVal fun _ _ cl _ => coreX c - cl.x0
  | 0x0C => s.memberVal fun _ _ cl _ => coreY c - cl.y0
  | 0x0D => s.memberVal fun _ _ cl _ => cl.w
  | 0x0E => s.memberVal fun _ _ cl _ => cl.h
  | 0x0F => s.memberVal fun _ _ cl _ => cl.index
  | 0x10 => s.memberVal fun _ _ _ g => recNclus g.record
  | 0x11 => s.memberVal fun _ _ _ g => recLaunchId g.record
  | 0x12 => s.memberVal fun _ _ _ g => recClass g.record
  | 0x13 => word s.curSlot.valloc
  | 0x14 => word s.clk
  | _ =>
    match s.curSlot.sub with
    | some b => word b.chan
    | none => noValue

/-- SID (R94). -/
def execSid (o : F2) (s : State) : Host.Outcome State Fault Refusal := setScalar (.sid o) o.d (fun s => s.identity o.x.toNat) s

/-- ADDR (R96). -/
def execAddr (o : F3) (s : State) : Host.Outcome State Fault Refusal :=
  run (.addr o) s fun s =>
    match s.convert (s.sreg o.a) o.imm.toInt (bits o.x 0 2) with
    | some v => .ok ((s.setS o.d v).retire)
    | none => .error (.trap { code := cAddrRange, faddr := s.sreg o.a, finfo := accInfo 4 false false none })

/-! Floating point (R89 to R93). -/

/-- An operand of the type of the instruction. -/
def F2.operand (o : F2) (a : Word) : Fp := (fmtOf (o.x.extractLsb' 0 4)).decode (a.toNat % 2 ^ tyWidth (o.x.extractLsb' 0 4))
/-- A result of the type of the instruction, rounded under RND, zero-extended. -/
def F2.result (o : F2) (v : Fp) : Word := word ((fmtOf (o.x.extractLsb' 0 4)).encode (rndOf (o.x.extractLsb' 4 2)) v)

/-- A scalar floating-point operation of two operands. -/
def fp2 (i : Instr) (o : F2) (f : Fp → Fp → Fp) (s : State) : Host.Outcome State Fault Refusal :=
  alu2 i o (fun a b => F2.result o (f (F2.operand o a) (F2.operand o b))) s
/-- The rounding mode of the instruction. -/
def F2.mode (o : F2) : Rnd := rndOf (o.x.extractLsb' 4 2)

def execFadd (o : F2) (s : State) : Host.Outcome State Fault Refusal := fp2 (.fadd o) o (Fp.add (F2.mode o)) s
def execFsub (o : F2) (s : State) : Host.Outcome State Fault Refusal :=
  fp2 (.fsub o) o (fun a b => Fp.add (F2.mode o) a b.neg) s
def execFmul (o : F2) (s : State) : Host.Outcome State Fault Refusal := fp2 (.fmul o) o Fp.mul s
def execFma (o : F2) (s : State) : Host.Outcome State Fault Refusal :=
  setScalar (.fma o) o.d (fun s =>
    F2.result o (Fp.add (F2.mode o) ((F2.operand o (s.sreg o.a)).mul (F2.operand o (s.sreg o.b))) (F2.operand o (s.sreg o.c)))) s
def execFdiv (o : F2) (s : State) : Host.Outcome State Fault Refusal := fp2 (.fdiv o) o Fp.div s
def execFsqrt (o : F2) (s : State) : Host.Outcome State Fault Refusal :=
  alu1 (.fsqrt o) o (fun a => F2.result o (F2.operand o a).sqrt) s
def execFmin (o : F2) (s : State) : Host.Outcome State Fault Refusal := fp2 (.fmin o) o Fp.minimum s
def execFmax (o : F2) (s : State) : Host.Outcome State Fault Refusal := fp2 (.fmax o) o Fp.maximum s
def execFcmp (o : F2) (s : State) : Host.Outcome State Fault Refusal :=
  alu2 (.fcmp o) o (fun a b =>
    if cmpHolds (field o.x 8 4) (Fp.cmp (F2.operand o a) (F2.operand o b)) then 1 else 0) s
/-- FCVT (R91). -/
def execFcvt (o : F2) (s : State) : Host.Outcome State Fault Refusal :=
  alu1 (.fcvt o) o (fun a =>
    let src := bits o.x 8 4
    extend64 (bits o.x 0 4) (cvtElem (fun _ => 0) (bits o.x 0 4) src (F2.mode o) (a.toNat % 2 ^ tyWidth src))) s
/-- FCLASS (R93). -/
def execFclass (o : F2) (s : State) : Host.Outcome State Fault Refusal :=
  alu1 (.fclass o) o (fun a => word (2 ^ classBit (fmtOf (bits o.x 0 4)) (a.toNat % 2 ^ tyWidth (bits o.x 0 4)))) s

end Sys2Proof.Machine
end

