-- ==== Sys2Proof/Machine/Vaults.lean ====
section
/-! DEFINITION. The Vault channels (R239, R240, R247), patrol scrub (R242), crossings (R245), uncorrectable errors (R198, R241), the
retention of larder banks (R197) and register banks (R109). -/

namespace Sys2Proof.Machine

/-- The line accesses that a channel starts where `n` are left of the 7 of a slot: a granary controller's copies (R249), then the owner's
oldest, then the oldest others (R247). -/
def slotPick (code n : Nat) (l : List LineReq) : List LineReq :=
  let own := if code = 15 then [] else l.filter fun r => r.code = code
  let first := ((l.filter fun r => r.code = copyCode) ++ own).take n
  first ++ (l.filter fun r => !first.contains r).take (n - first.length)
/-- The memory-side cache takes a line: 16 ways (R240), in the set of its number modulo 65,536, the newest first [log 63, DESIGN
CHOICE]. -/
def Stack.allocate (v : Stack) (line : Nat) : Stack :=
  let row := Table.get [] v.cache (line % 65536)
  { v with cache := Table.ins v.cache (line % 65536) ((line :: row.filter fun x => x ≠ line).take 16) }
/-- The line accesses that a channel has started in the present slot. -/
def Stack.startedIn (v : Stack) (ch slot : Nat) : Nat :=
  let x := Table.get (0, 0) v.started ch
  if x.1 = slot then x.2 else 0

/-- CHANNEL_WHEEL_TURN (R247): the channel starts lines of the present slot, and goes on in the next one while requests wait. Every
request of a line that has started is served by it. -/
def execChannelWheelTurn (s : State) : Host.Outcome State Fault Refusal :=
  let k := s.input.a
  let ch := s.input.b
  let v := s.vault k
  let slot := s.clk / 8
  let l := Table.get [] v.waiting ch
  let n := v.startedIn ch slot
  let go := slotPick (Table.get 15 v.wheel (slot % 64)) (7 - n) l
  let rest := l.filter fun r => !(go.any fun x => x.line = r.line)
  let s := s.modVault k fun v =>
    go.foldl (fun v r => v.allocate r.line)
      { v with
        waiting := if rest = [] then Table.del v.waiting ch else Table.ins v.waiting ch rest
        started := if go = [] then v.started else Table.ins v.started ch (slot, n + go.length) }
  .next (if rest = [] then s else s.later ((slot + 1) * 8) .channelWheelTurn { a := k, b := ch })

/-- The place of line `n` of a channel of a stack, in the order of its addresses (R239). -/
def channelLine (k ch n : Nat) : Nat := k * 2 ^ 37 + n / 4 * 2 ^ 13 + (ch ^^^ (n / 4 % 32)) * 256 + n % 4 * 64
/-- The lines of a channel: 3 GiB (R242). -/
def channelLines : Nat := 50331648

/-- What a check finds of a datum at a place (R242, R245): poison where a memory code has lost it; host memory has none of ours. -/
def State.checked (s : State) (loc : Nat) (o : CheckOutcome) : State :=
  match o with
  | .memoryLost => if isHost loc then s else s.setPoison loc true
  | _ => s
/-- PATROL_SCRUB (R242): the next line of a channel is read; its outcome, if none is given, is good. -/
def execPatrolScrub (s : State) : Host.Outcome State Fault Refusal :=
  let k := s.input.a
  let ch := s.input.b
  let n := Table.get 0 (s.vault k).scrub ch
  let o := match s.input.body with
    | .outcome o => o
    | _ => .good
  let s := (s.modVault k fun v => { v with scrub := Table.ins v.scrub ch ((n + 1) % channelLines) }).checked (channelLine k ch n) o
  .next (s.later (s.clk + 256) .patrolScrub { a := k, b := ch })

/-- A flit, and what a step acts on, with the access of a request flagged. -/
def Flit.mapAcc (f : Access → Access) (x : Flit) : Flit :=
  match x.cargo with
  | .request p g t e a => { x with cargo := .request p g t e (f a) }
  | _ => x
def flagBody (f : Access → Access) : Body → Body
  | .access a => .access (f a)
  | .flits l => .flits (l.map (Flit.mapAcc f))
  | b => b
/-- A port with the access of a request flagged in every flit that it holds. -/
def Port.mapAcc (f : Access → Access) (p : Port) : Port :=
  let g := Flit.mapAcc f
  { p with flits := p.flits.map g, inject := p.inject.map g, again := p.again.map g
           buffers := p.buffers.map fun e => (e.1, e.2.map g), replay := p.replay.map fun e => (e.1, g e.2) }
/-- A datum in flight carries a poison flag (R245): that of a request on its way, whose write will poison its place, or that of a reply on
its way, whose consumer traps POISON. -/
def State.flagReq (s : State) (key : Nat) : State :=
  match s.reqs.find? fun e => e.1 = key with
  | none => s
  | some (_, r) =>
    let bad := fun (a : Access) => if a = r.acc then { a with bad := true } else a
    let agenda := s.agenda.map fun e => (e.1, e.2.1, { e.2.2 with body := flagBody bad e.2.2.body })
    let ports := s.ports.map fun e => (e.1, e.2.mapAcc bad)
    if accWrites r.acc.op && (!r.read || agenda ≠ s.agenda || ports ≠ s.ports) then
      { s with reqs := Table.ins s.reqs key { r with acc := { r.acc with bad := true } }, agenda := agenda, ports := ports }
    else s.soon .replyArrival { a := key, b := r.epoch, cause := cPoison }
/-- A stretch in the buffer of a copy channel carries a poison flag (R245, R279). -/
def State.flagCopy (s : State) (c ch i : Nat) : State :=
  s.modCore c fun co => { co with copyq := co.copyq.map fun r =>
    if r.chan = ch && r.started then { r with buf := Table.ins r.buf (128 + i % 64) 1 } else r }
/-- CHECK_FAILURE_AT_CROSSING (R245): a corrected datum is as it was; one that a memory code has lost carries a poison flag, `c` says
where it is: 0 on its way into the place `a`, 1 the datum of the request or reply `a`, 2 the stretch `d` of channel `b` of the copy engine
of core `a`; a link replays. -/
def execCheckFailureAtCrossing (s : State) : Host.Outcome State Fault Refusal :=
  match s.input.body with
  | .outcome .linkLost => .next (s.replay s.input.b)
  | .outcome .memoryLost =>
    .next (if s.input.c = 1 then s.flagReq s.input.a else if s.input.c = 2 then s.flagCopy s.input.a s.input.b s.input.d
      else s.checked s.input.a .memoryLost)
  | _ => .next s

/-- UNCORRECTABLE_ERROR (R198, R241): a larder word or a whole Vault line is poisoned. -/
def execUncorrectableError (s : State) : Host.Outcome State Fault Refusal :=
  .next (if isHost s.input.a then s else s.setPoison s.input.a true)

/-! Retention. The values of `asleep` and `regAsleep` are 0 awake, 1 leaving retention, 2 in retention or entering it. -/

/-- LARDER_RETENTION_ENTRY (R197). -/
def execLarderRetentionEntry (s : State) : Host.Outcome State Fault Refusal :=
  let c := s.input.a
  let b := s.input.b
  if s.bankIdle c b && Table.get 0 (s.core c).asleep b = 0 then
    .next (s.modCore c fun co => { co with asleep := Table.ins co.asleep b 2 })
  else .next s
/-- LARDER_RETENTION_EXIT (R197). -/
def execLarderRetentionExit (s : State) : Host.Outcome State Fault Refusal :=
  let c := s.input.a
  let b := s.input.b
  .next ((s.modCore c fun co => { co with asleep := Table.ins co.asleep b 0, touched := Table.ins co.touched b s.clk }).count c evRetExit)
/-- REGBANK_RETENTION_ENTRY (R109). -/
def execRegbankRetentionEntry (s : State) : Host.Outcome State Fault Refusal :=
  let c := s.input.a
  let b := s.input.b
  if s.regIdle c b && Table.get 0 (s.core c).regAsleep b = 0 then
    .next (s.modCore c fun co => { co with regAsleep := Table.ins co.regAsleep b 2 })
  else .next s
/-- REGBANK_RETENTION_EXIT (R109): the groups and tasks that wait for the bank find it awake. -/
def execRegbankRetentionExit (s : State) : Host.Outcome State Fault Refusal :=
  let c := s.input.a
  let b := s.input.b
  .next ((s.modCore c fun co =>
    { co with regAsleep := Table.ins co.regAsleep b 0, regTouched := Table.ins co.regTouched b s.clk }).count c evRetExit)

end Sys2Proof.Machine
end

