-- ==== Sys2Proof/Machine/Vector.lean ====
section
/-! DEFINITION. The vector instructions (R125 to R141) and the mask instructions (R142, R143). -/

namespace Sys2Proof.Machine

/-! Arithmetic (Table 5-5). -/

/-- A vector instruction that writes element `f l` of type `t` to each lane `l` of the active set (R116). -/
def laneWise (i : Instr) (o : V3) (t : BitVec 4) (f : State → Nat → Nat) (s : State) : Host.Outcome State Fault Refusal :=
  run i s fun s => .ok (s.setElems t o.vd.toNat (s.active o.mask) (f s)).retire

/-- An operation on integers, wrapped or clamped once, or on values, rounded once (R126). -/
def arith (o : V3) (fi : List Int → Int) (ff : List Fp → Fp) (l : List Nat) : Nat :=
  if tyInt o.ty then fitInt o.ty (o.x.getLsbD 0) (fi (l.map (elemInt o.ty)))
  else (fmtOf o.ty).encode (rndOf o.rnd) (ff (l.map (fmtOf o.ty).decode))

/-- The sources of a vector instruction, by their number (R125). -/
def State.srcs1 (s : State) (o : V3) (l : Nat) : List Nat := [s.srcA o o.ty l]
def State.srcs2 (s : State) (o : V3) (l : Nat) : List Nat := [s.srcA o o.ty l, s.srcB o o.ty l]
def State.srcs3 (s : State) (o : V3) (l : Nat) : List Nat := [s.srcA o o.ty l, s.srcB3 o o.ty l, s.srcC o o.ty l]

/-- The operations on lists of sources. -/
def on1 {α : Type} (z : α) (f : α → α) : List α → α
  | [a] => f a
  | _ => z
def on2 {α : Type} (z : α) (f : α → α → α) : List α → α
  | [a, b] => f a b
  | _ => z
def on3 {α : Type} (z : α) (f : α → α → α → α) : List α → α
  | [a, b, c] => f a b c
  | _ => z

/-- An arithmetic instruction of one source, of two sources. -/
def arith1 (i : Instr) (o : V3) (fi : Int → Int) (ff : Fp → Fp) (s : State) : Host.Outcome State Fault Refusal :=
  laneWise i o o.ty (fun s l => arith o (on1 0 fi) (on1 .nan ff) (s.srcs1 o l)) s
def arith2 (i : Instr) (o : V3) (fi : Int → Int → Int) (ff : Fp → Fp → Fp) (s : State) : Host.Outcome State Fault Refusal :=
  laneWise i o o.ty (fun s l => arith o (on2 0 fi) (on2 .nan ff) (s.srcs2 o l)) s

def execVadd (o : V3) (s : State) : Host.Outcome State Fault Refusal :=
  arith2 (.vadd o) o (· + ·) (Fp.add (rndOf o.rnd)) s
def execVsub (o : V3) (s : State) : Host.Outcome State Fault Refusal :=
  arith2 (.vsub o) o (· - ·) (fun a b => Fp.add (rndOf o.rnd) a b.neg) s
def execVmul (o : V3) (s : State) : Host.Outcome State Fault Refusal := arith2 (.vmul o) o (· * ·) Fp.mul s
/-- VMULH: bits [2w - 1 : w] of the exact product. -/
def execVmulh (o : V3) (s : State) : Host.Outcome State Fault Refusal :=
  arith2 (.vmulh o) o (fun a b => a * b / 2 ^ tyWidth o.ty) Fp.mul s
def execVfma (o : V3) (s : State) : Host.Outcome State Fault Refusal :=
  laneWise (.vfma o) o o.ty (fun s l =>
    arith o (on3 0 fun a b c => a * b + c) (on3 .nan fun a b c => Fp.add (rndOf o.rnd) (a.mul b) c) (s.srcs3 o l)) s
def execVmin (o : V3) (s : State) : Host.Outcome State Fault Refusal := arith2 (.vmin o) o min Fp.minimum s
def execVmax (o : V3) (s : State) : Host.Outcome State Fault Refusal := arith2 (.vmax o) o max Fp.maximum s
def execVabs (o : V3) (s : State) : Host.Outcome State Fault Refusal :=
  arith1 (.vabs o) o (fun a => a.natAbs) Fp.abs s
def execVneg (o : V3) (s : State) : Host.Outcome State Fault Refusal := arith1 (.vneg o) o (fun a => -a) Fp.neg s
def execVdiv (o : V3) (s : State) : Host.Outcome State Fault Refusal :=
  arith2 (.vdiv o) o (fun a b => (intDiv (tyWidth o.ty) (tySigned o.ty) a b).1) Fp.div s
def execVsqrt (o : V3) (s : State) : Host.Outcome State Fault Refusal := arith1 (.vsqrt o) o id Fp.sqrt s
def execVrcp (o : V3) (s : State) : Host.Outcome State Fault Refusal := arith1 (.vrcp o) o id Fp.rcp s
def execVrsq (o : V3) (s : State) : Host.Outcome State Fault Refusal := arith1 (.vrsq o) o id Fp.rsq s
def execVexp2 (o : V3) (s : State) : Host.Outcome State Fault Refusal := arith1 (.vexp2 o) o id Fp.exp2 s
def execVlog2 (o : V3) (s : State) : Host.Outcome State Fault Refusal := arith1 (.vlog2 o) o id Fp.log2 s

/-- The type of the accumulator and of the result of `vdot` (R129). -/
def dotType (t : BitVec 4) : BitVec 4 := if tyInt t then (if tySigned t then 2 else 6) else 10
/-- A term is a zero of a sign. -/
def isZero (neg : Bool) : Fp → Bool
  | .fin s m _ => m = 0 && s = neg
  | _ => false
/-- The sign of an exact zero sum: that of its terms where all are zeros of one sign, else that of the mode [log 11, DEDUCED]. -/
def sumNeg (r : Rnd) (l : List Fp) : Bool := l.all (isZero true) || (r = .rdn && !l.all (isZero false))
/-- One lane of `vdot`: c plus the products, exact, fitted or rounded once. -/
def dotLane (o : V3) (a b : List Nat) (c : Nat) : Nat :=
  let t := dotType o.ty
  if tyInt o.ty then
    fitInt t (o.x.getLsbD 0) ((List.zipWith (fun x y => elemInt o.ty x * elemInt o.ty y) a b).foldl (· + ·) (elemInt t c))
  else
    let f := fmtOf o.ty
    let l := (fmtOf t).decode c :: List.zipWith (fun x y => (f.decode x).mul (f.decode y)) a b
    (fmtOf t).encode (rndOf o.rnd) (Fp.sum (sumNeg (rndOf o.rnd) l) l)
/-- The packed elements of lane `l` (R114). -/
def lanePack (v : VReg) (w l : Nat) : List Nat := (List.range (32 / w)).map fun k => packedElem v w (32 / w * l + k)
/-- VDOT (R129). -/
def execVdot (o : V3) (s : State) : Host.Outcome State Fault Refusal :=
  laneWise (.vdot o) o (dotType o.ty) (fun s l =>
    dotLane o (lanePack (s.vreg o.va.toNat) (tyWidth o.ty) l) (lanePack (s.vreg o.vb.toNat) (tyWidth o.ty) l)
      (s.srcC o (dotType o.ty) l)) s

/-! Logic, shifts, comparison, selection (Table 5-6). -/

/-- A logic instruction on the bits of the elements. -/
def logic (i : Instr) (o : V3) (f : Nat → Nat → Nat) (s : State) : Host.Outcome State Fault Refusal :=
  laneWise i o o.ty (fun s l => f (s.srcA o o.ty l) (s.srcB o o.ty l) % 2 ^ tyWidth o.ty) s

def execVand (o : V3) (s : State) : Host.Outcome State Fault Refusal := logic (.vand o) o (· &&& ·) s
def execVor (o : V3) (s : State) : Host.Outcome State Fault Refusal := logic (.vor o) o (· ||| ·) s
def execVxor (o : V3) (s : State) : Host.Outcome State Fault Refusal := logic (.vxor o) o (· ^^^ ·) s
def execVnot (o : V3) (s : State) : Host.Outcome State Fault Refusal :=
  laneWise (.vnot o) o o.ty (fun s l => 2 ^ tyWidth o.ty - 1 - s.srcA o o.ty l) s
/-- Shifts by n = b[5:0] (R130). -/
def execVshl (o : V3) (s : State) : Host.Outcome State Fault Refusal := logic (.vshl o) o (fun a b => a * 2 ^ (b % 64)) s
def execVshr (o : V3) (s : State) : Host.Outcome State Fault Refusal := logic (.vshr o) o (fun a b => a / 2 ^ (b % 64)) s
def execVsar (o : V3) (s : State) : Host.Outcome State Fault Refusal :=
  logic (.vsar o) o (fun a b => wrapTo (tyWidth o.ty) (toSigned (tyWidth o.ty) a / 2 ^ (b % 64))) s

/-- The order of two elements of a type. -/
def elemCmp (t : BitVec 4) (a b : Nat) : Option Int :=
  if tyInt t then intCmp (elemInt t a) (elemInt t b) else Fp.cmp ((fmtOf t).decode a) ((fmtOf t).decode b)
/-- The mask whose bit `l`, for `l` below `n`, is `f l`. -/
def maskBits (f : Nat → Bool) : Nat → Nat
  | 0 => 0
  | n + 1 => maskBits f n + flag (f n) n
def maskOf (f : Nat → Bool) : Mask := BitVec.ofNat 128 (maskBits f 128)
/-- A mask in which the bits of `a` are those of `f`. -/
def maskIn (old a : Mask) (f : Nat → Bool) : Mask := (old &&& ~~~a) ||| (maskOf f &&& a)

/-- VCMP (R131). -/
def execVcmp (o : V3) (s : State) : Host.Outcome State Fault Refusal :=
  run (.vcmp o) s fun s =>
    let f := fun (l : Nat) => cmpHolds (field o.x 0 3) (elemCmp o.ty (s.srcA o o.ty l) (s.srcB o o.ty l))
    .ok (s.setM o.vd.toNat (maskIn (s.mreg o.vd.toNat) (s.active o.mask) f)).retire
/-- VSEL (R132): every lane of m0, the mask choosing the source. -/
def execVsel (o : V3) (s : State) : Host.Outcome State Fault Refusal :=
  run (.vsel o) s fun s =>
    let m := s.mreg o.mask.toNat
    .ok (s.setElems o.ty o.vd.toNat (s.mreg 0) fun l =>
      if m.getLsbD l then s.srcA o o.ty l else s.srcB o o.ty l).retire

/-! Conversion and lane movement. -/

/-- The vector copy of the LUT4 table of the issuing slot's context (R133, R146). -/
def State.lutV (s : State) : Table Byte := if s.isS then s.curCore.privCtx.lutV else s.curCore.userCtx.lutV
/-- An entry of it. -/
def State.lut (s : State) (x : Nat) : Byte := Table.get 0 s.lutV (x % 16)

/-- The 16-bit number of lane `l` under a seed (R67). -/
def laneRnd (seed : Word) (l : Nat) : Nat :=
  let x := seed ^^^ (word l * 0x9E3779B97F4A7C15#64)
  let x := x ^^^ (x >>> 33)
  let x := x * 0xFF51AFD7ED558CCD#64
  field (x ^^^ (x >>> 33)) 0 16
/-- The value of an element of a source type of `vcvt`. -/
def cvtValue (lut : Nat → Byte) (src : BitVec 4) (x : Nat) : Fp :=
  if tyInt src then Fp.ofInt (elemInt src x)
  else if src = 15#4 then Fp.ofInt (lut x).toInt
  else (fmtOf src).decode x
/-- VCVT (R133). -/
def execVcvt (o : V3) (s : State) : Host.Outcome State Fault Refusal :=
  laneWise (.vcvt o) o o.ty (fun s l =>
    let src := bits o.x 0 4
    let x := s.srcA o src l
    if o.x.getLsbD 4 then (fmtOf o.ty).stochastic (laneRnd (s.sreg (bits o.vc 0 5)) l) (cvtValue s.lut src x)
    else cvtElem s.lut o.ty src (rndOf o.rnd) x) s

/-- The packed register of the registers from `r` on (R134). -/
def Slot.pack (sl : Slot) (t : BitVec 4) (r : Nat) : VReg :=
  let w := tyWidth t
  ofLanes fun l => (List.range (32 / w)).foldr (fun k acc =>
    let j := 32 / w * l + k
    (lane (sl.vreg (r + j / 128)) (j % 128)).toNat % 2 ^ w + 2 ^ w * acc) 0
/-- Unpacked register `k` of a packed one (R134). -/
def unpackReg (t : BitVec 4) (v : VReg) (k : Nat) : VReg :=
  ofLanes fun l => extend32 t (packedElem v (tyWidth t) (128 * k + l))
/-- VPACK (R134). -/
def execVpack (o : V3) (s : State) : Host.Outcome State Fault Refusal :=
  run (.vpack o) s fun s => .ok (s.setV o.vd.toNat (s.curSlot.pack o.ty o.va.toNat)).retire
/-- VUNPK (R134). -/
def execVunpk (o : V3) (s : State) : Host.Outcome State Fault Refusal :=
  run (.vunpk o) s fun s =>
    let v := s.vreg o.va.toNat
    .ok ((List.range (spanLen o.ty)).foldl (fun s k => s.setV (o.vd.toNat + k) (unpackReg o.ty v k)) s).retire
/-- VLUT (R135): a signed byte, as an element of type i32. -/
def execVlut (o : V3) (s : State) : Host.Outcome State Fault Refusal :=
  laneWise (.vlut o) o 2#4 (fun s l => wrapTo 32 (s.lut (s.srcA o 15#4 l)).toInt) s

/-- VBCAST (R136). -/
def execVbcast (o : V3) (s : State) : Host.Outcome State Fault Refusal :=
  laneWise (.vbcast o) o o.ty (fun s _ =>
    if o.x = 0 then s.scalarSrc o o.ty else s.srcA o o.ty (field (s.sreg (bits o.vc 0 5)) 0 7)) s
/-- VLANE (R136). -/
def execVlane (o : V3) (s : State) : Host.Outcome State Fault Refusal :=
  laneWise (.vlane o) o o.ty (fun s l => ((s.sreg (bits o.vc 0 5)).toNat + l) % 2 ^ tyWidth o.ty) s

/-- The source lane that `vperm` names for a lane: from vb, or from the scalar that takes its place (R137, R125). -/
def State.permLane (s : State) (o : V3) (l : Nat) : Nat :=
  if scalarVc o.vc then s.scalarSrc o o.ty % 128 else field (lane (s.vreg o.vb.toNat) l) 0 7
/-- VPERM (R137). -/
def execVperm (o : V3) (s : State) : Host.Outcome State Fault Refusal :=
  laneWise (.vperm o) o o.ty (fun s l => s.srcA o o.ty (s.permLane o l)) s
/-- The lane mappings of `vshuf` (Table 5-7): from vb or from va, and which lane. -/
def shufLane (p s l : Nat) : Bool × Nat :=
  match p with
  | 0 => (false, (l + s) % 128)
  | 1 => (false, 127 - l)
  | 2 => (false, l ^^^ s)
  | 3 => (l % 2 = 1, l / 2)
  | 4 => (l % 2 = 1, 64 + l / 2)
  | 5 => (64 ≤ l, 2 * l % 128)
  | _ => (64 ≤ l, (2 * l + 1) % 128)
/-- VSHUF (R137). -/
def execVshuf (o : V3) (s : State) : Host.Outcome State Fault Refusal :=
  laneWise (.vshuf o) o o.ty (fun s l =>
    let r := shufLane (field o.x 0 3) (field (s.sreg (bits o.vc 0 5)) 0 7) l
    if r.1 then s.srcB o o.ty r.2 else s.srcA o o.ty r.2) s

/-- The lanes of a set, rising. -/
def maskLanes (m : Mask) : List Nat := (List.range 128).filter fun l => m.getLsbD l
/-- VCOMP (R138): the lanes of A go to lanes 0 to n - 1, in m0 or not. -/
def execVcomp (o : V3) (s : State) : Host.Outcome State Fault Refusal :=
  run (.vcomp o) s fun s =>
    let ls := maskLanes (s.active o.mask)
    .ok (s.setElems o.ty o.vd.toNat (maskOf fun l => l < ls.length) fun k => s.srcA o o.ty (ls.getD k 0)).retire
/-- VEXPD (R138). -/
def execVexpd (o : V3) (s : State) : Host.Outcome State Fault Refusal :=
  laneWise (.vexpd o) o o.ty (fun s l => s.srcA o o.ty ((maskLanes (s.active o.mask)).idxOf l)) s

/-- VEXT (R139). -/
def execVext (o : V3) (s : State) : Host.Outcome State Fault Refusal :=
  run (.vext o) s fun s => .ok (s.setS (bits o.vd 0 5) (extend64 o.ty (s.srcA o o.ty o.vb.toNat))).retire
/-- VINS (R139). -/
def execVins (o : V3) (s : State) : Host.Outcome State Fault Refusal :=
  run (.vins o) s fun s =>
    .ok (s.setElems o.ty o.vd.toNat (s.active o.mask &&& (1#128 <<< o.va.toNat)) fun _ => s.scalarSrc o o.ty).retire

/-! Reductions and scans (Table 5-8). -/

/-- The operation of a reduction on elements of a type. -/
def redOp (o : V3) (a b : Nat) : Nat :=
  let t := o.ty
  let f := fmtOf t
  let num := fun (fi : Int → Int → Int) (ff : Fp → Fp → Fp) =>
    if tyInt t then fitInt t false (fi (elemInt t a) (elemInt t b)) else f.encode (rndOf o.rnd) (ff (f.decode a) (f.decode b))
  match o.x.toNat with
  | 0 => num (· + ·) (Fp.add (rndOf o.rnd))
  | 1 => num min Fp.minimum
  | 2 => num max Fp.maximum
  | 3 => a &&& b
  | 4 => a ||| b
  | _ => a ^^^ b
/-- A node: one empty child passes the other (R78). -/
def redNode (o : V3) : Option Nat → Option Nat → Option Nat
  | some a, some b => some (redOp o a b)
  | some a, none => some a
  | none, b => b
/-- One level of the tree: nodes 2i and 2i + 1 combine. -/
def redLevel (o : V3) : List (Option Nat) → List (Option Nat)
  | a :: b :: t => redNode o a b :: redLevel o t
  | l => l
/-- The result for an empty active set (Table 5-8). -/
def redEmpty (o : V3) : Nat :=
  let t := o.ty
  match o.x.toNat with
  | 1 => if tyInt t then wrapTo (tyWidth t) (tyMax t) else (fmtOf t).infBits
  | 2 => if tyInt t then wrapTo (tyWidth t) (tyMin t) else (fmtOf t).sign true + (fmtOf t).infBits
  | 3 => 2 ^ tyWidth t - 1
  | _ => 0
/-- The elements of the lanes, those outside the active set empty. -/
def State.redLanes (s : State) (o : V3) : List (Option Nat) :=
  (List.range 128).map fun l => if (s.active o.mask).getLsbD l then some (s.srcA o o.ty l) else none
/-- VRED (R140, R78). -/
def execVred (o : V3) (s : State) : Host.Outcome State Fault Refusal :=
  run (.vred o) s fun s =>
    let top := (List.range 7).foldl (fun l _ => redLevel o l) (s.redLanes o)
    .ok (s.setS (bits o.vd 0 5) (extend64 o.ty ((top.head?.getD none).getD (redEmpty o)))).retire
/-- One step of the prefix: lane `l` combines with lane `l` - `d` (R79). -/
def scanStep (o : V3) (d : Nat) (l : List (Option Nat)) : List (Option Nat) :=
  List.zipWith (redNode o) (List.replicate d none ++ l) l
/-- VSCAN (R141, R79). -/
def execVscan (o : V3) (s : State) : Host.Outcome State Fault Refusal :=
  laneWise (.vscan o) o o.ty (fun s =>
    let r := (List.range 7).foldl (fun l j => scanStep o (2 ^ j) l) (s.redLanes o)
    fun l => (r.getD l none).getD 0) s

/-! Masks (Tables 5-9, 5-10). -/

/-- An instruction whose one effect is a mask register. -/
def setMask (i : Instr) (d : BitVec 5) (v : State → Mask) (s : State) : Host.Outcome State Fault Refusal :=
  run i s fun s => .ok (s.setM d.toNat (v s)).retire
/-- An instruction whose one effect is a scalar register. -/
def maskScalar (i : Instr) (d : BitVec 5) (v : State → Word) (s : State) : Host.Outcome State Fault Refusal :=
  run i s fun s => .ok (s.setS d (v s)).retire

def execMand (o : F2) (s : State) : Host.Outcome State Fault Refusal :=
  setMask (.mand o) o.d (fun s => s.mreg o.a.toNat &&& s.mreg o.b.toNat) s
def execMor (o : F2) (s : State) : Host.Outcome State Fault Refusal :=
  setMask (.mor o) o.d (fun s => s.mreg o.a.toNat ||| s.mreg o.b.toNat) s
def execMxor (o : F2) (s : State) : Host.Outcome State Fault Refusal :=
  setMask (.mxor o) o.d (fun s => s.mreg o.a.toNat ^^^ s.mreg o.b.toNat) s
def execMnot (o : F1) (s : State) : Host.Outcome State Fault Refusal :=
  setMask (.mnot o) o.d (fun s => ~~~s.mreg o.a.toNat) s
def execMpop (o : F1) (s : State) : Host.Outcome State Fault Refusal :=
  maskScalar (.mpop o) o.d (fun s => word (popCount (s.mreg o.a.toNat))) s
def execMfirst (o : F1) (s : State) : Host.Outcome State Fault Refusal :=
  maskScalar (.mfirst o) o.d (fun s => word ((maskLanes (s.mreg o.a.toNat)).headD 128)) s
/-- MSET (R143). -/
def execMset (o : F1) (s : State) : Host.Outcome State Fault Refusal :=
  setMask (.mset o) o.d (fun s =>
    let v := s.sreg o.a
    let m := s.mreg o.d.toNat
    match o.x.toNat with
    | 0 => maskOf fun l => l < v.toNat
    | 1 => bits m 64 64 ++ v
    | 2 => v ++ bits m 0 64
    | _ => if v ≠ 0 then allLanes else 0) s
/-- MTEST (R143). -/
def execMtest (o : F2) (s : State) : Host.Outcome State Fault Refusal :=
  maskScalar (.mtest o) o.d (fun s =>
    let a := s.mreg o.a.toNat
    let b := s.mreg o.b.toNat
    match o.x.toNat with
    | 0 => if a &&& b ≠ 0 then 1 else 0
    | 1 => if b &&& ~~~a = 0 then 1 else 0
    | 2 => bits a 0 64
    | _ => bits a 64 64) s

end Sys2Proof.Machine
end

