-- ==== Sys2Proof/Machine/Dispatch.lean ====
section
/-! DEFINITION. The dispatch: one arm per instruction and per step of the device, each a direct call of its meaning. -/

namespace Sys2Proof.Machine

def exec (i : Instr) (s : State) : Host.Outcome State Fault Refusal :=
  match i with
  | .nop => Sys2Proof.Machine.execNop s
  | .yield => Sys2Proof.Machine.execYield s
  | .endGroup => Sys2Proof.Machine.execEnd s
  | .done => Sys2Proof.Machine.execDone s
  | .join => Sys2Proof.Machine.execJoin s
  | .ifence => Sys2Proof.Machine.execIfence s
  | .uret => Sys2Proof.Machine.execUret s
  | .eret => Sys2Proof.Machine.execEret s
  | .movc o => Sys2Proof.Machine.execMovc o s
  | .addc o => Sys2Proof.Machine.execAddc o s
  | .add o => Sys2Proof.Machine.execAdd o s
  | .sub o => Sys2Proof.Machine.execSub o s
  | .and o => Sys2Proof.Machine.execAnd o s
  | .or o => Sys2Proof.Machine.execOr o s
  | .xor o => Sys2Proof.Machine.execXor o s
  | .andn o => Sys2Proof.Machine.execAndn o s
  | .shl o => Sys2Proof.Machine.execShl o s
  | .shr o => Sys2Proof.Machine.execShr o s
  | .sar o => Sys2Proof.Machine.execSar o s
  | .rol o => Sys2Proof.Machine.execRol o s
  | .min o => Sys2Proof.Machine.execMin o s
  | .max o => Sys2Proof.Machine.execMax o s
  | .mul o => Sys2Proof.Machine.execMul o s
  | .mulh o => Sys2Proof.Machine.execMulh o s
  | .div o => Sys2Proof.Machine.execDiv o s
  | .rem o => Sys2Proof.Machine.execRem o s
  | .sel o => Sys2Proof.Machine.execSel o s
  | .cmp o => Sys2Proof.Machine.execCmp o s
  | .clz o => Sys2Proof.Machine.execClz o s
  | .ctz o => Sys2Proof.Machine.execCtz o s
  | .popc o => Sys2Proof.Machine.execPopc o s
  | .bext o => Sys2Proof.Machine.execBext o s
  | .bins o => Sys2Proof.Machine.execBins o s
  | .li o => Sys2Proof.Machine.execLi o s
  | .lih o => Sys2Proof.Machine.execLih o s
  | .addi o => Sys2Proof.Machine.execAddi o s
  | .andi o => Sys2Proof.Machine.execAndi o s
  | .ori o => Sys2Proof.Machine.execOri o s
  | .xori o => Sys2Proof.Machine.execXori o s
  | .shli o => Sys2Proof.Machine.execShli o s
  | .shri o => Sys2Proof.Machine.execShri o s
  | .sari o => Sys2Proof.Machine.execSari o s
  | .cmpi o => Sys2Proof.Machine.execCmpi o s
  | .muli o => Sys2Proof.Machine.execMuli o s
  | .sid o => Sys2Proof.Machine.execSid o s
  | .addr o => Sys2Proof.Machine.execAddr o s
  | .fadd o => Sys2Proof.Machine.execFadd o s
  | .fsub o => Sys2Proof.Machine.execFsub o s
  | .fmul o => Sys2Proof.Machine.execFmul o s
  | .fma o => Sys2Proof.Machine.execFma o s
  | .fdiv o => Sys2Proof.Machine.execFdiv o s
  | .fsqrt o => Sys2Proof.Machine.execFsqrt o s
  | .fmin o => Sys2Proof.Machine.execFmin o s
  | .fmax o => Sys2Proof.Machine.execFmax o s
  | .fcmp o => Sys2Proof.Machine.execFcmp o s
  | .fcvt o => Sys2Proof.Machine.execFcvt o s
  | .fclass o => Sys2Proof.Machine.execFclass o s
  | .br o => Sys2Proof.Machine.execBr o s
  | .call o => Sys2Proof.Machine.execCall o s
  | .bc cond o => Sys2Proof.Machine.execBc cond o s
  | .loop o => Sys2Proof.Machine.execLoop o s
  | .jr o => Sys2Proof.Machine.execJr o s
  | .callr o => Sys2Proof.Machine.execCallr o s
  | .ret o => Sys2Proof.Machine.execRet o s
  | .brd o => Sys2Proof.Machine.execBrd o s
  | .trap code o => Sys2Proof.Machine.execTrap code o s
  | .coreResetRelease => Sys2Proof.Machine.execCoreResetRelease s
  | .trapEventEntry => Sys2Proof.Machine.execTrapEventEntry s
  | .userInterruptEntry => Sys2Proof.Machine.execUserInterruptEntry s
  | .vadd o => Sys2Proof.Machine.execVadd o s
  | .vsub o => Sys2Proof.Machine.execVsub o s
  | .vmul o => Sys2Proof.Machine.execVmul o s
  | .vmulh o => Sys2Proof.Machine.execVmulh o s
  | .vfma o => Sys2Proof.Machine.execVfma o s
  | .vmin o => Sys2Proof.Machine.execVmin o s
  | .vmax o => Sys2Proof.Machine.execVmax o s
  | .vabs o => Sys2Proof.Machine.execVabs o s
  | .vneg o => Sys2Proof.Machine.execVneg o s
  | .vdiv o => Sys2Proof.Machine.execVdiv o s
  | .vsqrt o => Sys2Proof.Machine.execVsqrt o s
  | .vrcp o => Sys2Proof.Machine.execVrcp o s
  | .vrsq o => Sys2Proof.Machine.execVrsq o s
  | .vexp2 o => Sys2Proof.Machine.execVexp2 o s
  | .vlog2 o => Sys2Proof.Machine.execVlog2 o s
  | .vdot o => Sys2Proof.Machine.execVdot o s
  | .vand o => Sys2Proof.Machine.execVand o s
  | .vor o => Sys2Proof.Machine.execVor o s
  | .vxor o => Sys2Proof.Machine.execVxor o s
  | .vnot o => Sys2Proof.Machine.execVnot o s
  | .vshl o => Sys2Proof.Machine.execVshl o s
  | .vshr o => Sys2Proof.Machine.execVshr o s
  | .vsar o => Sys2Proof.Machine.execVsar o s
  | .vcmp o => Sys2Proof.Machine.execVcmp o s
  | .vsel o => Sys2Proof.Machine.execVsel o s
  | .vcvt o => Sys2Proof.Machine.execVcvt o s
  | .vpack o => Sys2Proof.Machine.execVpack o s
  | .vunpk o => Sys2Proof.Machine.execVunpk o s
  | .vlut o => Sys2Proof.Machine.execVlut o s
  | .vbcast o => Sys2Proof.Machine.execVbcast o s
  | .vlane o => Sys2Proof.Machine.execVlane o s
  | .vperm o => Sys2Proof.Machine.execVperm o s
  | .vshuf o => Sys2Proof.Machine.execVshuf o s
  | .vcomp o => Sys2Proof.Machine.execVcomp o s
  | .vexpd o => Sys2Proof.Machine.execVexpd o s
  | .vext o => Sys2Proof.Machine.execVext o s
  | .vins o => Sys2Proof.Machine.execVins o s
  | .vred o => Sys2Proof.Machine.execVred o s
  | .vscan o => Sys2Proof.Machine.execVscan o s
  | .mand o => Sys2Proof.Machine.execMand o s
  | .mor o => Sys2Proof.Machine.execMor o s
  | .mxor o => Sys2Proof.Machine.execMxor o s
  | .mnot o => Sys2Proof.Machine.execMnot o s
  | .mpop o => Sys2Proof.Machine.execMpop o s
  | .mfirst o => Sys2Proof.Machine.execMfirst o s
  | .mset o => Sys2Proof.Machine.execMset o s
  | .mtest o => Sys2Proof.Machine.execMtest o s
  | .ld o => Sys2Proof.Machine.execLd o s
  | .st o => Sys2Proof.Machine.execSt o s
  | .ldf o => Sys2Proof.Machine.execLdf o s
  | .stf o => Sys2Proof.Machine.execStf o s
  | .fe o => Sys2Proof.Machine.execFe o s
  | .pref o => Sys2Proof.Machine.execPref o s
  | .vld o => Sys2Proof.Machine.execVld o s
  | .vst o => Sys2Proof.Machine.execVst o s
  | .vgat o => Sys2Proof.Machine.execVgat o s
  | .vsct o => Sys2Proof.Machine.execVsct o s
  | .amo o => Sys2Proof.Machine.execAmo o s
  | .famo o => Sys2Proof.Machine.execFamo o s
  | .cas o => Sys2Proof.Machine.execCas o s
  | .vamo o => Sys2Proof.Machine.execVamo o s
  | .dec o => Sys2Proof.Machine.execDec o s
  | .fence kind scope o => Sys2Proof.Machine.execFence kind scope o s
  | .barInit o => Sys2Proof.Machine.execBarInit o s
  | .barArr o => Sys2Proof.Machine.execBarArr o s
  | .barWait o => Sys2Proof.Machine.execBarWait o s
  | .barSync o => Sys2Proof.Machine.execBarSync o s
  | .barInv o => Sys2Proof.Machine.execBarInv o s
  | .cbar o => Sys2Proof.Machine.execCbar o s
  | .qpush o => Sys2Proof.Machine.execQpush o s
  | .qpop o => Sys2Proof.Machine.execQpop o s
  | .qstop o => Sys2Proof.Machine.execQstop o s
  | .qstat o => Sys2Proof.Machine.execQstat o s
  | .qinit o => Sys2Proof.Machine.execQinit o s
  | .midx o => Sys2Proof.Machine.execMidx o s
  | .mopen o => Sys2Proof.Machine.execMopen o s
  | .mstep o => Sys2Proof.Machine.execMstep o s
  | .mclose o => Sys2Proof.Machine.execMclose o s
  | .mst o => Sys2Proof.Machine.execMst o s
  | .mld o => Sys2Proof.Machine.execMld o s
  | .mzero o => Sys2Proof.Machine.execMzero o s
  | .mtab o => Sys2Proof.Machine.execMtab o s
  | .mwait o => Sys2Proof.Machine.execMwait o s
  | .msave o => Sys2Proof.Machine.execMsave o s
  | .mrest o => Sys2Proof.Machine.execMrest o s
  | .matrixArbitration => Sys2Proof.Machine.execMatrixArbitration s
  | .matrixCommandComplete => Sys2Proof.Machine.execMatrixCommandComplete s
  | .matrixStepAbort => Sys2Proof.Machine.execMatrixStepAbort s
  | .cpy o => Sys2Proof.Machine.execCpy o s
  | .cpst o => Sys2Proof.Machine.execCpst o s
  | .cpwait o => Sys2Proof.Machine.execCpwait o s
  | .mcjoin o => Sys2Proof.Machine.execMcjoin o s
  | .mcleave o => Sys2Proof.Machine.execMcleave o s
  | .copyLineTransfer => Sys2Proof.Machine.execCopyLineTransfer s
  | .copyFaultTrap => Sys2Proof.Machine.execCopyFaultTrap s
  | .copyCompletion => Sys2Proof.Machine.execCopyCompletion s
  | .multicastJoinPacket => Sys2Proof.Machine.execMulticastJoinPacket s
  | .multicastLeavePacket => Sys2Proof.Machine.execMulticastLeavePacket s
  | .multicastLineDelivery => Sys2Proof.Machine.execMulticastLineDelivery s
  | .pub o => Sys2Proof.Machine.execPub o s
  | .unpub o => Sys2Proof.Machine.execUnpub o s
  | .subChannel o => Sys2Proof.Machine.execSubChannel o s
  | .unsub o => Sys2Proof.Machine.execUnsub o s
  | .resub o => Sys2Proof.Machine.execResub o s
  | .rdv o => Sys2Proof.Machine.execRdv o s
  | .send o => Sys2Proof.Machine.execSend o s
  | .sendjc o => Sys2Proof.Machine.execSendjc o s
  | .invoke o => Sys2Proof.Machine.execInvoke o s
  | .invf o => Sys2Proof.Machine.execInvf o s
  | .resolve o => Sys2Proof.Machine.execResolve o s
  | .fkplace o => Sys2Proof.Machine.execFkplace o s
  | .fkget o => Sys2Proof.Machine.execFkget o s
  | .fkstate o => Sys2Proof.Machine.execFkstate o s
  | .fkbreak o => Sys2Proof.Machine.execFkbreak o s
  | .fkOpInvf => Sys2Proof.Machine.execFkOpInvf s
  | .fkOpResolve => Sys2Proof.Machine.execFkOpResolve s
  | .fkOpPlace => Sys2Proof.Machine.execFkOpPlace s
  | .fkOpGet => Sys2Proof.Machine.execFkOpGet s
  | .fkOpState => Sys2Proof.Machine.execFkOpState s
  | .fkOpBreak => Sys2Proof.Machine.execFkOpBreak s
  | .fkOpDrop => Sys2Proof.Machine.execFkOpDrop s
  | .breakNotice => Sys2Proof.Machine.execBreakNotice s
  | .drainMarker => Sys2Proof.Machine.execDrainMarker s
  | .dropNotice => Sys2Proof.Machine.execDropNotice s
  | .firkinAnswer => Sys2Proof.Machine.execFirkinAnswer s
  | .firkinOpRetry => Sys2Proof.Machine.execFirkinOpRetry s
  | .fkgetRetry => Sys2Proof.Machine.execFkgetRetry s
  | .lease o => Sys2Proof.Machine.execLease o s
  | .lrel o => Sys2Proof.Machine.execLrel o s
  | .estat o => Sys2Proof.Machine.execEstat o s
  | .epush o => Sys2Proof.Machine.execEpush o s
  | .epop o => Sys2Proof.Machine.execEpop o s
  | .leaseQueueReexamine => Sys2Proof.Machine.execLeaseQueueReexamine s
  | .evictionDrainComplete => Sys2Proof.Machine.execEvictionDrainComplete s
  | .engineWakeComplete => Sys2Proof.Machine.execEngineWakeComplete s
  | .engineIdleSleep => Sys2Proof.Machine.execEngineIdleSleep s
  | .leaseHoldThreshold => Sys2Proof.Machine.execLeaseHoldThreshold s
  | .softmax => Sys2Proof.Machine.execSoftmax s
  | .rowmax => Sys2Proof.Machine.execRowmax s
  | .rowsum => Sys2Proof.Machine.execRowsum s
  | .exp => Sys2Proof.Machine.execExp s
  | .log => Sys2Proof.Machine.execLog s
  | .sort => Sys2Proof.Machine.execSort s
  | .topk => Sys2Proof.Machine.execTopk s
  | .segsort => Sys2Proof.Machine.execSegsort s
  | .zf8enc => Sys2Proof.Machine.execZf8enc s
  | .zf8dec => Sys2Proof.Machine.execZf8dec s
  | .gather => Sys2Proof.Machine.execGather s
  | .embbag => Sys2Proof.Machine.execEmbbag s
  | .segred => Sys2Proof.Machine.execSegred s
  | .launch o => Sys2Proof.Machine.execLaunch o s
  | .lwait o => Sys2Proof.Machine.execLwait o s
  | .lwaitReread => Sys2Proof.Machine.execLwaitReread s
  | .ctlRd o => Sys2Proof.Machine.execCtlRd o s
  | .ctlWr o => Sys2Proof.Machine.execCtlWr o s
  | .ctlWrStatus o => Sys2Proof.Machine.execCtlWrStatus o s
  | .ctlWrTrbase o => Sys2Proof.Machine.execCtlWrTrbase o s
  | .ctlWrExpert o => Sys2Proof.Machine.execCtlWrExpert o s
  | .ctlWrClkfix o => Sys2Proof.Machine.execCtlWrClkfix o s
  | .slotResume o => Sys2Proof.Machine.execSlotResume o s
  | .slotKill o => Sys2Proof.Machine.execSlotKill o s
  | .slotSkip o => Sys2Proof.Machine.execSlotSkip o s
  | .slotRds o => Sys2Proof.Machine.execSlotRds o s
  | .slotWrs o => Sys2Proof.Machine.execSlotWrs o s
  | .slotRdv o => Sys2Proof.Machine.execSlotRdv o s
  | .slotWrv o => Sys2Proof.Machine.execSlotWrv o s
  | .slotRdm o => Sys2Proof.Machine.execSlotRdm o s
  | .slotWrm o => Sys2Proof.Machine.execSlotWrm o s
  | .slotTdown o => Sys2Proof.Machine.execSlotTdown o s
  | .tlbiMark o => Sys2Proof.Machine.execTlbiMark o s
  | .tlbiConf o => Sys2Proof.Machine.execTlbiConf o s
  | .tlbWalk => Sys2Proof.Machine.execTlbWalk s
  | .issueSelect => Sys2Proof.Machine.execIssueSelect s
  | .clockStep => Sys2Proof.Machine.execClockStep s
  | .accessAtHome => Sys2Proof.Machine.execAccessAtHome s
  | .shelfRetry => Sys2Proof.Machine.execShelfRetry s
  | .shelfWithdrawal => Sys2Proof.Machine.execShelfWithdrawal s
  | .pantryExpiry => Sys2Proof.Machine.execPantryExpiry s
  | .replyArrival => Sys2Proof.Machine.execReplyArrival s
  | .requestTimeout => Sys2Proof.Machine.execRequestTimeout s
  | .tagQuarantineEnd => Sys2Proof.Machine.execTagQuarantineEnd s
  | .channelWheelTurn => Sys2Proof.Machine.execChannelWheelTurn s
  | .patrolScrub => Sys2Proof.Machine.execPatrolScrub s
  | .larderRetentionEntry => Sys2Proof.Machine.execLarderRetentionEntry s
  | .larderRetentionExit => Sys2Proof.Machine.execLarderRetentionExit s
  | .regbankRetentionEntry => Sys2Proof.Machine.execRegbankRetentionEntry s
  | .regbankRetentionExit => Sys2Proof.Machine.execRegbankRetentionExit s
  | .checkFailureAtCrossing => Sys2Proof.Machine.execCheckFailureAtCrossing s
  | .omyanHop => Sys2Proof.Machine.execOmyanHop s
  | .fabricWheelTurn => Sys2Proof.Machine.execFabricWheelTurn s
  | .laneFailure => Sys2Proof.Machine.execLaneFailure s
  | .portRetrainComplete => Sys2Proof.Machine.execPortRetrainComplete s
  | .messageArrival => Sys2Proof.Machine.execMessageArrival s
  | .taskDispatch => Sys2Proof.Machine.execTaskDispatch s
  | .vectorTableReread => Sys2Proof.Machine.execVectorTableReread s
  | .hostPageAnswer => Sys2Proof.Machine.execHostPageAnswer s
  | .watchdogTick => Sys2Proof.Machine.execWatchdogTick s
  | .groupStart => Sys2Proof.Machine.execGroupStart s
  | .admitterPass => Sys2Proof.Machine.execAdmitterPass s
  | .backfillLimitExpiry => Sys2Proof.Machine.execBackfillLimitExpiry s
  | .preemptionEnd => Sys2Proof.Machine.execPreemptionEnd s
  | .gridCompletion => Sys2Proof.Machine.execGridCompletion s
  | .pendingLaunchTransfer => Sys2Proof.Machine.execPendingLaunchTransfer s
  | .launchRingAccept => Sys2Proof.Machine.execLaunchRingAccept s
  | .dbres => Sys2Proof.Machine.execDbres s
  | .dbell => Sys2Proof.Machine.execDbell s
  | .granaryGrant => Sys2Proof.Machine.execGranaryGrant s
  | .reclaimRequest => Sys2Proof.Machine.execReclaimRequest s
  | .termEnd => Sys2Proof.Machine.execTermEnd s
  | .granaryRelease => Sys2Proof.Machine.execGranaryRelease s
  | .reclaimNotice => Sys2Proof.Machine.execReclaimNotice s
  | .pageMove => Sys2Proof.Machine.execPageMove s
  | .reclaimDeadline => Sys2Proof.Machine.execReclaimDeadline s
  | .releaseNotice => Sys2Proof.Machine.execReleaseNotice s
  | .borrowerLost => Sys2Proof.Machine.execBorrowerLost s
  | .packageReset => Sys2Proof.Machine.execPackageReset s
  | .secureRomVerify => Sys2Proof.Machine.execSecureRomVerify s
  | .dieImageVerify => Sys2Proof.Machine.execDieImageVerify s
  | .dieLinkTraining => Sys2Proof.Machine.execDieLinkTraining s
  | .vaultTrainAndClear => Sys2Proof.Machine.execVaultTrainAndClear s
  | .omyanPortTraining => Sys2Proof.Machine.execOmyanPortTraining s
  | .systemTypeBinding => Sys2Proof.Machine.execSystemTypeBinding s
  | .partitionSetup => Sys2Proof.Machine.execPartitionSetup s
  | .attestationQuote => Sys2Proof.Machine.execAttestationQuote s
  | .uncorrectableError => Sys2Proof.Machine.execUncorrectableError s
  | .cellarResultWritten => Sys2Proof.Machine.execCellarResultWritten s

end Sys2Proof.Machine
end

