-- ==== Sys2Proof/Machine/Step.lean ====
section
/-! DEFINITION. One step: an instruction of the chosen path, a step of the device that is due, or the act of a core's issue
selector; and the state in which the next step runs a given word. -/

namespace Sys2Proof.Machine

/-- One step of the package. -/
def step (s : State) : Host.Outcome State Fault Refusal :=
  match s.nextAct with
  | (s', some i) => exec i s'
  | (s', none) => .next s'

/-- The state with the instruction of a table word stored where the next step fetches: a line of one head [log 2, DESIGN CHOICE]. -/
def State.withFetchWord (s : State) (nbits w : Nat) : State := s.withLine (lineOf (tableHead nbits w) (tableTail nbits w))

end Sys2Proof.Machine
end

