-- ==== Sys2Proof/Safety.lean ====
section
/-! DEFINITION. What a well-kept state is: memory and the sets over it in their canonical form; and what it is that an
instruction leaves everything else as it is, in the terms that the statements use. -/

namespace Sys2Proof.Machine

/-- The addresses of a memory strictly rise, from `lo` on, and no listed byte equals what an unlisted one reads as. -/
def Memory.wfFrom : Nat → List Host.Cell → Bool
  | _, [] => true
  | lo, (a, v) :: t => lo ≤ a && v ≠ 0 && Memory.wfFrom (a + 1) t
/-- The canonical form of a memory. -/
def Memory.wf (m : List Host.Cell) : Bool := Memory.wfFrom 0 m
/-- The canonical form of a set of numbers. -/
def NatSet.wfFrom : Nat → NatSet → Bool
  | _, [] => true
  | lo, a :: t => lo ≤ a && NatSet.wfFrom (a + 1) t
def NatSet.wf (m : NatSet) : Bool := NatSet.wfFrom 0 m

/-- Memory, the empty words and the poisoned words are in their canonical forms. -/
def State.memoryOk (s : State) : Bool := Memory.wf s.mem && NatSet.wf s.empties && NatSet.wf s.poison

end Sys2Proof.Machine

namespace Sys2Proof.Claims

open Sys2Proof.Machine

/-! What an instruction leaves as it is. -/

/-- The executing path can execute: its slot is active, the path is in use, and where it is Q its instructions are its own: only
P executes a channel (R124). It issues its instruction; one that executes again after a wait reads the registers of its issue (see
CopyInstructions). -/
abbrev Live (s : State) : Prop :=
  s.curSlot.state = .active ∧ (s.cur.pathQ = true → s.curSlot.dual = true ∧ s.curPath.chan = false) ∧ s.curPath.kept = none

/-- An instruction executes at the executing path: it passes the decode traps of Table 2-10. -/
abbrev Runs (i : Instr) (s : State) : Prop := Live s ∧ s.gate i = none

/-- Of the package only the cores differ: memory, the F/E bits, poison and every unit outside the cores are as before. -/
def CoresOnly (s t : State) : Prop := { t with cores := s.cores } = s

/-- Of the cores only the slots of core `c` differ. -/
def CoreOnly (s t : State) (c : Nat) : Prop :=
  CoresOnly s t ∧ (∀ j, j ≠ c → t.core j = s.core j) ∧ { t.core c with slots := (s.core c).slots } = s.core c

/-- Only slot `k` of core `c` differs. -/
def SlotOnly (s t : State) (c k : Nat) : Prop :=
  CoreOnly s t c ∧ ∀ j, j ≠ k → t.slot c j = s.slot c j

/-- Only the executing slot differs, and there only registers, paths and the subscription. -/
def CurOnly (s t : State) : Prop :=
  SlotOnly s t s.cur.core s.cur.slot ∧
  { t.curSlot with
    sregs := s.curSlot.sregs, vregs := s.curSlot.vregs, mregs := s.curSlot.mregs, p := s.curSlot.p, q := s.curSlot.q
    sub := s.curSlot.sub } = s.curSlot

/-- The executing path goes on at `pc`, with no wait; its live mask and its mask stack stay; the group's other path stays;
an entry taken from a subscriber buffer leaves it. -/
def GoesOn (s t : State) (pc : Word) : Prop :=
  t.curSlot.path s.cur.pathQ = { s.curPath.moveTo pc with chan := false } ∧
  t.curSlot.path (!s.cur.pathQ) = s.curSlot.path (!s.cur.pathQ) ∧
  t.curSlot.sub = if s.curPath.chan then s.curSlot.sub.map fun b => b.pop pc s.clk else s.curSlot.sub

/-- The scalar registers are as before but for s[d], which receives `v`; a write to s0 is discarded (R81). -/
def ScalarIs (s t : State) (d : BitVec 5) (v : Word) : Prop := ∀ n, t.sreg n = if n = d ∧ d ≠ 0 then v else s.sreg n
/-- The scalar registers are as before. -/
def ScalarsKept (s t : State) : Prop := t.curSlot.sregs = s.curSlot.sregs
/-- The vector registers are as before. -/
def VectorsKept (s t : State) : Prop := t.curSlot.vregs = s.curSlot.vregs
/-- The mask registers m1 to m15 are as before. -/
def MasksKept (s t : State) : Prop := t.curSlot.mregs = s.curSlot.mregs

/-- An instruction's whole effect is a value in a scalar register: the path goes on at the successor. -/
def SetsScalar (s t : State) (d : BitVec 5) (v : Word) : Prop :=
  CurOnly s t ∧ ScalarIs s t d v ∧ VectorsKept s t ∧ MasksKept s t ∧ GoesOn s t s.curPath.succ

/-- An instruction's whole effect is that the path goes on at `pc`. -/
def OnlyGoesOn (s t : State) (pc : Word) : Prop :=
  CurOnly s t ∧ ScalarsKept s t ∧ VectorsKept s t ∧ MasksKept s t ∧ GoesOn s t pc

/-- In every state in which it runs, instruction `i` answers a next state, whose one change is that s[d] holds `v` and the path
goes on at the successor. -/
def Writes (i : Instr) (d : BitVec 5) (v : State → Word) : Prop :=
  ∀ s, Runs i s → ∃ t, exec i s = .next t ∧ SetsScalar s t d (v s)

/-- In every state in which it runs and in which `p` holds, instruction `i` answers a next state of which `q` holds. -/
def Completes (i : Instr) (p : State → Prop) (q : State → State → Prop) : Prop :=
  ∀ s, Runs i s → p s → ∃ t, exec i s = .next t ∧ q s t

/-! What an access needs and what it touches. -/

/-- Memory, the F/E bits and poison are as before. -/
def MemoryKept (s t : State) : Prop := t.mem = s.mem ∧ t.empties = s.empties ∧ t.poison = s.poison

/-- The `n` bytes from a place hold the low bytes of `v`; every other byte, the F/E bits and poison are as before. -/
def Stores (s t : State) (loc n v : Nat) : Prop :=
  t.readN loc n = v % 256 ^ n ∧ (∀ a, a < loc ∨ loc + n ≤ a → t.byte a = s.byte a) ∧ t.empties = s.empties ∧
  t.poison = s.poison

/-- Beside registers of the executing slot and memory, an access that its home performs leaves translations and counts on cores,
bays and dies, the age of a larder bank or a line of a Vault stack, and the path at its successor; all else is as before. -/
def Accesses (s t : State) : Prop :=
  { t with
    cores := s.cores, bays := s.bays, dies := s.dies, vaults := s.vaults, agenda := s.agenda, mem := s.mem
    empties := s.empties, poison := s.poison } = s ∧
  (∀ c, { t.core c with
          slots := (s.core c).slots, pmc := (s.core c).pmc, l1d := (s.core c).l1d, touched := (s.core c).touched
          bankq := (s.core c).bankq, frtSpoiled := (s.core c).frtSpoiled } = s.core c) ∧
  (∀ c k, ¬(c = s.cur.core ∧ k = s.cur.slot) → t.slot c k = s.slot c k) ∧
  { t.curSlot with
    sregs := s.curSlot.sregs, vregs := s.curSlot.vregs, mregs := s.curSlot.mregs, p := s.curSlot.p, q := s.curSlot.q
    sub := s.curSlot.sub } = s.curSlot ∧
  GoesOn s t s.curPath.succ

/-- The accesses of these places and sizes, that arrive one after the other, are all served in the present clk: each larder bank is
awake and has no other line before (R196, R197). -/
def ServesNow (s : State) : List (Nat × Nat) → Prop
  | [] => True
  | (loc, n) :: rest => (s.arriveAll loc n).2 ≤ s.clk ∧ ServesNow (s.arriveAll loc n).1 rest

/-- The home of an access is memory of the package that lets it pass: no lent region, no poison, and its larder's trace ring is
off. -/
abbrev HomeOk (s : State) (h : Home) (n : Nat) : Prop :=
  s.across h = false ∧ s.lentFault h.loc h.pkg s.curPart = none ∧ s.poisonedIn h.loc n = false ∧
  (isLarder h.loc = true → (s.core (larderCore h.loc)).trbase.getLsbD 0 = false)

/-- A scalar access at an address passes the checks and reaches its home, memory of the package that serves it at once. -/
abbrev ReachesAt (s : State) (p : ScalarAcc) (ea : Word) (h : Home) : Prop :=
  s.check s.who [p.use ea] = .ok () ∧ s.releaseHold p.rel = .ok () ∧ s.home s.who (p.use ea) = h ∧ HomeOk s h p.n ∧
  ServesNow s [(h.loc, p.n)]

/-- The scalar access of an M3 instruction at its effective address. -/
def Reaches (s : State) (o : M3) (p : ScalarAcc) (status : Bool) (size : Nat) (h : Home) : Prop :=
  ∃ ea, s.effAddr o false status size p.wr = .ok ea ∧ ReachesAt s p ea h

/-- The lanes of a vector access pass the checks together and reach their homes, memory of the package that serves them at once; no
lane has been performed before a trap of the instruction. -/
def LanesReach (s : State) (o : M3) (p : VecAcc) (m : Mask) (addr : Word → Nat → Word) (h : Nat → Home) : Prop :=
  ∃ ea, s.effAddr o p.vec false (elemBytes o.ty) p.wr = .ok ea ∧
    let us := laneUses p (elemBytes o.ty) ea (addr ea) ((List.range 128).filter fun l => m.getLsbD l)
    s.check s.who us = .ok () ∧ s.releaseHold p.rel = .ok () ∧ s.curPath.vdone = [] ∧
    ServesNow s (us.map fun u => ((h (u.lane.getD 0)).loc, elemBytes o.ty)) ∧
    ∀ u ∈ us, s.home s.who u = h (u.lane.getD 0) ∧ HomeOk s (h (u.lane.getD 0)) (elemBytes o.ty)

/-- The lanes of `m` of register `r` hold the elements `f`, extended to the lane, or in the pair of registers for a 64-bit type;
every other lane and register is as before. -/
def LanesAre (s t : State) (ty : BitVec 4) (r : Nat) (m : Mask) (f : Nat → Nat) : Prop :=
  (∀ l < 128,
    if m.getLsbD l then
      if ty64 ty then
        lane (t.vreg r) l = BitVec.ofNat 32 (f l) ∧ lane (t.vreg (r + 1)) l = BitVec.ofNat 32 (f l / 2 ^ 32)
      else lane (t.vreg r) l = BitVec.ofNat 32 (extend32 ty (f l))
    else lane (t.vreg r) l = lane (s.vreg r) l ∧ lane (t.vreg (r + 1)) l = lane (s.vreg (r + 1)) l) ∧
  ∀ j, j ≠ r → (ty64 ty = true → j ≠ r + 1) → t.vreg j = s.vreg j

/-- An instruction's whole effect is the elements `f` in the lanes of `m` of register `r`. -/
def SetsLanes (s t : State) (ty : BitVec 4) (r : Nat) (m : Mask) (f : Nat → Nat) : Prop :=
  CurOnly s t ∧ ScalarsKept s t ∧ MasksKept s t ∧ GoesOn s t s.curPath.succ ∧ LanesAre s t ty r m f
/-- In every state in which it runs, the instruction answers a next state, whose one change is in those lanes. -/
def LaneWrites (i : Instr) (ty : BitVec 4) (r : Nat) (m : State → Mask) (f : State → Nat → Nat) : Prop :=
  ∀ s, Runs i s → ∃ t, exec i s = .next t ∧ SetsLanes s t ty r (m s) (f s)
/-- An instruction's whole effect is a mask register; a write to m0 does nothing. -/
def SetsMask (s t : State) (d : Nat) (v : Mask) : Prop :=
  CurOnly s t ∧ ScalarsKept s t ∧ VectorsKept s t ∧ (∀ n, t.mreg n = if n = d ∧ d ≠ 0 then v else s.mreg n) ∧
  GoesOn s t s.curPath.succ
/-- In every state in which it runs, the instruction answers a next state, whose one change is mask register `d`. -/
def MaskWrites (i : Instr) (d : Nat) (v : State → Mask) : Prop :=
  ∀ s, Runs i s → ∃ t, exec i s = .next t ∧ SetsMask s t d (v s)

/-- The node of level `k` over the lanes from `lo` on in the tree of R78: an empty child passes the other. -/
def treeNode (o : V3) (f : Nat → Option Nat) : Nat → Nat → Option Nat
  | 0, lo => f lo
  | k + 1, lo => redNode o (treeNode o f k lo) (treeNode o f k (lo + 2 ^ k))
/-- The value of lane `l` after `k` steps of the prefix of R79. -/
def prefixAt (o : V3) (f : Nat → Option Nat) : Nat → Nat → Option Nat
  | 0, l => f l
  | k + 1, l => if 2 ^ k ≤ l then redNode o (prefixAt o f k (l - 2 ^ k)) (prefixAt o f k l) else prefixAt o f k l

/-- A command has entered the queue of the executing core's matrix unit, with its issuer and its class; its path waits for it or
goes on; registers and memory are as before. -/
def EntersCmd (s t : State) (op : MatOp) (waits : Bool) : Prop :=
  MemoryKept s t ∧ ScalarsKept s t ∧ VectorsKept s t ∧ MasksKept s t ∧
  ∃ m, t.curCore.mcmds = s.curCore.mcmds ++ [m] ∧ m.op = op ∧ m.slot = s.cur.slot ∧ m.gen = s.curSlot.gen ∧
    m.pathQ = s.cur.pathQ ∧ m.cls = (if s.isS then 4 else s.curSlot.pri.toNat) ∧ m.started = false ∧
    if waits then t.curPath.wait = .matrix m.seq ∧ t.pc = s.pc else GoesOn s t s.curPath.succ

end Sys2Proof.Claims
end

