-- ==== Sys2Proof/Certificates/Slice0/Obligations.lean ====
section
/-! DEFINITION. The statements about the model, and what they take from the spec's tables. -/

namespace Sys2Proof.Claims

open Sys2Proof.Machine

/-- An operand as a number under U (R87). -/
def operand (u : Bool) (a : Word) : Int := if u then (a.toNat : Int) else a.toInt

/-- The quotient by R56 of width 64. -/
def quotient (u : Bool) (a b : Word) : Word :=
  if b = 0 then BitVec.allOnes 64
  else if u then a / b
  else if a = BitVec.intMin 64 && b = BitVec.allOnes 64 then a
  else BitVec.ofInt 64 (a.toInt.tdiv b.toInt)
/-- The remainder by R56 of width 64. -/
def remainder (u : Bool) (a b : Word) : Word :=
  if b = 0 then a
  else if u then a % b
  else if a = BitVec.intMin 64 && b = BitVec.allOnes 64 then 0
  else BitVec.ofInt 64 (a.toInt.tmod b.toInt)

/-- The values that the per-core registers written by `ctl.wr` accept (Table 7-1). -/
def coreAccepts (n : Nat) (v : Nat) : Prop :=
  (n = 0x40 → v % 4096 = 0 ∧ v < 2 ^ 57) ∧ (n = 0x41 → v % 64 = 0 ∧ v < 2 ^ 21) ∧
  (n = 0x42 → ∃ k, 4 ≤ k ∧ k ≤ 12 ∧ v = 2 ^ k) ∧ (n = 0x43 ∨ n = 0x44 → v < 2 ^ 16) ∧
  (n = 0x45 ∨ n = 0x4B ∨ n = 0x4F → v < 2 ^ 32) ∧ (n = 0x46 → v % 4096 = 0 ∧ v < 2 ^ 21) ∧
  (n = 0x47 → 64 ≤ v ∧ v ≤ 4096 ∧ v % 64 = 0) ∧ (n = 0x48 → 1 ≤ v ∧ v ≤ 224) ∧ (n = 0x49 → 2 ≤ v ∧ v ≤ 32) ∧
  (n = 0x4A → v % 4 ≠ 3) ∧ (n = 0x4E → v % 2 = 0 ∧ v % 64 ≠ 0 ∧ v < 2 ^ 57)
/-- The per-core registers that are written only while no G-slot and no H-slot is occupied (Table 7-1). -/
def quietOnly : List Nat := [0x40, 0x41, 0x42, 0x43, 0x44, 0x46, 0x47, 0x49]
/-- A window within the mesh and the larder (Table 7-4). -/
def windowFits (v : Nat) : Prop :=
  v / 2 ^ 43 % 16 + v / 2 ^ 35 % 16 ≤ 15 ∧ v / 2 ^ 39 % 16 + v / 2 ^ 31 % 16 ≤ 9 ∧ v / 2 ^ 22 % 512 + v / 2 ^ 13 % 512 ≤ 511
/-- What a register that accepts `v` then holds: reserved bits ignore writes (Tables 7-1, 7-4 and 7-5). -/
def stored (n : Nat) (v : Word) : Word :=
  if n = 0x01 then v &&& 0x3FF else if 0x0C ≤ n ∧ n ≤ 0x0F then v &&& ~~~0x1FFF
  else if n = 0x4A then v &&& 3 else if n = 0x4D then v &&& 0xF else v

/-- A branch target (R37). -/
def branchTarget (pc : Word) {n : Nat} (delta : BitVec n) (head : BitVec 5) : Word :=
  (pc - BitVec.ofNat 64 (pc.toNat % 64)) + BitVec.ofInt 64 (delta.toInt * 64) + BitVec.ofNat 64 (2 * head.toNat)

/-- Table 2-9: each allocated major, its listed minors and the half-words of their form's tail (Table 2-5). -/
def opcodeMap : List (Nat × List Nat × Nat) :=
  [(0x00, List.range 8, 0), (0x01, List.range 2, 1), (0x02, List.range 0x17, 2), (0x03, List.range 0xB, 3), (0x04, [0], 2),
   (0x04, [1], 3), (0x05, List.range 0xB, 2), (0x06, List.range 2, 1), (0x07, List.range 0x11, 2), (0x08, [0], 3),
   (0x09, List.range 3, 2), (0x0A, List.range 0x100, 1), (0x10, List.range 0x10, 3), (0x11, List.range 9, 3),
   (0x12, List.range 0xC, 3), (0x13, List.range 2, 3), (0x14, [0, 1, 2, 7], 2), (0x14, [3, 4, 5, 6], 1)] ++
  [(0x18, List.range 6, 3), (0x19, List.range 4, 3), (0x1A, List.range 5, 3), (0x1B, List.range 0x100, 1), (0x1C, List.range 6, 1),
   (0x1D, List.range 5, 1), (0x20, List.range 0xB, 3), (0x21, List.range 5, 2), (0x22, [0, 1, 3, 5], 1), (0x22, [2, 4], 2),
   (0x23, List.range 4, 2), (0x24, List.range 5, 2), (0x25, List.range 5, 2), (0x26, List.range 2, 2), (0x28, List.range 5, 2)]
/-- The half-words of the tail of a listed minor of a major. -/
def listedLen (op fn : Nat) : Option Nat := (opcodeMap.find? fun r => r.1 = op && r.2.1.contains fn).map fun r => r.2.2

/-- No larder bank of the package is in retention or due to enter it (R197). -/
def BanksAwake (s : State) : Prop := ∀ c b, Table.get 0 (s.core c).asleep b = 0 ∧ s.bankIdle c b = false

/-- The state in which a fetched instruction executes that has the successor `succ`: its path stands before it, its issue is
counted, and a publisher's instruction that passes the decode traps has been placed on the channel (R31, R44, R307). -/
def issuing (u : State) (succ : Word) (i : Instr) : State :=
  let w := (u.modPath fun p => { p with succ := succ, chan := false }).issued
  if w.decodes i then w.place i else w

end Sys2Proof.Claims

section Statements

open Sys2Proof Sys2Proof.Machine Sys2Proof.Claims

/-! Scalar arithmetic (04_scalar_registers.md). -/

/-- R87, R81 (Table 4-4): the sums, products, logic, shifts and the selection write their value to s[d] and change
nothing else but the PC; a write to s0 is discarded. R87 (Table 4-4): the comparisons, the counts of bits and the bit
fields. R87, R56: `div` and `rem` complete for every operand: a divisor of zero gives all ones and leaves the dividend
as the remainder. -/
def Obligations.ScalarArithmetic : Prop :=
  (∀ o : F2,
    Writes (.add o) o.d (fun s => s.sreg o.a + s.sreg o.b) ∧
    Writes (.sub o) o.d (fun s => s.sreg o.a - s.sreg o.b) ∧
    Writes (.and o) o.d (fun s => s.sreg o.a &&& s.sreg o.b) ∧
    Writes (.or o) o.d (fun s => s.sreg o.a ||| s.sreg o.b) ∧
    Writes (.xor o) o.d (fun s => s.sreg o.a ^^^ s.sreg o.b) ∧
    Writes (.andn o) o.d (fun s => s.sreg o.a &&& ~~~s.sreg o.b) ∧
    Writes (.shl o) o.d (fun s => s.sreg o.a <<< ((s.sreg o.b).toNat % 64)) ∧
    Writes (.shr o) o.d (fun s => s.sreg o.a >>> ((s.sreg o.b).toNat % 64)) ∧
    Writes (.sar o) o.d (fun s => (s.sreg o.a).sshiftRight ((s.sreg o.b).toNat % 64)) ∧
    Writes (.rol o) o.d (fun s => (s.sreg o.a).rotateLeft ((s.sreg o.b).toNat % 64)) ∧
    Writes (.mul o) o.d (fun s => BitVec.ofNat 64 ((s.sreg o.a).toNat * (s.sreg o.b).toNat)) ∧
    Writes (.mulh o) o.d (fun s =>
      BitVec.ofInt 64 (operand (o.x.getLsbD 0) (s.sreg o.a) * operand (o.x.getLsbD 0) (s.sreg o.b) / 2 ^ 64)) ∧
    Writes (.sel o) o.d (fun s => if s.sreg o.c = 0 then s.sreg o.b else s.sreg o.a)) ∧
  (∀ o : F2,
    Writes (.min o) o.d (fun s =>
      if operand (o.x.getLsbD 0) (s.sreg o.a) ≤ operand (o.x.getLsbD 0) (s.sreg o.b) then s.sreg o.a else s.sreg o.b) ∧
    Writes (.max o) o.d (fun s =>
      if operand (o.x.getLsbD 0) (s.sreg o.a) ≤ operand (o.x.getLsbD 0) (s.sreg o.b) then s.sreg o.b else s.sreg o.a) ∧
    Writes (.cmp o) o.d (fun s => if condHolds (bits o.x 0 4) (s.sreg o.a) (s.sreg o.b) then 1 else 0) ∧
    Writes (.clz o) o.d (fun s =>
      BitVec.ofNat 64 ((List.range 64).takeWhile fun j => !(s.sreg o.a).getLsbD (63 - j)).length) ∧
    Writes (.ctz o) o.d (fun s =>
      BitVec.ofNat 64 ((List.range 64).takeWhile fun j => !(s.sreg o.a).getLsbD j).length) ∧
    Writes (.popc o) o.d (fun s => BitVec.ofNat 64 ((List.range 64).countP fun j => (s.sreg o.a).getLsbD j)) ∧
    Writes (.bext o) o.d (fun s =>
      (s.sreg o.a >>> field o.x 0 6) &&& BitVec.ofNat 64 (2 ^ (field o.x 6 6 + 1) - 1)) ∧
    Writes (.bins o) o.d (fun s => BitVec.ofFnLE fun j : Fin 64 =>
      if field o.x 0 6 ≤ j.val ∧ j.val < field o.x 0 6 + field o.x 6 6 + 1 then
        (s.sreg o.b).getLsbD (j.val - field o.x 0 6)
      else (s.sreg o.a).getLsbD j.val)) ∧
  (∀ o : F2,
    Writes (.div o) o.d (fun s => quotient (o.x.getLsbD 0) (s.sreg o.a) (s.sreg o.b)) ∧
    Writes (.rem o) o.d (fun s => remainder (o.x.getLsbD 0) (s.sreg o.a) (s.sreg o.b)))

/-- R90 to R93: the scalar floating-point instructions decode their operands in their type, compute exactly, round
once under RND and write the result zero-extended; the comparison and the class write a word. -/
def Obligations.ScalarFloat : Prop :=
  ∀ o : F2,
    let f := fmtOf (bits o.x 0 4)
    let r := rndOf (bits o.x 4 2)
    let n := 2 ^ tyWidth (bits o.x 0 4)
    let val := fun (a : Word) => f.decode (a.toNat % n)
    let out := fun (v : Fp) => BitVec.ofNat 64 (f.encode r v)
    Writes (.fadd o) o.d (fun s => out (Fp.add r (val (s.sreg o.a)) (val (s.sreg o.b)))) ∧
    Writes (.fsub o) o.d (fun s => out (Fp.add r (val (s.sreg o.a)) (val (s.sreg o.b)).neg)) ∧
    Writes (.fmul o) o.d (fun s => out (Fp.mul (val (s.sreg o.a)) (val (s.sreg o.b)))) ∧
    Writes (.fma o) o.d (fun s => out (Fp.add r (Fp.mul (val (s.sreg o.a)) (val (s.sreg o.b))) (val (s.sreg o.c)))) ∧
    Writes (.fdiv o) o.d (fun s => out (Fp.div (val (s.sreg o.a)) (val (s.sreg o.b)))) ∧
    Writes (.fsqrt o) o.d (fun s => out (val (s.sreg o.a)).sqrt) ∧
    Writes (.fmin o) o.d (fun s => out (Fp.minimum (val (s.sreg o.a)) (val (s.sreg o.b)))) ∧
    Writes (.fmax o) o.d (fun s => out (Fp.maximum (val (s.sreg o.a)) (val (s.sreg o.b)))) ∧
    Writes (.fcmp o) o.d (fun s =>
      if cmpHolds (field o.x 8 4) (Fp.cmp (val (s.sreg o.a)) (val (s.sreg o.b))) then 1 else 0) ∧
    Writes (.fclass o) o.d (fun s => BitVec.ofNat 64 (2 ^ classBit f ((s.sreg o.a).toNat % n))) ∧
    Writes (.fcvt o) o.d (fun s =>
      extend64 (bits o.x 0 4) (cvtElem (fun _ => 0) (bits o.x 0 4) (bits o.x 8 4) r
        ((s.sreg o.a).toNat % 2 ^ tyWidth (bits o.x 8 4))))

/-- R88 (Table 4-6): the instructions with an immediate. R94 (Table 4-11): `sid` writes an identity value: where the
core stands and the slot's own numbers in every user, the place in the grid for a grid group, all ones there in a task
and in the S-slot. R96: `addr` writes the converted address; where the conversion fails it traps ADDR_RANGE with
DETAIL 4. The absolute form never fails. -/
def Obligations.ImmediatesAndAddresses : Prop :=
  (∀ o : F3,
    Writes (.li o) o.d (fun _ => o.imm.signExtend 64) ∧
    Writes (.lih o) o.d (fun s => (o.imm.zeroExtend 64 <<< 32) ||| (s.sreg o.a &&& 0xFFFFFFFF)) ∧
    Writes (.addi o) o.d (fun s => s.sreg o.a + o.imm.signExtend 64) ∧
    Writes (.andi o) o.d (fun s => s.sreg o.a &&& o.imm.signExtend 64) ∧
    Writes (.ori o) o.d (fun s => s.sreg o.a ||| o.imm.signExtend 64) ∧
    Writes (.xori o) o.d (fun s => s.sreg o.a ^^^ o.imm.signExtend 64) ∧
    Writes (.shli o) o.d (fun s => s.sreg o.a <<< o.imm.toNat) ∧
    Writes (.shri o) o.d (fun s => s.sreg o.a >>> o.imm.toNat) ∧
    Writes (.sari o) o.d (fun s => (s.sreg o.a).sshiftRight o.imm.toNat) ∧
    Writes (.cmpi o) o.d (fun s => if condHolds (bits o.x 0 4) (s.sreg o.a) (o.imm.signExtend 64) then 1 else 0) ∧
    Writes (.muli o) o.d (fun s => s.sreg o.a * o.imm.signExtend 64)) ∧
  (∀ (o : F2) (s : State), Runs (.sid o) s →
    ∃ t v, exec (.sid o) s = .next t ∧ SetsScalar s t o.d v ∧
      (o.x = 0 → v = BitVec.ofNat 64 s.cur.core) ∧ (o.x = 1 → v = BitVec.ofNat 64 (s.cur.core / 160)) ∧
      (o.x = 2 → v = BitVec.ofNat 64 (s.cur.core % 160 % 16)) ∧ (o.x = 3 → v = BitVec.ofNat 64 (s.cur.core % 160 / 16)) ∧
      (o.x = 4 → v = BitVec.ofNat 64 (coreBay s.cur.core)) ∧ (o.x = 6 → v = BitVec.ofNat 64 s.curPart) ∧
      (o.x = 0x15 → v = match s.curSlot.sub with | some b => BitVec.ofNat 64 b.chan | none => BitVec.allOnes 64) ∧
      (o.x = 5 → v = s.pkgId.zeroExtend 64) ∧ (o.x = 7 → v = BitVec.ofNat 64 s.cur.slot) ∧
      (o.x = 8 → v = if s.cur.pathQ then 1 else 0) ∧ (o.x = 0x13 → v = BitVec.ofNat 64 s.curSlot.valloc) ∧
      (o.x = 0x14 → v = BitVec.ofNat 64 s.clk) ∧
      (s.curSlot.member = none → 9#12 ≤ o.x → o.x ≤ 0x12#12 → v = BitVec.allOnes 64) ∧
      ∀ m tm cl g, s.curSlot.member = some m → s.curTeam? = some tm → s.curCluster? = some cl → s.curGrid? = some g →
        (o.x = 9 → v = BitVec.ofNat 64 m.index) ∧ (o.x = 0xA → v = BitVec.ofNat 64 tm.groups) ∧
        (o.x = 0xD → v = BitVec.ofNat 64 cl.w) ∧ (o.x = 0xE → v = BitVec.ofNat 64 cl.h) ∧
        (o.x = 0xB → v = BitVec.ofNat 64 (s.cur.core % 160 % 16 - cl.x0)) ∧
        (o.x = 0xC → v = BitVec.ofNat 64 (s.cur.core % 160 / 16 - cl.y0)) ∧
        (o.x = 0xF → v = BitVec.ofNat 64 cl.index) ∧ (o.x = 0x10 → v = BitVec.ofNat 64 (recNclus g.record)) ∧
        (o.x = 0x11 → v = BitVec.ofNat 64 (recLaunchId g.record)) ∧ (o.x = 0x12 → v = BitVec.ofNat 64 (recClass g.record))) ∧
  (∀ (o : F3) (s : State), Runs (.addr o) s →
    (bits o.x 0 2 = 0#2 → s.convert (s.sreg o.a) o.imm.toInt (bits o.x 0 2) = some (s.sreg o.a + o.imm.signExtend 64)) ∧
    (∀ v, s.convert (s.sreg o.a) o.imm.toInt (bits o.x 0 2) = some v →
      ∃ t, exec (.addr o) s = .next t ∧ SetsScalar s t o.d v) ∧
    (s.convert (s.sreg o.a) o.imm.toInt (bits o.x 0 2) = none →
      exec (.addr o) s = .next (s.takeTrap { code := 0x06, faddr := s.sreg o.a, finfo := 4 })))

/-! Control flow. -/

/-- R100: `nop`, of head 0x0000, has no effect beyond advancing the PC. -/
def Obligations.NopOnlyAdvances : Prop :=
  encode .nop = some (0x0000#16, 0) ∧
  Completes .nop (fun _ => True) (fun s t => OnlyGoesOn s t s.curPath.succ)

/-- R97, R37: the branches of a group that executes its own stream. `br` and `call` move the PC to the target; `bc`
does so where its condition holds, else it goes on; `jr`, `callr` and `ret` jump to a register; a call leaves the
successor in s31. -/
def Obligations.Branches : Prop :=
  (∀ o : B1,
    Completes (.br o) (fun _ => True) (fun s t => OnlyGoesOn s t (branchTarget s.pc o.delta o.head)) ∧
    Completes (.call o) (fun _ => True) (fun s t =>
      CurOnly s t ∧ ScalarIs s t 31 s.curPath.succ ∧ VectorsKept s t ∧ MasksKept s t ∧
      GoesOn s t (branchTarget s.pc o.delta o.head))) ∧
  (∀ c (o : B2), Completes (.bc c o) (fun s => s.curPath.chan = false) (fun s t =>
    OnlyGoesOn s t (if condHolds c (s.sreg o.a) (s.sreg o.b) then branchTarget s.pc o.delta o.head else s.curPath.succ))) ∧
  ∀ o : F2,
    Completes (.jr o) (fun s => s.curPath.chan = false) (fun s t => OnlyGoesOn s t (s.sreg o.a)) ∧
    Completes (.callr o) (fun s => s.curPath.chan = false) (fun s t =>
      CurOnly s t ∧ ScalarIs s t 31 s.curPath.succ ∧ VectorsKept s t ∧ MasksKept s t ∧ GoesOn s t (s.sreg o.a)) ∧
    Completes (.ret o) (fun s => s.curPath.chan = false) (fun s t => OnlyGoesOn s t (s.sreg 31))

/-- R98: `loop` decrements s[a] and branches while it is not zero; a = 0 or a non-zero b is an illegal encoding. -/
def Obligations.Loop : Prop :=
  ∀ o : B2,
    (o.a = 0 ∨ o.b ≠ 0 → ∀ s, exec (.loop o) s =
      .next (s.takeTrap { code := 0x02, faddr := s.pc, finfo := 0x1E10 })) ∧
    ∀ s, Runs (.loop o) s → ∃ t, exec (.loop o) s = .next t ∧ ScalarIs s t o.a (s.sreg o.a - 1) ∧
      t.curPath.pc = if s.sreg o.a - 1 ≠ 0 then branchTarget s.pc o.delta o.head else s.curPath.succ

/-- R119: `brd` of a group in single-path mode that neither publishes nor is subscribed: with lanes on both sides it
splits into P at the target and Q at the successor; with all lanes on one side it branches or goes on. R119, R118: a
serial `brd` with lanes on both sides, and every one of a group that publishes or is subscribed, pushes an entry and
runs the taken side; at a depth of eight it traps DIV_DEPTH. R120: `join` at the top
entry's join PC turns to the pending side, then restores the outer mask; at J with an empty stack it parks the path,
or merges the two paths where the other is parked; elsewhere it acts as `nop`. -/
def Obligations.DivergentPaths : Prop :=
  (∀ o : D3, Completes (.brd o)
    (fun s => s.cur.pathQ = false ∧ s.curSlot.dual = false ∧ s.publishing = false ∧ s.subscribed = false ∧
      s.curPath.stack = [] ∧ s.curPath.chan = false)
    (fun s t =>
      let l := s.curPath.live
      let m := s.mreg o.mask.toNat
      CoresOnly s t ∧ (∀ c, c ≠ s.cur.core → t.core c = s.core c) ∧ ScalarsKept s t ∧ VectorsKept s t ∧ MasksKept s t ∧
      (m &&& l = 0 → t.curPath.pc = s.curPath.succ ∧ t.curPath.live = l ∧ t.curSlot.dual = false) ∧
      (m &&& l ≠ 0 → t.curPath.pc = branchTarget s.pc o.delta o.head) ∧
      (m &&& l ≠ 0 → l &&& ~~~m = 0 → t.curPath.live = l ∧ t.curSlot.dual = false) ∧
      (m &&& l ≠ 0 → l &&& ~~~m ≠ 0 →
        t.curSlot.dual = true ∧ t.curSlot.j = branchTarget s.pc o.jdelta o.jhead ∧
        t.curSlot.p.live = m &&& l ∧ t.curSlot.q.live = l &&& ~~~m ∧ t.curSlot.q.pc = s.curPath.succ ∧
        t.curSlot.q.stack = []))) ∧
  (∀ o : D3, Completes (.brd o)
    (fun s => (s.curSlot.dual = true ∨ s.curPath.stack ≠ []) ∧ s.publishing = false ∧ s.subscribed = false ∧
      (s.mreg o.mask.toNat &&& s.curPath.live = 0 ∨ s.curPath.live &&& ~~~s.mreg o.mask.toNat = 0))
    (fun s t => OnlyGoesOn s t (if s.mreg o.mask.toNat &&& s.curPath.live = 0 then s.curPath.succ
      else branchTarget s.pc o.delta o.head))) ∧
  (∀ (o : D3) (s : State), Runs (.brd o) s →
    (s.publishing = true ∨ s.subscribed = true ∨ ((s.curSlot.dual = true ∨ s.curPath.stack ≠ []) ∧
      s.mreg o.mask.toNat &&& s.curPath.live ≠ 0 ∧ s.curPath.live &&& ~~~s.mreg o.mask.toNat ≠ 0)) →
    (s.curPath.stack.length = 8 → exec (.brd o) s = .next (s.takeTrap { code := 0x0D })) ∧
    (s.curPath.stack.length ≠ 8 → ∃ t, exec (.brd o) s = .next t ∧ CurOnly s t ∧ ScalarsKept s t ∧ VectorsKept s t ∧
      MasksKept s t ∧ t.curPath.pc = branchTarget s.pc o.delta o.head ∧
      t.curPath.live = s.mreg o.mask.toNat &&& s.curPath.live ∧
      t.curPath.stack = { joinPC := branchTarget s.pc o.jdelta o.jhead, outer := s.curPath.live,
                          pending := s.curPath.live &&& ~~~s.mreg o.mask.toNat, pendPC := s.curPath.succ,
                          phase := false } :: s.curPath.stack)) ∧
  ((∀ e rest, Completes .join (fun s => s.curPath.stack = e :: rest ∧ e.joinPC = s.pc ∧ e.phase = false)
    (fun s t => CurOnly s t ∧ t.curPath.live = e.pending ∧ t.curPath.pc = e.pendPC ∧
      t.curPath.stack = { e with phase := true } :: rest)) ∧
  (∀ e rest, Completes .join (fun s => s.curPath.stack = e :: rest ∧ e.joinPC = s.pc ∧ e.phase = true)
    (fun s t => CurOnly s t ∧ t.curPath.live = e.outer ∧ t.curPath.pc = s.curPath.succ ∧ t.curPath.stack = rest)) ∧
  (∀ e rest, Completes .join (fun s => s.curPath.stack = e :: rest ∧ e.joinPC ≠ s.pc)
    (fun s t => OnlyGoesOn s t s.curPath.succ)) ∧
  Completes .join (fun s => s.curPath.stack = [] ∧ (s.curSlot.dual = false ∨ s.pc ≠ s.curSlot.j))
    (fun s t => OnlyGoesOn s t s.curPath.succ) ∧
  Completes .join (fun s => s.curPath.stack = [] ∧ s.curSlot.dual = true ∧ s.pc = s.curSlot.j ∧
      (s.curSlot.path (!s.cur.pathQ)).parked = false)
    (fun s t => CurOnly s t ∧ ScalarsKept s t ∧ t.curPath.parked = true ∧ t.curPath.pc = s.pc ∧ t.curPath.live = s.curPath.live) ∧
  Completes .join (fun s => s.curPath.stack = [] ∧ s.curSlot.dual = true ∧ s.pc = s.curSlot.j ∧
      (s.curSlot.path (!s.cur.pathQ)).parked = true)
    (fun s t => CoreOnly s t s.cur.core ∧ ScalarsKept s t ∧ VectorsKept s t ∧ MasksKept s t ∧ t.curSlot.dual = false ∧
      t.curSlot.p.pc = s.curPath.succ ∧ t.curSlot.p.live = s.curSlot.p.live ||| s.curSlot.q.live ∧
      t.curSlot.p.parked = false))

/-- R102: `end` in a task or in the S-slot traps ILLEGAL_INSTR; its head is 0x0002. -/
def Obligations.EndOutsideGroups : Prop :=
  encode .endGroup = some (0x0002#16, 0) ∧
  ∀ s, s.isGroup = false → exec .endGroup s = .next (s.takeTrap { code := 0x02, faddr := s.pc, finfo := 0x0002 })

/-- R104: `done` in a grid group or in the S-slot traps ILLEGAL_INSTR; its head is 0x0003. -/
def Obligations.DoneOutsideTasks : Prop :=
  encode .done = some (0x0003#16, 0) ∧
  ∀ s, s.isTask = false → exec .done s = .next (s.takeTrap { code := 0x02, faddr := s.pc, finfo := 0x0003 })

/-! Traps, privilege and control registers (07_control_registers.md). -/

/-- R33 to R43, R174, R107 (Table 2-10, rows 5 to 7): what the encoding rules refuse traps ILLEGAL_INSTR, as does
`qpush` or `qpop` outside a grid group (R256); a privileged
instruction outside the S-slot traps PRIVILEGED; a vector or mask register out of range traps REG_RANGE. Each happens
at the instruction, with its head half-word, before any of its effect. That the rules of chapter 5 which raise
ILLEGAL_INSTR (R113, R115, R134) stand with row 5, before PRIVILEGED and REG_RANGE, is the model's choice [log 57,
DESIGN CHOICE]. -/
def Obligations.DecodeTraps : Prop :=
  ∀ (i : Instr) (h : Half) (tl : Tail) (s : State), encode i = some (h, tl) →
    (wellFormed i = false → exec i s = .next (s.takeTrap { code := 0x02, faddr := s.pc, finfo := h.zeroExtend 64 })) ∧
    (∀ o : F1, i = .qpush o ∨ i = .qpop o → s.isGroup = false →
      exec i s = .next (s.takeTrap { code := 0x02, faddr := s.pc, finfo := h.zeroExtend 64 })) ∧
    (wellFormed i = true → privileged i = true → s.cur.slot ≠ 63 →
      exec i s = .next (s.takeTrap { code := 0x03, faddr := s.pc, finfo := h.zeroExtend 64 })) ∧
    (wellFormed i = true → s.illegalHere i = false → (privileged i = true → s.cur.slot = 63) →
      ∀ r, s.outOfRange i = some r → exec i s = .next (s.takeTrap { code := 0x04, finfo := BitVec.ofNat 64 (r.1 + 256 * r.2) }))

/-- R179, R180, Table 7-1: a trap of a slot other than the S-slot writes `CAUSE`, `EPC`, `FADDR` and `FINFO` and makes
the slot TRAPPED; it alters no register of the group, no mask, no live mask, no mask stack and no memory, and the
other slots stay. With no instruction of the other path in progress, the slot's event is queued. R176, R177: a trap of
the S-slot is a core check: the core enters reset with its mailbox, its pantry, its shelf and its copy requests gone,
and the check is reported with its cause. -/
def Obligations.TrapsTaken : Prop :=
  (∀ (s : State) (tr : Trap), Live s → s.cur.slot ≠ 63 →
    let t := s.takeTrap tr
    field t.curSlot.cause 0 8 = tr.code.toNat ∧ t.curSlot.cause.getLsbD 8 = s.cur.pathQ ∧
    t.curSlot.cause.getLsbD 9 = (s.curPath.chan && !tr.fetch) ∧ field t.curSlot.cause 10 54 = 0 ∧
    t.curSlot.epc = s.pc ∧ t.curSlot.faddr = tr.faddr ∧ t.curSlot.finfo = tr.finfo ∧ t.curSlot.state = .trapped ∧
    t.curSlot.sregs = s.curSlot.sregs ∧ t.curSlot.vregs = s.curSlot.vregs ∧ t.curSlot.mregs = s.curSlot.mregs ∧
    (∀ q, (t.curSlot.path q).live = (s.curSlot.path q).live ∧ (t.curSlot.path q).stack = (s.curSlot.path q).stack ∧
      (t.curSlot.path q).pc = (s.curSlot.path q).pc) ∧
    t.mem = s.mem ∧ t.empties = s.empties ∧ t.poison = s.poison ∧ t.curCore.tiles = s.curCore.tiles ∧
    (∀ c k, ¬(c = s.cur.core ∧ k = s.cur.slot) → t.slot c k = s.slot c k) ∧
    ((s.curSlot.path (!s.cur.pathQ)).wait.inside = false → (s.clk, s.cur.slot) ∈ t.curCore.events)) ∧
  (∀ (s : State) (tr : Trap), s.cur.slot = 63 → s.curCore.inReset = false →
    let t := s.takeTrap tr
    (t.core s.cur.core).inReset = true ∧ (t.core s.cur.core).mailbox = [] ∧ (t.core s.cur.core).pantry = [] ∧
    (t.core s.cur.core).shelf = [] ∧ (t.core s.cur.core).copyq = [] ∧ (t.core s.cur.core).ready = [] ∧
    Out.report s.cur.core tr.code ∈ t.outbox)

/-- R187, R188: `trap` traps TRAP_INSTR with s[a] and its code; `eret`, with the S-slot's accesses performed, makes
the S-slot idle and has the next event taken in the following clk. R175, R186, R177: the idle S-slot takes the event
at the head of the queue: s1 := the target word, s2 := `CAUSE`, PC := `TRAPVEC`, single path, m0 all ones, its other
registers kept. A user interrupt saves path P's PC in `ULIPC`, writes `ULIH` and `CPXID`, sets UIA and starts the
handler with P's live mask. A core is released once the teardown of its grids is over: its registers are at their
reset values, the generations of its slots survive. -/
def Obligations.TrapEntriesAndReturns : Prop :=
  ((∀ code o s, Runs (.trap code o) s →
    exec (.trap code o) s = .next (s.takeTrap { code := 0x18, faddr := s.sreg o.a, finfo := code.zeroExtend 64 })) ∧
  Completes .eret (fun s => s.waitOver s.cur.core s.cur.slot (.performed false) = true) (fun s t =>
    s.cur.slot = 63 ∧ t.curCore.idle = true ∧ t.mem = s.mem ∧ ScalarsKept s t ∧ VectorsKept s t ∧ MasksKept s t ∧
    (s.clk + 1, .trapEventEntry, { a := s.cur.core }) ∈ t.agenda)) ∧
  ((∀ s clk k rest, (s.core s.input.a).events = (clk, k) :: rest → (s.core s.input.a).idle = true →
    (s.core s.input.a).inReset = false → k < 63 →
    ∃ t, exec .trapEventEntry s = .next t ∧ CoresOnly s t ∧ (∀ c, c ≠ s.input.a → t.core c = s.core c) ∧
      (t.core s.input.a).events = rest ∧ (t.core s.input.a).idle = false ∧
      (t.slot s.input.a 63).p.pc = (s.core s.input.a).trapvec ∧ (t.slot s.input.a 63).p.live = BitVec.allOnes 128 ∧
      (t.slot s.input.a 63).dual = false ∧
      (∀ n, (t.slot s.input.a 63).sreg n =
        if n = 1 then (s.slot s.input.a k).gen ++ BitVec.ofNat 32 k
        else if n = 2 then (s.slot s.input.a k).cause else (s.slot s.input.a 63).sreg n) ∧
      (t.slot s.input.a 63).vregs = (s.slot s.input.a 63).vregs) ∧
  (∀ s handler id rest, (s.slot s.input.a s.input.b).uiq = (handler, id) :: rest →
    ∃ t, exec .userInterruptEntry s = .next t ∧ SlotOnly s t s.input.a s.input.b ∧
      (t.slot s.input.a s.input.b).ulipc = (s.slot s.input.a s.input.b).p.pc ∧
      (t.slot s.input.a s.input.b).ulih = handler ∧ (t.slot s.input.a s.input.b).cpxid = id ∧
      (t.slot s.input.a s.input.b).uia = true ∧ (t.slot s.input.a s.input.b).uiq = rest ∧
      (t.slot s.input.a s.input.b).p.pc = handler ∧
      (t.slot s.input.a s.input.b).p.live = (s.slot s.input.a s.input.b).p.live ∧
      (t.slot s.input.a s.input.b).sregs = (s.slot s.input.a s.input.b).sregs) ∧
  ∀ s, (s.core s.input.a).inReset = true → (s.core s.input.a).checkGrids = [] →
    ∃ t, exec .coreResetRelease s = .next t ∧ (t.core s.input.a).inReset = false ∧ (t.core s.input.a).mailbox = [] ∧
      (t.core s.input.a).rrhead = 0 ∧ (t.core s.input.a).frtsize = 1024 ∧ (t.core s.input.a).mblimit = 224 ∧
      ∀ k, (t.slot s.input.a k).gen = (s.slot s.input.a k).gen ∧ (t.slot s.input.a k).cause = 0 ∧
        (t.slot s.input.a k).sregs = [])

/-- R190, R178: `ctl.rd` writes the register's value to s[d]; what each number names (Table 7-1). R190, R178: a
`ctl.wr` that is accepted changes the register, of the slot that T names, and answers OK; one outside the register's
range, or of a Q register while the core is not quiet, answers REFUSED and changes nothing; one of a register that
only the hardware writes changes nothing; T = 1 with another generation answers STALE. -/
def Obligations.ControlRegisters : Prop :=
  ((∀ o, Completes (.ctlRd o) (fun s => ¬(o.x.getLsbD 10 = true ∧ field (s.sreg o.b) 0 6 = 63)) (fun s t =>
    SetsScalar s t o.d
      (s.ctlGet s.cur.core (if o.x.getLsbD 10 then field (s.sreg o.b) 0 6 else s.cur.slot) (field o.x 0 10)))) ∧
  (∀ (o : F2) (s : State), Runs (.ctlRd o) s → o.x.getLsbD 10 = true → field (s.sreg o.b) 0 6 = 63 →
    exec (.ctlRd o) s = .next (s.takeTrap { code := 0x02, faddr := s.pc, finfo := 0xA200 })) ∧
  ∀ (s : State) (c k : Nat),
    let sl := s.slot c k
    let co := s.core c
    s.ctlGet c k 0x01 = sl.cause ∧ s.ctlGet c k 0x02 = sl.epc ∧ s.ctlGet c k 0x03 = sl.faddr ∧ s.ctlGet c k 0x04 = sl.finfo ∧
    s.ctlGet c k 0x05 = sl.ulih ∧ s.ctlGet c k 0x06 = sl.ulipc ∧ s.ctlGet c k 0x07 = sl.cpxid ∧ s.ctlGet c k 0x08 = sl.subst ∧
    s.ctlGet c k 0x09 = sl.taskid ∧ s.ctlGet c k 0x0A = sl.mrowstride ∧ s.ctlGet c k 0x0B = sl.mrowcount ∧
    (∀ i < 4, s.ctlGet c k (0x0C + i) = Table.get 0 sl.lwin i) ∧ s.ctlGet c k 0x10 = sl.taskfk ∧
    s.ctlGet c k 0x40 = co.vtbase ∧ s.ctlGet c k 0x41 = co.rrbase ∧ s.ctlGet c k 0x42 = co.rrsize ∧ s.ctlGet c k 0x43 = co.rrhead ∧
    s.ctlGet c k 0x44 = co.rrtail ∧ s.ctlGet c k 0x45 = co.rrovf ∧ s.ctlGet c k 0x46 = co.frtbase ∧ s.ctlGet c k 0x47 = co.frtsize ∧
    s.ctlGet c k 0x48 = co.mblimit ∧ s.ctlGet c k 0x49 = co.hslots ∧ s.ctlGet c k 0x4A = co.issuepol ∧ s.ctlGet c k 0x4B = co.wdoglim ∧
    s.ctlGet c k 0x4C = co.trbase ∧ s.ctlGet c k 0x4D = co.mweight ∧ s.ctlGet c k 0x4E = co.trapvec ∧ s.ctlGet c k 0x4F = co.pglate ∧
    (∀ i < 16, s.ctlGet c k (0x60 + i) = Table.get 0 co.pmc i) ∧
    s.ctlGet c k 0x80 = (s.partn (s.partOf c)).expert ∧ s.ctlGet c k 0x81 = (s.partn (s.partOf c)).clkfix ∧
    -- STATUS (Table 7-2)
    (sl.stateCode < 5 → sl.uiq.length ≤ 8 → k < 64 → s.ctlGet c k 0x00 =
      sl.gen ++ (0 : BitVec 8) ++ BitVec.ofNat 2 (co.cls k) ++ bits sl.pri 0 2 ++ BitVec.ofNat 4 sl.stateCode ++
      BitVec.ofBool sl.dual ++ BitVec.ofBool (s.publishes c k) ++ BitVec.ofBool sl.sub.isSome ++ BitVec.ofBool sl.uia ++
      BitVec.ofBool (sl.uie && k ≠ 63) ++ BitVec.ofNat 4 sl.uiq.length ++ BitVec.ofBool (k = 63) ++ BitVec.ofNat 6 k)) ∧
  ((∀ o, Completes (.ctlWr o)
    (fun _ => o.x.getLsbD 10 = false ∧ field o.x 0 10 = 0x06) (fun s t =>
      SlotOnly s t s.cur.core s.cur.slot ∧ t.curSlot.ulipc = s.sreg o.a ∧ ScalarIs s t o.d 0)) ∧
  (∀ o, Completes (.ctlWr o)
    (fun s => o.x.getLsbD 10 = false ∧ field o.x 0 10 = 0x48 ∧ 1 ≤ (s.sreg o.a).toNat ∧ (s.sreg o.a).toNat ≤ 224) (fun s t =>
      CoresOnly s t ∧ t.curCore.mblimit = s.sreg o.a ∧ ScalarIs s t o.d 0)) ∧
  (∀ o, Completes (.ctlWr o)
    (fun s => o.x.getLsbD 10 = false ∧ field o.x 0 10 = 0x48 ∧ 224 < (s.sreg o.a).toNat) (fun s t => SetsScalar s t o.d 3)) ∧
  (∀ o, Completes (.ctlWr o)
    (fun s => o.x.getLsbD 10 = false ∧ field o.x 0 10 = 0x42 ∧ s.quiet s.cur.core = false) (fun s t => SetsScalar s t o.d 3)) ∧
  -- each register without an instruction of its own: what it accepts it holds, and the others stay
  (∀ o : F2, let n : Nat := field o.x 0 10
    let k := fun (s : State) => if o.x.getLsbD 10 then field (s.sreg o.b) 0 6 else s.cur.slot
    let named := fun (s : State) => o.x.getLsbD 10 = true →
      k s ≠ 63 ∧ bits (s.sreg o.b) 32 32 = (s.slot s.cur.core (k s)).gen
    let takes := fun (s t : State) => CoresOnly s t ∧ (∀ c, c ≠ s.cur.core → t.core c = s.core c) ∧ ScalarIs s t o.d 0 ∧
      VectorsKept s t ∧ MasksKept s t ∧
      t.ctlGet s.cur.core (k s) n = stored n (s.sreg o.a) ∧
      ∀ j m, m ≠ 0 → m ≠ n ∨ (j ≠ k s ∧ n < 0x40) → t.ctlGet s.cur.core j m = s.ctlGet s.cur.core j m
    Completes (.ctlWr o) (fun s => named s ∧ n ∈ [1, 2, 3, 4, 5, 6, 7, 0xA, 0xB]) takes ∧
    Completes (.ctlWr o) (fun s => named s ∧ 0xC ≤ n ∧ n ≤ 0xF ∧ windowFits (s.sreg o.a).toNat) takes ∧
    Completes (.ctlWr o) (fun s => named s ∧ 0xC ≤ n ∧ n ≤ 0xF ∧ ¬windowFits (s.sreg o.a).toNat) (fun s t => SetsScalar s t o.d 3) ∧
    Completes (.ctlWr o) (fun s => named s ∧ n ∈ [8, 9, 0x10]) (fun s t => SetsScalar s t o.d 0) ∧
    Completes (.ctlWr o) (fun s => named s ∧ 0x40 ≤ n ∧ (n ∈ quietOnly → s.quiet s.cur.core = true) ∧ coreAccepts n (s.sreg o.a).toNat)
      takes ∧
    Completes (.ctlWr o) (fun s => named s ∧ 0x40 ≤ n ∧ ((n ∈ quietOnly ∧ s.quiet s.cur.core = false) ∨ ¬coreAccepts n (s.sreg o.a).toNat))
      (fun s t => SetsScalar s t o.d 3)) ∧
  (∀ o, Completes (.ctlWrStatus o)
    (fun s => o.x.getLsbD 10 = false ∧ s.cur.slot ≠ 63) (fun s t =>
      SlotOnly s t s.cur.core s.cur.slot ∧ t.curSlot.uie = (s.sreg o.a).getLsbD 11 ∧ ScalarIs s t o.d 0)) ∧
  (∀ o, Completes (.ctlWrTrbase o)
    (fun s => o.x.getLsbD 10 = false ∧ (s.sreg o.a).getLsbD 63 = false) (fun s t =>
      CoresOnly s t ∧ t.curCore.trbase = s.sreg o.a &&& ~~~0xFE#64 ∧ ScalarIs s t o.d 0)) ∧
  (∀ o, Completes (.ctlWrExpert o) (fun _ => o.x.getLsbD 10 = false) (fun s t =>
      (t.partn s.curPart).expert = s.sreg o.a &&& 1 ∧ t.mem = s.mem ∧ ScalarIs s t o.d 0)) ∧
  (∀ o, Completes (.ctlWrClkfix o) (fun s => o.x.getLsbD 10 = false ∧ field (s.sreg o.a) 8 5 ≤ 16) (fun s t =>
      (t.partn s.curPart).clkfix = s.sreg o.a &&& 0x1F01 ∧ t.mem = s.mem ∧ ScalarIs s t o.d 0)) ∧
  ∀ o, Completes (.ctlWr o)
    (fun s => o.x.getLsbD 10 = true ∧ field (s.sreg o.b) 0 6 ≠ 63 ∧
      bits (s.sreg o.b) 32 32 ≠ (s.slot s.cur.core (field (s.sreg o.b) 0 6)).gen) (fun s t => SetsScalar s t o.d 8))

/-- R191: a `slot` operation whose target is free or has another generation answers STALE, one that names slot 63
REFUSED, one that needs a trapped slot and finds another state BUSY; then nothing changes but s[d]. R191: on a trapped
slot of another number and the named generation, `slot.rds` and `slot.rdv` copy a register of the target into the
S-slot, `slot.wrs` and `slot.wrv` one of the S-slot into the target, `slot.rdm` and `slot.wrm` a mask; s[d] receives
OK; where `slot.rds` names s[d] as its data register too, the status stands, which is the model's choice [log 61,
DESIGN CHOICE]. R183, R184, R191: `slot.resume` restarts a trapped slot whose `EPC` stands where its path stopped there;
`slot.skip` restarts it at the successor by R31, and is refused after a trap at fetch; `slot.kill` frees the slot, and
its generation advances; `slot.tdown` has the admitter tear the target's grid down with the given cause. -/
def Obligations.SlotInstructions : Prop :=
  (∀ (o : F2) (i : Instr),
    i = .slotResume o ∨ i = .slotSkip o ∨ i = .slotRds o ∨ i = .slotWrs o ∨ i = .slotRdv o ∨ i = .slotWrv o ∨ i = .slotRdm o ∨
      i = .slotWrm o →
    Completes i (fun s => (s.slot s.cur.core (field (s.sreg o.b) 0 6)).state = .free ∨
      (s.slot s.cur.core (field (s.sreg o.b) 0 6)).gen ≠ bits (s.sreg o.b) 32 32) (fun s t => SetsScalar s t o.d 8) ∧
    Completes i (fun s => (s.slot s.cur.core (field (s.sreg o.b) 0 6)).state ≠ .free ∧
      (s.slot s.cur.core (field (s.sreg o.b) 0 6)).gen = bits (s.sreg o.b) 32 32 ∧ field (s.sreg o.b) 0 6 = 63)
      (fun s t => SetsScalar s t o.d 3) ∧
    Completes i (fun s => (s.slot s.cur.core (field (s.sreg o.b) 0 6)).state ≠ .free ∧
      (s.slot s.cur.core (field (s.sreg o.b) 0 6)).gen = bits (s.sreg o.b) 32 32 ∧ field (s.sreg o.b) 0 6 ≠ 63 ∧
      (s.slot s.cur.core (field (s.sreg o.b) 0 6)).state ≠ .trapped) (fun s t => SetsScalar s t o.d 1)) ∧
  (∀ (o : F2) (k : Nat),
    let named := fun (s : State) => field (s.sreg o.b) 0 6 = k ∧ k ≠ 63 ∧ (s.slot s.cur.core k).state = .trapped ∧
      (s.slot s.cur.core k).gen = bits (s.sreg o.b) 32 32
    Completes (.slotRds o) named (fun s t => CurOnly s t ∧
      ∀ n, t.sreg n = if n = o.d ∧ o.d ≠ 0 then 0
        else if n = o.c ∧ o.c ≠ 0 then (s.slot s.cur.core k).sreg (field o.x 4 5) else s.sreg n) ∧
    Completes (.slotWrs o) named (fun s t => CoresOnly s t ∧ ScalarIs s t o.d 0 ∧
      (∀ n, (t.slot s.cur.core k).sreg n =
        if n = field o.x 4 5 ∧ n ≠ 0 then s.sreg o.a else (s.slot s.cur.core k).sreg n) ∧
      (t.slot s.cur.core k).vregs = (s.slot s.cur.core k).vregs) ∧
    Completes (.slotRdv o) (fun s => named s ∧ field (s.sreg o.a) 0 8 < (s.slot s.cur.core k).valloc) (fun s t =>
      CurOnly s t ∧ ScalarIs s t o.d 0 ∧
      ∀ n, t.vreg n = if n = o.c.toNat then (s.slot s.cur.core k).vreg (field (s.sreg o.a) 0 8) else s.vreg n) ∧
    Completes (.slotWrv o) (fun s => named s ∧ field (s.sreg o.a) 0 8 < (s.slot s.cur.core k).valloc) (fun s t =>
      CoresOnly s t ∧ ScalarIs s t o.d 0 ∧
      ∀ n, (t.slot s.cur.core k).vreg n =
        if n = field (s.sreg o.a) 0 8 then s.vreg o.c.toNat else (s.slot s.cur.core k).vreg n) ∧
    Completes (.slotRdm o) (fun s => named s ∧ o.c ≠ 0 ∧ (s.slot s.cur.core k).task = none ∧
        (s.slot s.cur.core k).dual = false) (fun s t =>
      CurOnly s t ∧ ScalarIs s t o.d 0 ∧
      t.mreg o.c.toNat = (s.slot s.cur.core k).mreg false (field o.x 4 5)) ∧
    Completes (.slotWrm o) (fun s => named s ∧ field o.x 4 5 ≠ 0 ∧ (s.slot s.cur.core k).task = none) (fun s t =>
      CoresOnly s t ∧ ScalarIs s t o.d 0 ∧ (t.slot s.cur.core k).mreg false (field o.x 4 5) = s.mreg o.c.toNat)) ∧
  (∀ (o : F2) (k : Nat),
    let named := fun (s : State) => field (s.sreg o.b) 0 6 = k ∧ k ≠ 63 ∧
      (s.slot s.cur.core k).gen = bits (s.sreg o.b) 32 32
    Completes (.slotResume o) (fun s => named s ∧ (s.slot s.cur.core k).state = .trapped ∧
        (s.slot s.cur.core k).dual = false ∧ (s.slot s.cur.core k).epc = (s.slot s.cur.core k).p.pc) (fun s t =>
      ScalarIs s t o.d 0 ∧ t.mem = s.mem ∧
      (t.slot s.cur.core k).state = (if s.stopsGrid s.cur.core k then .stopping else .active) ∧
      (t.slot s.cur.core k).p = (s.slot s.cur.core k).p ∧ (t.slot s.cur.core k).sregs = (s.slot s.cur.core k).sregs ∧
      (t.slot s.cur.core k).vregs = (s.slot s.cur.core k).vregs ∧ (t.slot s.cur.core k).sub = (s.slot s.cur.core k).sub ∧
      ∀ e ∈ t.curCore.events, e.2 ≠ k) ∧
    (∀ pc, Completes (.slotSkip o) (fun s => named s ∧ (s.slot s.cur.core k).state = .trapped ∧
        (s.slot s.cur.core k).dual = false ∧ (s.slot s.cur.core k).sub = none ∧ (s.slot s.cur.core k).fetchTrap = false ∧
        s.skipTarget (s.slot s.cur.core k) = .ok (some pc)) (fun s t =>
      ScalarIs s t o.d 0 ∧ t.mem = s.mem ∧
      (t.slot s.cur.core k).state = (if s.stopsGrid s.cur.core k then .stopping else .active) ∧ (t.slot s.cur.core k).p.pc = pc ∧
      (t.slot s.cur.core k).p.wait = .none ∧ (t.slot s.cur.core k).sregs = (s.slot s.cur.core k).sregs)) ∧
    Completes (.slotSkip o) (fun s => named s ∧ (s.slot s.cur.core k).state = .trapped ∧
        (s.slot s.cur.core k).fetchTrap = true) (fun s t => SetsScalar s t o.d 3) ∧
    Completes (.slotKill o) (fun s => named s ∧ (s.slot s.cur.core k).state ≠ .free ∧
        (s.slot s.cur.core k).sub = none ∧ s.publishes s.cur.core k = false) (fun s t =>
      ScalarIs s t o.d 0 ∧ (t.slot s.cur.core k).state = .free ∧
      (t.slot s.cur.core k).gen = (s.slot s.cur.core k).gen + 1) ∧
    ∀ m, Completes (.slotTdown o) (fun s => named s ∧ (s.slot s.cur.core k).state ≠ .free ∧
        (s.slot s.cur.core k).task = none ∧ (s.slot s.cur.core k).member = some m) (fun s t =>
      ScalarIs s t o.d 0 ∧ t.mem = s.mem ∧
      (s.clk, .gridCompletion, { a := m.grid, flag := true, cause := bits (s.sreg o.a) 0 8 }) ∈ t.agenda))

/-! Encoding (02_encoding.md). -/

/-- R28 to R34, Table 2-5, Table 2-9: every well-formed instruction, written into a code line as the encoder writes
it, is a legal line, and its head and tail decode to the instruction with every operand. -/
def Obligations.EncodeThenDecode : Prop :=
  ∀ (i : Instr) (h : Half) (t : Tail), wellFormed i = true → encode i = some (h, t) →
    lineReason (lineOf h t) 1 = 0 ∧ decode (lineHw (lineOf h t) 1) (lineTail (lineOf h t) 1) = .ok i

/-- R33 to R36: the other way: what the decoder accepts is the encoding of what it answers, so that no bit of a head
or of its tail is ignored and no two words name one instruction. R43, R33, Table 2-9: a reserved major, major 0x3F, a
minor that Table 2-9 does not list for its allocated major, and a listed head whose TL is not its form's are refused,
whatever the tail. -/
def Obligations.DecodeThenEncode : Prop :=
  (∀ (h : Half) (t : Tail) (i : Instr), t.toNat < 65536 ^ field h 8 2 → decode h t = .ok i → encode i = some (h, t)) ∧
  ((∀ (h : Half) (t : Tail),
    (0x0B ≤ field h 10 6 ∧ field h 10 6 ≤ 0x0F) ∨ (0x15 ≤ field h 10 6 ∧ field h 10 6 ≤ 0x17) ∨
    field h 10 6 = 0x1E ∨ field h 10 6 = 0x1F ∨ field h 10 6 = 0x27 ∨ (0x29 ≤ field h 10 6 ∧ field h 10 6 ≤ 0x3E) →
      decode h t = .error .reservedMajor) ∧
  (∀ (h : Half) (t : Tail), field h 10 6 = 0x3F → decode h t = .error .majorIllegal) ∧
  (∀ (h : Half) (t : Tail), (∃ r ∈ opcodeMap, r.1 = field h 10 6) → listedLen (field h 10 6) (field h 0 8) = none →
    decode h t = .error .reservedMinor) ∧
  ∀ (h : Half) (t : Tail) (n : Nat), listedLen (field h 10 6) (field h 0 8) = some n → field h 8 2 ≠ n →
    decode h t = .error .tailLength)

/-- Words written out from the encodings of the spec (R42, R47, R87, R96, R119, R187, R190, R191 and their examples). -/
def Obligations.WordsDecode : Prop :=
  decode 0x0000#16 0 = .ok .nop ∧
  decode 0x0F00#16 0x200000000100#48 = .ok (.li ⟨4, 0, 0, 0x100⟩) ∧
  decode 0x0F01#16 0x210080002000#48 = .ok (.lih ⟨4, 4, 0, 0x80002000⟩) ∧
  decode 0x1301#16 0x290100000040#48 = .ok (.addr ⟨5, 4, 1, 0x40⟩) ∧
  decode 0x1900#16 0xFFC3#48 = .ok (.br ⟨0x7FE, 3⟩) ∧
  decode 0x2921#16 0x0100#48 = .ok (.trap 0x21 ⟨0, 4, 0⟩) ∧
  decode 0xA200#16 0x18020404#48 = .ok (.ctlRd ⟨3, 0, 1, 0, 0x404⟩) ∧
  decode 0xA204#16 0x31020074#48 = .ok (.slotWrs ⟨6, 4, 1, 0, 0x74⟩) ∧
  decode 0xA204#16 0x30020002#48 = .ok (.slotSkip ⟨6, 0, 1, 0, 2⟩)

/-! The step. -/

/-- R31: fetch from a line of Vault memory of the package that the TLB maps and neither the path nor the instruction
cache holds reads the line's 64 bytes, refuses a line that is not well formed with ILLEGAL_LINE, and gives the head at
the PC with its decoding and its successor. -/
def Obligations.FetchReadsTheLine : Prop :=
  ∀ (s : State) (h : Home), s.curPath.held = none → s.lineHome s.cur.core s.pc = .ok h → s.across h = false →
    s.curCore.cached (h.pkg * 2 ^ 50 + h.loc) = none →
    (∀ j < 8, s.poisoned (h.loc + 8 * j) = false ∧ s.lentFault (h.loc + 8 * j) s.pkgId.toNat s.curPart = none) →
    let line := BitVec.ofNat 512 (s.readN h.loc 64)
    (pcReason line s.pc = 0 → ∃ u f, s.fetch = .ok (u, f) ∧ u.mem = s.mem ∧ f.head = lineHw line (field s.pc 1 5) ∧
      f.succ = lineNext line s.pc ∧
      f.instr = (decodeRaw (lineHw line (field s.pc 1 5)) (lineTail line (field s.pc 1 5))).toOption) ∧
    (pcReason line s.pc ≠ 0 → s.fetch = .error (.trap
      { code := 0x01, faddr := s.pc, finfo := BitVec.ofNat 64 (pcReason line s.pc), fetch := true }))

/-- R31, R44, R307: the step of a chosen path that fetches its own stream runs the instruction that fetch gives, in the
state `issuing`: the path stands at that instruction's PC, its successor is the one of R31, every PMC of the core that
selects ISSUE has counted one, the path's AGE is 0, its slot notes which path issued last, and its cluster has made
progress; but for a publisher, whose instruction is placed on its channel, nothing else has changed since the fetch. A
path Q never takes one from a channel and never publishes (R124, R265). A path that waits inside an instruction executes
it again once its wait is over; no issue is counted then. A step of the device that falls due is executed on its input
before anything else [log 7, DESIGN CHOICE; log 15, DESIGN CHOICE]. -/
def Obligations.StepRunsInstruction : Prop :=
  (∀ (s u : State) (f : Fetched) (i : Instr),
    s.chosen = true → (∀ e ∈ s.agenda.head?, s.clk < e.1) → { s with chosen := false }.boundary = .instr →
    (s.curSlot.sub = none ∨ s.cur.pathQ = true) → s.curPath.wait = .none → (s.cur.pathQ = true → s.publishing = false) →
    ({ s with chosen := false } : State).fetch = .ok (u, f) → f.instr = some i →
    step s = exec i (issuing u f.succ i)) ∧
  (∀ (u : State) (succ : Word) (i : Instr),
    let v := issuing u succ i
    (∀ n, Table.get 0 v.curCore.pmc n =
      if u.clk < Table.get 0 u.curCore.pmcFrom n then Table.get 0 u.curCore.pmc n
      else pmcBump 0x02 1 (Table.get 0 u.curCore.pmc n)) ∧
    v.clusters = u.clusters.map (fun e =>
      if u.curSlot.member.any fun m => m.cluster = e.1 then (e.1, { e.2 with wdog := 0, progress := u.clk }) else e) ∧
    (u.publishing = false →
      v.curPath = { u.curPath with succ := succ, chan := false, age := 0 } ∧ { v with cores := u.cores, clusters := u.clusters } = u ∧
      (∀ c, c ≠ u.cur.core → v.core c = u.core c) ∧ (∀ k, k ≠ u.cur.slot → v.slot u.cur.core k = u.slot u.cur.core k) ∧
      { v.curCore with slots := u.curCore.slots, pmc := u.curCore.pmc } = u.curCore ∧
      v.curSlot = { u.curSlot with lastQ := u.cur.pathQ, p := v.curSlot.p, q := v.curSlot.q } ∧
      v.curSlot.path (!u.cur.pathQ) = u.curSlot.path (!u.cur.pathQ))) ∧
  (∀ (s u : State) (e : Nat × Core) (x : Cur) (f : Fetched) (i : Instr),
    s.chosen = false → (∀ e ∈ s.agenda.head?, s.clk < e.1) → (s.cores.find? fun e => s.turn ≤ e.1) = some e →
    s.front e.1 = some x →
    let w := ({ s with cur := x } : State).modPath fun p => { p with tried := s.clk + 1 }
    w.curPath.wait.issued = true → w.boundary = .instr → (w.curSlot.sub = none ∨ x.pathQ = true) → w.fetch = .ok (u, f) →
    f.instr = some i → step s = exec i (u.modPath fun p => { p with succ := f.succ, chan := false })) ∧
  (∀ (s : State) (due : Nat) (i : Instr) (inp : Input) (rest : List (Nat × Instr × Input)),
    s.agenda = (due, i, inp) :: rest → due ≤ s.clk → step s = exec i { s with agenda := rest, input := inp })

/-- R371, R175, Table 7-1, Table 7-2: package reset leaves the boot at step 1 with nothing admitted; every core's
registers at their Reset values and its S-slot resident, with user interrupts disabled there only; the scalar
registers 0 (of slot 63 by R175, of the others [log 3, DESIGN CHOICE]); every larder byte 0 and full. -/
def Obligations.ResetState : Prop :=
  State.reset.bootStep = 1 ∧ State.reset.admitting = false ∧ State.reset.clk = 0 ∧
  (∀ c, (State.reset.core c).rrsize = 256 ∧ (State.reset.core c).rrhead = 0 ∧ (State.reset.core c).rrtail = 0 ∧
    (State.reset.core c).frtsize = 1024 ∧ (State.reset.core c).mblimit = 224 ∧ (State.reset.core c).hslots = 8 ∧
    (State.reset.core c).issuepol = 0 ∧ (State.reset.core c).trbase = 0 ∧ (State.reset.core c).mweight = 1 ∧
    (State.reset.core c).pglate = 0 ∧ (State.reset.core c).pmc = [] ∧ (State.reset.core c).idle = true) ∧
  (∀ c k, (State.reset.slot c k).cause = 0 ∧ (State.reset.slot c k).epc = 0 ∧ (State.reset.slot c k).faddr = 0 ∧
    (State.reset.slot c k).finfo = 0 ∧ (State.reset.slot c k).mrowstride = 0 ∧ (State.reset.slot c k).mrowcount = 0xFFFF ∧
    (State.reset.slot c k).taskfk = 0 ∧ (State.reset.slot c k).gen = 0 ∧
    (State.reset.slot c k).uie = !decide (k = 63) ∧ ((State.reset.slot c k).state = .active ↔ k = 63) ∧
    ∀ n, (State.reset.slot c k).sreg n = 0) ∧
  (∀ p, (State.reset.partn p).expert = 0 ∧ (State.reset.partn p).clkfix = 0) ∧
  ∀ loc, State.reset.byte loc = 0 ∧ State.reset.full loc = true ∧ State.reset.poisoned loc = false

/-- The memory of reset, the set of its empty words and that of its poisoned words are in canonical form (the model's
own form, log 15). -/
def Obligations.ResetMemoryForm : Prop :=
  State.reset.memoryOk = true

/-! Memory (08_larders.md, 09_ordering.md). -/

/-- R200, Table 8-2: where the address cannot be formed the access traps ADDR_RANGE with DETAIL 4; where the checks
stop it with a trap it takes that trap; a larder address that rows 1 passes and that is not aligned traps MISALIGNED.
Nothing is performed; the TLBs hold the leaves that the checks have read (R336). -/
def Obligations.AccessTraps : Prop :=
  ∀ (o : M3) (s : State) (i : Instr) (p : ScalarAcc) (n : Nat),
    (i = .ld o ∧ p = accLd o ∧ n = elemBytes o.ty) ∨ (i = .st o ∧ p = accSt o s ∧ n = elemBytes o.ty) ∨
    (i = .amo o ∧ p = accAmo o s ∧ n = elemBytes o.ty) ∨ (i = .famo o ∧ p = accAmo o s ∧ n = elemBytes o.ty) ∨
    (i = .cas o ∧ p = accCas o s ∧ n = elemBytes o.ty) ∨ (i = .fe o ∧ p = accFe o ∧ n = 8) →
    Runs i s →
    (s.convert (s.sreg o.base) (s.disp o true n) o.form = none →
      exec i s = .next (s.takeTrap { code := 0x06, faddr := s.sreg o.base, finfo := accInfo 4 p.wr false none })) ∧
    (∀ ea, s.convert (s.sreg o.base) (s.disp o true n) o.form = some ea →
      (∀ tr, s.accessFault s.who [p.use ea] = some (.trap tr) →
        exec i s = .next ((s.installAll s.cur.core [p.use ea]).takeTrap tr)) ∧
      (isLarderAddr ea = true → (p.use ea).row1 = none → ea.toNat % p.align ≠ 0 →
        exec i s = .next (s.takeTrap { code := 0x05, faddr := ea, finfo := accInfo 0 p.wr false none })))

/-- R206, R195, Table 8-2: `ld` and `st` whose address has its home on the package, which pass the checks and meet no
poison. A load writes the extended value; a store writes its w bits at the place of its address and no other byte, and
no F/E bit. R215 to R217: an atomic reads the old value, writes the operation's and gives the old one; `cas` writes
only where the old value is that of s[d]. -/
def Obligations.LoadsStoresAtomics : Prop :=
  (∀ (o : M3) (h : Home),
    Completes (.ld o) (fun s => Reaches s o (accLd o) false (elemBytes o.ty) h) (fun s t =>
      Accesses s t ∧ MemoryKept s t ∧ VectorsKept s t ∧ MasksKept s t ∧
      ScalarIs s t (M3.sreg o) (extend64 o.ty (s.readN h.loc (elemBytes o.ty)))) ∧
    Completes (.st o) (fun s => Reaches s o (accSt o s) false (elemBytes o.ty) h) (fun s t =>
      Accesses s t ∧ Stores s t h.loc (elemBytes o.ty) (s.sreg (M3.sreg o)).toNat ∧ ScalarsKept s t ∧ VectorsKept s t ∧
      MasksKept s t)) ∧
  (∀ (o : M3) (h : Home),
    let n := elemBytes o.ty
    let old := fun (s : State) => s.readN h.loc n
    (∀ i, i = .amo o ∨ i = .famo o → Completes i (fun s => Reaches s o (accAmo o s) false n h) (fun s t =>
      Accesses s t ∧ Stores s t h.loc n (amoNew o.mode o.ty (old s) (s.sreg (M3.sreg o)).toNat) ∧
      VectorsKept s t ∧ MasksKept s t ∧ ScalarIs s t (M3.sreg o) (extend64 o.ty (old s)))) ∧
    Completes (.cas o) (fun s => Reaches s o (accCas o s) false n h) (fun s t =>
      Accesses s t ∧
      Stores s t h.loc n
        (if old s = (s.sreg (M3.sreg o)).toNat % 256 ^ n then (s.sreg (M3.sreg o + 1)).toNat else old s) ∧
      VectorsKept s t ∧ MasksKept s t ∧ ScalarIs s t (M3.sreg o) (extend64 o.ty (old s))))

/-- R207, R208, Table 8-5: `ldf` of a full word gives the word and, as `ldf.fe`, leaves it empty; `stf` writes the
word and leaves it full; `fe` gives the old F/E bit and sets or clears it. Where no access is shelved for the word,
that is all. R208: a sync access that its word's F/E bit does not satisfy: in a grid group it is put on the shelf of
the word's home and the path waits; in a task it answers NOTREADY in its status register; with no status register a
task traps ILLEGAL_INSTR. That the status stands in an `ldf` whose status register is its destination too is the
model's choice [log 61, DESIGN CHOICE]. R347, R273: `dec` of a full, non-zero counter lowers it by its amount; where
it reaches zero the word becomes empty and the descriptor's offset is pushed on the ready ring of its core. A
decrement of an empty word, of a zero counter or by zero does nothing. The push is at once where no larder bank is in
retention [log 22, DEDUCED]. -/
def Obligations.SyncInstructions : Prop :=
  (∀ (o : M3) (h : Home),
    let alone := fun (s : State) => ∀ a ∈ s.shelfOf h.loc, a.loc ≠ h.loc
    let others := fun (s t : State) => t.poison = s.poison ∧ VectorsKept s t ∧ MasksKept s t ∧
      ∀ a, a / 8 ≠ h.loc / 8 → t.full a = s.full a
    Completes (.ldf o)
      (fun s => Reaches s o (accLdf o) true 8 h ∧ alone s ∧ s.full h.loc = true ∧ (s.isGroup = true ∨ o.idx ≠ 0))
      (fun s t => Accesses s t ∧ others s t ∧ t.mem = s.mem ∧ t.full h.loc = decide (o.mode ≠ 1) ∧
        ∀ n, t.sreg n = if n = o.idx ∧ o.idx ≠ 0 then 0
          else if n = M3.sreg o ∧ M3.sreg o ≠ 0 then s.read64 h.loc else s.sreg n) ∧
    Completes (.stf o)
      (fun s => Reaches s o (accStf o s) true 8 h ∧ alone s ∧ (o.mode = 1 ∨ s.full h.loc = false) ∧
        (o.mode = 1 ∨ s.isGroup = true ∨ o.idx ≠ 0))
      (fun s t => Accesses s t ∧ others s t ∧ t.read64 h.loc = s.sreg (M3.sreg o) ∧
        (∀ a, a < h.loc ∨ h.loc + 8 ≤ a → t.byte a = s.byte a) ∧ t.full h.loc = true ∧ ScalarIs s t o.idx 0) ∧
    Completes (.fe o)
      (fun s => Reaches s o (accFe o) false 8 h ∧ alone s)
      (fun s t => Accesses s t ∧ others s t ∧ t.mem = s.mem ∧ t.full h.loc = decide (o.mode = 0) ∧
        ScalarIs s t (M3.sreg o) (if s.full h.loc then 1 else 0))) ∧
  (∀ (o : M3) (h : Home),
    Completes (.ldf o)
      (fun s => Reaches s o (accLdf o) true 8 h ∧ s.full h.loc = false ∧ s.isGroup = true ∧
        (s.shelfOf h.loc).length < shelfSize h.loc)
      (fun s t => MemoryKept s t ∧ ScalarsKept s t ∧ t.curPath.wait = .shelved ∧ t.pc = s.pc ∧
        ∃ a, t.shelfOf h.loc = s.shelfOf h.loc ++ [a] ∧ a.loc = h.loc ∧ a.op = .ldf (decide (o.mode = 1))) ∧
    Completes (.ldf o)
      (fun s => Reaches s o (accLdf o) true 8 h ∧ s.full h.loc = false ∧ s.isGroup = false ∧ o.idx ≠ 0)
      (fun s t => Accesses s t ∧ MemoryKept s t ∧ ScalarIs s t o.idx 2) ∧
    Completes (.stf o)
      (fun s => Reaches s o (accStf o s) true 8 h ∧ o.mode = 0 ∧ s.full h.loc = true ∧ s.isGroup = true ∧
        (s.shelfOf h.loc).length < shelfSize h.loc)
      (fun s t => MemoryKept s t ∧ ScalarsKept s t ∧ t.curPath.wait = .shelved ∧ t.pc = s.pc ∧
        ∃ a, t.shelfOf h.loc = s.shelfOf h.loc ++ [a] ∧ a.loc = h.loc ∧ a.op = .stf false ∧ a.data = s.sreg (M3.sreg o)) ∧
    Completes (.stf o)
      (fun s => Reaches s o (accStf o s) true 8 h ∧ o.mode = 0 ∧ s.full h.loc = true ∧ s.isGroup = false ∧ o.idx ≠ 0)
      (fun s t => Accesses s t ∧ MemoryKept s t ∧ ScalarIs s t o.idx 2) ∧
    ∀ (i : Instr) (s : State), i = .ldf o ∨ (i = .stf o ∧ o.mode = 0) → Runs i s → s.isGroup = false → o.idx = 0 →
      exec i s = .next (s.takeTrap { code := 0x02, faddr := s.pc, finfo := headWord i })) ∧
  (∀ (o : M3) (h : Home) (ea : Word),
    let amount := fun (s : State) => if M3.sreg o = 0 then 1 else field (s.sreg (M3.sreg o)) 0 32
    let at' := fun (s : State) => ReachesAt s (accDec o s) ea h ∧ isLarderAddr ea = true ∧
      s.effAddr o false false 8 true = .ok ea
    Completes (.dec o)
      (fun s => at' s ∧ s.full h.loc = true ∧ 0 < amount s ∧ amount s < s.readN h.loc 8)
      (fun s t => Accesses s t ∧ Stores s t h.loc 8 (s.readN h.loc 8 - amount s) ∧ ScalarsKept s t) ∧
    Completes (.dec o)
      (fun s => at' s ∧ (s.full h.loc = false ∨ s.readN h.loc 8 = 0 ∨ amount s = 0))
      (fun s t => Accesses s t ∧ MemoryKept s t ∧ ScalarsKept s t) ∧
    Completes (.dec o)
      (fun s =>
        let c := larderCore h.loc
        let head := s.ringLoc c (s.core c).ringSize
        let tail := s.ringLoc c ((s.core c).ringSize + 1)
        at' s ∧ s.full h.loc = true ∧ 0 < s.readN h.loc 8 ∧ s.readN h.loc 8 ≤ amount s ∧
        (∀ a ∈ s.shelfOf h.loc, a.loc ≠ h.loc) ∧ s.poisoned head = false ∧ s.poisoned tail = false ∧
        BanksAwake s ∧ (h.loc + 8 ≤ head ∨ head + 8 ≤ h.loc) ∧ s.chainHead c = noLink ∧ (s.core c).ringCount < (s.core c).ringSize)
      (fun s t =>
        let c := larderCore h.loc
        (t.core c).rrtail = word (((s.core c).rrtail.toNat + 1) % 65536) ∧
        t.read64 (s.ringLoc c ((s.core c).rrtail.toNat % (s.core c).ringSize)) = word (larderOff h.loc) ∧
        (∃ due inp, (due, .taskDispatch, inp) ∈ t.agenda ∧ inp.a = c ∧ due = s.clk) ∧ ScalarsKept s t))

/-- R101: `yield` changes no register and no memory; the issuing path has given up its turn in the next clk. R233,
R228, R211: a `fence` whose scope holds something waits for the group's earlier accesses (the reads, for `acq`) and
then goes on; one of a scope that holds nothing goes on at once. `pref` always goes on, and changes no register and no
memory. -/
def Obligations.HintsAndOrder : Prop :=
  (Completes .yield (fun _ => True) (fun s t =>
    CoresOnly s t ∧ t.curCore.yielded = some (s.cur.slot, s.cur.pathQ, s.clk) ∧
    ScalarsKept s t ∧ VectorsKept s t ∧ MasksKept s t ∧ GoesOn s t s.curPath.succ)) ∧
  ((∀ kind scope o, Completes (.fence kind scope o)
    (fun s => strong scope = false ∨ s.waitOver s.cur.core s.cur.slot (.performed (decide (kind = 1#4))) = true)
    (fun s t => OnlyGoesOn s t s.curPath.succ)) ∧
  (∀ kind scope o, Completes (.fence kind scope o)
    (fun s => strong scope = true ∧ s.waitOver s.cur.core s.cur.slot (.performed (decide (kind = 1#4))) = false)
    (fun s t => CurOnly s t ∧ ScalarsKept s t ∧ t.pc = s.pc ∧ t.curPath.wait = .performed (decide (kind = 1#4)))) ∧
  ∀ o, Completes (.pref o) (fun _ => True) (fun s t =>
    MemoryKept s t ∧ ScalarsKept s t ∧ VectorsKept s t ∧ MasksKept s t ∧ GoesOn s t s.curPath.succ))

/-- R212, R213, R116: a vector load and a gather whose lanes have their homes on the package write the extended
element of every active lane; the other lanes and registers, and memory, stay. R212, R213: a vector store and a
scatter write the element of every active lane at the place of the lane's address, the highest lane last where lanes
overlap, and no other byte; a 4-bit element is stored in one nibble of its byte, the low one for an even lane and the
high one for an odd lane, and a nibble that no lane stores stays. R218: `vamo` performs the operation of every
lane of m0 at its address and gives the lane the old value; where no two of its lanes meet, each sees memory as it
was. -/
def Obligations.VectorMemory : Prop :=
  (∀ (o : M3) (h : Nat → Home),
    let after := fun (m : State → Mask) (s t : State) => MemoryKept s t ∧ ScalarsKept s t ∧ MasksKept s t ∧
      GoesOn s t s.curPath.succ ∧
      LanesAre s t o.ty o.data.toNat (m s) fun l => laneValue o.ty l (word (s.readN (h l).loc (elemBytes o.ty)))
    Completes (.vld o)
      (fun s => LanesReach s o ⟨true, false, false, false⟩ (s.active o.mode) (contiguous o.ty) h)
      (after fun s => s.active o.mode) ∧
    Completes (.vgat o)
      (fun s => LanesReach s o ⟨true, false, false, true⟩ (s.active o.mode) (s.gathered o) h)
      (after fun s => s.active o.mode)) ∧
  (∀ (o : M3) (h : Nat → Home),
    let n := elemBytes o.ty
    let after := fun (s t : State) => ScalarsKept s t ∧ VectorsKept s t ∧ MasksKept s t ∧ GoesOn s t s.curPath.succ ∧
      t.empties = s.empties ∧ t.poison = s.poison ∧
      (∀ a, (∀ l < 128, (s.active o.mode).getLsbD l = true → a < (h l).loc ∨ (h l).loc + n ≤ a) → t.byte a = s.byte a) ∧
      (tyWidth o.ty ≠ 4 → ∀ l < 128, (s.active o.mode).getLsbD l = true →
        (∀ k < 128, l < k → (s.active o.mode).getLsbD k = true → (h k).loc + n ≤ (h l).loc ∨ (h l).loc + n ≤ (h k).loc) →
        t.readN (h l).loc n = s.curSlot.elem o.ty o.data.toNat l % 256 ^ n) ∧
      (tyWidth o.ty = 4 → ∀ l < 128, (s.active o.mode).getLsbD l = true →
        let nibble := fun (u : State) (j : Nat) => u.readN (h l).loc 1 / 16 ^ (j % 2) % 16
        ((∀ k < 128, l < k → (s.active o.mode).getLsbD k = true → (h k).loc ≠ (h l).loc ∨ k % 2 ≠ l % 2) →
          nibble t l = s.curSlot.elem o.ty o.data.toNat l % 16) ∧
        ((∀ k < 128, (s.active o.mode).getLsbD k = true → (h k).loc ≠ (h l).loc ∨ k % 2 = l % 2) →
          nibble t (l + 1) = nibble s (l + 1)))
    Completes (.vst o)
      (fun s => LanesReach s o ⟨false, true, M3.releases o, false⟩ (s.active o.mode) (contiguous o.ty) h) after ∧
    Completes (.vsct o)
      (fun s => LanesReach s o ⟨false, true, M3.releases o, true⟩ (s.active o.mode) (s.gathered o) h) after) ∧
  (∀ (o : M3) (h : Nat → Home),
    let n := elemBytes o.ty
    Completes (.vamo o)
      (fun s => LanesReach s o ⟨true, true, M3.releases o, true⟩ (s.mreg 0) (s.gathered o) h ∧
        ∀ l < 128, ∀ k < 128, l ≠ k → (s.mreg 0).getLsbD l = true → (s.mreg 0).getLsbD k = true →
          (h k).loc + n ≤ (h l).loc ∨ (h l).loc + n ≤ (h k).loc)
      (fun s t => ScalarsKept s t ∧ MasksKept s t ∧ GoesOn s t s.curPath.succ ∧ t.empties = s.empties ∧ t.poison = s.poison ∧
        LanesAre s t o.ty o.data.toNat (s.mreg 0) (fun l => laneValue o.ty l (word (s.readN (h l).loc n))) ∧
        (∀ a, (∀ l < 128, (s.mreg 0).getLsbD l = true → a < (h l).loc ∨ (h l).loc + n ≤ a) → t.byte a = s.byte a) ∧
        ∀ l < 128, (s.mreg 0).getLsbD l = true →
          t.readN (h l).loc n =
            amoNew o.mode o.ty (s.readN (h l).loc n) (s.curSlot.elem o.ty o.data.toNat l) % 256 ^ n))

/-! Vectors and masks (05_vector_registers.md). -/

/-- R128, R126, R55, R62 to R65 (Table 5-5): the arithmetic instructions write their result to every active lane: for
integer types computed on the integers and wrapped, or clamped under SAT, once; for floating-point types computed
exactly and rounded once. R129: `vdot` adds to its accumulator the products of the packed elements of a lane: for
integer types exactly, wrapped or clamped once to 32 bits. -/
def Obligations.VectorArithmetic : Prop :=
  (∀ o : V3,
    (tyInt o.ty = true →
      let fit := fun (i : Instr) (f : State → Nat → Int) =>
        LaneWrites i o.ty o.vd.toNat (fun s => s.active o.mask) fun s l => fitInt o.ty (o.x.getLsbD 0) (f s l)
      let a := fun (s : State) l => elemInt o.ty (s.srcA o o.ty l)
      let b := fun (s : State) l => elemInt o.ty (s.srcB o o.ty l)
      fit (.vadd o) (fun s l => a s l + b s l) ∧ fit (.vsub o) (fun s l => a s l - b s l) ∧
      fit (.vmul o) (fun s l => a s l * b s l) ∧ fit (.vmulh o) (fun s l => a s l * b s l / 2 ^ tyWidth o.ty) ∧
      fit (.vfma o) (fun s l => a s l * elemInt o.ty (s.srcB3 o o.ty l) + elemInt o.ty (s.srcC o o.ty l)) ∧
      fit (.vmin o) (fun s l => min (a s l) (b s l)) ∧ fit (.vmax o) (fun s l => max (a s l) (b s l)) ∧
      fit (.vabs o) (fun s l => (a s l).natAbs) ∧ fit (.vneg o) (fun s l => -a s l) ∧
      fit (.vdiv o) (fun s l =>
        if b s l = 0 then -1
        else if tySigned o.ty ∧ a s l = tyMin o.ty ∧ b s l = -1 then a s l
        else (a s l).tdiv (b s l))) ∧
    (tyInt o.ty = false →
      let f := fmtOf o.ty
      let r := rndOf o.rnd
      let enc := fun (i : Instr) (g : State → Nat → Fp) =>
        LaneWrites i o.ty o.vd.toNat (fun s => s.active o.mask) fun s l => f.encode r (g s l)
      let a := fun (s : State) l => f.decode (s.srcA o o.ty l)
      let b := fun (s : State) l => f.decode (s.srcB o o.ty l)
      enc (.vadd o) (fun s l => Fp.add r (a s l) (b s l)) ∧ enc (.vsub o) (fun s l => Fp.add r (a s l) (b s l).neg) ∧
      enc (.vmul o) (fun s l => (a s l).mul (b s l)) ∧
      enc (.vfma o) (fun s l => Fp.add r ((a s l).mul (f.decode (s.srcB3 o o.ty l))) (f.decode (s.srcC o o.ty l))) ∧
      enc (.vmin o) (fun s l => (a s l).minimum (b s l)) ∧ enc (.vmax o) (fun s l => (a s l).maximum (b s l)) ∧
      enc (.vabs o) (fun s l => (a s l).abs) ∧ enc (.vneg o) (fun s l => (a s l).neg) ∧
      enc (.vdiv o) (fun s l => (a s l).div (b s l)) ∧ enc (.vsqrt o) (fun s l => (a s l).sqrt) ∧
      enc (.vrcp o) (fun s l => (a s l).rcp) ∧ enc (.vrsq o) (fun s l => (a s l).rsq) ∧
      enc (.vexp2 o) (fun s l => (a s l).exp2) ∧ enc (.vlog2 o) (fun s l => (a s l).log2))) ∧
  (∀ o : V3, tyInt o.ty = true →
    let w := tyWidth o.ty
    let t : BitVec 4 := if tySigned o.ty then 2 else 6
    LaneWrites (.vdot o) t o.vd.toNat (fun s => s.active o.mask) fun s l =>
      fitInt t (o.x.getLsbD 0) (elemInt t (s.srcC o t l) +
        ((List.range (32 / w)).map fun k =>
          elemInt o.ty (packedElem (s.vreg o.va.toNat) w (32 / w * l + k)) *
          elemInt o.ty (packedElem (s.vreg o.vb.toNat) w (32 / w * l + k))).sum))

/-- R130, R132 (Table 5-6): logic and shifts act on the w bits of the elements, a shift by w or more leaving zeros or
copies of the sign bit; `vsel` chooses by its mask for every lane of m0. R131: `vcmp` sets the bits of the active
lanes of its destination mask to the outcomes; the other bits stay. -/
def Obligations.VectorLogic : Prop :=
  (∀ o : V3,
    let w := tyWidth o.ty
    let bitw := fun (i : Instr) (f : Nat → Nat → Nat) =>
      LaneWrites i o.ty o.vd.toNat (fun s => s.active o.mask) fun s l => f (s.srcA o o.ty l) (s.srcB o o.ty l) % 2 ^ w
    bitw (.vand o) (· &&& ·) ∧ bitw (.vor o) (· ||| ·) ∧ bitw (.vxor o) (· ^^^ ·) ∧
    bitw (.vshl o) (fun a b => a * 2 ^ (b % 64)) ∧ bitw (.vshr o) (fun a b => a / 2 ^ (b % 64)) ∧
    bitw (.vsar o) (fun a b => wrapTo w (toSigned w a / 2 ^ (b % 64))) ∧
    LaneWrites (.vnot o) o.ty o.vd.toNat (fun s => s.active o.mask) (fun s l => 2 ^ w - 1 - s.srcA o o.ty l) ∧
    LaneWrites (.vsel o) o.ty o.vd.toNat (fun s => s.mreg 0) (fun s l =>
      if (s.mreg o.mask.toNat).getLsbD l then s.srcA o o.ty l else s.srcB o o.ty l)) ∧
  (∀ o : V3, Completes (.vcmp o) (fun _ => True) (fun s t =>
    ∃ v, SetsMask s t o.vd.toNat v ∧
      ∀ l < 128, v.getLsbD l =
        if (s.active o.mask).getLsbD l then
          cmpHolds (field o.x 0 3)
            (if tyInt o.ty then intCmp (elemInt o.ty (s.srcA o o.ty l)) (elemInt o.ty (s.srcB o o.ty l))
             else Fp.cmp ((fmtOf o.ty).decode (s.srcA o o.ty l)) ((fmtOf o.ty).decode (s.srcB o o.ty l)))
        else (s.mreg o.vd.toNat).getLsbD l))

/-- R133 to R139: conversions, packing and the movement of lanes. All sources are read before any lane is written.
R138: `vcomp` packs the active lanes into the lowest lanes, inside m0 or not; `vexpd` spreads the lowest lanes over
the active ones. R134: `vpack` gathers the elements of the registers from va on, and `vunpk` spreads a packed register
over those from vd on, whole registers under no mask. -/
def Obligations.LaneMovement : Prop :=
  (∀ o : V3,
    let act := fun (s : State) => s.active o.mask
    let sc := fun (s : State) => s.sreg (bits o.vc 0 5)
    let lw := fun (i : Instr) (f : State → Nat → Nat) => LaneWrites i o.ty o.vd.toNat act f
    (o.x.getLsbD 4 = false → lw (.vcvt o) (fun s l =>
      cvtElem s.lut o.ty (bits o.x 0 4) (rndOf o.rnd) (s.srcA o (bits o.x 0 4) l))) ∧
    (o.x.getLsbD 4 = true → lw (.vcvt o) (fun s l =>
      (fmtOf o.ty).stochastic (laneRnd (sc s) l) (cvtValue s.lut (bits o.x 0 4) (s.srcA o (bits o.x 0 4) l)))) ∧
    LaneWrites (.vlut o) 2 o.vd.toNat act (fun s l => wrapTo 32 (s.lut (s.srcA o 15 l)).toInt) ∧
    lw (.vbcast o) (fun s _ => if o.x = 0 then s.scalarSrc o o.ty else s.srcA o o.ty (field (sc s) 0 7)) ∧
    lw (.vlane o) (fun s l => ((sc s).toNat + l) % 2 ^ tyWidth o.ty) ∧
    lw (.vperm o) (fun s l => s.srcA o o.ty
      (if scalarVc o.vc then s.scalarSrc o o.ty % 128 else field (lane (s.vreg o.vb.toNat) l) 0 7)) ∧
    (field o.x 0 3 = 0 → lw (.vshuf o) (fun s l => s.srcA o o.ty ((l + field (sc s) 0 7) % 128))) ∧
    (field o.x 0 3 = 1 → lw (.vshuf o) (fun s l => s.srcA o o.ty (127 - l))) ∧
    (field o.x 0 3 = 2 → lw (.vshuf o) (fun s l => s.srcA o o.ty (l ^^^ field (sc s) 0 7))) ∧
    (field o.x 0 3 = 3 → lw (.vshuf o) (fun s l =>
      if l % 2 = 0 then s.srcA o o.ty (l / 2) else s.srcB o o.ty ((l - 1) / 2))) ∧
    (field o.x 0 3 = 4 → lw (.vshuf o) (fun s l =>
      if l % 2 = 0 then s.srcA o o.ty (64 + l / 2) else s.srcB o o.ty (64 + (l - 1) / 2))) ∧
    (field o.x 0 3 = 5 → lw (.vshuf o) (fun s l =>
      if l < 64 then s.srcA o o.ty (2 * l) else s.srcB o o.ty (2 * l - 128))) ∧
    (field o.x 0 3 = 6 → lw (.vshuf o) (fun s l =>
      if l < 64 then s.srcA o o.ty (2 * l + 1) else s.srcB o o.ty (2 * l - 127))) ∧
    Writes (.vext o) (bits o.vd 0 5) (fun s => extend64 o.ty (s.srcA o o.ty o.vb.toNat)) ∧
    LaneWrites (.vins o) o.ty o.vd.toNat (fun s => act s &&& (1#128 <<< o.va.toNat)) (fun s _ => s.scalarSrc o o.ty)) ∧
  (∀ (o : V3) (ls : List Nat), let is := fun (s : State) => ls = (List.range 128).filter fun l => (s.active o.mask).getLsbD l
    Completes (.vcomp o) is (fun s t => ∃ m, SetsLanes s t o.ty o.vd.toNat m (fun k => s.srcA o o.ty (ls.getD k 0)) ∧
      ∀ k < 128, m.getLsbD k = decide (k < ls.length)) ∧
    Completes (.vexpd o) is (fun s t => ∃ f, SetsLanes s t o.ty o.vd.toNat (s.active o.mask) f ∧
      ∀ k < ls.length, f (ls.getD k 0) = s.srcA o o.ty k)) ∧
  (∀ o : V3,
    let w := tyWidth o.ty
    let n := 32 / w
    Completes (.vpack o) (fun _ => True) (fun s t =>
      CurOnly s t ∧ ScalarsKept s t ∧ MasksKept s t ∧ GoesOn s t s.curPath.succ ∧
      (∀ j < 128 * n, packedElem (t.vreg o.vd.toNat) w j =
        (lane (s.vreg (o.va.toNat + j / 128)) (j % 128)).toNat % 2 ^ w) ∧
      ∀ r, r ≠ o.vd.toNat → t.vreg r = s.vreg r) ∧
    Completes (.vunpk o) (fun _ => True) (fun s t =>
      CurOnly s t ∧ ScalarsKept s t ∧ MasksKept s t ∧ GoesOn s t s.curPath.succ ∧
      (∀ k < n, ∀ l < 128, lane (t.vreg (o.vd.toNat + k)) l =
        BitVec.ofNat 32 (extend32 o.ty (packedElem (s.vreg o.va.toNat) w (128 * k + l)))) ∧
      ∀ r, r < o.vd.toNat ∨ o.vd.toNat + n ≤ r → t.vreg r = s.vreg r))

/-- R140, R78, R141, R79 (Table 5-8): `vred` combines the active lanes by the balanced tree, an empty set giving its
operation's value; `vscan` gives each active lane its prefix. -/
def Obligations.Reductions : Prop :=
  ∀ o : V3,
    let at' := fun (s : State) (l : Nat) => if (s.active o.mask).getLsbD l then some (s.srcA o o.ty l) else none
    Writes (.vred o) (bits o.vd 0 5) (fun s => extend64 o.ty ((treeNode o (at' s) 7 0).getD (redEmpty o))) ∧
    LaneWrites (.vscan o) o.ty o.vd.toNat (fun s => s.active o.mask) (fun s l => (prefixAt o (at' s) 7 l).getD 0)

/-- R142, R143 (Tables 5-9, 5-10): the mask instructions act on all 128 bits and under no mask. -/
def Obligations.Masks : Prop :=
  (∀ o : F2,
    MaskWrites (.mand o) o.d.toNat (fun s => s.mreg o.a.toNat &&& s.mreg o.b.toNat) ∧
    MaskWrites (.mor o) o.d.toNat (fun s => s.mreg o.a.toNat ||| s.mreg o.b.toNat) ∧
    MaskWrites (.mxor o) o.d.toNat (fun s => s.mreg o.a.toNat ^^^ s.mreg o.b.toNat) ∧
    (field o.x 0 2 = 0 → Writes (.mtest o) o.d (fun s => if s.mreg o.a.toNat &&& s.mreg o.b.toNat ≠ 0 then 1 else 0)) ∧
    (field o.x 0 2 = 1 → Writes (.mtest o) o.d (fun s => if s.mreg o.b.toNat &&& ~~~s.mreg o.a.toNat = 0 then 1 else 0)) ∧
    (field o.x 0 2 = 2 → Writes (.mtest o) o.d (fun s => bits (s.mreg o.a.toNat) 0 64)) ∧
    (field o.x 0 2 = 3 → Writes (.mtest o) o.d (fun s => bits (s.mreg o.a.toNat) 64 64))) ∧
  ∀ o : F1,
    MaskWrites (.mnot o) o.d.toNat (fun s => ~~~s.mreg o.a.toNat) ∧
    Writes (.mpop o) o.d (fun s => BitVec.ofNat 64 ((List.range 128).countP fun l => (s.mreg o.a.toNat).getLsbD l)) ∧
    Writes (.mfirst o) o.d (fun s =>
      BitVec.ofNat 64 (((List.range 128).find? fun l => (s.mreg o.a.toNat).getLsbD l).getD 128)) ∧
    Completes (.mset o) (fun _ => True) (fun s t => ∃ v, SetsMask s t o.d.toNat v ∧
      (o.x.toNat = 0 → ∀ l < 128, v.getLsbD l = decide (l < (s.sreg o.a).toNat)) ∧
      (o.x.toNat = 1 → v = bits (s.mreg o.d.toNat) 64 64 ++ s.sreg o.a) ∧
      (o.x.toNat = 2 → v = s.sreg o.a ++ bits (s.mreg o.d.toNat) 0 64) ∧
      (o.x.toNat = 3 → v = if s.sreg o.a ≠ 0 then BitVec.allOnes 128 else 0))

/-! Groups and teams (02, 11, 14). -/

/-- R102, R103, R105, R46, Table 6-4: `end` of a group in single-path mode whose accesses and copies are done frees
its slot and advances the generation; before that it waits; in dual-path mode it ends its path alone; with a batch
open it traps MATRIX_STATE. `done` frees a task's slot once its accesses are performed. `ifence`, after the group's
accesses, empties the instruction cache and discards the line that each path of the group has fetched, one inside an
instruction at its end. -/
def Obligations.EndDoneIfence : Prop :=
  let freed := fun (s t : State) => MemoryKept s t ∧ (t.slot s.cur.core s.cur.slot).state = .free ∧
    (t.slot s.cur.core s.cur.slot).gen = s.curSlot.gen + 1 ∧ (t.slot s.cur.core s.cur.slot).member = none
  Completes .endGroup (fun s => s.isGroup = true ∧ s.openBatch = none ∧ s.curSlot.dual = false ∧
    s.waitOver s.cur.core s.cur.slot .ending s.cur.pathQ = true) freed ∧
  Completes .endGroup (fun s => s.isGroup = true ∧ s.openBatch = none ∧ s.curSlot.dual = false ∧
    s.waitOver s.cur.core s.cur.slot .ending s.cur.pathQ = false)
    (fun s t => CurOnly s t ∧ ScalarsKept s t ∧ t.pc = s.pc ∧ t.curPath.wait = .ending) ∧
  Completes .endGroup (fun s => s.isGroup = true ∧ s.openBatch = none ∧ s.curSlot.dual = true ∧
    (s.curSlot.path (!s.cur.pathQ)).parked = false)
    (fun s t => MemoryKept s t ∧ ScalarsKept s t ∧ VectorsKept s t ∧ MasksKept s t ∧ t.curSlot.dual = false ∧
      t.curSlot.p = s.curSlot.path (!s.cur.pathQ) ∧ t.curSlot.state = .active) ∧
  (∀ z s, Runs .endGroup s → s.isGroup = true → s.openBatch = some z →
    exec .endGroup s = .next (s.takeTrap { code := 0x14, finfo := BitVec.ofNat 64 (z * 64 + 10) })) ∧
  Completes .done (fun s => s.isTask = true ∧ s.waitOver s.cur.core s.cur.slot .finish s.cur.pathQ = true) freed ∧
  Completes .ifence (fun s => s.curPath.chan = false ∧ s.waitOver s.cur.core s.cur.slot (.performed false) = true)
    (fun s t => CoresOnly s t ∧ t.curCore.icache = [] ∧ ScalarsKept s t ∧ VectorsKept s t ∧ MasksKept s t ∧
      t.curPath.line = none ∧ t.pc = s.curPath.succ ∧ t.curPath.wait = .none ∧ t.curPath.live = s.curPath.live ∧
      t.curPath.stack = s.curPath.stack ∧ (∀ l ∈ (t.curSlot.path (!s.cur.pathQ)).line, l.old = true) ∧
      (t.curSlot.path (!s.cur.pathQ)).pc = (s.curSlot.path (!s.cur.pathQ)).pc ∧
      (t.curSlot.path (!s.cur.pathQ)).live = (s.curSlot.path (!s.cur.pathQ)).live)

/-- R349, R350 (Table 14-1): the operations on a named barrier of a team. An arrival that is not the last adds one to
ARR; the last one advances GEN, clears ARR and restores EXP. `bar.init` and `bar.inv` begin a new generation; an
arrival at an INVALID barrier changes nothing. R352: a `bar.sync` that has arrived, and a `bar.wait` whose wait has
been withdrawn, wait on with the generation of their own. R353: `cbar` arrives at its cluster's barrier and waits; the
arrival that is the last expected advances GEN, and that group goes on with OK. -/
def Obligations.Barriers : Prop :=
  (∀ (o : F1) (m : Member) (tm : Team),
    let b := field o.x 0 4
    let r := tm.bar b
    let in' := fun (s : State) => s.isGroup = true ∧ s.curSlot.member = some m ∧ s.team? m.team = some tm
    let bar := fun (t : State) => (t.team? m.team).map fun x => x.bar b
    let result := fun (st : Word) => (r.gen ++ (0 : BitVec 32)) ||| st
    let idle := fun (s : State) => s.curPath.arrived = none ∧ s.waitOver s.cur.core s.cur.slot (.performed false) = true
    let rest := fun (s t : State) => CurOnly s { t with teams := s.teams } ∧ ∀ j, j ≠ m.team → t.team? j = s.team? j
    Completes (.barInit o) (fun s => in' s ∧ 1 ≤ (s.sreg o.a).toNat ∧ (s.sreg o.a).toNat ≤ 64) (fun s t =>
      bar t = some { r with
        gen := r.gen + 1, lastinv := r.gen + 1, valid := true, initexp := (s.sreg o.a).toNat, exp := (s.sreg o.a).toNat, arr := 0 } ∧
      (o.d ≠ 0 → t.sreg o.d = 0) ∧ MemoryKept s t) ∧
    Completes (.barInit o) (fun s => in' s ∧ ¬(1 ≤ (s.sreg o.a).toNat ∧ (s.sreg o.a).toNat ≤ 64))
      (fun s t => SetsScalar s t o.d 3) ∧
    Completes (.barArr o) (fun s => in' s ∧ idle s ∧ o.a = 0 ∧ r.valid = true ∧ r.arr + 1 ≠ r.exp) (fun s t =>
      rest s t ∧ bar t = some { r with arr := r.arr + 1 } ∧ ScalarIs s t o.d (result 0) ∧ GoesOn s t s.curPath.succ) ∧
    Completes (.barArr o) (fun s => in' s ∧ idle s ∧ o.a = 0 ∧ r.valid = true ∧ r.arr + 1 = r.exp) (fun s t =>
      bar t = some { r with gen := r.gen + 1, arr := 0, exp := r.initexp } ∧ (o.d ≠ 0 → t.sreg o.d = result 0) ∧ MemoryKept s t) ∧
    Completes (.barArr o) (fun s => in' s ∧ idle s ∧ o.a = 0 ∧ r.valid = false) (fun s t =>
      bar t = some r ∧ ScalarIs s t o.d (result 5) ∧ GoesOn s t s.curPath.succ) ∧
    Completes (.barSync o) (fun s => in' s ∧ idle s ∧ o.a = 0 ∧ r.valid = true ∧ r.arr + 1 ≠ r.exp ∧
        (r.lastinv = r.gen ∨ (r.gen - r.lastinv).toNat < 2 ^ 31)) (fun s t =>
      rest s t ∧ bar t = some { r with arr := r.arr + 1 } ∧ ScalarsKept s t ∧ t.curPath.wait = .barrier b r.gen ∧
      t.curPath.arrived = some r.gen ∧ t.pc = s.pc) ∧
    Completes (.barSync o) (fun s => in' s ∧ s.curPath.arrived = some r.gen ∧ r.valid = true ∧
        (r.lastinv = r.gen ∨ (r.gen - r.lastinv).toNat < 2 ^ 31)) (fun s t =>
      bar t = some r ∧ ScalarsKept s t ∧ t.curPath.wait = .barrier b r.gen) ∧
    (∀ g, Completes (.barSync o) (fun s => in' s ∧ s.curPath.arrived = some g ∧ r.outcome g = some 0)
      (fun s t => SetsScalar s t o.d ((g ++ (0 : BitVec 32)) ||| 0))) ∧
    (∀ st, Completes (.barWait o)
      (fun s => in' s ∧ s.curPath.arrived = none ∧ r.outcome (bits (s.sreg o.a) 32 32) = some st)
      (fun s t => SetsScalar s t o.d st)) ∧
    Completes (.barWait o) (fun s => in' s ∧ s.curPath.arrived = none ∧ r.outcome (bits (s.sreg o.a) 32 32) = none) (fun s t =>
      CurOnly s t ∧ ScalarsKept s t ∧ t.pc = s.pc ∧ t.curPath.wait = .barrier b (bits (s.sreg o.a) 32 32)) ∧
    (∀ g st, Completes (.barWait o) (fun s => in' s ∧ s.curPath.arrived = some g ∧ r.outcome g = some st)
      (fun s t => SetsScalar s t o.d st)) ∧
    (∀ g, Completes (.barWait o) (fun s => in' s ∧ s.curPath.arrived = some g ∧ r.outcome g = none) (fun s t =>
      CurOnly s t ∧ ScalarsKept s t ∧ t.pc = s.pc ∧ t.curPath.wait = .barrier b g)) ∧
    Completes (.barInv o) (fun s => in' s ∧ r.valid = true) (fun s t =>
      bar t = some { r with gen := r.gen + 1, lastinv := r.gen + 1, valid := false, arr := 0 } ∧
      (o.d ≠ 0 → t.sreg o.d = 0) ∧ MemoryKept s t) ∧
    Completes (.barInv o) (fun s => in' s ∧ r.valid = false) (fun s t => SetsScalar s t o.d 5)) ∧
  (∀ (o : F1) (m : Member) (cl : Cluster),
    let in' := fun (s : State) => s.isGroup = true ∧ s.curSlot.member = some m ∧ s.cluster? m.cluster = some cl ∧
      s.curPath.arrived = none ∧ s.waitOver s.cur.core s.cur.slot (.performed false) = true
    Completes (.cbar o) (fun s => in' s ∧ cl.arr + 1 < cl.exp) (fun s t =>
      CurOnly s { t with clusters := s.clusters } ∧ t.cluster? m.cluster = some { cl with arr := cl.arr + 1 } ∧
      ScalarsKept s t ∧ t.pc = s.pc ∧ t.curPath.wait = .cluster cl.gen ∧ t.curPath.arrived = some cl.gen) ∧
    Completes (.cbar o) (fun s => in' s ∧ cl.exp ≤ cl.arr + 1) (fun s t =>
      SetsScalar s { t with clusters := s.clusters } o.d 0 ∧
      t.cluster? m.cluster = some { cl with gen := cl.gen + 1, arr := 0 }))

/-- R256 to R259 (Tables 11-1 to 11-3): the operations on a queue register of a team. -/
def Obligations.QueueRegisters : Prop :=
  ∀ (o : F1) (m : Member) (tm : Team),
    let n := field o.x 0 3
    let r := tm.q n
    let in' := fun (s : State) => s.isGroup = true ∧ s.curSlot.member = some m ∧ s.team? m.team = some tm
    let first := fun (s : State) (push : Bool) => s.queueBehind tm push n = false
    let q := fun (t : State) => (t.team? m.team).map fun x => x.q n
    let others := fun (s t : State) => (∀ j, j ≠ m.team → t.team? j = s.team? j) ∧
      ∀ j, j ≠ n → (t.team? m.team).map (fun x => x.q j) = some (tm.q j)
    Completes (.qpush o) (fun s => in' s ∧ first s true ∧ (r.state = .open_ ∨ r.state = .stopped) ∧
        r.live.getLsbD m.index = true ∧ r.entries.length < 4) (fun s t =>
      OnlyGoesOn s { t with teams := s.teams } s.curPath.succ ∧ others s t ∧
      q t = some { r with entries := r.entries ++ [s.vreg (queueReg o)] }) ∧
    Completes (.qpush o) (fun s => in' s ∧ r.state = .open_ ∧ r.live.getLsbD m.index = true ∧ r.entries.length = 4)
      (fun s t => ScalarsKept s t ∧ VectorsKept s t ∧ t.teams = s.teams ∧ t.pc = s.pc ∧ MemoryKept s t ∧
        ∃ since, t.curPath.wait = .queue true n since) ∧
    (∀ s, Runs (.qpush o) s → in' s → first s true → r.state = .broken →
      exec (.qpush o) s = .next (s.takeTrap { code := 0x0E, finfo := BitVec.ofNat 64 n })) ∧
    (∀ v rest, Completes (.qpop o) (fun s => in' s ∧ first s false ∧ r.state ≠ .uninit ∧ r.rset.getLsbD m.index = true ∧
        r.entries = v :: rest) (fun s t =>
      CurOnly s { t with teams := s.teams } ∧ others s t ∧ q t = some { r with entries := rest } ∧ ScalarIs s t o.a 0 ∧
      (∀ j, t.vreg j = if j = queueReg o then v else s.vreg j) ∧ MasksKept s t ∧ GoesOn s t s.curPath.succ)) ∧
    Completes (.qpop o) (fun s => in' s ∧ first s false ∧ r.state ≠ .uninit ∧ r.rset.getLsbD m.index = true ∧ r.entries = [] ∧
      r.tok = true) (fun s t => SetsScalar s t o.a 5) ∧
    Completes (.qstop o) (fun s => in' s ∧ r.state = .open_ ∧ r.live.getLsbD m.index = true) (fun s t =>
      let live := r.live &&& ~~~(1 <<< m.index : BitVec 64)
      OnlyGoesOn s { t with teams := s.teams } s.curPath.succ ∧ others s t ∧
      q t = some (if live = 0 then { r with live := live, tok := true, state := .stopped } else { r with live := live })) ∧
    Completes (.qstat o) in' (fun s t => SetsScalar s t o.d (BitVec.ofNat 64
      ((if r.rset.getLsbD m.index then 128 else 0) + (if r.live.getLsbD m.index then 64 else 0) +
       (match r.state with
        | .uninit => 0
        | .open_ => 16
        | .stopped => 32
        | .broken => 48) + (if r.tok then 8 else 0) + r.entries.length))) ∧
    Completes (.qinit o) in' (fun s t =>
      let all : BitVec 64 := BitVec.ofNat 64 (2 ^ tm.groups - 1)
      let w := s.sreg o.d &&& all
      let rd := s.sreg o.a &&& all
      OnlyGoesOn s { t with teams := s.teams } s.curPath.succ ∧ others s t ∧
      q t = some (if w = 0 ∨ rd = 0 then
        { state := .stopped, entries := [], tok := true, wset := w, rset := rd, live := w }
      else { state := .open_, entries := [], tok := false, wset := w, rset := rd, live := w }))

/-- R262 to R265 (Table 11-6): `pub` opens the channel of the group's core, `unpub` closes it, `sub` subscribes and
`resub` waits for a rendezvous point; `unpub` and `unsub` taken from a channel leave it with their reason; `rdv` goes
on. R99, R262: a subscriber executes `bc`, `loop`, `jr`, `callr` and `ret` of its channel on its own registers, with
their register writes, the count of a `loop` and the s31 of a `callr`, and goes on at the PC of its own outcome. Where
that agrees with the publisher's it stays on the channel; where it does not, it leaves the channel, and SUBST receives
the branch's PC and REASON 1 for `bc` and `loop`, 2 for `jr`, `callr` and `ret`. -/
def Obligations.Channels : Prop :=
  ((∀ o, Completes (.pub o)
    (fun s => s.isGroup = true ∧ s.curPath.chan = false ∧ s.curSlot.dual = false ∧ s.subscribed = false ∧ s.curCore.chan = none) (fun s t =>
      CoresOnly s t ∧ t.curCore.chan = some { slot := s.cur.slot, gen := s.curSlot.gen, subs := [] } ∧ ScalarIs s t o.d 0 ∧ VectorsKept s t ∧
      MasksKept s t ∧ GoesOn s t s.curPath.succ)) ∧
  (∀ o, Completes (.pub o)
    (fun s => s.isGroup = true ∧ s.curPath.chan = false ∧ s.curSlot.dual = false ∧ s.subscribed = false ∧ s.publishing = false ∧
      s.curCore.chan ≠ none)
    (fun s t => SetsScalar s t o.d 1)) ∧
  (∀ o, Completes (.unpub o) (fun s => s.curPath.chan = false ∧ s.publishing = true) (fun s t =>
      t.curCore.chan = none ∧ t.pc = s.curPath.succ ∧ MemoryKept s t)) ∧
  (∀ o, Completes (.unpub o) (fun s => s.curPath.chan = false ∧ s.publishing = false)
    (fun s t => OnlyGoesOn s t s.curPath.succ)) ∧
  (∀ o, Completes (.unpub o) (fun s => s.curPath.chan = true ∧ s.subscribed = true) (fun s t =>
      t.curSlot.sub = none ∧ t.curSlot.subst = substWord 4 s.pc ∧ ScalarsKept s t ∧ t.curSlot.p.pc = s.curPath.succ)) ∧
  (∀ o, Completes (.unsub o) (fun s => s.curPath.chan = true ∧ s.subscribed = true) (fun s t =>
      t.curSlot.sub = none ∧ t.curSlot.subst = substWord 3 s.pc ∧ ScalarsKept s t ∧ t.curSlot.p.pc = s.curPath.succ)) ∧
  (∀ o, Completes (.unsub o) (fun s => s.curPath.chan = false) (fun s t => OnlyGoesOn s t s.curPath.succ)) ∧
  (∀ (o : F2) (x : Chan) (m m' : Member), let ch := fun (s : State) => field (s.sreg o.a) 0 11
    let can := fun (s : State) => s.isGroup = true ∧ s.curPath.chan = false ∧ s.curSlot.dual = false ∧ s.subscribed = false ∧ s.publishing = false ∧
      ch s < 1280 ∧ (s.core (ch s)).chan = some x ∧ s.curSlot.member = some m ∧
      (s.slot (ch s) x.slot).member = some m'
    Completes (.subChannel o) (fun s => can s ∧ m.grid = m'.grid) (fun s t =>
      t.curSlot.sub = some { chan := ch s, start := s.clk + skew (ch s) s.cur.core, pc := s.pc, succ := s.curPath.succ, buffer := []
                             closed := false } ∧
      t.curSlot.subst = 0 ∧ ScalarIs s t o.d 0 ∧ t.pc = s.curPath.succ ∧
      (t.core (ch s)).chan = some { x with subs := x.subs ++ [(s.cur.core, s.cur.slot)] } ∧ MemoryKept s t) ∧
    Completes (.resub o) (fun s => can s ∧ m.grid = m'.grid) (fun s t =>
      t.curPath.wait = .rendezvous (ch s) (field o.x 0 6) (s.clk + skew (ch s) s.cur.core) ∧ t.curSlot.subst = 0 ∧
      ScalarsKept s t ∧ t.pc = s.pc ∧ MemoryKept s t) ∧
    ∀ (i : Instr) (s : State), i = .subChannel o ∨ i = .resub o → Runs i s → can s → m.grid ≠ m'.grid →
      exec i s = .next (s.takeTrap { code := 0x0F, finfo := BitVec.ofNat 64 (4096 + ch s) })) ∧
  ∀ o, Completes (.rdv o) (fun _ => True) (fun s t => OnlyGoesOn s t s.curPath.succ)) ∧
  (∀ e : Entry,
    let branch := fun (i : Instr) (reason : Nat) (own : State → Bool × Word) (pc : State → Word) (d : BitVec 5) (v : State → Word) =>
      Completes i (fun s => s.cur.pathQ = false ∧ s.channelEntry = some e) (fun s t =>
        MemoryKept s t ∧ ScalarIs s t d (v s) ∧ VectorsKept s t ∧ MasksKept s t ∧
        t.curSlot.path false = { s.curPath.moveTo (pc s) with chan := false } ∧ t.curSlot.path true = s.curSlot.path true ∧
        (own s = (e.taken, e.target) → t.curSlot.sub = s.curSlot.sub.map (fun b => b.pop (pc s) s.clk) ∧
          t.curSlot.subst = s.curSlot.subst) ∧
        (own s ≠ (e.taken, e.target) → t.curSlot.sub = none ∧ t.curSlot.subst = substWord reason e.pc ∧
          ∀ b ∈ s.curSlot.sub, b.closed = false → ∀ ch ∈ (t.core b.chan).chan, (s.cur.core, s.cur.slot) ∉ ch.subs))
    (∀ c (o : B2), let holds := fun (s : State) => condHolds c (s.sreg o.a) (s.sreg o.b)
      branch (.bc c o) 1 (fun s => (holds s, 0))
        (fun s => if holds s then branchTarget s.pc o.delta o.head else s.curPath.succ) 0 (fun _ => 0)) ∧
    (∀ o : B2, branch (.loop o) 1 (fun s => (decide (s.sreg o.a - 1 ≠ 0), 0))
      (fun s => if s.sreg o.a - 1 ≠ 0 then branchTarget s.pc o.delta o.head else s.curPath.succ) o.a (fun s => s.sreg o.a - 1)) ∧
    ∀ o : F2,
      branch (.jr o) 2 (fun s => (true, s.sreg o.a)) (fun s => s.sreg o.a) 0 (fun _ => 0) ∧
      branch (.callr o) 2 (fun s => (true, s.sreg o.a)) (fun s => s.sreg o.a) 31 (fun s => s.curPath.succ) ∧
      branch (.ret o) 2 (fun s => (true, s.sreg 31)) (fun s => s.sreg 31) 0 (fun _ => 0))

/-! The matrix unit (06_accumulator_tiles.md). -/

/-- R148, R163 to R172: a matrix instruction that passes its checks, with room in the command queue and the group's
accesses performed, enters its command with what it has read; `mstep`, `mld`, `msave` and `mrest` wait for its end,
the others go on. `mwait` goes on once the group has no command left. R145, R146, R165 to R169, Table 6-5: with a full
command queue the path waits; a tile that the user may not name traps TILE_PRIV, one beyond its team's tiles or in the
wrong batch state MATRIX_STATE with its reason. Nothing enters the queue. That a path whose tile a queued load will
change waits for the load is the model's choice [log 70, DEDUCED]. -/
def Obligations.MatrixInstructions : Prop :=
  (∀ o : F3,
    let z := field o.d 0 4
    let ea := fun (s : State) => s.sreg o.a + o.imm.signExtend 64
    let room := fun (s : State) => s.curCore.mcmds.length < 2 ∧ s.waitOver s.cur.core s.cur.slot (.performed false) = true
    let ctx := fun (s : State) => room s ∧ (s.isS = true ∨ s.teamTiles ≠ 0)
    let tile := fun (s : State) => room s ∧ (s.curCore.mcmds.any fun m => MatOp.loads m.op z) = false ∧
      ((s.isS = true ∧ 14 ≤ z) ∨ (s.isS = false ∧ s.isGroup = true ∧ z < 14 ∧ z < s.teamTiles))
    let r := fun (s : State) => s.foreseen s.cur.core z
    Completes (.midx o) (fun s => ctx s ∧ o.x = 1) (fun s t =>
      EntersCmd s t (.midx ((List.range 64).map fun i => bits o.imm 0 16 + BitVec.ofNat 16 i)) false) ∧
    Completes (.midx o) (fun s => ctx s ∧ o.x = 2) (fun s t => EntersCmd s t (.midx ((List.range 64).map fun _ => 0xFFFF)) false) ∧
    Completes (.midx o) (fun s => ctx s ∧ o.x = 3) (fun s t =>
      EntersCmd s t (.midx ((List.range 64).map fun i => if i < (s.sreg o.a).toNat then BitVec.ofNat 16 i else 0xFFFF)) false) ∧
    (∀ u l, Completes (.midx o) (fun s => ctx s ∧ o.x = 0 ∧ s.midxValues o = .ok (u, l)) (fun s t => EntersCmd s t (.midx l) false)) ∧
    Completes (.mopen o) (fun s => tile s ∧ (r s).opened = false ∧
        (o.imm.getLsbD 9 = true ∨ (r s).i32 = matInt (field o.imm 0 4))) (fun s t =>
      EntersCmd s t (.mopen z (o.imm.getLsbD 8) (o.imm.getLsbD 9) (bits o.imm 0 4) (bits o.imm 4 4) s.curSlot.mrowstride
        s.curSlot.mrowcount) false) ∧
    Completes (.mstep o) tile (fun s t =>
      EntersCmd s t (.mstep z (s.sreg o.a) (s.sreg (o.a + 1)) (s.sreg (o.a + 2)) (s.sreg (o.a + 3)) (field o.imm 0 10)
        (field o.imm 11 21)) true) ∧
    Completes (.mclose o) (fun s => tile s ∧ s.owns (r s) = true) (fun s t => EntersCmd s t (.mclose z) false) ∧
    Completes (.mzero o) (fun s => tile s ∧ (r s).opened = false) (fun s t => EntersCmd s t (.mzero z) false) ∧
    Completes (.mst o) (fun s => tile s ∧ (r s).opened = false ∧ (o.x.getLsbD 0 = true → (r s).i32 = false) ∧
        ∃ u, s.ownImage (ea s) (if o.x.getLsbD 0 then 8192 else 16384) true = .ok u) (fun s t =>
      EntersCmd s t (.mst z (ea s) (o.x.getLsbD 0)) false) ∧
    Completes (.mld o) (fun s => tile s ∧ (r s).opened = false ∧ ∃ u, s.ownImage (ea s) 16384 false = .ok u) (fun s t =>
      EntersCmd s t (.mld z (ea s) (o.x.getLsbD 0)) true) ∧
    Completes (.mtab o) (fun s => ctx s ∧ o.x ≠ 8 ∧ tokenOk (s.sreg o.a) = true) (fun s t =>
      EntersCmd s t (.mtab o.x.toNat (s.sreg o.a)) false) ∧
    Completes (.mtab o) (fun s => ctx s ∧ o.x = 8) (fun s t =>
      EntersCmd s t (.mlut (s.sreg o.a) (s.sreg (o.a + 1))) false ∧
      (t.curCore.ctx s.cur.slot).lutV = lutOf (s.sreg o.a) (s.sreg (o.a + 1))) ∧
    Completes (.mwait o) (fun s => (s.isS = true ∨ s.teamTiles ≠ 0) ∧ s.waitOver s.cur.core s.cur.slot .matrices = true)
      (fun s t => OnlyGoesOn s t s.curPath.succ) ∧
    Completes (.mwait o) (fun s => (s.isS = true ∨ s.teamTiles ≠ 0) ∧ s.waitOver s.cur.core s.cur.slot .matrices = false)
      (fun s t => CurOnly s t ∧ ScalarsKept s t ∧ t.pc = s.pc ∧ t.curPath.wait = .matrices) ∧
    Completes (.msave o) (fun s => room s ∧ ∃ u, s.imageCheck (ea s) (if o.x.getLsbD 0 then 4 else 257) 64 true = .ok u) (fun s t =>
      EntersCmd s t (if o.x.getLsbD 0 then .msaveCtx (ea s) else .msave z (ea s)) true) ∧
    Completes (.mrest o) (fun s => room s ∧ ∃ u, s.imageCheck (ea s) (if o.x.getLsbD 0 then 4 else 257) 64 false = .ok u ∧
        ∀ p ∈ dwPieces (ea s) (8 * if o.x.getLsbD 0 then 32 else 2056), u.across (u.pieceHome p) = false) (fun s t =>
      EntersCmd s t (if o.x.getLsbD 0 then .mrestCtx (ea s) else .mrest z (ea s)) true)) ∧
  (∀ (o : F3) (s : State) (i : Instr),
    i = .mopen o ∨ i = .mstep o ∨ i = .mclose o ∨ i = .mzero o ∨ i = .mst o ∨ i = .mld o → Runs i s →
    let z := field o.d 0 4
    let state := fun (reason : Nat) => exec i s = .next (s.takeTrap { code := 0x14, finfo := BitVec.ofNat 64 (z * 64 + reason) })
    let r := s.foreseen s.cur.core z
    let ready := s.curCore.mcmds.length < 2 ∧ s.waitOver s.cur.core s.cur.slot (.performed false) = true
    let loads := s.curCore.mcmds.any fun m => MatOp.loads m.op z
    let may := ready ∧ ((s.isS = true ∧ 14 ≤ z) ∨ (s.isS = false ∧ s.isGroup = true ∧ z < 14 ∧ z < s.teamTiles))
    let mine := may ∧ loads = false
    (2 ≤ s.curCore.mcmds.length → exec i s = .next (s.waitInside i s.curSlot.regs .matrixRoom)) ∧
    (ready → (s.isS = true ∧ z < 14) ∨ (s.isGroup = true ∧ 14 ≤ z) →
      exec i s = .next (s.takeTrap { code := 0x15, finfo := BitVec.ofNat 64 (z * 64) })) ∧
    (ready → s.isS = false → s.teamTiles = 0 → z < 14 → state 1) ∧
    (ready → s.isS = false → s.isGroup = true → s.teamTiles ≠ 0 → z < 14 → s.teamTiles ≤ z → state 2) ∧
    (may → loads = true → exec i s = .next (s.waitInside i s.curSlot.regs (.tile z))) ∧
    (mine → i = .mopen o → r.opened = true → state 3) ∧
    (mine → i = .mclose o → s.owns r = false → state 4) ∧
    (mine → i = .mzero o ∨ i = .mst o ∨ i = .mld o → r.opened = true → state 5))

/-- R156, R155, R151, R158, R196, R197: the arbiter of a bay serves the position it picks: the command starts, holds
the unit for its T clks and for those by which its lines wait at their larder banks, and has its effect. It waits for
none where its banks are awake and have no other line. A step that passes its
checks leaves the result in its tile, and its completion falls due after T + F; one that fails a check leaves its tile
as it was, and its abort falls due. A clearing command leaves zeros [log 33, DESIGN CHOICE]. In a gated clk no command
starts (R375). R151: a step leaves the elements of a null row of an INT32 tile as they are. R148, R155, R158: a
command that completes leaves the queue and its waiting path goes on; one that aborts leaves the queue, and its
waiting path traps with the command's cause. -/
def Obligations.MatrixUnit : Prop :=
  (∀ (s : State) (b p : Nat) (m : MatCmd), s.input.a = b → (s.bay b).busy ≤ s.clk → s.gatedNow b = false →
    s.arbPick b = some p → s.cmdHead (bayCore b p) = some m → p < 8 → b < 160 →
    let c := bayCore b p
    let w := s.clk + (s.gather (s.startLines c m)).delay
    ∃ t, exec .matrixArbitration s = .next t ∧ (t.bay b).ptr = p ∧ (t.bay b).busy = w + (s.cmdTime c m).1 ∧
      ((∀ x ∈ s.startLines c m, let b := bankOf (larderOff x); Table.get 0 (s.core (larderCore x)).asleep b = 0 ∧
        s.bankIdle (larderCore x) b = false ∧ ∀ e ∈ Table.get [] (s.core (larderCore x)).bankq b, e.2 < s.clk) → w = s.clk) ∧
      (∀ z x y sx sy k st, m.op = .mstep z x y sx sy k st →
        (s.stepAbort (m.step c) m.gen = none →
          ((t.core c).tile z).data = s.stepResult (m.step c) ∧ MemoryKept s t ∧
          ∃ inp, (w + (s.cmdTime c m).1 + (s.cmdTime c m).2, .matrixCommandComplete, inp) ∈ t.agenda ∧ inp.b = m.seq) ∧
        ∀ a, s.stepAbort (m.step c) m.gen = some a →
          (t.core c).tiles = (s.core c).tiles ∧ MemoryKept s t ∧
          ∃ inp, (w + (s.cmdTime c m).1 + (s.cmdTime c m).2, .matrixStepAbort, inp) ∈ t.agenda ∧ inp.b = m.seq) ∧
      (∀ z, m.op = .mzero z →
        (∀ j, (t.core c).tile j = if j = z then { (s.core c).tile z with data := 0 } else (s.core c).tile j) ∧ MemoryKept s t) ∧
      (∀ z, m.op = .mclose z →
        ∀ j, (t.core c).tile j = if j = z then { (s.core c).tile z with opened := false } else (s.core c).tile j)) ∧
  (∀ (s : State) (b : Nat), s.input.a = b → (s.bay b).busy ≤ s.clk → s.gatedNow b = true →
    ∃ t, exec .matrixArbitration s = .next t ∧ t.cores = s.cores ∧ t.bays = s.bays ∧ MemoryKept s t) ∧
  (∀ (s : State) (st : Step) (i n : Nat), i < 64 → n < 64 → matInt (s.fa st) = true → s.rowNull st i = true →
    tileElem (s.stepResult st) i n = tileElem (s.stepTile st).data i n) ∧
  (∀ (s : State) (m : MatCmd), let c := s.input.a
    (s.core c).mcmds.find? (fun x => decide (x.seq = s.input.b)) = some m → m.slot ≠ 63 → (s.slot c m.slot).state = .active →
    s.cmdAwaited c m = true → s.savesOut c m = false → (m.pathQ = true → (s.slot c m.slot).dual = true) →
    (∃ t, exec .matrixCommandComplete s = .next t ∧ (t.core c).mcmds = (s.core c).mcmds.filter (fun x => x.seq ≠ m.seq) ∧
      ((t.slot c m.slot).path m.pathQ).pc = ((s.slot c m.slot).path m.pathQ).succ ∧
      ((t.slot c m.slot).path m.pathQ).wait = .none ∧ (t.slot c m.slot).sregs = (s.slot c m.slot).sregs ∧ MemoryKept s t) ∧
    ∀ a, m.abort = some a → ∃ t, exec .matrixStepAbort s = .next t ∧
      (t.core c).mcmds = (s.core c).mcmds.filter (fun x => x.seq ≠ m.seq) ∧ (t.slot c m.slot).state = .trapped ∧
      field (t.slot c m.slot).cause 0 8 = a.1.toNat ∧ (t.slot c m.slot).faddr = a.2.1 ∧ (t.slot c m.slot).finfo = a.2.2 ∧
      (t.slot c m.slot).epc = ((s.slot c m.slot).path m.pathQ).pc ∧ MemoryKept s t)

/-! Copies and multicast (12_queues_engines_launch.md). -/

/-- R277, R285 to R288: `cpy` with legal words and room enters its request, gives its transfer id and counts it; it
refuses illegal words, and with a full FIFO waits with the words that it has read, or answers BUSY; `cpst` gives the
write pointer or the state; `cpwait` tells a finished transfer from one in progress, and one that has waited names the
transfer that it named when it issued, whatever the other path has written since (R82); `mcjoin` and `mcleave` change
the core's match table, send their packet and complete once it has reached the root. -/
def Obligations.CopyInstructions : Prop :=
  (∀ o : F2,
    let ch := fun (s : State) => field (s.sreg (o.a + 2)) 30 2
    let seq := fun (s : State) => s.curSlot.issuedOf (ch s) + 1
    let id := fun (s : State) => (BitVec.ofNat 64 (2 ^ 63 + ch s * 2 ^ 32 + (seq s).toNat) : Word)
    let bad := fun (s : State) => requestBad (s.sreg o.a) (s.sreg (o.a + 1)) (s.sreg (o.a + 2))
    Completes (.cpy o) (fun s => s.curPath.cpyKept = none ∧ s.sreg (o.a + 3) = 0 ∧ bad s = false ∧ s.curCore.copyq.length < 8 ∧
        s.waitOver s.cur.core s.cur.slot (.performed false) = true) (fun s t =>
      (∃ r, t.curCore.copyq = s.curCore.copyq ++ [r] ∧ r.slot = s.cur.slot ∧ r.gen = s.curSlot.gen ∧ r.w0 = s.sreg o.a ∧
        r.w1 = s.sreg (o.a + 1) ∧ r.w2 = s.sreg (o.a + 2) ∧ r.pb = [] ∧ r.done = 0 ∧ r.id = id s) ∧
      t.curSlot.issuedOf (ch s) = seq s ∧ ScalarIs s t o.d (id s) ∧ VectorsKept s t ∧ MasksKept s t ∧ MemoryKept s t ∧
      GoesOn s t s.curPath.succ) ∧
    Completes (.cpy o) (fun s => s.curPath.cpyKept = none ∧ s.sreg (o.a + 3) = 0 ∧ bad s = true) (fun s t => SetsScalar s t o.d 3) ∧
    Completes (.cpy o) (fun s => s.curPath.cpyKept = none ∧ s.sreg (o.a + 3) = 0 ∧ bad s = false ∧ 8 ≤ s.curCore.copyq.length ∧ o.x.getLsbD 0 = true)
      (fun s t => SetsScalar s t o.d 1) ∧
    Completes (.cpy o) (fun s => s.curPath.cpyKept = none ∧ s.sreg (o.a + 3) = 0 ∧ bad s = false ∧ 8 ≤ s.curCore.copyq.length ∧ o.x.getLsbD 0 = false)
      (fun s t => CurOnly s t ∧ ScalarsKept s t ∧ t.pc = s.pc ∧ t.curPath.wait = .copyRoom ∧
        t.curPath.cpyKept = some ([s.sreg o.a, s.sreg (o.a + 1), s.sreg (o.a + 2)], [])) ∧
    ∀ w0 w1 w2, Completes (.cpy o) (fun s => s.curPath.cpyKept = some ([w0, w1, w2], []) ∧ s.curCore.copyq.length < 8 ∧
        s.waitOver s.cur.core s.cur.slot (.performed false) = true) (fun s t =>
      (∃ r, t.curCore.copyq = s.curCore.copyq ++ [r] ∧ r.slot = s.cur.slot ∧ r.gen = s.curSlot.gen ∧ r.w0 = w0 ∧ r.w1 = w1 ∧
        r.w2 = w2 ∧ r.pb = [] ∧ r.done = 0) ∧
      t.curSlot.issuedOf (field w2 30 2) = s.curSlot.issuedOf (field w2 30 2) + 1 ∧ VectorsKept s t ∧ MasksKept s t ∧
      MemoryKept s t ∧ GoesOn s t s.curPath.succ)) ∧
  (∀ o : F2,
    Completes (.cpst o) (fun _ => o.x.getLsbD 0 = false)
      (fun s t => SetsScalar s t o.d (Table.get 0 s.curCore.wp (field (s.sreg o.a) 0 2))) ∧
    Completes (.cpst o) (fun _ => o.x.getLsbD 0 = true) (fun s t =>
      let ch := field (s.sreg o.a) 0 2
      SetsScalar s t o.d (BitVec.ofNat 64 ((s.curSlot.doneOf ch).toNat * 2 ^ 32 + s.curCore.copyq.length * 4096 +
        if s.curCore.copyFaulted.contains ch then 2 else if (s.curCore.copyHead ch).isSome then 1 else 0)))) ∧
  (∀ o : F2,
    let ch := fun (s : State) => field (s.sreg o.a) 32 2
    let n := fun (s : State) => bits (s.sreg o.a) 0 32
    let named := fun (s : State) => o.x.getLsbD 0 = false ∧ (s.sreg o.a).getLsbD 63 = true ∧ field (s.sreg o.a) 34 29 = 0 ∧
      (s.curSlot.issuedOf (ch s) - n s).toNat < 2 ^ 31
    let done := fun (s : State) => (s.curSlot.doneOf (ch s) - n s).toNat < 2 ^ 31
    Completes (.cpwait o) (fun s => named s ∧ done s) (fun s t => SetsScalar s t o.d 0) ∧
    Completes (.cpwait o) (fun s => named s ∧ ¬done s ∧ s.isTask = true) (fun s t => SetsScalar s t o.d 2) ∧
    Completes (.cpwait o) (fun s => named s ∧ ¬done s ∧ s.isTask = false) (fun s t =>
      CurOnly s t ∧ ScalarsKept s t ∧ t.pc = s.pc ∧ t.curPath.wait = .transfer (ch s) (n s)) ∧
    Completes (.cpwait o) (fun s => o.x.getLsbD 0 = false ∧ (s.sreg o.a).getLsbD 63 = false) (fun s t => SetsScalar s t o.d 3) ∧
    Completes (.cpwait o) (fun s => o.x.getLsbD 0 = false ∧ (s.sreg o.a).getLsbD 63 = true ∧ field (s.sreg o.a) 34 29 = 0 ∧
      2 ^ 31 ≤ (s.curSlot.issuedOf (ch s) - n s).toNat) (fun s t => SetsScalar s t o.d 8) ∧
    ∀ (s : State) (r : Regs), s.curSlot.state = .active →
      (s.cur.pathQ = true → s.curSlot.dual = true ∧ s.curPath.chan = false) → s.gate (.cpwait o) = none →
      s.curPath.kept = some r → s.sreg o.d = (s.withRegs r).sreg o.d → named (s.withRegs r) → done (s.withRegs r) →
      ∃ t, exec (.cpwait o) s = .next t ∧ SetsScalar s t o.d 0) ∧
  ∀ o : F2,
    let tag := fun (s : State) => (s.sreg o.a).toNat
    let kept := fun (s t : State) => VectorsKept s t ∧ MasksKept s t ∧ MemoryKept s t
    let rest := fun (s t : State) => kept s t ∧ GoesOn s t s.curPath.succ
    let waits := fun (s t : State) => kept s t ∧ ScalarsKept s t ∧ t.pc = s.pc ∧ t.curPath.wait = .multicast (tag s) ∧
      t.curPath.mcDone = true
    let joins := fun (s : State) => s.isGroup = true ∧ s.curPath.mcDone = false ∧ s.joinTrap (s.sreg o.b) = none ∧ 1 ≤ tag s ∧ tag s ≤ 255
    Completes (.mcjoin o) (fun s => joins s ∧ s.mcEntry (tag s) = none ∧ s.curCore.mcast.length < 16) (fun s t =>
      t.curCore.mcast = s.curCore.mcast ++
        [{ tag := tag s, slot := s.cur.slot, gen := s.curSlot.gen, base := field (s.sreg o.b) 0 21, joined := false }] ∧
      (s.clk, .multicastJoinPacket, { a := s.cur.core, b := tag s }) ∈ t.agenda ∧ waits s t) ∧
    (∀ e, Completes (.mcjoin o) (fun s => joins s ∧ s.mcEntry (tag s) = some e ∧ s.mcMine e = true) (fun s t =>
      t.curCore.mcast = s.curCore.mcast.map (fun x => if x.tag = tag s then { x with base := field (s.sreg o.b) 0 21 } else x) ∧
      ScalarIs s t o.d 0 ∧ rest s t)) ∧
    Completes (.mcjoin o) (fun s => joins s ∧ s.mcEntry (tag s) = none ∧ 16 ≤ s.curCore.mcast.length) (fun s t => SetsScalar s t o.d 1) ∧
    Completes (.mcjoin o) (fun s => s.isGroup = true ∧ s.curPath.mcDone = true) (fun s t => SetsScalar s t o.d 0) ∧
    Completes (.mcleave o) (fun s => s.isGroup = true ∧ s.curPath.mcDone = false ∧ (s.mcEntry (tag s)).any s.mcMine = true) (fun s t =>
      t.curCore.mcast = s.curCore.mcast.filter (fun e => e.tag ≠ tag s) ∧
      (s.clk, .multicastLeavePacket, { a := s.cur.core, b := tag s }) ∈ t.agenda ∧ waits s t) ∧
    Completes (.mcleave o) (fun s => s.isGroup = true ∧ s.curPath.mcDone = true) (fun s t => SetsScalar s t o.d 0) ∧
    Completes (.mcleave o) (fun s => s.isGroup = true ∧ s.curPath.mcDone = false ∧ (s.mcEntry (tag s)).any s.mcMine = false)
      (fun s t => SetsScalar s t o.d 3)

/-- R276, R279, R356: the transfer of a line whose source and destination lie on the package and pass the checks
completes: every byte of the line arrives, no other byte changes, the write pointer and the request advance by as
much. R280, R281, Table 12-3: a finished request leaves the FIFO and advances DONE of its issuer; in mode 0 it queues
a user interrupt, in mode 1 it posts its message, in mode 2 it sends its resolve. R351: in mode 3 it arrives at its
team's barrier, unless the barrier is invalid or LASTINV is after the generation of its acceptance; then, and where
the request is abandoned, BARDISCARD is counted. An abandoned request in mode 1 or 2 posts its message with FAIL or
sends its break notice; one without a completion action advances DONE and its channel's write pointer by what was
left. A copy fault becomes a trap of its issuer. R282, R283, R346: once no request of its tag is in progress, a join
packet adds 1 to the local count of its member's router, the +y counts of the routers below it in its column and the
+x counts of those before its column in row 0; a leave packet subtracts; no other count changes. A delivered line
writes its bytes at the member's base. -/
def Obligations.CopyEngine : Prop :=
  (∀ (s : State) (r : CopyReq) (dst : Home) (src : Word → Home), let c := s.input.a; let ch := s.input.b
    let a := r.w0 + BitVec.ofNat 64 r.done
    let b := r.w1 + BitVec.ofNat 64 r.done
    let n := min (r.len - r.done) (64 - b.toNat % 64)
    let who := s.copyWho c r
    let ps := dwPieces a n
    let u := (s.installAll c (ps.map fun p => { addr := p.1, size := p.2, align := 1, rd := true, wr := false })).installAll c
      [{ addr := b, size := n, align := 1, rd := false, wr := true }]
    (s.core c).copyHead ch = some r → (s.core c).copyFaulted.contains ch = false → r.awaited = 0 → r.fault = none →
    r.started = true → r.buf = [] → r.mctag = 0 → r.fe = false → r.done < r.len →
    (s.core c).copyBusy s.clk = false → s.copyOther c ch = false →
    (∀ p ∈ ps, u.copyCheck who (s.partOf c) p.1 p.2 false = .ok ∧ u.copyHome who p.1 p.2 false = src p.1 ∧
      s.across (src p.1) = false ∧ s.poisonedIn (src p.1).loc p.2 = false) →
    u.copyCheck who (s.partOf c) b n true = .ok → u.copyHome who b n true = dst → s.across dst = false →
    s.poisonedIn dst.loc n = false → ServesNow u (ps.map (fun p => ((src p.1).loc, p.2)) ++ [(dst.loc, n)]) →
    (∀ w, dst.loc / 8 ≤ w → w ≤ (dst.loc + n - 1) / 8 → ∀ x ∈ s.shelfOf (8 * w), x.loc ≠ 8 * w) →
    ∃ t, exec .copyLineTransfer s = .next t ∧
      (∀ p ∈ ps, ∀ j < p.2, t.byte (dst.loc + (p.1 - a).toNat + j) = s.byte ((src p.1).loc + j)) ∧
      (∀ x, x < dst.loc ∨ dst.loc + n ≤ x → t.byte x = s.byte x) ∧ t.empties = s.empties ∧ t.poison = s.poison ∧
      Table.get 0 (t.core c).wp ch = Table.get 0 (s.core c).wp ch + BitVec.ofNat 64 n ∧
      (t.core c).copyHead ch = some { r with done := r.done + n, buf := [] } ∧
      ∀ c k, t.slot c k = s.slot c k) ∧
  ((∀ (s : State) (r : CopyReq), let c := s.input.a; let ch := s.input.b
    (s.core c).copyHead ch = some r → (s.slot c r.slot).gen = r.gen →
    (s.input.flag = false → r.done = r.len → r.awaited = 0 → r.mode = 1 →
      tagPkg (destWord (r.pbWord 1)) = s.pkgId.toNat →
      ∃ t, exec .copyCompletion s = .next t ∧ (t.core c).copyq = dropFirst ch (s.core c).copyq ∧
        (t.slot c r.slot).doneOf ch = (s.slot c r.slot).doneOf ch + 1 ∧ MemoryKept s t ∧
        (s.clk, Instr.messageArrival, { a := tagCore (destWord (r.pbWord 1)), body := .msg ⟨bits (r.pbWord 0) 8 8, 2, s.copyTag c r,
          destWord (r.pbWord 1), [r.id, r.pbWord 2], 0⟩ }) ∈ t.agenda) ∧
    (s.input.flag = false → r.done = r.len → r.awaited = 0 → r.mode = 4 ∨ r.mode = 0 →
      ∃ t, exec .copyCompletion s = .next t ∧ (t.core c).copyq = dropFirst ch (s.core c).copyq ∧
        (t.slot c r.slot).doneOf ch = (s.slot c r.slot).doneOf ch + 1 ∧ MemoryKept s t ∧
        (t.slot c r.slot).uiq =
          (if r.mode = 0 then (s.slot c r.slot).uiq ++ [(r.pbWord 1, r.id)] else (s.slot c r.slot).uiq)) ∧
    (s.input.flag = false → r.done = r.len → r.awaited = 0 → r.mode = 2 →
      (s.core c).fkOut.contains (r.slot, r.pbWord 1) = false → fkPkg ((s.core c).fwdLookup (r.pbWord 1)) = s.pkgId.toNat →
      ∃ t, exec .copyCompletion s = .next t ∧ (t.core c).copyq = dropFirst ch (s.core c).copyq ∧
        (t.slot c r.slot).doneOf ch = (s.slot c r.slot).doneOf ch + 1 ∧ MemoryKept s t ∧
        (t.core c).fkOut = (s.core c).fkOut ++ [(r.slot, r.pbWord 1)] ∧
        ∃ q, (s.clk, Instr.fkOpResolve, { body := .firkin q }) ∈ t.agenda ∧ q.kind = .resolve r.id ∧ q.named = r.pbWord 1 ∧
          q.handle = (s.core c).fwdLookup (r.pbWord 1) ∧ q.core = c ∧ q.slot = r.slot ∧ q.gen = r.gen) ∧
    (∀ tn tm, r.mode = 3 → r.team = some tn → s.team? tn = some tm →
      let j := field (r.pbWord 0) 16 4
      let b := tm.bar j
      let counted := ((s.core c).count s.clk evBarDiscard 1).pmc
      let after := fun (t : State) (b' : Bar) (pmc : Table Word) => (∃ tm', t.team? tn = some tm' ∧ tm'.bar j = b' ∧
          ∀ i, i ≠ j → tm'.bar i = tm.bar i) ∧
        (t.core c).pmc = pmc ∧
        (t.core c).copyq = dropFirst ch (s.core c).copyq ∧
        (t.slot c r.slot).doneOf ch = (s.slot c r.slot).doneOf ch + 1 ∧ MemoryKept s t
      (s.input.flag = false → r.done = r.len → r.awaited = 0 → (b.valid = false ∨ genBefore r.barGen b.lastinv = true) →
        ∃ t, exec .copyCompletion s = .next t ∧ after t b counted) ∧
      (s.input.flag = false → r.done = r.len → r.awaited = 0 → b.valid = true → genBefore r.barGen b.lastinv = false →
        ∃ t, exec .copyCompletion s = .next t ∧ after t
          (if b.arr + 1 = b.exp then { b with gen := b.gen + 1, arr := 0, exp := b.initexp } else { b with arr := b.arr + 1 }) (s.core c).pmc) ∧
      (∀ f, s.input.flag = true → r.fault = some f → ∃ t, exec .copyCompletion s = .next t ∧ after t b counted)) ∧
    (∀ f, s.input.flag = true → r.fault = some f → r.mode = 1 ∨ r.mode = 2 →
      ∃ t, exec .copyCompletion s = .next t ∧ (t.core c).copyq = dropFirst ch (s.core c).copyq ∧
        (t.slot c r.slot).doneOf ch = (s.slot c r.slot).doneOf ch + 1 ∧ MemoryKept s t ∧
        (r.mode = 1 → tagPkg (destWord (r.pbWord 1)) = s.pkgId.toNat →
          (s.clk, Instr.messageArrival, { a := tagCore (destWord (r.pbWord 1)), body := .msg ⟨bits (r.pbWord 0) 8 8, 3,
            s.copyTag c r, destWord (r.pbWord 1), [r.id ||| 0x4000000000000000, r.pbWord 2, f.1.zeroExtend 64], 0⟩ }) ∈ t.agenda) ∧
        (r.mode = 2 → fkPkg (r.pbWord 1) = s.pkgId.toNat →
          (s.clk, Instr.breakNotice, { word := r.pbWord 1, cause := f.1, a := 6 }) ∈ t.agenda)) ∧
    (∀ f, s.input.flag = true → r.fault = some f → r.mode = 4 →
      ∃ t, exec .copyCompletion s = .next t ∧ (t.core c).copyq = dropFirst ch (s.core c).copyq ∧
        (t.slot c r.slot).doneOf ch = (s.slot c r.slot).doneOf ch + 1 ∧
        Table.get 0 (t.core c).wp ch = Table.get 0 (s.core c).wp ch + BitVec.ofNat 64 (r.len - r.done) ∧ MemoryKept s t)) ∧
  (∀ (s : State) (ch : Nat) (rest : List Nat) (r : CopyReq) (code : BitVec 8) (addr info : Word),
    let c := s.input.a; let k := s.input.b
    (s.slot c k).copyFaults = ch :: rest → k ≠ 63 → (s.slot c k).state = .active → r.fault = some (code, addr, info) →
    (s.core c).copyq.find? (fun x => x.chan = ch && x.slot = k && x.fault ≠ none) = some r →
    ∃ t, exec .copyFaultTrap s = .next t ∧ (t.slot c k).state = .trapped ∧ field (t.slot c k).cause 0 8 = code.toNat ∧
      (t.slot c k).faddr = addr ∧ (t.slot c k).finfo = info ∧ (t.slot c k).copyFaults = rest ∧ MemoryKept s t) ∧
  (∀ s : State, let c := s.input.a; let tag := s.input.b
    let n := fun (x : State) (k : Nat) => Table.get 0 (x.die (coreDie c)).ports k
    let passed := fun (k : Nat) => k = mcKey tag (coreX c) (coreY c) 4 ∨ (∃ i < coreY c, k = mcKey tag (coreX c) i 2) ∨
      ∃ i < coreX c, k = mcKey tag i 0 0
    let rest := fun (t : State) => MemoryKept s t ∧ ∀ j k, t.slot j k = s.slot j k
    (s.multicasting (coreDie c) tag = false →
      (∃ t, exec .multicastJoinPacket s = .next t ∧ (∀ k, passed k → n t k = (n s k + 1) % 256) ∧
        (∀ k, ¬passed k → n t k = n s k) ∧ rest t ∧
        (t.core c).mcast = (s.core c).mcast.map fun e => if e.tag = tag then { e with joined := true } else e) ∧
      ∃ t, exec .multicastLeavePacket s = .next t ∧ (∀ k, passed k → n t k = n s k - 1) ∧
        (∀ k, ¬passed k → n t k = n s k) ∧ rest t) ∧
    (s.multicasting (coreDie c) tag = true →
      exec .multicastJoinPacket s = .next (s.later (s.clk + 1) .multicastJoinPacket s.input) ∧
      exec .multicastLeavePacket s = .next (s.later (s.clk + 1) .multicastLeavePacket s.input))) ∧
  ∀ (s : State) (l : List Byte), let c := s.input.a % 2 ^ 11
    let off := s.mcBase c s.input.b s.input.d + s.input.c
    let loc := larderLoc c off
    s.input.body = .bytes l → s.input.flag = false → s.input.word = 0 → l ≠ [] → off + l.length ≤ 2 ^ 21 →
    s.poisonedIn loc l.length = false → ServesNow s [(loc, l.length)] →
    (∀ w, loc / 8 ≤ w → w ≤ (loc + l.length - 1) / 8 → ∀ x ∈ s.shelfOf (8 * w), x.loc ≠ 8 * w) →
    ∃ t, exec .multicastLineDelivery s = .next t ∧ Stores s t loc l.length (bytesNat l) ∧ ∀ c k, t.slot c k = s.slot c k)

/-! Messages and firkins (11_queues_core.md, 13). -/

/-- R270, R232, R318, R266: `send` to a core of the package posts the message with its type, its payload and the
sender's return tag and goes on; `sendjc` first adds 1 to its job counter; `invoke` makes a firkin, posts a message of
type 255 with it and gives its handle, 0 where the FRT is full. A destination outside the mesh traps ADDR_RANGE. -/
def Obligations.MessageInstructions : Prop :=
  ∀ o : F2,
    let dst := fun (s : State) => s.sreg o.a
    let here := fun (s : State) => s.destCheck (dst s) = .ok () ∧ tagPkg (destWord (dst s)) = s.pkgId.toNat ∧
      s.waitOver s.cur.core s.cur.slot (.performed false) = true
    let posted := fun (s t : State) (m : Msg) => (s.clk, Instr.messageArrival, { a := tagCore m.dst, body := .msg m }) ∈ t.agenda
    let message := fun (s : State) => (⟨bits o.x 0 8, field o.x 8 3, s.returnTag s.cur.core s.cur.slot, destWord (dst s),
      (List.range (field o.x 8 3)).map (fun i => s.curSlot.sreg (o.b.toNat + i)), 0⟩ : Msg)
    Completes (.send o) here (fun s t =>
      posted s t (message s) ∧ OnlyGoesOn s { t with agenda := s.agenda } s.curPath.succ) ∧
    (∀ (h : Home), let use := fun (s : State) => ({ addr := s.sreg o.c, size := 8, align := 8, rd := true, wr := true } : Use1)
      Completes (.sendjc o) (fun s => here s ∧ s.curPath.buf = [] ∧ s.check s.who [use s] = .ok () ∧
          s.home s.who (use s) = h ∧ HomeOk s h 8 ∧ ServesNow s [(h.loc, 8)]) (fun s t =>
        posted s t (message s) ∧ Stores s t h.loc 8 (s.readN h.loc 8 + 1) ∧ ScalarsKept s t ∧ VectorsKept s t ∧
        MasksKept s t ∧ GoesOn s t s.curPath.succ)) ∧
    (∀ i g,
      let fk := fun (s : State) => fkHandle s.pkgId.toNat s.cur.core i g
      -- the handle is in s[d] before the message is formed (R10)
      let r := fun (s : State) (n : Nat) => if n = o.d.toNat ∧ n ≠ 0 then fk s else s.curSlot.sreg n
      let dest := fun (s : State) => destWord (r s o.a.toNat ||| 63)
      Completes (.invoke o) (fun s => s.destCheck (dst s) = .ok () ∧ tagPkg (dest s) = s.pkgId.toNat ∧
        s.waitOver s.cur.core s.cur.slot (.performed false) = true ∧ BanksAwake s ∧ s.frtFind s.cur.core = .entry i g) (fun s t =>
      posted s t ⟨255, 6, s.returnTag s.cur.core s.cur.slot, dest s,
        (List.range o.x.toNat).map (fun i => r s (o.b.toNat + i)) ++ List.replicate (5 - o.x.toNat) 0 ++ [r s o.c.toNat],
        fk s⟩ ∧
      t.frt s.cur.core i 0 = frtWord 1 false false 0 0 true g ∧ ScalarIs s t o.d (fk s) ∧ VectorsKept s t ∧ MasksKept s t ∧
      GoesOn s t s.curPath.succ)) ∧
    Completes (.invoke o) (fun s => s.destCheck (dst s) = .ok () ∧
        s.waitOver s.cur.core s.cur.slot (.performed false) = true ∧ BanksAwake s ∧ s.frtFind s.cur.core = .full)
      (fun s t => SetsScalar s t o.d 0) ∧
    ∀ (i : Instr) (s : State), i = .send o ∨ i = .sendjc o ∨ i = .invoke o → Runs i s → 1280 ≤ tagCore (dst s) →
      exec i s = .next (s.takeTrap { code := 0x06, faddr := dst s })

/-- R267 to R269, R309, R268, R84, R273, R344: a message takes a mailbox entry where its kind has room, else goes back
to its sender; a message of type 248 that does not come from the host is dropped at the core (R370 has Hatch A refuse
it; that it is dropped there is the model's choice, log 68); a message whose type becomes bound becomes dispatchable;
a task starts from the message, or the descriptor, that R268 picks, with its registers; the host's answer puts a page
fault's slot before the S-slot, and a failure is written into its cause. -/
def Obligations.MessageUnit : Prop :=
  (∀ (s : State) (m : Msg), let c := s.input.a
    s.input.body = .msg m → s.input.flag = false → c < 1280 → (s.core c).inReset = false → m.ty ≠ 254 → m.ty ≠ 248 →
    (s.core c).port = [] →
    ((s.core c).mailbox.length < 256 →
      (Msg.user m = true → ((s.core c).mailbox.filter fun e => Msg.user e.msg).length < (s.core c).mblimit.toNat) →
      ∃ t, exec .messageArrival s = .next t ∧ MemoryKept s t ∧
        (t.core c).mailbox.map Mail.msg = (s.core c).mailbox.map Mail.msg ++ [m] ∧ ∀ k, t.slot c k = s.slot c k) ∧
    (Msg.user m = true → (s.core c).mblimit.toNat ≤ ((s.core c).mailbox.filter fun e => Msg.user e.msg).length →
      tagPkg (Msg.bounced m).dst = s.pkgId.toNat →
      ∃ t, exec .messageArrival s = .next t ∧ MemoryKept s t ∧ (t.core c).mailbox = (s.core c).mailbox ∧
        (s.clk, Instr.messageArrival, { a := tagCore (Msg.bounced m).dst, body := .msg (Msg.bounced m) }) ∈ t.agenda)) ∧
  (∀ (s : State) (m : Msg), s.input.body = .msg m → s.input.a < 1280 → m.ty = 248 → s.input.flag = false →
    s.input.cause ≠ fromHost → exec .messageArrival s = .next s) ∧
  (∀ (s : State) (e : Mail), let c := s.input.a
    s.input.b ≠ 0 → (s.core c).mailbox.find? (fun e => e.seq = s.input.b && !e.ready) = some e →
    ((s.vectorRead c e.msg.ty).dispatchable = true → ∃ t, exec .vectorTableReread s = .next t ∧ MemoryKept s t ∧
      (t.core c).mailbox = (s.core c).mailbox.map (fun x =>
        if x.msg.ty = e.msg.ty ∧ x.seq ≤ e.seq ∧ x.ready = false then
          { x with ready := true, pri := (s.vectorRead c e.msg.ty).pri } else x)) ∧
    ((s.vectorRead c e.msg.ty).dispatchable = false →
      exec .vectorTableReread s =
        .next ((s.vectorTouch c e.msg.ty).later (s.clk + 4096) .vectorTableReread { a := c, b := e.seq }))) ∧
  (∀ (s : State) (k : Nat), let c := s.input.a
    let before := (s.core c).inReset = false ∧ (s.core c).nextStart ≤ s.clk ∧ s.freeH c = some k
    (∀ e pc,
      -- what the read of entry 255 for a ready waiter leaves in the TLBs
      let u := s.reread255 c
      before → (s.core c).port = [] → s.pick c = some (.mail e) → s.unmatched c e.msg = false → u.pick c = some (.mail e) →
      u.vectorRead c e.msg.ty ≠ .unbound → (u.vectorRead c e.msg.ty).start e.msg = .ok pc →
      ∃ t, exec .taskDispatch s = .next t ∧ (t.slot c k).state = .active ∧ (t.slot c k).p.pc = pc ∧
        (t.slot c k).gen = (s.slot c k).gen ∧ (t.slot c k).taskid = handlerId e.msg.ty e.msg.src ∧
        (t.slot c k).pri = BitVec.ofNat 2 (u.vectorRead c e.msg.ty).pri ∧
        (∀ i < 6, (t.slot c k).sreg (i + 1) = if i < e.msg.len then e.msg.payload.getD i 0 else 0) ∧
        (t.slot c k).sreg 7 = e.msg.src ∧ (t.slot c k).sreg 8 = BitVec.ofNat 64 (e.msg.len * 256 + e.msg.ty.toNat) ∧
        (t.slot c k).sreg 9 = (if e.msg.ty = 255 then e.msg.fk else 0) ∧
        (t.core c).mailbox = (s.core c).mailbox.filter (fun x => x.seq ≠ e.seq) ∧ MemoryKept s t) ∧
    (before → BanksAwake s → (s.core c).mailbox = [] → (s.core c).ready = [] → (s.core c).rrhead ≠ (s.core c).rrtail →
      let entry := s.ringLoc c ((s.core c).rrhead.toNat % (s.core c).ringSize)
      let off := field (s.read64 entry) 0 21
      s.poisoned entry = false → s.poisoned (s.ringLoc c (s.core c).ringSize) = false → s.chainHead c = noLink →
      (∀ i, i = 1 ∨ i = 2 → s.poisoned (larderLoc c ((off + 8 * i) % 2 ^ 21)) = false) →
      ∃ t, exec .taskDispatch s = .next t ∧ (t.slot c k).state = .active ∧
        (t.slot c k).p.pc = s.read64 (larderLoc c ((off + 8) % 2 ^ 21)) ∧
        (t.slot c k).sreg 1 = s.read64 (larderLoc c ((off + 16) % 2 ^ 21)) ∧
        (t.slot c k).sreg 2 = larderAddr s.pkgId.toNat (coreDie c) (coreX c) (coreY c) off ∧
        (t.core c).rrhead = BitVec.ofNat 64 (((s.core c).rrhead.toNat + 1) % 65536) ∧ MemoryKept s t)) ∧
  ∀ (s : State) (m : Msg), s.input.body = .msg m →
    let c := s.input.a
    let k := field (m.payload.getD 0 0) 0 6
    let code := field (m.payload.getD 2 0) 0 16
    let mine := (s.slot c k).gen = bits (m.payload.getD 0 0) 32 32 ∧ (s.slot c k).state = .trapped ∧
      field (s.slot c k).cause 0 8 = 0x07
    (mine → (s.slot c k).unsettled = false → (∀ e ∈ (s.core c).events, e.2 ≠ k) →
      ∃ t, exec .hostPageAnswer s = .next t ∧ MemoryKept s t ∧ (s.clk, k) ∈ (t.core c).events ∧
        (code = 0 → t.slot c k = s.slot c k) ∧
        (code ≠ 0 → field (t.slot c k).cause 0 8 = 0x1A ∧ field (t.slot c k).finfo 0 16 = code)) ∧
    (¬mine → exec .hostPageAnswer s = .next (s.modCore c fun co =>
      { co with pglate := BitVec.ofNat 64 ((co.pglate.toNat + 1) % 2 ^ 32) }))

/-- R317, R319 to R323, R315: an operation on a firkin of the package is sent to its home, and the path waits for the
answer, but for `invf`, which goes on with the handle of its result firkin; `fkplace` and `invf` with a full FRT
answer BUSY, or 0. A handle that names no core traps. -/
def Obligations.FirkinInstructions : Prop :=
  ∀ o : F2,
    let h := fun (s : State) => s.sreg o.a
    let ok := fun (s : State) => s.handleCheck (h s) true = .ok () ∧ fkPkg (h s) = s.pkgId.toNat ∧ s.curCore.fwd = [] ∧
      s.curCore.fkOut.contains (s.cur.slot, h s) = false ∧ s.waitOver s.cur.core s.cur.slot (.performed false) = true
    let sent := fun (s t : State) (ev : Instr) (k : FkKind) =>
      ∃ r : FkReq, (s.clk, ev, { body := .firkin r }) ∈ t.agenda ∧ r.named = h s ∧ r.handle = h s ∧ r.kind = k ∧
        r.core = s.cur.core ∧ r.slot = s.cur.slot ∧ r.gen = s.curSlot.gen ∧ r.pathQ = s.cur.pathQ ∧ r.d = o.d
    let asks := fun (s t : State) (ev : Instr) (k : FkKind) =>
      sent s t ev k ∧ t.curPath.wait = .firkin ∧ t.pc = s.pc ∧ ScalarsKept s t ∧ VectorsKept s t ∧ MasksKept s t
    Completes (.resolve o) ok (fun s t => asks s t .fkOpResolve (.resolve (s.sreg o.b)) ∧ MemoryKept s t) ∧
    Completes (.fkget o) ok (fun s t =>
      asks s t (if o.x.getLsbD 0 then .fkOpDrop else .fkOpGet) (.get (o.x.getLsbD 0)) ∧ MemoryKept s t) ∧
    Completes (.fkstate o) ok (fun s t =>
      asks s t (if o.x.getLsbD 0 then .fkOpDrop else .fkOpState) (.state (o.x.getLsbD 0)) ∧ MemoryKept s t) ∧
    Completes (.fkbreak o) ok (fun s t => asks s t .fkOpBreak (.brk (bits o.x 0 8)) ∧ MemoryKept s t) ∧
    (∀ i g, Completes (.fkplace o) (fun s => ok s ∧ BanksAwake s ∧ s.frtFind s.cur.core = .entry i g) (fun s t =>
      asks s t .fkOpPlace (.place (fkHandle s.pkgId.toNat s.cur.core i g)) ∧
      t.frt s.cur.core i 0 = frtWord 1 true false 0 0 true g ∧ t.frt s.cur.core i 3 = h s)) ∧
    Completes (.fkplace o) (fun s => ok s ∧ BanksAwake s ∧ s.frtFind s.cur.core = .full) (fun s t =>
      SlotOnly s t s.cur.core s.cur.slot ∧ VectorsKept s t ∧ MasksKept s t ∧ GoesOn s t s.curPath.succ ∧
      ∀ n, t.sreg n = if n = o.d + 1 ∧ o.d + 1 ≠ 0 then 0 else if n = o.d ∧ o.d ≠ 0 then 1 else s.sreg n) ∧
    (∀ i g, Completes (.invf o) (fun s => ok s ∧ BanksAwake s ∧ s.frtFind s.cur.core = .entry i g) (fun s t =>
      let new := fkHandle s.pkgId.toNat s.cur.core i g
      sent s t .fkOpInvf (.invf (s.sreg o.b) (s.sreg o.c) new) ∧ ScalarIs s t o.d new ∧ VectorsKept s t ∧ MasksKept s t ∧
      t.frt s.cur.core i 0 = frtWord 1 false false 0 0 true g ∧ GoesOn s t s.curPath.succ)) ∧
    Completes (.invf o) (fun s => ok s ∧ BanksAwake s ∧ s.frtFind s.cur.core = .full) (fun s t => SetsScalar s t o.d 0) ∧
    ∀ (i : Instr) (s : State),
      i = .resolve o ∨ i = .fkget o ∨ i = .fkstate o ∨ i = .fkbreak o ∨ i = .fkplace o ∨ i = .invf o → Runs i s →
      -- R358: a task that issues `resolve`, `fkbreak` or `fkplace` with its own firkin has settled it
      let u := if i = .fkget o ∨ i = .fkstate o ∨ i = .invf o then s else s.modCur fun sl => sl.settles (h s)
      ((h s).getLsbD 63 = true → exec i s = .next (u.takeTrap { code := 0x11, faddr := h s })) ∧
      ((h s).getLsbD 63 = false → 10 ≤ field (h s) 41 4 →
        exec i s = .next (u.takeTrap { code := 0x06, faddr := h s, finfo := 1 }))

/-- R316, R319 to R325 (Table 13-4): every operation on a live entry at its home completes, and answers its requester
on the package: an `invf` becomes a waiter, ready where the firkin is resolved; a `resolve` stores the value and makes
the waiters ready, each with that value; a `fkplace` forwards the entry, its waiters numbered in queue order, and
sends the drain marker with their number; `fkget`, `fkstate` and `fkbreak` answer the value, the state word and the
break; a drop frees the entry with its generation advanced. A break notice, a drain marker and a drop notice act on
the entry that they name; a refused operation is sent again. R320 to R323, R315: the answer to an operation that a
path of the package awaits ends its instruction: the registers receive the answer, or the path traps with the handle
in `FADDR`. Where `fkget` names one register for both, the status is what it keeps (the model's choice, log 61). -/
def Obligations.FirkinHomes : Prop :=
  ((∀ (s : State) (r : FkReq), let c := fkCore r.handle; let i := fkIdx r.handle; let w := s.frt c i 0
    s.input.body = .firkin r → r.pkg = s.pkgId.toNat → r.crossed = false → r.forwarded = false → BanksAwake s →
    (s.core c).inReset = false →
    (s.core c).frtSpoiled = false → i < (s.core c).frtsize.toNat → s.frtPoisoned c i = false → fGen w = fkGen r.handle →
    fDrop w = false → fHold w = false → fState w = 1 ∨ fState w = 2 ∨ fState w = 3 →
    (fState w = 1 → s.queuePoisoned c i = false) →
    let answers := fun (t : State) (a : FkAns) => ∃ inp, (s.clk, Instr.firkinAnswer, inp) ∈ t.agenda ∧ inp.body = .answer r a
    let value : FkAns := if fState w = 1 then .pending else if fState w = 2 then .value (s.frt c i 1) else .broken (fCause w)
    let stateWord : Word := BitVec.ofNat 64 ((fCause w).toNat * 256 + (if r.core = c then 128 else 0) + fState w)
    let noReady := ∀ x ∈ (s.core c).ready, x.2.1 ≠ i
    let freed := fun (t : State) => t.frt c i 0 = frtWord 0 false false 0 0 false (nextGen (fGen w))
    (∀ arg entry res, r.kind = .invf arg entry res →
      (∀ j g, s.frtFind c = .entry j g →
        (fState w = 1 → fQe w = false → s.poisoned (s.frtLoc c (field (s.frt c i 2) 0 12) 0) = false) → fState w ≠ 3 →
        ∃ t, exec .fkOpInvf s = .next t ∧ answers t (.ok 0) ∧ t.frt c j 1 = arg ∧ t.frt c j 3 = res ∧
          (fState w = 2 → t.frt c j 2 = entry ∧ ∃ n, (j, i, n, s.frt c i 1) ∈ (t.core c).ready)) ∧
      (s.frtFind c = .full → fState w = 2 → ∃ t, exec .fkOpInvf s = .next t ∧ answers t .full ∧ MemoryKept s t) ∧
      (fState w = 3 → ∃ t, exec .fkOpInvf s = .next t ∧ answers t (.broken (fCause w)) ∧ MemoryKept s t)) ∧
    (∀ v, r.kind = .resolve v →
      (fState w = 1 → ∃ t, exec .fkOpResolve s = .next t ∧ answers t (.ok 0) ∧ t.frt c i 1 = v ∧
        t.frt c i 0 = frtWord 2 false false 0 0 true (fGen w) ∧ ∀ j ∈ s.waitersOf c i, ∃ n, (j, i, n, v) ∈ (t.core c).ready) ∧
      (fState w = 2 → ∃ t, exec .fkOpResolve s = .next t ∧ answers t .resolved ∧ MemoryKept s t) ∧
      (fState w = 3 → ∃ t, exec .fkOpResolve s = .next t ∧ answers t (.broken (fCause w)) ∧ MemoryKept s t)) ∧
    (∀ new, r.kind = .place new →
      (r.core ≠ c → fState w = 1 → i ∉ s.waitersOf c i → fkPkg new = s.pkgId.toNat →
        ∃ t, exec .fkOpPlace s = .next t ∧ answers t (.ok (s.frt c i 2 &&& 0xFFFFFFFF00000000#64)) ∧
          t.frt c i 0 = frtWord 4 false false 0 0 true (fGen w) ∧ t.frt c i 2 = new ∧
          (∀ x ∈ (s.waitersOf c i).zipIdx, ∃ q : FkReq, (s.clk, Instr.fkOpInvf, { body := .firkin q }) ∈ t.agenda ∧
            q.handle = new ∧ q.forwarded = true ∧ q.seq = x.2) ∧
          (s.clk, Instr.drainMarker, { word := new, a := (s.waitersOf c i).length }) ∈ t.agenda) ∧
      (r.core ≠ c → fState w = 2 → fkPkg new = s.pkgId.toNat →
        ∃ t, exec .fkOpPlace s = .next t ∧ answers t (.ok (s.frt c i 2 &&& 0xFFFFFFFF00000000#64)) ∧
          t.frt c i 0 = frtWord 4 false false 0 0 true (fGen w) ∧ t.frt c i 2 = new ∧
          (∃ q : FkReq, (s.clk, Instr.fkOpResolve, { body := .firkin q }) ∈ t.agenda ∧ q.handle = new ∧
            q.kind = .resolve (s.frt c i 1) ∧ q.forwarded = true) ∧
          (s.clk, Instr.drainMarker, { word := new, a := 1 }) ∈ t.agenda) ∧
      (r.core = c → ∃ t, exec .fkOpPlace s = .next t ∧ answers t (.value r.handle) ∧ MemoryKept s t)) ∧
    (∀ d, r.kind = .get d → ∃ t, exec .fkOpGet s = .next t ∧ answers t value ∧ MemoryKept s t) ∧
    (∀ d, r.kind = .state d → ∃ t, exec .fkOpState s = .next t ∧ answers t (.stateWord stateWord) ∧ MemoryKept s t) ∧
    (∀ cause, r.kind = .brk cause →
      (fState w = 1 → ∃ t, exec .fkOpBreak s = .next t ∧ answers t (.ok 0) ∧
        t.frt c i 0 = frtWord 3 false false cause 0 true (fGen w)) ∧
      (fState w = 2 → ∃ t, exec .fkOpBreak s = .next t ∧ answers t .resolved ∧ MemoryKept s t) ∧
      (fState w = 3 → ∃ t, exec .fkOpBreak s = .next t ∧ answers t (.broken (fCause w)) ∧ MemoryKept s t)) ∧
    (∀ d, r.kind = .get d →
      (fState w = 2 → noReady → ∃ t, exec .fkOpDrop s = .next t ∧ answers t value ∧ freed t) ∧
      (fState w ≠ 2 → ∃ t, exec .fkOpDrop s = .next t ∧ answers t value ∧ MemoryKept s t)) ∧
    (∀ d, r.kind = .state d →
      (fState w ≠ 1 → noReady → ∃ t, exec .fkOpDrop s = .next t ∧ answers t (.stateWord stateWord) ∧ freed t) ∧
      (fState w = 1 → ∃ t, exec .fkOpDrop s = .next t ∧ answers t (.stateWord stateWord) ∧ MemoryKept s t))) ∧
  (∀ (s : State) (c i : Nat), let w := s.frt c i 0
    s.fkEntry s.input.word = some (c, i) → BanksAwake s →
    (s.frtPoisoned c i = false → (fState w = 1 → s.queuePoisoned c i = false) →
      (fState w = 1 ∨ (fState w = 4 ∧ 16 ≤ s.input.a) → ∃ t, exec .breakNotice s = .next t ∧
        t.frt c i 0 = frtWord 3 false (fDrop w) s.input.cause 0 true (fGen w)) ∧
      (fState w = 4 → s.input.a < 16 → fkPkg (s.frt c i 2) = s.pkgId.toNat → ∃ t, exec .breakNotice s = .next t ∧
        MemoryKept s t ∧
        (s.clk, Instr.breakNotice, { word := s.frt c i 2, cause := s.input.cause, a := s.input.a }) ∈ t.agenda) ∧
      (fState w = 2 ∨ fState w = 3 → ∃ t, exec .breakNotice s = .next t ∧ MemoryKept s t)) ∧
    (∀ p, (s.core c).placing.find? (fun e => e.1 = i) = some (i, p) →
      (s.input.a ≤ (Table.get {} (s.core c).placing i).next →
        ∃ t, exec .drainMarker s = .next t ∧ t.frt c i 0 = w &&& ~~~0x1000000000000000#64) ∧
      ((Table.get {} (s.core c).placing i).next < s.input.a → ∃ t, exec .drainMarker s = .next t ∧ MemoryKept s t ∧
        (Table.get {} (t.core c).placing i).marker = some s.input.a)) ∧
    (fState w = 4 → ∃ t, exec .dropNotice s = .next t ∧ t.frt c i 0 = frtWord 0 false false 0 0 false (nextGen (fGen w))) ∧
    (fState w ≠ 4 → ∃ t, exec .dropNotice s = .next t ∧ MemoryKept s t)) ∧
  ∀ (s : State) (r : FkReq), s.input.body = .firkin r → fkPkg r.handle = s.pkgId.toNat →
    (∃ t, exec .firkinOpRetry s = .next t ∧ MemoryKept s t ∧ (s.clk, FkReq.event r, { body := .firkin r }) ∈ t.agenda) ∧
    (s.fkAwaited r = true → (s.core r.core).fkOut.contains (r.slot, r.named) = false → (s.core r.core).fwd = [] →
      r.handle = r.named → ∃ t, exec .fkgetRetry s = .next t ∧ MemoryKept s t ∧
      (s.clk, FkReq.event r, { body := .firkin r }) ∈ t.agenda) ∧
    (s.fkAwaited r = false → exec .fkgetRetry s = .next s)) ∧
  (∀ (s : State) (r : FkReq) (ans : FkAns), s.input.body = .answer r ans → fkPkg r.handle = s.pkgId.toNat →
    r.crossed = false → r.forwarded = false → s.reqs.find? (fun e => FkReq.sentAs r e.2) = none → (s.core r.core).fkHeld = [] → r.id ≠ 0 → r.slot ≠ 63 →
    (s.slot r.core r.slot).state = .active → (r.pathQ = true → (s.slot r.core r.slot).dual = true) → s.fkAwaited r = true →
    (∀ d v, r.kind = .get d → ans = .value v → ∃ t, exec .firkinAnswer s = .next t ∧ MemoryKept s t ∧
      ((t.slot r.core r.slot).path r.pathQ).pc = ((s.slot r.core r.slot).path r.pathQ).succ ∧
      ((t.slot r.core r.slot).path r.pathQ).wait = .none ∧
      ∀ n, (t.slot r.core r.slot).sreg n = if n = r.c.toNat ∧ n ≠ 0 then 0
        else if n = r.d.toNat ∧ n ≠ 0 then v else (s.slot r.core r.slot).sreg n) ∧
    (∀ v, r.kind = .resolve v → ∀ st x, (ans = .ok x ∧ st = 0) ∨ (∃ b, ans = .broken b ∧ st = 7) →
      ∃ t, exec .firkinAnswer s = .next t ∧ MemoryKept s t ∧
      ((t.slot r.core r.slot).path r.pathQ).pc = ((s.slot r.core r.slot).path r.pathQ).succ ∧
      ∀ n, (t.slot r.core r.slot).sreg n = if n = r.d.toNat ∧ n ≠ 0 then st else (s.slot r.core r.slot).sreg n) ∧
    (∀ v, r.kind = .resolve v → ans = .resolved → ∃ t, exec .firkinAnswer s = .next t ∧ MemoryKept s t ∧
      (t.slot r.core r.slot).state = .trapped ∧ field (t.slot r.core r.slot).cause 0 8 = 0x10 ∧
      (t.slot r.core r.slot).faddr = r.named))

/-! Leases and cellar engines (13, R327 to R335; 12, R289 to R294). -/

/-- R329, R331 to R334: `lease` refuses a kind above 3 and a full class queue, is granted an idle engine at once, wakes a
sleeping one within the budget, and waits in the queue behind a request of its kind and class; a group waits, a task
receives QUEUED and the core is the requester. `lrel` ends a live lease, discards a dead record, and answers STALE
otherwise; `estat` writes Table 13-11, with CMDS at most 16 by log 40. -/
def Obligations.Leases : Prop :=
  (∀ (o : F2),
    let kind := fun (s : State) => (s.sreg o.a).toNat
    let die := fun (s : State) => s.die (coreDie s.cur.core)
    let cls := fun (s : State) => min (field o.x 0 2) s.leaseCeiling
    let behind := fun (s : State) => (die s).leaseq.any fun x => x.kind = kind s && cls s ≤ x.cls
    let full := fun (s : State) => 32 ≤ ((die s).leaseq.filter fun x => x.cls = cls s).length
    let req := fun (s : State) =>
      (⟨if s.isGroup then s.asHolder else ⟨s.cur.core, 63, 0⟩, kind s, cls s, s.cur.pathQ⟩ : LeaseReq)
    let waits := fun (s t : State) => MemoryKept s t ∧ VectorsKept s t ∧ MasksKept s t ∧
      if s.isGroup then t.curPath.wait = .lease ∧ t.pc = s.pc ∧ ScalarsKept s t
      else ScalarIs s t o.d 6 ∧ GoesOn s t s.curPath.succ
    let idle := fun (s : State) (e : Nat) => ((die s).engine e).state = .idle ∧ engKind e = kind s
    let asleep := fun (s : State) (e : Nat) => ((die s).engine e).state = .asleep ∧ engKind e = kind s
    Completes (.lease o) (fun s => 3 < kind s ∨ (behind s = true ∧ full s)) (fun s t => SetsScalar s t o.d 3) ∧
    (∀ e, Completes (.lease o) (fun s => kind s ≤ 3 ∧ behind s = false ∧ e < 64 ∧ idle s e ∧ ∀ j < e, ¬idle s j) (fun s t =>
      let g := nextLgen ((die s).engine e).lgen
      (die t).engine e = { (die s).engine e with
        lgen := g, state := .leased, who := s.asHolder, cls := cls s, since := s.clk, fifos := {}, next := none } ∧
      (∀ j, j ≠ e → (die t).engine j = (die s).engine j) ∧
      ScalarIs s t o.d (leaseHandle (coreDie s.cur.core) e g) ∧ VectorsKept s t ∧ MasksKept s t ∧ MemoryKept s t ∧
      GoesOn s t s.curPath.succ)) ∧
    (∀ e, Completes (.lease o) (fun s => kind s ≤ 3 ∧ behind s = false ∧ (∀ j < 64, ¬idle s j) ∧
        (die s).awake < s.wakeCap (coreDie s.cur.core) ∧ e < 64 ∧ asleep s e ∧ ∀ j < e, ¬asleep s j) (fun s t =>
      ((die t).engine e).state = .waking ∧ ((die t).engine e).next = some (req s) ∧
      (s.clk + wakeTime (kind s), Instr.engineWakeComplete, { a := coreDie s.cur.core, b := e }) ∈ t.agenda ∧ waits s t)) ∧
    Completes (.lease o) (fun s => kind s ≤ 3 ∧ behind s = true ∧ ¬full s)
      (fun s t => (die t).leaseq = (die s).leaseq ++ [req s] ∧ waits s t)) ∧
  (∀ o : F2,
    let st := fun (s : State) => s.leaseState s.cur.core s.cur.slot (s.sreg o.a)
    let eng := fun (s t : State) => (t.die (leaseDie (s.sreg o.a))).engine (leaseEng (s.sreg o.a))
    let rest := fun (s t : State) => MemoryKept s t ∧ ScalarIs s t o.d 0 ∧ VectorsKept s t ∧ MasksKept s t ∧
      GoesOn s t s.curPath.succ
    Completes (.lrel o) (fun s => st s = .live) (fun s t => rest s t ∧ (eng s t).fifos = {} ∧ (eng s t).plan = none ∧
      (eng s t).lgen = (eng s s).lgen ∧ (eng s t).state = (if (eng s s).awaited = 0 then .idle else .evicting)) ∧
    Completes (.lrel o) (fun s => st s = .dead) (fun s t => rest s t ∧ eng s t = { eng s s with dead := none }) ∧
    Completes (.lrel o) (fun s => st s = .stale) (fun s t => SetsScalar s t o.d 8)) ∧
  ∀ o : F2,
    let st := fun (s : State) => s.leaseState s.cur.core s.cur.slot (s.sreg o.a)
    let eng := fun (s : State) => (s.die (leaseDie (s.sreg o.a))).engine (leaseEng (s.sreg o.a))
    let kind := fun (s : State) => engKind (leaseEng (s.sreg o.a))
    let word := fun (held cls kind results cmds state : Nat) => (BitVec.ofNat 64
      (min held (2 ^ 32 - 1) * 2 ^ 32 + cls * 2 ^ 28 + kind * 2 ^ 24 + results * 2 ^ 16 + cmds * 2 ^ 8 + state) : Word)
    Completes (.estat o) (fun s => st s = .live) (fun s t => SetsScalar s t o.d
      (word ((s.clk - (eng s).since) / 1024) (eng s).cls (kind s) (eng s).fifos.results.length
        (min 16 ((eng s).fifos.cmds.length + if (eng s).fifos.run.isSome then 1 else 0)) 1)) ∧
    (∀ d, Completes (.estat o) (fun s => st s = .dead ∧ (eng s).dead = some d) (fun s t => SetsScalar s t o.d
      (word 0 d.cls (kind s) d.fifos.results.length (min 16 d.fifos.evicted.length) 2))) ∧
    Completes (.estat o) (fun s => st s = .stale) (fun s t => SetsScalar s t o.d 0)

/-- R294: `epush` appends lanes 0 to 15 as a command, `epop` takes the next result into them and leaves lanes 16 to
127; what each answers for a stale handle, an evicted lease, a full command FIFO, and where nothing has been pushed.
-/
def Obligations.CommandQueues : Prop :=
  ∀ o : F2,
    let r := field o.x 0 8
    let h := fun (s : State) => s.sreg o.a
    let st := fun (s : State) => s.leaseState s.cur.core s.cur.slot (h s)
    let eng := fun (s t : State) => (t.die (leaseDie (h s))).engine (leaseEng (h s))
    let nb := fun (s : State) => o.x.getLsbD 8 || s.curSlot.task.isSome
    let command := fun (s : State) => (List.range 16).map fun i => lane (s.vreg r) i
    let gets := fun (s t : State) (l : List (BitVec 32)) => (∀ i < 128, lane (t.vreg r) i = if i < 16 then l.getD i 0 else lane (s.vreg r) i) ∧
      ∀ j, j ≠ r → t.vreg j = s.vreg j
    let rest := fun (s t : State) => MasksKept s t ∧ MemoryKept s t ∧ GoesOn s t s.curPath.succ
    Completes (.epush o) (fun s => st s = .stale) (fun s t => SetsScalar s t o.d 8) ∧
    Completes (.epush o) (fun s => st s = .dead) (fun s t => SetsScalar s t o.d 4) ∧
    Completes (.epush o) (fun s => st s = .live ∧ 16 ≤ (eng s s).fifos.cmds.length ∧ nb s = true) (fun s t => SetsScalar s t o.d 1) ∧
    Completes (.epush o) (fun s => st s = .live ∧ 16 ≤ (eng s s).fifos.cmds.length ∧ nb s = false)
      (fun s t => CurOnly s t ∧ ScalarsKept s t ∧ t.pc = s.pc ∧ t.curPath.wait = .command (h s)) ∧
    Completes (.epush o) (fun s => st s = .live ∧ (eng s s).fifos.cmds.length < 16 ∧ s.releaseHold true = .ok () ∧
        (eng s s).fifos.run.isSome = true) (fun s t =>
      (eng s t).fifos = { (eng s s).fifos with cmds := (eng s s).fifos.cmds ++ [command s] } ∧
      ScalarIs s t o.d 0 ∧ VectorsKept s t ∧ rest s t) ∧
    Completes (.epush o) (fun s => st s = .live ∧ s.releaseHold true = .ok () ∧ (eng s s).fifos.run = none ∧
        (eng s s).fifos.cmds = [] ∧ (eng s s).fifos.results.length < 16) (fun s t =>
      (eng s t).fifos = { (eng s s).fifos with run := some (command s) } ∧ ScalarIs s t o.d 0 ∧ VectorsKept s t ∧ rest s t) ∧
    Completes (.epop o) (fun s => st s = .stale) (fun s t => SetsScalar s t o.d 8) ∧
    (∀ l more, Completes (.epop o) (fun s => st s = .live ∧ (eng s s).fifos.results = l :: more ∧ (eng s s).fifos.cmds = [])
      (fun s t => (eng s t).fifos = { (eng s s).fifos with results := more } ∧ gets s t l ∧ ScalarIs s t o.d 0 ∧ rest s t)) ∧
    (∀ d l more, Completes (.epop o) (fun s => st s = .dead ∧ (eng s s).dead = some d ∧ d.fifos.results = l :: more)
      (fun s t => gets s t l ∧ ScalarIs s t o.d 0 ∧ rest s t)) ∧
    (∀ d c more, Completes (.epop o)
      (fun s => st s = .dead ∧ (eng s s).dead = some d ∧ d.fifos.results = [] ∧ d.fifos.evicted = c :: more)
      (fun s t => gets s t [BitVec.ofNat 32 (1 + field (c.getD 0 0) 16 16 * 65536)] ∧ ScalarIs s t o.d 4 ∧ rest s t ∧
        (more = [] → (eng s t).dead = none))) ∧
    Completes (.epop o) (fun s => st s = .live ∧ (eng s s).fifos.results = [] ∧ ((eng s s).fifos.pending = 0 ∨ nb s = true))
      (fun s t => SetsScalar s t o.d 2) ∧
    Completes (.epop o) (fun s => st s = .live ∧ (eng s s).fifos.results = [] ∧ 0 < (eng s s).fifos.pending ∧ nb s = false)
      (fun s t => CurOnly s t ∧ ScalarsKept s t ∧ t.pc = s.pc ∧ t.curPath.wait = .result (h s))

/-- R328 to R331, R289: a queued request is granted an idle engine, and its group goes on with the handle, or its core
receives a type-249 message; an engine that has woken is granted to the request for which it woke; one idle for
100,000 clk sleeps; one whose accesses are performed goes to the evicting request of its kind; a holder's 20,000 clk
let a higher class evict it, with a type-251 message to it; a command with nothing left to do appends its result. -/
def Obligations.LeaseService : Prop :=
  (∀ (s : State) (e : Nat) (r : LeaseReq), let d := s.input.a
    let g := nextLgen ((s.die d).engine e).lgen
    let h := leaseHandle d e g
    let granted := fun (t : State) =>
      ((t.die d).engine e).state = .leased ∧ ((t.die d).engine e).lgen = g ∧ ((t.die d).engine e).who = r.who ∧
      ((t.die d).engine e).cls = r.cls ∧ ((t.die d).engine e).since = s.clk ∧ ((t.die d).engine e).fifos = {} ∧ MemoryKept s t ∧
      (r.who.slot = 63 → ∃ inp m, (s.clk, Instr.messageArrival, inp) ∈ t.agenda ∧ inp.a = r.who.core ∧ inp.body = .msg m ∧ m.ty = 249 ∧
        m.src = 0 ∧ m.payload = [h, BitVec.ofNat 64 (r.cls * 256 + r.kind)]) ∧
      (r.who.slot ≠ 63 → let k := r.who.slot; let c := r.who.core
        (r.pathQ = true → (s.slot c k).dual = true) → ((s.slot c k).path r.pathQ).chan = false →
        let q := Table.get 0 ((s.slot c k).path r.pathQ).buf 0
        ((t.slot c k).path r.pathQ).pc = ((s.slot c k).path r.pathQ).succ ∧ ((t.slot c k).path r.pathQ).wait = .none ∧
        ∀ n < 32, (t.slot c k).sreg n = if n = q.toNat ∧ n ≠ 0 then h else (s.slot c k).sreg n)
    (e < 64 → (s.die d).leaseq = [r] → ((s.die d).engine e).state = .idle → engKind e = r.kind →
      (∀ j < e, ¬(((s.die d).engine j).state = .idle ∧ engKind j = r.kind)) →
      ∃ t, exec .leaseQueueReexamine s = .next t ∧ granted t ∧ (t.die d).leaseq = []) ∧
    (s.input.b = e → (s.die d).leaseq = [] → ((s.die d).engine e).state = .waking → ((s.die d).engine e).next = some r →
      ∃ t, exec .engineWakeComplete s = .next t ∧ granted t) ∧
    (s.input.b = e → (s.die d).leaseq = [] → ((s.die d).engine e).state = .evicting → ((s.die d).engine e).awaited = 0 →
      ((s.die d).engine e).toIdle = false → ((s.die d).engine e).next = some r → engKind e = r.kind →
      ∃ t, exec .evictionDrainComplete s = .next t ∧ granted t)) ∧
  (∀ (s : State), let d := s.input.a; let e := s.input.b; let x := (s.die d).engine e
    (x.state = .idle → x.since = s.input.c → (s.die d).leaseq = [] →
      exec .engineIdleSleep s = .next (s.modEngine d e fun x => { x with state := .asleep })) ∧
    (x.state = .waking → x.next = none → ∃ t, exec .engineWakeComplete s = .next t ∧ ((t.die d).engine e).state = .idle ∧
      (s.clk + 100000, Instr.engineIdleSleep, { a := d, b := e, c := s.clk }) ∈ t.agenda)) ∧
  (∀ (s : State) (r : LeaseReq), let d := s.input.a; let e := s.input.b; let x := (s.die d).engine e
    e < 64 → x.state = .leased → x.lgen.toNat = s.input.c → (s.die d).leaseq = [r] → engKind e = r.kind → x.cls < r.cls →
    x.since + 20000 ≤ s.clk → (∀ j < 64, j ≠ e → engKind j = r.kind → ((s.die d).engine j).state = .evicting) →
    (∀ j < 64, ((s.die d).engine j).state ≠ .idle) →
    (∀ j < 64, j ≠ e → ((s.die d).engine j).state = .leased → r.cls ≤ ((s.die d).engine j).cls) →
    ∃ t, exec .leaseHoldThreshold s = .next t ∧ ((t.die d).engine e).state = .evicting ∧ ((t.die d).engine e).next = some r ∧
      ((t.die d).engine e).dead = some ⟨x.lgen, x.who, x.cls,
        { results := x.fifos.results, evicted := x.fifos.run.toList ++ x.fifos.cmds }⟩ ∧ (t.die d).leaseq = [] ∧ MemoryKept s t ∧
      ∃ inp m, (s.clk, Instr.messageArrival, inp) ∈ t.agenda ∧ inp.a = x.who.core ∧ inp.body = .msg m ∧ m.ty = 251 ∧ m.src = 0 ∧
        m.payload = [leaseHandle d e x.lgen, BitVec.ofNat 64 (r.cls * 256 + r.kind), BitVec.ofNat 64 x.fifos.pending]) ∧
  ∀ (s : State) (p : EngPlan) (c : List (BitVec 32)), let d := s.input.a; let e := s.input.b; let x := (s.die d).engine e
    x.plan = some p → x.state = .leased → x.fifos.run = some c → p.writes = [] → x.awaited = 0 → x.fifos.cmds = [] →
    exec .cellarResultWritten s = .next (s.modEngine d e fun x =>
      { x with plan := none, buf := [], fifos := { x.fifos with run := none, results := x.fifos.results ++ [p.result] } })

/-! The operations of cellar engines (12, R289 to R293). -/

namespace Sys2Proof.Claims

/-- The bytes of a region are read as `n` elements of `w` bytes, `l`. -/
abbrev reads (s : State) (x : EngCtx) (a : Word) (w : Nat) (l : List Nat) (n : Nat) : Prop :=
  s.engElems x w n a = .ok l ∧ l.length = n ∧ w * n ≤ 2 ^ 24
/-- The bytes of 32-bit values. -/
def words32 (l : List Nat) : List Byte := l.flatMap fun v => (List.range 4).map fun j => BitVec.ofNat 8 (v / 256 ^ j)
/-- The bytes of elements of a type. -/
def bytesOf (w : Nat) (l : List Nat) : List Byte := l.flatMap fun v => (List.range w).map fun j => BitVec.ofNat 8 (v / 256 ^ j)
/-- Words 0 and 3 of a command hold FL and P within the masks given, and the words of a list and the last three hold zero. -/
def onlyUses (x : EngCtx) (fl : Nat) (ty k : Bool) (zeros : List Nat) : Prop :=
  (∀ i, i = 13 ∨ i = 14 ∨ i = 15 ∨ i ∈ zeros → x.w i = 0) ∧ x.fl &&& fl = x.fl ∧ x.w 3 / 16 % 4096 = 0 ∧
  (ty = true ∨ x.w 3 % 16 = 0) ∧ (k = true ∨ x.k = 0)
/-- Offsets that ascend from 0 to `n`. -/
abbrev ascends (offs : List Nat) (m n : Nat) : Prop :=
  offs.length = m + 1 ∧ offs.getD 0 0 = 0 ∧ offs.getD m 0 = n ∧ ∀ i < m, offs.getD i 0 ≤ offs.getD (i + 1) 0
/-- Part `i` of a list cut at offsets. -/
def part {α : Type} (offs : List Nat) (l : List α) (i : Nat) : List α :=
  (l.drop (offs.getD i 0)).take (offs.getD (i + 1) 0 - offs.getD i 0)
/-- Row `r` of `m`. -/
def row {α : Type} (m : Nat) (l : List α) (r : Nat) : List α := (l.drop (r * m)).take m
/-- Keys with what goes with them, in an order in which every pair that is out of place is equal and as it was. -/
abbrev stable (t : BitVec 4) (desc : Bool) (l out : List (Nat × Nat)) : Prop :=
  out.Perm l ∧ out.Pairwise fun a b =>
    (if desc then sortRank t b.1 < sortRank t a.1 else sortRank t a.1 < sortRank t b.1) ∨
    (sortRank t a.1 = sortRank t b.1 ∧ a.2 < b.2)

/-- The bytes that a command of an operation writes from its DST on (Table 12-6), where its limits hold and its sources can be
read; for SORT without VAL. -/
def engineWrites (op : Nat) (s : State) (x : EngCtx) (out : List Byte) : Prop :=
  let float := x.ty = 10 ∨ x.ty = 9
  let w := elemBytes x.ty
  let f := fmtOf x.ty
  let size := x.n * x.m
  let rows := 1 ≤ x.n ∧ x.n ≤ 65536 ∧ 1 ≤ x.m ∧ x.m ≤ 65536
  match op with
  | 0x01 => ∃ l, float ∧ rows ∧ onlyUses x 0 true false [8, 9, 10, 11] ∧ reads s x x.src w l size ∧
      out = bytesOf w ((List.range size).map fun i =>
        let t := (row x.m l (i / x.m)).map fun v => toF32 (Fp.mul (f32.decode (x.w 12)) (f.decode v))
        let e := t.map fun v => toF32 (Fp.exp (toF32 (Fp.add .rne v (maxIn t).neg)))
        f.encode .rne (Fp.div (e.getD (i % x.m) .nan) (sumIn f64 e)))
  | 0x02 => ∃ l, float ∧ rows ∧ onlyUses x 0 true false [8, 9, 10, 11] ∧ reads s x x.src w l size ∧ 4 * x.n ≤ 2 ^ 24 ∧
      out = words32 ((List.range x.n).map fun r => f32.encode .rne (maxIn ((row x.m l r).map f.decode)))
  | 0x03 => ∃ l, float ∧ rows ∧ onlyUses x 0 true false [8, 9, 10, 11] ∧ reads s x x.src w l size ∧ 4 * x.n ≤ 2 ^ 24 ∧
      out = words32 ((List.range x.n).map fun r => f32.encode .rne (sumIn f64 ((row x.m l r).map f.decode)))
  | 0x04 => ∃ l, float ∧ onlyUses x 0 true false [8, 9, 10, 11] ∧ reads s x x.src w l size ∧
      out = bytesOf w (l.map fun v => f.encode .rne (Fp.exp (toF32 (Fp.mul (f32.decode (x.w 12)) (f.decode v)))))
  | 0x05 => ∃ l, float ∧ onlyUses x 0 true false [8, 9, 10, 11] ∧ reads s x x.src w l size ∧
      out = bytesOf w (l.map fun v => f.encode .rne (Fp.ln (f.decode v)))
  | 0x11 => ∃ l keys, (x.ty = 2 ∨ x.ty = 6 ∨ x.ty = 10) ∧ 1 ≤ x.n ∧ x.n ≤ 1048576 ∧ x.m = 0 ∧ x.fl < 2 ∧
      onlyUses x 3 true false [8, 9, 10, 11, 12] ∧ reads s x x.src 4 l x.n ∧ stable x.ty (x.fl = 1) l.zipIdx keys ∧
      out = words32 (keys.map Prod.fst)
  | 0x13 => ∃ l offs, ∃ seg : Nat → List (Nat × Nat), (x.ty = 2 ∨ x.ty = 6 ∨ x.ty = 10) ∧ onlyUses x 0 true false [10, 11, 12] ∧
      reads s x x.aux 4 offs (x.m + 1) ∧ ascends offs x.m x.n ∧ reads s x x.src 4 l x.n ∧
      (∀ i < x.m, stable x.ty false (part offs l i).zipIdx (seg i)) ∧
      out = words32 ((List.range x.m).flatMap fun i => (seg i).map Prod.fst)
  | 0x31 => ∃ ix, ∃ rowAt : Nat → List Byte, 1 ≤ x.m ∧ x.m ≤ 65536 ∧ x.n * x.m ≤ 2 ^ 24 ∧ onlyUses x 0 false false [10, 11, 12] ∧
      reads s x x.aux 4 ix x.n ∧
      (∀ i ∈ ix, if i = 0xFFFFFFFF then rowAt i = List.replicate x.m 0
        else s.engRead x (x.src + BitVec.ofNat 64 (i * x.m)) x.m = .ok (rowAt i)) ∧
      out = ix.flatMap rowAt
  | 0x32 => ∃ ix offs, ∃ rowAt : Nat → List Nat, float ∧ x.fl < 3 ∧ onlyUses x 3 true true [12] ∧ 4 * x.k * x.m ≤ 2 ^ 24 ∧
      x.m * w ≤ 2 ^ 24 ∧ reads s x x.aux2 4 offs (x.k + 1) ∧ ascends offs x.k x.n ∧ reads s x x.aux 4 ix x.n ∧
      (∀ i ∈ ix, reads s x (x.src + BitVec.ofNat 64 (i * x.m * w)) w (rowAt i) x.m) ∧
      out = words32 ((List.range x.k).flatMap fun b => (List.range x.m).map fun j =>
        let l := (part offs ix b).map fun i => f.decode ((rowAt i).getD j 0)
        f32.encode .rne (if l = [] then .fin false 0 0 else if x.fl = 0 then sumIn f32 l
          else if x.fl = 1 then Fp.div (sumIn f32 l) (.fin false l.length 0) else maxIn l))
  | 0x33 => ∃ l offs, (x.ty = 2 ∨ x.ty = 10) ∧ x.fl < 3 ∧ onlyUses x 3 true false [10, 11, 12] ∧ 4 * x.m ≤ 2 ^ 24 ∧
      reads s x x.aux 4 offs (x.m + 1) ∧ ascends offs x.m x.n ∧ reads s x x.src 4 l x.n ∧
      out = words32 ((List.range x.m).map fun i => segReduce x.ty x.fl (part offs l i))
  | _ => False

/-- What a command that writes `out` from its DST on returns as OUTN (Table 12-5): the elements, or for GATHER the bytes [log 41,
DEDUCED]. -/
def engineOutn (op : Nat) (x : EngCtx) (out : List Byte) : Nat :=
  if op = 0x31 then out.length
  else if op = 0x01 ∨ op = 0x04 ∨ op = 0x05 then out.length / elemBytes x.ty
  else out.length / 4

/-- The parts of what a command writes pass the checks one after the other, each with its home in memory of the package that is awake and
not poisoned, and the engine awaits nothing then. -/
def Served (x : EngCtx) : State → List (Word × List Byte) → Prop
  | s, [] => ((s.die x.die).engine x.eng).awaited = 0
  | s, w :: rest =>
    let h := s.copyHome x.who w.1 w.2.length true
    BanksAwake s ∧ s.engCheck x w.1 w.2.length true = .ok ∧ s.across h = false ∧ s.poisonedIn h.loc w.2.length = false ∧
      ∀ u, s.engWritePart x w.1 w.2 = .done u → Served x u rest
/-- The parts of what a command writes, one after the other, reach memory of the package. -/
def Lands (x : EngCtx) : State → List (Word × List Byte) → State → Prop
  | s, [], t => t = s
  | s, w :: rest, t => ∃ s', s.engWritePart x w.1 w.2 = .done s' ∧ Lands x s' rest t

/-- The events that are a step of an engine's operation, with their operation codes (Table 12-6). -/
def engineOps : List (Nat × Instr × (State → EngCtx → Eng EngOut)) :=
  [(0x01, .softmax, opSoftmax), (0x02, .rowmax, opRowmax), (0x03, .rowsum, opRowsum), (0x04, .exp, opExp), (0x05, .log, opLog),
   (0x11, .sort, opSort), (0x12, .topk, opTopk), (0x13, .segsort, opSegsort), (0x21, .zf8enc, opZf8enc), (0x22, .zf8dec, opZf8dec),
   (0x31, .gather, opGather), (0x32, .embbag, opEmbbag), (0x33, .segred, opSegred)]

end Sys2Proof.Claims

/-- R289 to R291 (Tables 12-5, 12-6): a step of each of the thirteen operations, on an engine that executes a command
of it and awaits nothing. A command outside its limits accesses nothing and returns BADCMD; one whose source cannot be
read returns FAULT with the cause and the address; else the operation completes: what it computes from its sources
(EngineResults says what) is written part by part, each at the home of its address, and its result follows. An
operation that writes one region within a line leaves in memory exactly the bytes that Table 12-6 gives, and returns
OUTN. A command whose writes had to wait goes on with those left. That OUTN counts bytes for GATHER and elements for the
others, where Table 12-5 says 'elements or bytes', and that all sources are read before anything is written are the
model's choices (log 41). -/
def Obligations.EngineSteps : Prop :=
  (∀ op i f, (op, i, f) ∈ engineOps → ∀ (s : State) (c : List (BitVec 32)), let d := s.input.a; let e := s.input.b
    let y := (s.die d).engine e
    let x := s.engCtx d e c
    y.fifos.run = some c → y.state = .leased → field (c.getD 0 0) 0 8 = op → y.awaited = 0 →
    let result := fun (t : State) (estat code outn : Nat) (addr : Word) =>
      (∃ p, ((t.die d).engine e).plan = some p ∧ p.writes = [] ∧
        p.result = [BitVec.ofNat 32 (estat + code * 256 + field (c.getD 0 0) 16 16 * 65536), BitVec.ofNat 32 outn,
          BitVec.ofNat 32 addr.toNat, BitVec.ofNat 32 (addr.toNat / 2 ^ 32)]) ∧
      (t.clk, Instr.cellarResultWritten, { a := d, b := e }) ∈ t.agenda
    (y.plan = none →
      (∀ (out : List Byte) (h : Home), engineWrites op s x out → out ≠ [] → x.dst.toNat % 64 + out.length ≤ 64 → BanksAwake s →
        s.engCheck x x.dst out.length true = .ok → s.copyHome x.who x.dst out.length true = h → s.across h = false →
        s.poisonedIn h.loc out.length = false →
        (∀ w, h.loc / 8 ≤ w → w ≤ (h.loc + out.length - 1) / 8 → ∀ a ∈ s.shelfOf (w * 8), a.loc ≠ w * 8) →
        ∃ t, exec i s = .next t ∧ Stores s t h.loc out.length (bytesNat out) ∧ result t 0 0 (engineOutn op x out) 0) ∧
      (∀ o, f s x = .ok o → BanksAwake s → let s1 := (s.engTouch x false o.reads).1
        Served x s1 (o.plan c).writes →
        ∃ t u, exec i s = .next t ∧ Lands x s1 (o.plan c).writes u ∧ MemoryKept u t ∧ result t o.estat 0 o.outn 0) ∧
      (f s x = .error .bad → ∃ t, exec i s = .next t ∧ result t 2 0 0 0 ∧ MemoryKept s t ∧ t.cores = s.cores) ∧
      (∀ code a, f s x = .error (.fault code a) → ∃ t, exec i s = .next t ∧ result t 3 code.toNat 0 a ∧ MemoryKept s t ∧
        t.cores = s.cores)) ∧
    (∀ p, y.plan = some p → Served x s p.writes → ∃ t u, exec i s = .next t ∧ Lands x s p.writes u ∧ MemoryKept u t ∧
      (∃ p', ((t.die d).engine e).plan = some p' ∧ p'.writes = [] ∧ p'.result = p.result) ∧
      (t.clk, Instr.cellarResultWritten, { a := d, b := e }) ∈ t.agenda)) ∧
  ∀ (s : State) (x : EngCtx) (a : Word) (l : List Byte) (h : Home),
    0 < l.length → a.toNat % 64 + l.length ≤ 64 → BanksAwake s → s.engCheck x a l.length true = .ok →
    s.copyHome x.who a l.length true = h → s.across h = false → s.poisonedIn h.loc l.length = false →
    (∀ w, h.loc / 8 ≤ w → w ≤ (h.loc + l.length - 1) / 8 → ∀ y ∈ s.shelfOf (w * 8), y.loc ≠ w * 8) →
    ∃ s', s.engWritePart x a l = .done s' ∧ Stores s s' h.loc l.length (bytesNat l)

/-- Table 12-6, R292, R293: what the operations compute. TOPK takes the first K of each row's keys in the order of
SORT, with their positions; ZF8ENC and ZF8DEC work block by block. What OUTN counts, and that ZF8DEC writes the blocks
before a bad one as R293 has it for ZF8ENC, are the model's choices (log 41). -/
def Obligations.EngineResults : Prop :=
  (∀ op i f, (op, i, f) ∈ engineOps → ∀ (s : State) (x : EngCtx) (out : List Byte), engineWrites op s x out →
    ∃ o, f s x = .ok o ∧ o.writes = [(x.dst, out)] ∧ o.estat = 0 ∧ o.outn = engineOutn op x out) ∧
  (∀ (s : State) (x : EngCtx) (l : List Nat) (rowOut : Nat → List (Nat × Nat)),
    (x.ty = 2 ∨ x.ty = 6 ∨ x.ty = 10) → 1 ≤ x.k → x.k ≤ x.m → x.k ≤ 1024 → onlyUses x 1 true true [8, 9, 12] →
    reads s x x.src 4 l (x.n * x.m) → (∀ r < x.n, stable x.ty (x.fl = 1) (row x.m l r).zipIdx (rowOut r)) →
    ∃ o, opTopk s x = .ok o ∧ o.estat = 0 ∧ o.outn = x.n * x.k ∧
      o.writes = [(x.dst, words32 ((List.range x.n).flatMap fun r => ((rowOut r).take x.k).map Prod.fst)),
        (x.aux2, words32 ((List.range x.n).flatMap fun r => ((rowOut r).take x.k).map Prod.snd))]) ∧
  (∀ (s : State) (x : EngCtx) (l vals : List Nat) (order : List (Nat × Nat)),
    (x.ty = 2 ∨ x.ty = 6 ∨ x.ty = 10) → 1 ≤ x.n → x.n ≤ 1048576 → x.m = 0 → (x.fl = 2 ∨ x.fl = 3) → onlyUses x 3 true false [12] →
    reads s x x.src 4 l x.n → reads s x x.aux 4 vals x.n → stable x.ty (x.fl = 3) l.zipIdx order →
    ∃ o, opSort s x = .ok o ∧ o.estat = 0 ∧ o.outn = x.n ∧
      o.writes = [(x.dst, words32 (order.map Prod.fst)), (x.aux2, words32 (order.map fun e => vals.getD e.2 0))]) ∧
  (∀ (s : State) (x : EngCtx) (tables l : List Nat) (block : Nat → List Byte),
    (x.ty = 10 ∨ x.ty = 9) → x.fl ≠ 0 → x.m = 0 → onlyUses x 255 true false [10, 11, 12] → 52 * x.n ≤ 2 ^ 24 →
    reads s x x.aux 8 tables 8 → reads s x x.src (elemBytes x.ty) l (32 * x.n) →
    let code := fun i => zf8Block (tables.map (BitVec.ofNat 64)) x.fl ((row 32 l i).map (fmtOf x.ty).decode)
    let writes := fun n => (List.range n).flatMap block
    ((∀ i < x.n, code i = some (block i)) →
      ∃ o, opZf8enc s x = .ok o ∧ o.estat = 0 ∧ o.writes = [(x.dst, writes x.n)] ∧ o.outn = (writes x.n).length) ∧
    (∀ n < x.n, (∀ i < n, code i = some (block i)) → code n = none →
      ∃ o, opZf8enc s x = .ok o ∧ o.estat = 4 ∧ o.writes = [(x.dst, writes n)] ∧ o.outn = n)) ∧
  ∀ (s : State) (x : EngCtx) (tables : List Nat) (at_ : Nat → Word) (head : Nat → Nat) (rest : Nat → List Byte)
    (values : Nat → List Fp),
    (x.ty = 10 ∨ x.ty = 9) → x.m = 0 → onlyUses x 0 true false [10, 11, 12] → 52 * x.n ≤ 2 ^ 24 →
    32 * x.n * elemBytes x.ty ≤ 2 ^ 24 → reads s x x.aux 8 tables 8 → at_ 0 = x.src →
    (∀ i < x.n, reads s x (at_ i) 4 [head i] 1 ∧ s.engRead x (at_ i + 4) (zSize (head i) - 4) = .ok (rest i) ∧
      at_ (i + 1) = at_ i + BitVec.ofNat 64 (zSize (head i))) →
    let good := fun i => zOk (head i) = true ∧ zf8Values (tables.map (BitVec.ofNat 64)) (head i) (rest i) = some (values i)
    let out := fun n => bytesOf (elemBytes x.ty) ((List.range n).flatMap fun i => (values i).map ((fmtOf x.ty).encode .rne))
    ((∀ i < x.n, good i ∧ (values i).length = 32) →
      ∃ o, opZf8dec s x = .ok o ∧ o.estat = 0 ∧ o.outn = 32 * x.n ∧ o.writes = [(x.dst, out x.n)]) ∧
    ∀ n < x.n, (∀ i < n, good i) → zOk (head n) = false →
      ∃ o, opZf8dec s x = .ok o ∧ o.estat = 4 ∧ o.outn = n ∧ o.writes = [(x.dst, out n)]

/-! Launch and the package admitter (12, R295 to R304; 14, R354, R357; R368). -/

/-- R296 (Table 12-8), R297: `launch` of a good record by a group puts it, with its PARENT, at the end of the team's
queue and counts the child; with four records there it answers BUSY; a record elsewhere than on a 64-byte boundary,
one that fails a check, and a task that launches, trap. R354: `lwait` writes the counter's value once it is at most
zero, and at once in a task; a group waits while it is positive and reads it again every 256 clk. -/
def Obligations.Launch : Prop :=
  ((∀ (o : F2) (m : Member) (tm : Team) (g : Grid) (r : List Word),
    let in' := fun (s : State) => s.isGroup = true ∧ (s.sreg o.a).toNat % 64 = 0 ∧ (∀ e ∈ s.curPath.buf, e.1 ≠ 6100) ∧
      (∃ u, s.readRecord (s.sreg o.a) = .ok (u, r) ∧ u.recordReason false u.curPart r = 0) ∧
      s.curSlot.member = some m ∧ s.curTeam? = some tm ∧ s.curGrid? = some g
    Completes (.launch o) (fun s => in' s ∧ tm.pend.length < 4 ∧ s.releaseHold true = .ok ()) (fun s t =>
      t.curTeam? = some { tm with
        pend := tm.pend ++ [r.set 4 (BitVec.ofNat 64 (recLaunchId g.record * 2 ^ 32 + recLaunchId r))] } ∧
      t.curGrid? = some { g with children := g.children + 1 } ∧
      (tm.pend = [] → (s.clk + 64, Instr.pendingLaunchTransfer, { a := m.team }) ∈ t.agenda) ∧
      ScalarIs s t o.d 0 ∧ VectorsKept s t ∧ MasksKept s t ∧ MemoryKept s t ∧ GoesOn s t s.curPath.succ) ∧
    Completes (.launch o) (fun s => in' s ∧ 4 ≤ tm.pend.length) (fun s t =>
      t.curTeam? = some tm ∧ t.curGrid? = some g ∧ ScalarIs s t o.d 1 ∧ VectorsKept s t ∧ MasksKept s t ∧ MemoryKept s t ∧
      GoesOn s t s.curPath.succ)) ∧
  (∀ (o : F2) (s : State), Runs (.launch o) s →
    let a := s.sreg o.a
    (s.isGroup = false → ∃ h, exec (.launch o) s = .next (s.takeTrap { code := 0x02, faddr := s.pc, finfo := h })) ∧
    let fresh := ∀ e ∈ s.curPath.buf, e.1 ≠ 6100
    (s.isGroup = true → fresh → a.toNat % 64 ≠ 0 → exec (.launch o) s = .next (s.takeTrap { code := 0x05, faddr := a })) ∧
    ∀ u r, s.isGroup = true → fresh → a.toNat % 64 = 0 → s.readRecord a = .ok (u, r) → u.recordReason false u.curPart r ≠ 0 →
      exec (.launch o) s = .next (u.takeTrap
        { code := 0x16, faddr := a, finfo := BitVec.ofNat 64 (u.recordReason false u.curPart r) })) ∧
  ∀ (s : State) (host : Bool) (part : Nat) (r : List Word), s.recordReason host part r = 0 ↔
    field (recWord r 3) 52 12 = 0 ∧ field (recWord r 5) 2 62 = 0 ∧ recWord r 6 = 0 ∧ recWord r 7 = 0 ∧
    (host = true → recParent r = 0) ∧
    field (recWord r 0) 57 7 = 0 ∧ (recWord r 0).getLsbD 0 = false ∧ field (recWord r 0) 0 6 ≠ 0 ∧
    1 ≤ recNclus r ∧ recNclus r ≤ 1280 ∧ 1 ≤ recW r ∧ recW r ≤ 12 ∧ 1 ≤ recH r ∧ recH r ≤ 12 ∧ recW r * recH r ≤ 12 ∧
    recVcode r ≤ 4 ∧ recTiles r ≤ 14 ∧ (0 < recTiles r → recGroups r ≤ 63) ∧ recLarder r ≤ 512 ∧ recDies r ≠ 0 ∧
    (∀ d ∈ recDieList r, (s.partn part).pairs.getLsbD d = true) ∧
    recCells r ≤ 160 * (recDieList r).length ∧ (recOneDie r = true → recCells r ≤ 160) ∧
    (∃ d ∈ recDieList r, ∃ i < 160, s.couldHold r (d * 160 + i) = true) ∧ field (recWord r 2) 0 3 = 0) ∧
  ((∀ (o : F2) (h : Home),
    let use := fun (s : State) => ({ addr := s.sreg o.a, size := 8, align := 8, rd := true, wr := false } : Use1)
    let reads := fun (s : State) =>
      s.check s.who [use s] = .ok () ∧ s.home s.who (use s) = h ∧ HomeOk s h 8 ∧ ServesNow s [(h.loc, 8)] ∧
      ∀ e ∈ s.curPath.buf, e.1 ≠ 902
    Completes (.lwait o) (fun s => reads s ∧ ((s.read64 h.loc).toInt ≤ 0 ∨ s.isGroup = false)) (fun s t =>
      Accesses s t ∧ MemoryKept s t ∧ ScalarIs s t o.d (s.read64 h.loc) ∧ VectorsKept s t ∧ MasksKept s t) ∧
    Completes (.lwait o) (fun s => reads s ∧ 0 < (s.read64 h.loc).toInt ∧ s.isGroup = true) (fun s t =>
      t.curPath.wait = .counter ∧ t.pc = s.pc ∧ MemoryKept s t ∧ ScalarsKept s t ∧ VectorsKept s t ∧ MasksKept s t ∧
      (s.clk + 256, Instr.lwaitReread, { a := s.cur.core, b := s.cur.slot, flag := s.cur.pathQ }) ∈ t.agenda)) ∧
  ∀ (s : State) (h : Home) (q : BitVec 5), let c := s.input.a; let k := s.input.b
    let s' : State := { s with cur := ⟨c, k, s.input.flag⟩ }
    let p := (s.slot c k).path s.input.flag
    let use : Use1 := { addr := Table.get 0 p.buf 901, size := 8, align := 8, rd := true, wr := false }
    p.wait = .counter → (∀ e ∈ s.agenda, ¬(e.2.1 = .lwaitReread ∧ e.2.2 = s.input)) → Table.get 0 p.buf 900 = q.zeroExtend 64 →
    (∀ e ∈ p.buf, e.1 ≠ 902) → p.chan = false → (s.input.flag = true → (s.slot c k).dual = true) → (s.slot c k).state = .active →
    s'.check s'.who [use] = .ok () → s'.home s'.who use = h → HomeOk s' h 8 → ServesNow s' [(h.loc, 8)] →
    ((s.read64 h.loc).toInt ≤ 0 → ∃ t, exec .lwaitReread s = .next t ∧ MemoryKept s t ∧ t.cur = s.cur ∧
      ((t.slot c k).path s.input.flag).pc = p.succ ∧ ((t.slot c k).path s.input.flag).wait = .none ∧
      ∀ n < 32, (t.slot c k).sreg n = if n = q.toNat ∧ n ≠ 0 then s.read64 h.loc else (s.slot c k).sreg n) ∧
    (0 < (s.read64 h.loc).toInt → s'.isGroup = true → ∃ t, exec .lwaitReread s = .next t ∧ MemoryKept s t ∧
      ((t.slot c k).path s.input.flag).wait = .counter ∧ ((t.slot c k).path s.input.flag).pc = p.pc ∧
      (s.clk + 256, Instr.lwaitReread, { a := c, b := k, flag := s.input.flag }) ∈ t.agenda))

/-- R368, R298, R369: a read of DBRES reserves the slot at TAIL and answers its index, or all ones; DBELL rings a
reserved slot; the rung head record of a ring goes to the class queue, and a bad one of the host is dropped; a team's
head record goes to the class queue, or into the ring where that holds records: at a slot in Vault memory it is written
and rung, to one in host memory it crosses Filfel, and the slot is rung with the reply. -/
def Obligations.LaunchRings : Prop :=
  (∀ s : State, let p := s.input.a; let c := s.input.b
    let r := (s.partn p).ring c
    (2 ^ r.log ≤ r.tail - r.head → exec .dbres s = .next (s.emit (.doorbell p c (BitVec.allOnes 64)))) ∧
    (r.tail - r.head < 2 ^ r.log → exec .dbres s = .next ((s.modPart p fun x => x.modRing c fun r => { r with tail := r.tail + 1 }).emit
      (.doorbell p c (BitVec.ofNat 64 (r.tail % 2 ^ r.log))))) ∧
    (∀ pos, r.head ≤ pos → pos < r.tail → r.tail - r.head ≤ 2 ^ r.log → s.input.c = pos % 2 ^ r.log →
      ∃ t, exec .dbell s = .next t ∧ MemoryKept s t ∧ t.cores = s.cores ∧
        ((t.partn p).ring c) = { r with rung := r.rung.add pos } ∧ (s.clk, Instr.launchRingAccept, { a := p, b := c }) ∈ t.agenda)) ∧
  (∀ s : State, let p := s.input.a; let c := s.input.b
    let r := (s.partn p).ring c
    -- a record in Vault memory is read at once; one in host memory has come with the reply across Filfel
    let loc := r.loc r.head
    let record := (List.range 8).map fun i =>
      match s.input.body with
      | .bytes l => if isHost loc then BitVec.ofNat 64 (bytesNat ((l.drop (8 * i)).take 8)) else s.read64 (loc + 8 * i)
      | _ => s.read64 (loc + 8 * i)
    let popped := fun (t : State) => ((t.partn p).ring c).head = r.head + 1 ∧ ((t.partn p).ring c).tail = r.tail ∧
      (s.clk, Instr.launchRingAccept, { a := p, b := c }) ∈ t.agenda ∧ MemoryKept s t ∧ t.cores = s.cores
    s.admitting = true → r.head ≠ r.tail → r.rung.contains r.head = true → ((s.partn p).queue c).length < 64 →
    (∀ e ∈ r.own, e.1 ≠ r.head) → r.lost.contains r.head = false →
    (isHost loc = false → s.poisonedIn loc 64 = false ∧ s.lentFault loc s.pkgId.toNat p = none) →
    (isHost loc = true → ∃ l, s.input.body = .bytes l) →
    (s.recordReason true p record = 0 → ∃ t, exec .launchRingAccept s = .next t ∧ popped t ∧
      (t.partn p).queue c = (s.partn p).queue c ++ [⟨record, none, none, none⟩] ∧
      (s.clk, Instr.admitterPass, { a := p }) ∈ t.agenda) ∧
    (s.recordReason true p record ≠ 0 → recWord record 2 = 0 → ∃ t, exec .launchRingAccept s = .next t ∧ popped t ∧
      (t.partn p).queue c = (s.partn p).queue c)) ∧
  (∀ s : State, s.admitting = false → exec .launchRingAccept s = .next s) ∧
  ∀ (s : State) (tm : Team) (g : Grid) (r : List Word) (rest : List (List Word)),
    s.team? s.input.a = some tm → tm.pend = r :: rest → s.grid? tm.grid = some g → r.length = 8 → s.admitting = true →
    let ring := (s.partn g.part).ring (recClass r)
    let moved := fun (t : State) => t.team? s.input.a = some { tm with pend := rest } ∧ t.cores = s.cores ∧
      (rest ≠ [] → (s.clk + 64, Instr.pendingLaunchTransfer, { a := s.input.a }) ∈ t.agenda)
    (ring.head = ring.tail → ((s.partn g.part).queue (recClass r)).length < 64 →
      ∃ t, exec .pendingLaunchTransfer s = .next t ∧ moved t ∧ MemoryKept s t ∧
        (t.partn g.part).queue (recClass r) = (s.partn g.part).queue (recClass r) ++ [⟨r, some tm.grid, none, none⟩] ∧
        (s.clk, Instr.admitterPass, { a := g.part }) ∈ t.agenda) ∧
    (ring.head ≠ ring.tail → ring.tail - ring.head < 2 ^ ring.log → isHost (ring.loc ring.tail) = false →
      s.lentFault (ring.loc ring.tail) s.pkgId.toNat g.part = none → s.poisonedIn (ring.loc ring.tail) 64 = false →
      ∃ t, exec .pendingLaunchTransfer s = .next t ∧ moved t ∧
        (∀ i < 8, t.read64 (ring.loc ring.tail + 8 * i) = r.getD i 0) ∧
        (∀ a, a < ring.loc ring.tail ∨ ring.loc ring.tail + 64 ≤ a → t.byte a = s.byte a) ∧
        ((t.partn g.part).ring (recClass r)).tail = ring.tail + 1 ∧
        ((t.partn g.part).ring (recClass r)).rung.contains ring.tail = true) ∧
    (ring.head ≠ ring.tail → ring.tail - ring.head < 2 ^ ring.log → isHost (ring.loc ring.tail) = true →
      ∃ t, exec .pendingLaunchTransfer s = .next t ∧ MemoryKept s t ∧ t.team? s.input.a = some { tm with pend := rest } ∧
        ((t.partn g.part).ring (recClass r)).tail = ring.tail + 1 ∧ ((t.partn g.part).ring (recClass r)).rung = ring.rung) ∧
    (ring.head ≠ ring.tail → 2 ^ ring.log ≤ ring.tail - ring.head →
      exec .pendingLaunchTransfer s = .next (s.later (s.clk + 64) .pendingLaunchTransfer { a := s.input.a }))

/-- R299, R300, R304: where the head of the one waiting class queue of a partition can be placed, its grid is
resident: each core of the first rectangle that takes it has the groups of a team, which start once the banks of the
window are awake and the window is clear; where it cannot, it is marked, and its limit falls due 2,500,000 clk later;
past that a resident grid of a lower class, whose going makes it placeable, is stopped. R301, R304, R357: a stopped
grid all of whose groups can be saved frees its slots and is at the head of its class queue, and of memory only its
partition's pool changes; before that its waits are withdrawn again every 16 clk (the model's choice, as is what the
pool holds, log 44); a grid without live groups or children is gone, its counter counted down; one torn down is gone
with its groups; a cluster's watchdog counts up every 1,024 clk without progress, and at its limit traps a waiting
group whose wait can be withdrawn (which waits can is log 44). -/
def Obligations.GridLifetime : Prop :=
  ((∀ i, i = Instr.admitterPass ∨ i = Instr.backfillLimitExpiry → ∀ (s : State) (c : Nat) (x : Queued) (rest : List Queued),
    let p := s.input.a
    let r := x.record
    s.admitting = true → (s.partn p).stopping = [] → c < 4 → (s.partn p).queue c = x :: rest →
    (∀ j, j ≠ c → (s.partn p).queue j = []) →
    (∀ spot, x.saved = none → rest = [] → s.placeGrid p r = some [spot] →
      ∃ t g x', exec i s = .next t ∧ (t.partn p).queue c = [] ∧ t.grid? g = some x' ∧ x'.record = r ∧ x'.part = p ∧
        x'.state = .resident ∧ x'.parent = x.parent ∧ x'.live = recW r * recH r * recGroups r ∧
        (t.windowsAwake g + 2 * recLarder r, Instr.groupStart, { a := g }) ∈ t.agenda ∧
        (BanksAwake s → t.windowsAwake g = s.clk) ∧
        ∀ ce ∈ rectCores r spot.die spot.x spot.y, ∀ n < recGroups r, let k := (s.freeG ce).getD n 0
          (t.slot ce k).state = .active ∧ (t.slot ce k).gen = (s.slot ce k).gen ∧ (t.slot ce k).pri = BitVec.ofNat 2 (recClass r) ∧
          (t.slot ce k).p.pc = recWord r 0 ∧ (t.slot ce k).p.live = BitVec.allOnes 128 ∧ (t.slot ce k).p.wait = .window ∧
          (t.slot ce k).valloc = 16 * 2 ^ recVcode r ∧
          (∀ j, (t.slot ce k).sreg j = if j = 1 then recWord r 1 else 0) ∧
          (t.slot ce k).member.any (fun m => m.grid = g && m.index = n) = true) ∧
    (x.parent = none → s.placeGrid p r = none → x.blocked = none →
      ∃ t, exec i s = .next t ∧ (t.partn p).queue c = { x with blocked := some s.clk } :: rest ∧ MemoryKept s t ∧
        t.cores = s.cores ∧ (s.clk + 2500000, Instr.backfillLimitExpiry, { a := p, b := c }) ∈ t.agenda) ∧
    (∀ b v, x.parent = none → s.placeGrid p r = none → x.blocked = some b → b + 2500000 ≤ s.clk → s.victims p c r = [v] →
      ((s.without [v]).placeGrid p r).isSome = true →
      (∀ g, s.grid? v = some g → s.poolHolds p (saveBytes g.record) = true) → (s.grid? v).isSome = true →
      ∃ t, exec i s = .next t ∧ (t.partn p).stopping = [v] ∧ (s.clk, Instr.preemptionEnd, { a := p, b := v }) ∈ t.agenda ∧
        MemoryKept s t ∧ ∀ e ∈ s.gridSlots v, (s.slot e.1 e.2).state = .active → (s.slot e.1 e.2).ending = false →
          (t.slot e.1 e.2).state = .stopping)) ∧
  (∀ (s : State) (p : Nat) (r : List Word) (spot : Spot),
    s.placeGrid p r = some [spot] → recOneDie r = false →
    s.fitAt r [] spot.die spot.x spot.y = some spot ∧ spot.x + recW r ≤ 16 ∧ spot.y + recH r ≤ 10 ∧ spot.die ∈ recDieList r ∧
    ∀ d ∈ recDieList r, (s.partn p).pairs.getLsbD d = true → ∀ y x, y + recH r ≤ 10 → x + recW r ≤ 16 →
      d < spot.die ∨ (d = spot.die ∧ (y < spot.y ∨ (y = spot.y ∧ x < spot.x))) → s.fitAt r [] d x y = none) ∧
  ∀ (s : State) (n k : Nat) (tm : Team), let g := s.input.a
    (n, tm) ∈ s.teams → tm.grid = g → k ∈ tm.slots → (s.slot tm.core k).p.wait = .window →
    (s.slot tm.core k).member.any (fun m => m.grid = g) = true →
    (s.slot tm.core k).q.wait ≠ .window →
    (∀ b ∈ regBanks (s.slot tm.core k).vbase (s.slot tm.core k).valloc, Table.get 0 (s.core tm.core).regAsleep b ≠ 1) →
    ∃ t, exec .groupStart s = .next t ∧ MemoryKept s t ∧
      t.slot tm.core k = { s.slot tm.core k with p := { (s.slot tm.core k).p with wait := .none } }) ∧
  ((∀ (s : State) (g : Nat) (x : Grid), let p := s.input.a
    s.input.b = g → (s.partn p).stopping = [g] → s.grid? g = some x →
    ((s.gridSlots g).all (fun e => s.canSave e.1 e.2) = false →
      exec .preemptionEnd s = .next ((s.stopGrid g).later (s.clk + 16) .preemptionEnd s.input)) ∧
    ((∀ e ∈ s.gridSlots g, s.canSave e.1 e.2 = true ∧ (s.slot e.1 e.2).ending = false ∧ e.2 < 63) → x.part = p → x.state = .resident →
      (s.gridSlots g).Nodup → x.swapped = false → ∃ t x', exec .preemptionEnd s = .next t ∧ (t.partn p).stopping = [] ∧ t.grid? g = some x' ∧
        x'.state = .saved ∧ x'.record = x.record ∧
        (t.partn p).queue (recClass x.record) = ⟨x.record, x.parent, some g, none⟩ :: (s.partn p).queue (recClass x.record) ∧
        (∀ a, a < (s.partn p).poolBase ∨ (s.partn p).poolBase + (s.partn p).poolSize ≤ a → t.byte a = s.byte a) ∧
        t.empties = s.empties ∧ t.poison = s.poison ∧
        ∀ e ∈ s.gridSlots g, (t.slot e.1 e.2).state = .free ∧ (t.slot e.1 e.2).gen = (s.slot e.1 e.2).gen + 1)) ∧
  (∀ (s : State) (x : Grid), let g := s.input.a
    let cc := recWord x.record 2
    let gone := fun (t : State) => t.grid? g = none ∧ (∀ e ∈ t.teams, e.2.grid ≠ g) ∧
      (s.clk, Instr.admitterPass, { a := x.part }) ∈ t.agenda
    s.grid? g = some x → x.parent = none →
    (s.input.flag = false → x.live = 0 → x.children = 0 → cc = 0 →
      ∃ t, exec .gridCompletion s = .next t ∧ gone t ∧ MemoryKept s t) ∧
    (∀ h, s.input.flag = false → x.live = 0 → x.children = 0 → cc ≠ 0 → s.admitterHome x.part cc true = .ok h →
      s.across h = false → s.lentFault h.loc s.pkgId.toNat x.part = none → s.poisonedIn h.loc 8 = false →
      ServesNow s [(h.loc, 8)] →
      ∃ t, exec .gridCompletion s = .next t ∧ gone t ∧ Stores s t h.loc 8 (s.readN h.loc 8 + 2 ^ 64 - 1)) ∧
    (s.input.flag = true → cc = 0 → (∀ e ∈ s.grids, e.2.parent ≠ some g) →
      ∃ t, exec .gridCompletion s = .next t ∧ gone t ∧ ∀ e ∈ s.gridSlots g, (t.slot e.1 e.2).state = .free)) ∧
  ∀ (s : State) (cl : Cluster), let n := s.input.a
    let lim := (s.core (coreIdx cl.die cl.x0 cl.y0)).wdoglim.toNat
    let slots := s.clusterSlots cl
    s.cluster? n = some cl →
    (s.clk < cl.progress + 1024 → exec .watchdogTick s = .next (s.later (cl.progress + 1024) .watchdogTick { a := n })) ∧
    (cl.progress + 1024 ≤ s.clk → (∀ e ∈ slots, (s.slot e.1 e.2).state ≠ .trapped) → lim = 0 ∨ cl.wdog + 1 < lim →
      exec .watchdogTick s = .next ((s.modCluster n fun y => { y with wdog := (cl.wdog + 1) % 2 ^ 32 }).later (s.clk + 1024)
        .watchdogTick { a := n })) ∧
    (∀ e, cl.progress + 1024 ≤ s.clk → (∀ e ∈ slots, (s.slot e.1 e.2).state ≠ .trapped) → lim ≠ 0 → lim < 2 ^ 32 → cl.wdog + 1 = lim →
      slots.find? (fun e => s.trips e.1 e.2) = some e → s.canTrip e.1 e.2 false = true → (s.slot e.1 e.2).p.wait ≠ .shelved →
      ∃ t, exec .watchdogTick s = .next t ∧ (t.slot e.1 e.2).state = .trapped ∧ field (t.slot e.1 e.2).cause 0 8 = 0x17 ∧
        (t.slot e.1 e.2).epc = (s.slot e.1 e.2).p.pc ∧ (t.cluster? n).any (fun cl => cl.wdog = 0) = true ∧
        (s.clk + 1024, Instr.watchdogTick, { a := n }) ∈ t.agenda))

/-! Translation (13, R336, R341, R342), the issue selector and the clock (13, R306, R307, R375). -/

/-- R341, R342, R336: `tlbi.mark` refuses a range that is none and a scope outside 2 to 7, is BUSY with sixteen marks
or one of the core, else leaves its mark; `tlbi.conf` drops the entries that its mark overlaps in the TLBs of its
scope, of the cores, the bays and the dies that it takes in (which those are is log 20), and waits for the writes before
it; a walk installs the leaf that it reads. -/
def Obligations.Translation : Prop :=
  (∀ o : F2,
    let lo := fun (s : State) => (s.sreg o.a).toNat
    let len := fun (s : State) => (s.sreg o.b).toNat
    let sc : Nat := field o.x 0 4
    let marks := fun (s : State) => (s.partn s.curPart).marks
    let range := fun (s : State) => lo s % 65536 = 0 ∧ len s % 65536 = 0 ∧ 65536 ≤ len s ∧ lo s + len s ≤ 2 ^ 57 ∧ 2 ≤ sc ∧ sc ≤ 7
    let busy := fun (s : State) => (∃ m ∈ marks s, m.core = s.cur.core) ∨ 16 ≤ (marks s).length
    Completes (.tlbiMark o) (fun s => ¬range s) (fun s t => SetsScalar s t o.d 3) ∧
    Completes (.tlbiMark o) (fun s => range s ∧ busy s) (fun s t => SetsScalar s t o.d 1) ∧
    Completes (.tlbiMark o) (fun s => range s ∧ ¬busy s) (fun s t =>
      marks t = marks s ++ [⟨lo s, len s, bits o.x 0 4, s.cur.core⟩] ∧ ScalarIs s t o.d 0 ∧ VectorsKept s t ∧ MasksKept s t ∧
      MemoryKept s t ∧ GoesOn s t s.curPath.succ)) ∧
  (∀ o : F2,
    let mine := fun (s : State) => (s.partn s.curPart).marks.find? fun m => m.core = s.cur.core
    Completes (.tlbiConf o) (fun s => mine s = none) (fun s t => SetsScalar s t o.d 3) ∧
    (∀ m, Completes (.tlbiConf o) (fun s => mine s = some m ∧ s.confirmed s.cur.core = true) (fun s t =>
      (t.partn s.curPart).marks = (s.partn s.curPart).marks.erase m ∧ ScalarIs s t o.d 0 ∧ VectorsKept s t ∧ MasksKept s t ∧
      MemoryKept s t ∧ GoesOn s t s.curPath.succ ∧
      (∀ va, m.lo ≤ va → va < m.lo + m.len → m.core < 1280 →
        let sc := m.scope.toNat
        let hits := fun (l : List TlbEntry) => ∃ e ∈ l, e.hits s.curPart va = true
        (∀ c, (sc = 2 → c = m.core) → (sc = 3 → bayOf c = bayOf m.core) → (sc = 4 ∨ sc = 5 → coreDie c = coreDie m.core) →
          ¬hits (t.core c).l1d ∧ ¬hits (t.core c).l1i) ∧
        (∀ b, sc ≠ 2 → (sc = 3 → b = bayOf m.core) → (sc = 4 ∨ sc = 5 → b / 20 = coreDie m.core) → ¬hits (t.bay b).l2) ∧
        ∀ d, sc ≠ 2 → sc ≠ 3 → (sc = 4 ∨ sc = 5 → d = coreDie m.core) → ¬hits (t.die d).l3))) ∧
    Completes (.tlbiConf o) (fun s => (mine s).isSome = true ∧ s.confirmed s.cur.core = false)
      (fun s t => CurOnly s t ∧ ScalarsKept s t ∧ t.pc = s.pc ∧ t.curPath.wait = .confirm)) ∧
  ∀ (s : State) (w : Word) (walked : Bool), let c := s.input.a
    let va := field s.input.word 0 57
    s.draining c va = false → s.leafFor c va ⟨false, false, s.input.flag⟩ = (.leaf w, walked) →
    s.inMove (s.partOf c) va w = false →
    ∃ t, exec .tlbWalk s = .next t ∧ t.lookup c va s.input.flag = (.leaf w, false) ∧ MemoryKept s t ∧ ∀ j k, t.slot j k = s.slot j k

/-- R306, R307, R375: the selector of a core chooses a ready path, of the S-slot before handlers before groups, within
a tier one that is 512 clk old, else one of the highest class; the others ready grow older; without a ready path
nothing issues. The clock moves by steps of 25 MHz between 1.0 and 2.5 GHz, or is fixed; what is due in wall time
keeps its time (R9). A bay is gated in fixed-clock mode alone, and in at most 3 clks of 4. The order in which cores
act within a clk is the model's choice. -/
def Obligations.IssueAndClock : Prop :=
  (∀ s : State, let c := s.input.a
    let co := s.core c
    let l := co.afterYield s.clk (s.readyPaths c)
    (co.slots = [] ∨ co.inReset = true → exec .issueSelect s = .next s) ∧
    (s.gatedNow (bayOf c) = true ∨ s.readyPaths c = [] → ∃ t, exec .issueSelect s = .next t ∧ MemoryKept s t ∧
      t.chosen = s.chosen ∧ ∀ j k, t.slot j k = s.slot j k) ∧
    (∀ x aged, co.slots ≠ [] → co.inReset = false → s.gatedNow (bayOf c) = false →
      co.choose (s.pathPolicy c) l = some (x, aged) →
      ∃ t, exec .issueSelect s = .next t ∧ t.cur = ⟨c, x.1, x.2⟩ ∧ t.chosen = true ∧ MemoryKept s t ∧
        ((t.slot c x.1).path x.2).pc = ((s.slot c x.1).path x.2).pc ∧
        ∀ y ∈ s.readyPaths c, y ≠ x → (s.readyPaths c).Nodup →
          ((t.slot c y.1).path y.2).age = ((s.slot c y.1).path y.2).age + 1)) ∧
  (∀ (co : Core) (pol : Nat) (l : List (Nat × Bool)) (x : Nat × Bool) (aged : Bool),
    (∀ y ∈ l, y.1 < 64) → co.choose pol l = some (x, aged) →
    let age := fun (y : Nat × Bool) => ((co.slot y.1).path y.2).age
    x ∈ l ∧ (∀ y ∈ l, 2 - co.cls x.1 ≤ 2 - co.cls y.1) ∧
    ((∃ y ∈ l, 2 - co.cls y.1 = 2 - co.cls x.1 ∧ 512 ≤ age y) → ∀ y ∈ l, 2 - co.cls y.1 = 2 - co.cls x.1 → age y ≤ age x) ∧
    ((∀ y ∈ l, 2 - co.cls y.1 = 2 - co.cls x.1 → age y < 512) →
      ∀ y ∈ l, 2 - co.cls y.1 = 2 - co.cls x.1 → (co.slot y.1).pri.toNat ≤ (co.slot x.1).pri.toNat)) ∧
  (∀ (s : State) (b : Nat), (∃ k < 4, ({ s with clk := s.clk + k } : State).gatedNow b = false) ∧
    (s.gatedNow b = true → s.gated.contains b = true ∧ ∃ e ∈ s.parts, e.2.clkfix.getLsbD 0 = true)) ∧
  ∀ s : State, let fixed := ∃ e ∈ s.parts, e.2.clkfix.getLsbD 0 = true
    let steps := fun (t : State) (n : Nat) => t.clockStep = n ∧ t.clk = s.clk ∧ t.cores = s.cores ∧ MemoryKept s t ∧
      (∀ e ∈ s.agenda, wallTime e = false → e ∈ t.agenda) ∧
      ∀ e ∈ s.agenda, wallTime e = true → s.clk < e.1 → (s.clk + (e.1 - s.clk) * n / s.clockStep, e.2) ∈ t.agenda
    (s.input.c = 0 → ¬fixed → ∃ t, exec .clockStep s = .next t ∧
      steps t (if s.input.flag then min 100 (s.clockStep + 1) else max 40 (s.clockStep - 1))) ∧
    (s.input.c = 0 → fixed → ∃ t, exec .clockStep s = .next t ∧ steps t 100) ∧
    (s.input.c = 1 → fixed → exec .clockStep s = .next { s with gated := NatSet.add s.gated s.input.b }) ∧
    (s.input.c = 1 → ¬fixed → exec .clockStep s = .next s) ∧
    (s.input.c = 2 → ∃ t, exec .clockStep s = .next t ∧ t.gated.contains s.input.b = false ∧ t.cores = s.cores ∧ MemoryKept s t)

/-! Links (09, R202, R209, R222, R274; 13, R345, R363), Vaults (09, R239 to R247), retention, ports (14, R361 to R364). -/

/-- R222, R345, R274, R366: at its home another package's load is answered with what memory holds, an atomic is
performed once and its reply kept in the pantry; a reissue is answered from there; without room it is refused; one
that the partition map does not let pass is answered with a fault. An entry of a pantry goes at its time. R206, R208,
R209, R274, R345, R363: the reply to a live request frees its tag and gives a waiting load its value, one to no
request is dropped; a refused request is sent again after its back-off; an unanswered one is sent again three times,
after which it ends, its tag is quarantined, and a waiting path traps FABRIC_TIMEOUT; an access of the package that
waits in a shelf can be withdrawn. That what crosses the Filfel link of the package is performed in the clk in which the
link takes it (log 13), and that a refused request keeps its tag and its epoch and what fills a pantry (log 48), are the
model's choices. -/
def Obligations.Links : Prop :=
  -- a request leaves by the router of the package, or reaches the Filfel link of the package while that is up and does not retrain
  let sent := fun (s t : State) (r : Req) =>
    (r.toPkg ≠ s.pkgId.toNat →
      (s.clk, Instr.omyanHop, ({ flag := true, body := .flits [s.flit r.toTgt (s.unitOf r.acc.core) r.acc.part
        (if r.acc.core < 1280 then (s.core r.acc.core).cls r.acc.slot else 3) r.out] } : Input)) ∈ t.agenda) ∧
    (r.toPkg = s.pkgId.toNat → (s.port 12).up = true → (s.port 12).retraining = false →
      (s.clk, Instr.accessAtHome, ({ body := .access r.acc } : Input)) ∈ t.agenda)
  ((∀ (s : State) (a : Access),
    s.input.body = .access a → s.input.flag = false → a.pkg ≠ s.pkgId.toNat →
    (isLarder a.loc = true → (s.core (larderCore a.loc)).inReset = false) →
    (isHost a.loc = true → (s.port 12).up = true ∧ (s.port 12).retraining = false) →
    -- what goes back leaves by the router of the package
    let sends := fun (t : State) (x : Cargo) =>
      (s.clk, Instr.omyanHop, ({ flag := true, body := .flits [s.flit a.core (homeNo a.loc) a.part 3 x] } : Input)) ∈ t.agenda
    let replies := fun (t : State) (v : Word) (cause : BitVec 8) => sends t (.reply a.pkg a.core a.tag a.epoch v cause)
    let fresh := ((s.pantry a.loc).find? fun e => e.isFor a.pkg a.core a.tag a.epoch) = none ∧
      (s.shelfOf a.loc).any (fun x => sameKey x a) = false
    let passes := fresh ∧ s.foreignOk a.loc a.pkg a.part = true ∧ s.lentFault a.loc a.pkg a.part = none
    let served := s.input.b = 1 ∨ ServesNow s [(a.loc, a.size)]
    (passes → served → a.op = .load → a.size ≤ 8 → s.poisonedIn a.loc a.size = false → ∃ t, exec .accessAtHome s = .next t ∧
      replies t (BitVec.ofNat 64 (s.readN a.loc a.size)) 0 ∧ MemoryKept s t) ∧
    (passes → served → a.op = .load → a.size = 64 → s.poisonedIn a.loc 64 = false → ∃ t, exec .accessAtHome s = .next t ∧
      sends t (.line a.pkg a.core a.tag a.epoch ((List.range 64).map fun i => s.byte (a.loc + i))) ∧ MemoryKept s t) ∧
    (∀ op ty, passes → served → a.op = .amo op ty → a.bad = false → s.poisonedIn a.loc a.size = false →
      s.pantryFull a.loc = false →
      (isLarder a.loc = true → (s.core (larderCore a.loc)).trbase.getLsbD 0 = false) →
      ∃ t, exec .accessAtHome s = .next t ∧ replies t (BitVec.ofNat 64 (s.readN a.loc a.size)) 0 ∧
        Stores s t a.loc a.size (amoNew op ty (s.readN a.loc a.size) a.data.toNat) ∧
        ∃ e ∈ t.pantry a.loc, e.isFor a.pkg a.core a.tag a.epoch = true ∧ e.data = BitVec.ofNat 64 (s.readN a.loc a.size)) ∧
    (passes → AccOp.once a.op = true → s.pantryFull a.loc = true → ∃ t, exec .accessAtHome s = .next t ∧
      sends t (.refusal a.pkg a.core a.tag a.epoch) ∧ MemoryKept s t) ∧
    (fresh → s.foreignOk a.loc a.pkg a.part = false → ∃ t, exec .accessAtHome s = .next t ∧ replies t 0 0x09 ∧ MemoryKept s t) ∧
    (∀ e, (s.pantry a.loc).find? (fun e => e.isFor a.pkg a.core a.tag a.epoch) = some e →
      ∃ t, exec .accessAtHome s = .next t ∧ replies t e.data e.cause ∧ MemoryKept s t)) ∧
  ∀ s : State, let loc := homeLoc s.input.a
    s.input.flag = true ∨ (∀ e ∈ s.pantry loc, e.isFor s.input.b s.input.c s.input.d s.input.e = true → e.till ≤ s.clk) →
    ∃ t, exec .pantryExpiry s = .next t ∧ MemoryKept s t ∧
      t.pantry loc = (s.pantry loc).filter fun e => !e.isFor s.input.b s.input.c s.input.d s.input.e) ∧
  ((∀ (s : State) (r : Req), let key := s.input.a; let a := r.acc
    let live := s.reqs.find? (fun e => e.1 = key && e.2.epoch = s.input.b) = some (key, r) ∧ s.reqs.Pairwise (fun x y => x.1 ≠ y.1)
    let free := fun (t : State) => ∀ e ∈ t.reqs, e.1 ≠ key
    let sl := s.slot a.core a.slot
    let waits := sl.gen = a.gen ∧ r.inside = true ∧ (a.pathQ = true → sl.dual = true)
    -- nothing of the core waits for a tag
    let quiet := (s.core a.core).sendq = [] ∧ ∀ e ∈ (s.core a.core).slots, e.2.laneq = []
    (live → quiet → r.owner = .path → s.input.cause = 0 → r.inside = false → AccOp.once a.op = false →
      ∃ t, exec .replyArrival s = .next t ∧ free t ∧ MemoryKept s t ∧ t.cores = s.cores) ∧
    (live → quiet → r.owner = .path → s.input.cause = 0 → waits → a.op = .load → (sl.path a.pathQ).wait = .load →
      (sl.path a.pathQ).vload = none → (sl.path a.pathQ).chan = false → a.status = 0 → ∃ t, exec .replyArrival s = .next t ∧
        free t ∧ MemoryKept s t ∧ ((t.slot a.core a.slot).path a.pathQ).pc = (sl.path a.pathQ).succ ∧
        ((t.slot a.core a.slot).path a.pathQ).wait = .none ∧
        ∀ n < 32, (t.slot a.core a.slot).sreg n = if n = a.dest.toNat ∧ n ≠ 0 then
          extend64 (bits a.data2 0 4) s.input.word.toNat else sl.sreg n) ∧
    (live → r.owner = .path → s.input.cause = 0xFE → ∃ t, exec .replyArrival s = .next t ∧ MemoryKept s t ∧
      (∃ r', (key, r') ∈ t.reqs ∧ r'.acc.refusals = a.refusals + 1) ∧
      ∃ inp, (s.clk + 32 * 2 ^ min a.refusals 7, Instr.shelfRetry, inp) ∈ t.agenda ∧ inp.flag = true ∧
        inp.body = .access { a with refusals := a.refusals + 1 }) ∧
    (s.reqs.find? (fun e => e.1 = key && e.2.epoch = s.input.b) = none → ∃ t, exec .replyArrival s = .next t ∧ t.reqs = s.reqs ∧
      MemoryKept s t ∧ ∀ c k, t.slot c k = s.slot c k)) ∧
  (∀ (s : State) (r : Req), let key := s.input.a; let a := r.acc
    s.reqs.find? (fun e => e.1 = key && e.2.epoch = s.input.b && e.2.acc.refusals = s.input.c) = some (key, r) →
    s.reqs.Pairwise (fun x y => x.1 ≠ y.1) →
    (r.reissues < 3 → ∃ t, exec .requestTimeout s = .next t ∧ MemoryKept s t ∧ sent s t r ∧
      (key, { r with reissues := r.reissues + 1 }) ∈ t.reqs ∧
      (s.clk + (if r.toTgt = 1296 then 4194304 else 524288), Instr.requestTimeout, s.input) ∈ t.agenda) ∧
    (3 ≤ r.reissues → r.owner = .path → r.inside = true → (s.slot a.core a.slot).gen = a.gen → a.slot ≠ 63 → isLarderAddr a.addr = true →
      (s.slot a.core a.slot).state = .active → ((s.slot a.core a.slot).path a.pathQ).wait = .shelved →
      (a.pathQ = true → (s.slot a.core a.slot).dual = true) →
      ∃ t, exec .requestTimeout s = .next t ∧ (∀ e ∈ t.reqs, e.1 ≠ key) ∧ t.quarantined.contains key = true ∧ MemoryKept s t ∧
        (s.clk + 524288, Instr.tagQuarantineEnd, { a := key }) ∈ t.agenda ∧ (t.slot a.core a.slot).state = .trapped ∧
        field (t.slot a.core a.slot).cause 0 8 = cFabricTimeout.toNat ∧ (t.slot a.core a.slot).faddr = a.addr)) ∧
  (∀ s : State, let c := s.input.a / 4096
    (∃ t, exec .tagQuarantineEnd s = .next t ∧ MemoryKept s t ∧ t.quarantined = NatSet.rem s.quarantined s.input.a) ∧
    ((s.core c).sendq = [] → (∀ e ∈ (s.core c).slots, e.2.laneq = []) →
      exec .tagQuarantineEnd s = .next { s with quarantined := NatSet.rem s.quarantined s.input.a })) ∧
  (∀ (s : State) (a : Access) (r : Req), s.input.body = .access a → s.input.flag = true →
    s.reqs.find? (fun e => e.1 = a.core * 4096 + a.tag && e.2.epoch = a.epoch) = some (a.core * 4096 + a.tag, r) →
    ∃ t, exec .shelfRetry s = .next t ∧ MemoryKept s t ∧ t.cores = s.cores ∧ sent s t r ∧
      (s.clk + (if r.toTgt = 1296 then 4194304 else 524288), Instr.requestTimeout,
        { a := a.core * 4096 + a.tag, b := a.epoch, c := r.acc.refusals }) ∈ t.agenda) ∧
  ∀ s : State, let c := s.input.a; let k := s.input.b; let q := s.input.flag
    let p := (s.slot c k).path q
    s.input.cause ≠ 1 → p.wait = .shelved → s.reqs.find? (fun e => s.awaits c k q e.2) = none →
    (s.slot c k).state = .stopping →
    ∃ t, exec .shelfWithdrawal s = .next t ∧ MemoryKept s t ∧ ((t.slot c k).path q).wait = .none ∧ ((t.slot c k).path q).pc = p.pc ∧
      ∀ e ∈ t.cores, ∀ a ∈ e.2.shelf,
        ¬(a.pkg = s.pkgId.toNat ∧ a.core = c ∧ a.slot = k ∧ a.gen = (s.slot c k).gen ∧ a.pathQ = q))

/-- R247, R242, R245, R198, R241, R197, R109: a turn of a channel's wheel serves at most seven line accesses, a
granary controller's copies and the owner's oldest first; patrol scrub reads the next line; a datum lost at a crossing
carries a poison flag, on the way to its place, to the consumer of a reply or in a copy engine's buffer; an error
poisons a larder word or a whole Vault line; an idle bank enters retention, and wakes. R361, R362, R364: a flit for
this package leaves the fabric; one in transit competes at once, unless its code owns an entry of the port's wheels:
then it carries FCH and waits in its code's buffer of eight. One alone leaves by the link of its output and is at the
next port 40 clk later; of two for an output with one place the older leaves and the other is deflected and ages; the
flit of the entry's owner leaves before an older one of another code; the package's own flit enters last, where a place
is left. A second failed lane halves a port's width until it is down, and what a link has not acknowledged is sent
again. Log 50 (the model's choice): a replay buffer keeps a flit for 80 clk, a retraining takes exactly 50 µs, a loser
takes the first other output with a place, the ports of a Hatch die fill their outputs in order, own flits compete from
the clk after they come. -/
def Obligations.VaultsAndPorts : Prop :=
  -- the ports of Hatch die h take their turn at the clk n or before
  let turn := fun (t : State) (h n : Nat) => ∃ e ∈ t.agenda, e.1 ≤ n ∧ e.2.1 = Instr.fabricWheelTurn ∧ e.2.2.a = h
  -- a link that carries one flit in the present clk
  let narrow := fun (s : State) (l : Nat) =>
    (s.port l).up = true ∧ (s.port l).retraining = false ∧ (s.port l).lanes = 8 ∧ (s.port l).clk ≠ s.clk
  let bare := fun (p : Port) => p.flits = [] ∧ p.buffers = [] ∧ p.inject = [] ∧ p.again = []
  let older := fun (g : Flit) => { g with age := if g.age = 4095 then g.age else g.age + 1 }
  ((∀ s : State, let k := s.input.a; let ch := s.input.b
    let l := Table.get [] (s.vault k).waiting ch
    let owner := Table.get 15 (s.vault k).wheel (s.clk / 8 % 64)
    -- what the channel may still start in the present slot
    let left := 7 - (s.vault k).startedIn ch (s.clk / 8)
    ∃ t, ∃ go : List LineReq, exec .channelWheelTurn s = .next t ∧ MemoryKept s t ∧ t.cores = s.cores ∧ go.length ≤ left ∧
      (∀ r ∈ go, r ∈ l) ∧ Table.get [] (t.vault k).waiting ch = l.filter (fun r => !(go.any fun x => x.line = r.line)) ∧
      (∀ r ∈ (l.filter fun r => r.code = 16).take left, r ∈ go) ∧
      (owner ≠ 15 → (∀ r ∈ l, r.code ≠ 16) → ∀ r ∈ (l.filter fun r => r.code = owner).take left, r ∈ go)) ∧
  (∀ s : State, let k := s.input.a; let ch := s.input.b
    let n := Table.get 0 (s.vault k).scrub ch
    let place := k * 2 ^ 37 + n / 4 * 2 ^ 13 + (ch ^^^ (n / 4 % 32)) * 256 + n % 4 * 64
    ∃ t, exec .patrolScrub s = .next t ∧ t.mem = s.mem ∧ t.empties = s.empties ∧
      Table.get 0 (t.vault k).scrub ch = (n + 1) % 50331648 ∧
      (s.clk + 256, Instr.patrolScrub, { a := k, b := ch }) ∈ t.agenda ∧
      (s.input.body ≠ .outcome .memoryLost → t.poison = s.poison) ∧
      (s.input.body = .outcome .memoryLost → k < 8 → ch < 32 → n < 50331648 → ∀ j < 64, t.poisoned (place + j) = true)) ∧
  (∀ s : State, let a := s.input.a
    (isHost a = false → ∃ t, exec .uncorrectableError s = .next t ∧ t.poisoned a = true ∧ t.mem = s.mem ∧ t.cores = s.cores ∧
      (isLarder a = true → ∀ b, b / 8 ≠ a / 8 → t.poisoned b = s.poisoned b) ∧
      (isVault a = true → ∀ b, t.poisoned b = if b / 64 = a / 64 then true else s.poisoned b)) ∧
    (isHost a = true → exec .uncorrectableError s = .next s) ∧
    (s.input.body = .outcome .memoryLost →
      (s.input.c = 0 → isHost a = false → ∃ t, exec .checkFailureAtCrossing s = .next t ∧ t.poisoned a = true ∧ t.mem = s.mem) ∧
      (∀ key r, s.input.c = 1 → s.reqs.find? (fun e => e.1 = a) = some (key, r) →
        (accWrites r.acc.op = true →
          r.read = false ∨ r.acc.bad = false ∧ (∃ e ∈ s.agenda, e.2.2.body = .access r.acc) →
          ∃ t, exec .checkFailureAtCrossing s = .next t ∧ MemoryKept s t ∧ t.cores = s.cores ∧
            (a, { r with acc := { r.acc with bad := true } }) ∈ t.reqs ∧
            ∀ e ∈ s.agenda, e.2.2.body = .access r.acc →
              (e.1, e.2.1, { e.2.2 with body := .access { r.acc with bad := true } }) ∈ t.agenda) ∧
        (accWrites r.acc.op = false → ∃ t, exec .checkFailureAtCrossing s = .next t ∧ MemoryKept s t ∧
          (s.clk, Instr.replyArrival, { a := a, b := r.epoch, cause := 0x0C }) ∈ t.agenda)) ∧
      (s.input.c = 2 → ∃ t, exec .checkFailureAtCrossing s = .next t ∧ MemoryKept s t ∧
        ∀ q ∈ (s.core a).copyq, q.chan = s.input.b → q.started = true →
          { q with buf := Table.ins q.buf (128 + s.input.d % 64) 1 } ∈ (t.core a).copyq)) ∧
    (s.input.body = .outcome .good ∨ s.input.body = .outcome .corrected → exec .checkFailureAtCrossing s = .next s) ∧
    (s.input.body = .outcome .linkLost → let l := s.input.b
      ∃ t, exec .checkFailureAtCrossing s = .next t ∧ MemoryKept s t ∧ t.cores = s.cores ∧
        ∀ e ∈ (s.port l).replay, s.clk < e.1 + 80 → e.2 ∈ (t.port l).again ∧ turn t (l / 6) s.clk)) ∧
  ∀ s : State, let c := s.input.a; let b := s.input.b
    let rest := fun (t : State) => MemoryKept s t ∧ ∀ j k, t.slot j k = s.slot j k
    (s.bankIdle c b = true → Table.get 0 (s.core c).asleep b = 0 → ∃ t, exec .larderRetentionEntry s = .next t ∧ rest t ∧
      Table.get 0 (t.core c).asleep b = 2) ∧
    (s.bankIdle c b = false → exec .larderRetentionEntry s = .next s) ∧
    (∃ t, exec .larderRetentionExit s = .next t ∧ rest t ∧ Table.get 0 (t.core c).asleep b = 0 ∧
      Table.get 0 (t.core c).touched b = s.clk) ∧
    (s.regIdle c b = true → Table.get 0 (s.core c).regAsleep b = 0 → ∃ t, exec .regbankRetentionEntry s = .next t ∧ rest t ∧
      Table.get 0 (t.core c).regAsleep b = 2) ∧
    (s.regIdle c b = false → exec .regbankRetentionEntry s = .next s) ∧
    ∃ t, exec .regbankRetentionExit s = .next t ∧ rest t ∧ Table.get 0 (t.core c).regAsleep b = 0 ∧
      Table.get 0 (t.core c).regTouched b = s.clk) ∧
  -- a flit reaches port i
  ((∀ (s : State) (f : Flit), let i := s.input.a; let p := s.port i; let code := Flit.code f
    s.input.body = .flits [f] → s.input.flag = false →
    (f.dpkg = s.pkgId → ∃ t, exec .omyanHop s = .next t ∧ t.outbox = s.outbox ∧ MemoryKept s t ∧ t.cores = s.cores ∧
      (∀ q g n e a, f.cargo = .request q g n e a → (s.clk, Instr.accessAtHome, { body := .access a }) ∈ t.agenda) ∧
      ∀ q c n e v cause, f.cargo = .reply q c n e v cause →
        (s.clk, Instr.replyArrival, { a := c * 4096 + n, b := e, word := v, cause := cause }) ∈ t.agenda) ∧
    (f.dpkg ≠ s.pkgId → ∃ t, exec .omyanHop s = .next t ∧ t.outbox = s.outbox ∧ MemoryKept s t ∧ t.cores = s.cores ∧
      (p.owns code = false → (t.port i).flits = p.flits ++ [f] ∧ turn t (i / 6) s.clk) ∧
      (p.owns code = true → (p.buffer code).length < 8 →
        (t.port i).buffer code = p.buffer code ++ [{ f with fch := true }] ∧ (t.port i).flits = p.flits ∧ turn t (i / 6) s.clk) ∧
      (p.owns code = true → 8 ≤ (p.buffer code).length → t.port i = p ∧
        (s.clk + 1, Instr.omyanHop, { a := i, body := .flits [f] }) ∈ t.agenda))) ∧
  -- one clk of the ports of Hatch die h
  (∀ s : State, let h := s.input.a
    let alone := fun (i : Nat) => ∀ j < 6, 6 * h + j ≠ i → bare (s.port (6 * h + j))
    let ports := fun (t : State) => exec .fabricWheelTurn s = .next t ∧ MemoryKept s t
    ((∀ j < 6, bare (s.port (6 * h + j))) → exec .fabricWheelTurn s = .next s) ∧
    (∀ i f, let p := s.port i; let l := 6 * h + f.out
      i / 6 = h → f.out < 6 → alone i → p.inject = [] →
      (s.port l).up = true → (s.port l).retraining = false → 8 ≤ (s.port l).lanes → (s.port l).clk ≠ s.clk →
      (p.flits = [f] → p.buffers = [] → p.again = [] →
        ∃ t, ports t ∧ t.outbox = s.outbox ++ [.flit l (s.clk + 40) f] ∧ (t.port i).flits = [] ∧ t.cores = s.cores) ∧
      (∀ code, p.flits = [] → p.buffers = [(code, [f])] → p.again = [] →
        ∃ t, ports t ∧ t.outbox = s.outbox ++ [.flit l (s.clk + 40) f] ∧ (t.port i).buffer code = [] ∧ t.cores = s.cores) ∧
      (p.flits = [] → p.buffers = [] → p.again = [f] → i = l →
        ∃ t, ports t ∧ t.outbox = s.outbox ++ [.flit l (s.clk + 40) f] ∧ (t.port i).again = [] ∧ t.cores = s.cores)) ∧
    (∀ i j f g, let l := 6 * h
      i < 6 → j < 6 → i ≠ j → (∀ n < 6, n ≠ i → n ≠ j → bare (s.port (6 * h + n))) → (∀ n < 6, narrow s (6 * h + n)) →
      bare { s.port (l + i) with flits := [] } → bare { s.port (l + j) with flits := [] } →
      (s.port (l + i)).flits = [f] → (s.port (l + j)).flits = [g] → f.out = 0 → g.out = 0 →
      Flit.isCopy f = false → Flit.isCopy g = false → g.age.toNat < f.age.toNat →
      ∃ t, ports t ∧ t.outbox = s.outbox ++ [.flit l (s.clk + 40) f, .flit (l + 1) (s.clk + 40) { older g with out := 1 }]) ∧
    (∀ i f g code, let p := s.port i; let l := 6 * h
      i / 6 = h → alone i → (∀ n < 6, narrow s (6 * h + n)) → p.inject = [] → p.again = [] →
      p.buffers = [(code, [f])] → p.flits = [g] → p.entry s.clk 0 = code → f.out = 0 → g.out = 0 →
      Flit.isCopy f = false → Flit.isCopy g = false →
      ∃ t, ports t ∧ t.outbox = s.outbox ++ [.flit l (s.clk + 40) f, .flit (l + 1) (s.clk + 40) { older g with out := 1 }]) ∧
    ∀ i f, let p := s.port i
      i / 6 = h → alone i → (∀ n < 6, narrow s (6 * h + n)) → p.inject = [f] → f.fch = false → p.buffers = [] → p.again = [] →
      (p.flits = [] → ∃ t, ports t ∧ t.outbox = s.outbox ++ [.flit i (s.clk + 40) { f with out := i % 6 }] ∧ (t.port i).inject = []) ∧
      ∀ g, p.flits = [g] → g.out = i % 6 →
        ∃ t, ports t ∧ t.outbox = s.outbox ++ [.flit i (s.clk + 40) g] ∧ (t.port i).inject = [f] ∧ turn t h (s.clk + 1)) ∧
  ∀ s : State, let i := s.input.a; let p := s.port i
    (p.up = true → p.lanes = 32 → p.failed = 0 → exec .laneFailure s = .next (s.modPort i fun p => { p with failed := 1 })) ∧
    (p.up = true → p.lanes = 16 ∨ p.lanes = 32 ∧ p.failed ≠ 0 → ∃ t, exec .laneFailure s = .next t ∧
      (t.port i).lanes = p.lanes / 2 ∧ (t.port i).retraining = true ∧ MemoryKept s t ∧ t.cores = s.cores ∧
      (∀ e ∈ p.replay, s.clk < e.1 + 80 → e.2 ∈ (t.port i).again) ∧
      (s.clk + 1250 * s.clockStep, Instr.portRetrainComplete, { a := i }) ∈ t.agenda) ∧
    (p.up = true → p.lanes = 8 → ∃ t, exec .laneFailure s = .next t ∧ (t.port i).up = false ∧ MemoryKept s t ∧
      ∀ e ∈ p.replay, s.clk < e.1 + 80 → e.2 ∈ (t.port i).flits) ∧
    (p.retraining = true → ∃ t, exec .portRetrainComplete s = .next t ∧ (t.port i).retraining = false ∧ MemoryKept s t ∧
      (t.port i).again = p.again ∧ (p.again ≠ [] → turn t (i / 6) s.clk)))

/-! Granaries (10, R249 to R254), boot and partitions (14, R367, R371 to R374). -/

/-- R249, R251, R252, R254: a grant whose copy fits its bound makes the lender's record active until its term, or the
borrower's record mapped; a refused one changes nothing. A reclaim gives the lender's record a deadline and sends a
notice, a request with a tag and a timeout; at the deadline it is revoked; a release notice, the loss of the borrower or
a port that has been down for Tr frees it. A lender knows its neighbours by its ports and its mappings by its page
tables. R251 to R253: a release or a notice makes a mapped region move; each of its pages is marked, and once the writes
under the old mapping are performed its lines are read from the lender and written at the fallback; with the last line
its entry gets the fallback's tier and frame; a line refused as revoked poisons what has not moved. After the last page
the region is demoted, a release notice goes to the lender and a type-250 message to each core of NOTIFY. The model's
choices are log 49 (a borrower takes the lender's word by a flag of the grant; the lines of a page at the pace of RESBW;
marks of core number 1,280 + i; a line that is lost in another way counts as revoked) and log 64 (a grant takes a
DEMOTED or REVOKED record). -/
def Obligations.Granaries : Prop :=
  -- a controller's notice to another package, under a tag of 0x511, leaves by the router of the package
  let sent := fun (s t : State) (pkg part : Nat) (o : Owner) (x : Nat → Nat → Cargo) =>
    ∃ e ∈ t.reqs, e.2.owner = o ∧ e.2.toPkg = pkg ∧ e.2.toTgt = 0x511 ∧ e.1 = 0x511 * 4096 + e.2.acc.tag ∧ e.2.epoch = e.2.acc.epoch ∧
      (s.clk + 524288, Instr.requestTimeout, ({ a := e.1, b := e.2.epoch } : Input)) ∈ t.agenda ∧
      (pkg ≠ s.pkgId.toNat → (s.clk, Instr.omyanHop,
        ({ flag := true, body := .flits [s.flit 0x511 0x511 part 3 (x e.2.acc.tag e.2.epoch)] } : Input)) ∈ t.agenda)
  ((∀ (s : State) (g : Grant), let i := s.input.a; let r := s.lentRec i
    let others := fun (n : Nat) => 1 ≤ g.units ∧ g.units ≤ 1024 ∧ 1 ≤ g.tr ∧ g.tr ≤ 100 ∧ (g.ftier = 0 ∨ g.ftier = 2) ∧
      g.units * 2 ^ 30 * 10000 ≤ g.resbw * 10 ^ 9 * 9 * g.tr ∧ g.resbw + n ≤ if g.ftier = 2 then 256 else 448
    let lends := r.state = .free ∧ s.neighbour g.peer = true ∧ others g.others ∧ g.base / 128 < 8 ∧ g.base % 128 + g.units ≤ 96 ∧
      s.unmapped g.base g.units = true ∧ ∀ e ∈ s.lent, e.2.state = .free ∨ e.2.base + e.2.units ≤ g.base ∨ g.base + g.units ≤ e.2.base
    let b := s.borrowedRec i
    let borrows := b.state ≠ .mapped ∧ b.state ≠ .moving ∧ s.neighbour g.peer = true ∧ g.unmapped = true ∧
      others (((s.borrowed.filter fun e => (e.2.state = .mapped || e.2.state = .moving) && e.2.ftier = g.ftier).map
        fun e => e.2.resbw).sum) ∧ g.faddr % 2 ^ 30 = 0 ∧ g.vbase % 2 ^ 30 = 0
    s.input.body = .grant g → i < 64 →
    (g.lend = true → lends → ∃ t, exec .granaryGrant s = .next t ∧ MemoryKept s t ∧ t.cores = s.cores ∧
      t.lentRec i = { state := .active, borrower := g.peer, bpart := g.part, base := g.base, units := g.units, tr := g.tr
                      gen := r.gen + 1, termend := s.clk + g.term, deadline := 0 } ∧
      (s.clk + g.term, Instr.termEnd, { a := i, b := (r.gen + 1).toNat }) ∈ t.agenda) ∧
    (g.lend = true → ¬lends → exec .granaryGrant s = .next s) ∧
    (g.lend = false → borrows → ∃ t, exec .granaryGrant s = .next t ∧ MemoryKept s t ∧ t.cores = s.cores ∧
      t.borrowedRec i = { state := .mapped, lender := g.peer, lbase := g.base, units := g.units, part := g.part, tr := g.tr
                          gen := g.gen, vbase := g.vbase, ftier := g.ftier, faddr := g.faddr, resbw := g.resbw
                          notify := g.notify.take 8 }) ∧
    (g.lend = false → ¬borrows → exec .granaryGrant s = .next s)) ∧
  (∀ s : State, let i := s.input.a; let r := s.lentRec i
    let due := s.clk + r.tr * 25000 * s.clockStep
    let reclaims := fun (t : State) (why : Nat) => MemoryKept s t ∧
      t.lentRec i = { r with state := .reclaiming, deadline := due } ∧
      (due, Instr.reclaimDeadline, { a := i, b := r.gen.toNat }) ∈ t.agenda ∧
      ((s.freeTag 0x511).isSome = true → t.cores = s.cores ∧
        sent s t r.borrower 0 (.reclaim r.base r.gen why) (fun n e => .reclaim r.borrower n e r.base r.gen why)) ∧
      (s.freeTag 0x511 = none → ∃ x ∈ (t.core 0x511).sendq, x.1 = r.borrower ∧ x.2.2.2 = .reclaim r.base r.gen why)
    (r.state = .active → ∃ t, exec .reclaimRequest s = .next t ∧ reclaims t 0) ∧
    (r.state ≠ .active → exec .reclaimRequest s = .next s) ∧
    (r.state = .active → r.gen.toNat = s.input.b → ∃ t, exec .termEnd s = .next t ∧ reclaims t 1) ∧
    (r.state ≠ .active ∨ r.gen.toNat ≠ s.input.b → exec .termEnd s = .next s) ∧
    (r.state = .reclaiming → r.gen.toNat = s.input.b → (∀ e ∈ s.vaults, e.2.shelf = []) → ∃ t, exec .reclaimDeadline s = .next t ∧ MemoryKept s t ∧
      t.lentRec i = { r with state := .revoked, revoked := true, deadline := 0 }) ∧
    (r.state ≠ .reclaiming ∨ r.gen.toNat ≠ s.input.b → exec .reclaimDeadline s = .next s)) ∧
  (∀ s : State, let r := s.lentRec s.input.a
    let lost := r.gen.toNat = s.input.b ∧ r.borrower = s.input.c ∧ ∀ j < 12, (s.port j).up = true → (s.port j).peer ≠ some r.borrower
    s.input.flag = true → ¬lost → exec .borrowerLost s = .next s) ∧
  ∀ (i : Instr) (s : State), let r := s.lentRec s.input.a
    i = .releaseNotice ∨ i = .borrowerLost ∧ (s.input.flag = true → r.gen.toNat = s.input.b ∧ r.borrower = s.input.c ∧
      ∀ j < 12, (s.port j).up = true → (s.port j).peer ≠ some r.borrower) →
    exec i s = .next (s.modLent s.input.a fun r => { r with state := .free, deadline := 0 })) ∧
  ((∀ s : State, let i := s.input.a; let r := s.borrowedRec i
    let moves := fun (t : State) (why : Nat) => MemoryKept s t ∧ t.cores = s.cores ∧
      t.borrowedRec i = { r with state := .moving, moved := 0, poisoned := 0, reason := why } ∧
      (s.clk, Instr.pageMove, { a := i, b := r.vbase, c := r.gen.toNat }) ∈ t.agenda
    (r.state = .mapped → ∃ t, exec .granaryRelease s = .next t ∧ moves t 3) ∧
    (r.state = .mapped → ∃ t, exec .reclaimNotice s = .next t ∧ moves t s.input.b) ∧
    (r.state ≠ .mapped → exec .granaryRelease s = .next s ∧ exec .reclaimNotice s = .next s)) ∧
  ∀ (s : State), let i := s.input.a; let va := s.input.b
    let r := s.borrowedRec i
    let marks := (s.partn r.part).marks
    let mine := fun (x : Mark) => x.core = 1280 + i
    let goes := fun (t : State) (clk : Nat) (inp : Input) => exec .pageMove s = .next t ∧ (clk, Instr.pageMove, inp) ∈ t.agenda
    (r.state ≠ .moving ∨ r.gen.toNat ≠ s.input.c → exec .pageMove s = .next s) ∧
    (r.state = .moving → r.gen.toNat = s.input.c →
    -- the mark of the next page
    (∀ p loc w, let m : Mark := ⟨p, pageBytes (field w 56 2), 7, 1280 + i⟩
      let apart := marks.length < 16 ∧ ∀ x ∈ marks, x.lo + x.len ≤ m.lo ∨ m.lo + m.len ≤ x.lo
      s.input.d = 0 → s.nextPage r r.pages va = some p → s.leafAt r.part p = some (loc, w) →
      (apart → ∃ t, goes t s.clk { a := i, b := p, c := s.input.c, d := 1 } ∧ MemoryKept s t ∧ t.cores = s.cores ∧
        (t.partn r.part).marks = marks ++ [m]) ∧
      (¬apart → ∃ t, goes t (s.clk + 1) s.input ∧ MemoryKept s t ∧ t.cores = s.cores ∧ (t.partn r.part).marks = marks)) ∧
    -- the wait for the writes, and the reads of the page's lines
    (∀ loc w, let n := pageBytes (field w 56 2)
      s.leafAt r.part va = some (loc, w) → r.maps w = true →
      (s.input.d = 1 → s.drained r.part ⟨va, n, 7, 1280 + i⟩ = true →
        ∃ t, goes t s.clk { a := i, b := va, c := s.input.c, d := 2 } ∧ MemoryKept s t ∧ t.cores = s.cores ∧
          t.borrowedRec i = { r with due := s.clk, left := n / 64 }) ∧
      (s.input.d = 1 → s.drained r.part ⟨va, n, 7, 1280 + i⟩ = false →
        ∃ t, goes t (s.clk + 1) s.input ∧ MemoryKept s t ∧ t.cores = s.cores ∧ t.borrowedRec i = r) ∧
      -- RESBW is in GB/s
      (s.input.d = 2 → let pace := fun (e : Nat) => r.due + e * s.clockStep / (40 * max 1 r.resbw)
        let place := field w 16 24 * 2 ^ 16 + s.input.e
        (s.clk < pace s.input.e → ∃ t, goes t (pace s.input.e) s.input ∧ MemoryKept s t ∧ t.cores = s.cores) ∧
        (pace s.input.e ≤ s.clk → s.freeTag 0x511 = none → ∃ t, goes t (s.clk + 1) s.input ∧ MemoryKept s t ∧ t.cores = s.cores) ∧
        (pace s.input.e ≤ s.clk → (s.freeTag 0x511).isSome = true →
          ∃ t, exec .pageMove s = .next t ∧ MemoryKept s t ∧ t.cores = s.cores ∧
            (∃ e ∈ t.reqs, e.2.toPkg = r.lender ∧ e.2.toTgt = homeNo place ∧ e.2.acc.op = .load ∧ e.2.acc.loc = place ∧
              e.2.acc.addr = BitVec.ofNat 64 (va + s.input.e) ∧ e.2.acc.size = 64 ∧ e.2.acc.part = r.part ∧ e.2.acc.core = 0x511 ∧
              let f := s.flit e.2.toTgt 0x511 r.part 3 (.request r.lender e.2.toTgt e.2.acc.tag e.2.epoch e.2.acc)
              (r.lender ≠ s.pkgId.toNat → (s.clk, Instr.omyanHop, ({ flag := true, body := .flits [f] } : Input)) ∈ t.agenda)) ∧
            (s.input.e + 64 < n → (pace (s.input.e + 64), Instr.pageMove, { s.input with e := s.input.e + 64 }) ∈ t.agenda)))) ∧
    -- the answer to the read of a line: it is written at the fallback
    (∀ dst, dst = r.faddr + (va - r.vbase) → s.input.d = 3 → s.input.flag = false → va % 64 = 0 → dst % 64 = 0 →
      (r.ftier ≠ 2 → isVault dst = true → (s.vault (dst / 2 ^ 37)).shelf = [] → 2 ≤ r.left →
        let written := fun (t : State) (bad : Bool) => exec .pageMove s = .next t ∧ t.cores = s.cores ∧
          t.borrowedRec i = { r with left := r.left - 1 } ∧ (∀ n < 64, t.full (dst + n) = true ∧ t.poisoned (dst + n) = bad) ∧
          ∀ a, a / 64 ≠ dst / 64 → t.byte a = s.byte a
        (∀ l, s.input.body = .bytes l → l.length = 64 → ∃ t, written t false ∧ ∀ n < 64, t.byte (dst + n) = l.getD n 0) ∧
        (s.input.body = .none → s.input.cause = 0x0C → ∃ t, written t true)) ∧
      (∀ l, r.ftier = 2 → s.input.body = .bytes l → (s.freeTag 0x511).isSome = true →
        ∃ t, exec .pageMove s = .next t ∧ MemoryKept s t ∧ t.cores = s.cores ∧ t.borrowedRec i = r ∧
          ∃ e ∈ t.reqs, e.2.toPkg = s.pkgId.toNat ∧ e.2.toTgt = 0x510 ∧ e.2.acc.loc = hostLoc dst ∧
            e.2.acc.op = .line (l.map fun x => (x, false)) (some (List.replicate 8 true)) ∧
            ((s.port 12).up = true → (s.port 12).retraining = false →
              (s.clk, Instr.accessAtHome, ({ body := .access e.2.acc } : Input)) ∈ t.agenda))) ∧
    -- the last line stands at the fallback; or a line is lost
    (∀ loc w, let n := pageBytes (field w 56 2); let start := va / n * n; let a := r.faddr + (start - r.vbase)
      s.input.d = 3 → s.input.body = .none → s.leafAt r.part va = some (loc, w) → field w 56 2 ≠ 2 → isVault loc = true → loc % 8 = 0 →
      (s.input.flag = true → s.input.cause = 0 → r.left = 1 → r.ftier < 4 →
        ∃ t, goes t s.clk { a := i, b := start + n, c := s.input.c } ∧ (t.borrowedRec i).moved = r.moved + 1 ∧
          (∀ x, x ∈ (t.partn r.part).marks → x ∈ marks) ∧ (marks.filter mine = marks → (t.partn r.part).marks = []) ∧
          field (t.read64 loc) 58 2 = r.ftier ∧ field (t.read64 loc) 40 11 = s.pkgId.toNat ∧
          field (t.read64 loc) 16 24 = a / 2 ^ 16 % 2 ^ 24 ∧ field (t.read64 loc) 0 16 = field w 0 16 ∧
          field (t.read64 loc) 51 7 = field w 51 7 ∧ field (t.read64 loc) 60 4 = field w 60 4 ∧
          ∀ b, b < loc ∨ loc + 8 ≤ b → t.byte b = s.byte b) ∧
      (s.input.cause ≠ 0 → r.maps w = true → start < r.vbase + r.units * 2 ^ 30 →
        s.input.flag = true ∨ s.input.cause ≠ 0x0C ∨ r.ftier = 2 →
        ∃ t, exec .pageMove s = .next t ∧ (t.borrowedRec i).state = .revoked ∧ (t.read64 loc).getLsbD 15 = true ∧
          ∀ c ∈ r.notify, ∃ inp m, (s.clk, Instr.messageArrival, inp) ∈ t.agenda ∧ inp.a = c ∧ inp.body = .msg m ∧ m.ty = 250)) ∧
    -- no page is left
    (s.input.d = 0 → s.nextPage r r.pages va = none → r.poisoned = 0 →
      ∃ t, exec .pageMove s = .next t ∧ MemoryKept s t ∧ t.borrowedRec i = { r with state := .demoted } ∧
        ((s.freeTag 0x511).isSome = true →
          sent s t r.lender r.part (.release r.lbase r.gen) (fun n e => .release r.lender n e r.lbase r.gen)) ∧
        ∀ c ∈ r.notify, ∃ inp m, (s.clk, Instr.messageArrival, inp) ∈ t.agenda ∧ inp.a = c ∧ inp.body = .msg m ∧ m.ty = 250 ∧ m.src = 0 ∧
          m.payload = [BitVec.ofNat 64 r.vbase, BitVec.ofNat 64 r.moved, 0, BitVec.ofNat 64 (r.ftier + r.reason * 256),
            BitVec.ofNat 64 r.faddr, BitVec.ofNat 64 (r.gen.toNat * 2 ^ 44 + r.lender)])))

/-- R371 to R373: package reset, and the steps of boot in their order: the secure ROM's image has to verify, else the
package stops; the images of the dies; the links, each at the highest revision of both ends, else down, the package's
revision the lowest of all; the Vaults, trained over their spurs and cleared; the ports, of which one that sees the
package's own id stays down; the cores, the system types, the admitter. R367: the set-up of a partition without grids,
on pairs of no other and with wheel codes that exist, writes the map record, the root, the pool, the channel and the
fabric wheels, the launch rings, the page ring, EXPERT and CLKFIX; any other changes nothing. R374: a quote is a
signature over the manifest and the nonce; what the signature is the spec does not say. The model's choices are log 2
(a boot step whose inputs nobody gives runs with defaults, and places the next) and log 46 (the numbers of the dies and
links, pairs that are absent are left out, ring sizes within their bounds, set-up from boot step 6 on). -/
def Obligations.BootAndPartitions : Prop :=
  ((∀ s : State, ∃ t, exec .packageReset s = .next t ∧ t.pkgId = BitVec.ofNat 11 s.input.a ∧ t.bootStep = State.reset.bootStep ∧
    t.admitting = false ∧ t.cores = State.reset.cores ∧ t.empties = [] ∧ t.poison = [] ∧
    ∀ a, isHost a = false → t.byte a = 0) ∧
  (∀ (i : Instr) (n : Nat) (s : State),
    (i, n) ∈ [(Instr.secureRomVerify, 1), (.dieImageVerify, 2), (.dieLinkTraining, 3), (.vaultTrainAndClear, 4),
      (.omyanPortTraining, 5), (.systemTypeBinding, 6)] → s.bootStep ≠ n → exec i s = .next s) ∧
  (∀ (s : State) (d : BitVec 256), s.input.body = .digest d →
    (s.bootStep = 1 → Config.imageVerdict 0 d = false → exec .secureRomVerify s = .fault .packageStopped) ∧
    (s.bootStep = 1 → Config.imageVerdict 0 d = true → ∃ t, exec .secureRomVerify s = .next t ∧ t.bootStep = 2 ∧ MemoryKept s t ∧
      t.cores = s.cores ∧ (s.clk, Instr.dieImageVerify, { a := 0, body := .digest 0 }) ∈ t.agenda) ∧
    (s.bootStep = 2 → ∃ t, exec .dieImageVerify s = .next t ∧ MemoryKept s t ∧ t.cores = s.cores ∧
      t.manifest = s.manifest ++ [⟨s.input.a, BitVec.ofNat 32 s.input.b, d⟩] ∧
      t.bootStep = (if s.input.a + 1 < 18 then 2 else 3) ∧
      (t.die s.input.a).absent = if Config.imageVerdict (s.input.a + 1) d then false else (s.die s.input.a).absent)) ∧
  (∀ s : State, let l := s.input.a
    let common := fun (n : Nat) => s.input.b.testBit n = true ∧ s.input.c.testBit n = true
    s.bootStep = 3 → ∃ t, exec .dieLinkTraining s = .next t ∧ MemoryKept s t ∧ t.cores = s.cores ∧
      t.bootStep = (if l + 1 < 29 then 3 else 4) ∧ t.dies = s.dies ∧
      ((∀ n < 16, ¬common n) ∨ (∃ d ∈ linkEnds l, (s.die d).absent = true) → t.links = s.links ∧ t.revision = s.revision) ∧
      ∀ n < 16, (∀ d ∈ linkEnds l, (s.die d).absent = false) → common n → (∀ k, n < k → k < 16 → ¬common k) →
        t.linkUp l = true ∧ Table.get 16 t.links l = n ∧ t.revision = some (min n (s.revision.getD n))) ∧
  (∀ s : State, let k := s.input.a
    s.bootStep = 4 → s.input.flag = true → k < 8 → s.linkUp (21 + k) = true → ∃ t, exec .vaultTrainAndClear s = .next t ∧ t.cores = s.cores ∧
      t.bootStep = (if k + 1 < 8 then 4 else 5) ∧ (t.vault k).absent = false ∧
      (s.memoryOk = true → ∀ a, if isVault a = true ∧ a / 2 ^ 37 = k then t.byte a = 0 ∧ t.full a = true ∧ t.poisoned a = false
        else t.byte a = s.byte a) ∧
      ∀ ch < 32, (s.clk + 256, Instr.patrolScrub, { a := k, b := ch }) ∈ t.agenda) ∧
  (∀ s : State, let p := s.input.a
    s.bootStep = 5 → p < 12 → (s.die (16 + p / 6)).absent = false → ∃ t, exec .omyanPortTraining s = .next t ∧ MemoryKept s t ∧ t.cores = s.cores ∧
      t.bootStep = (if p + 1 < 12 then 5 else 6) ∧
      (s.input.flag = true → s.input.b % 2048 ≠ s.pkgId.toNat →
        (t.port p).up = true ∧ (t.port p).peer = some (s.input.b % 2048) ∧ t.badPorts = s.badPorts) ∧
      (s.input.flag = true → s.input.b % 2048 = s.pkgId.toNat →
        (t.port p).up = (s.port p).up ∧ t.badPorts = s.badPorts ++ [(p, s.input.b % 2048)]) ∧
      (s.input.flag = false → (t.port p).up = (s.port p).up ∧ t.badPorts = s.badPorts)) ∧
  ∀ (s : State) (f : FwCore), s.bootStep = 6 → s.input.body = .fw f → (∀ e ∈ s.parts, e.2.pairs = 0) →
    (s.die 16).absent = false →
    ∃ t, exec .systemTypeBinding s = .next t ∧ t.bootStep = 7 ∧ t.admitting = true ∧ t.firmware = some f ∧
      ∀ c < 1280, s.pairPresent (coreDie c) = true →
        (t.core c).vtbase = f.vtbase ∧ (t.core c).rrbase = f.rrbase ∧ (t.core c).frtbase = f.frtbase ∧ (t.core c).trapvec = f.trapvec ∧
        (t.core c).wdoglim = f.wdoglim) ∧
  ((∀ (s : State) (u : PartSetup), let p := s.input.a
    let good := 6 ≤ s.bootStep ∧ p < 8 ∧ (∀ e ∈ s.grids, e.2.part ≠ p) ∧ (∀ e ∈ u.vwheel, ∀ c ∈ e.2, c ≤ 8 ∨ c = 15) ∧
      (∀ e ∈ u.fwheel, ∀ c ∈ e.2, c ≤ 8 ∨ c = 15) ∧ ∀ q < 8, q ≠ p → (s.partn q).pairs &&& u.pairs = 0
    s.input.body = .setup u →
    (¬good → exec .partitionSetup s = .next s) ∧
    (good → ∃ t, exec .partitionSetup s = .next t ∧ t.cores = s.cores ∧ (t.partn p).grant = u.grant ∧ (t.partn p).foreign = u.foreign ∧
      (t.partn p).root = u.root ∧ (t.partn p).poolBase = u.poolBase ∧ (t.partn p).poolSize = u.poolSize ∧
      (t.partn p).marks = (s.partn p).marks ∧ (t.partn p).queues = (s.partn p).queues ∧
      (∀ d < 8, (t.partn p).pairs.getLsbD d = (u.pairs.getLsbD d && s.pairPresent d)) ∧
      -- the channel wheels of the pairs, the fabric wheels of the ports that are named
      (∀ d < 8, (t.partn p).pairs.getLsbD d = true → ∀ n < 64,
        Table.get 15 (t.vault d).wheel n = (Table.get (List.replicate 64 p) u.vwheel d).getD n 15) ∧
      (∀ d, u.pairs.getLsbD d = false → (t.vault d).wheel = (s.vault d).wheel) ∧
      (∀ i l, (u.fwheel.filter fun e => e.1 = i) = [(i, l)] → ∀ n, Table.get 15 (t.port i).wheel n = l.getD n 15) ∧
      (∀ i, (∀ e ∈ u.fwheel, e.1 ≠ i) → t.port i = s.port i) ∧
      (∀ c < 4, Table.get {} (t.partn p).rings c = { base := u.ringBase.getD c 0, log := max 4 (min 16 (u.ringLog.getD c 4)) }) ∧
      (t.partn p).pageRing = u.pageRing ∧ (t.partn p).expert = (if u.expert = true then 1 else 0) ∧
      (field u.clkfix 8 5 ≤ 16 → (t.partn p).clkfix = u.clkfix &&& 0x1F01#64 ∧ (u.clkfix.getLsbD 0 = true → t.clockStep = 100)) ∧
      ∀ q, q ≠ p → t.partn q = s.partn q)) ∧
  ∀ s : State, exec .attestationQuote s = .next
    ({ s with freeCtr := s.freeCtr + 1 }.emit (.quote (Config.signature (s.manifestWords ++ [s.input.word]) s.freeCtr))) ∧
    s.manifestWords = (s.manifest.flatMap fun m => [BitVec.ofNat 64 m.die, m.version.zeroExtend 64] ++
        (List.range 4).map fun i => m.measure.extractLsb' (64 * i) 64) ++
      s.badPorts.map fun e => BitVec.ofNat 64 (e.1 * 2 ^ 32 + e.2))

/-! Rules stated whole, and what every step keeps. -/

/-- R189: `uret`, head 0x0006, not privileged: with UIA = 0 it traps ILLEGAL_INSTR, else PC := `ULIPC` and UIA := 0;
the pending user interrupts stay, so that one of them can be taken next; it sets no status. -/
def Obligations.UserReturn : Prop :=
  encode .uret = some (0x0006#16, 0) ∧ privileged .uret = false ∧
  Completes .uret (fun s => s.curSlot.uia = true) (fun s t =>
    SlotOnly s t s.cur.core s.cur.slot ∧ t.curSlot.uia = false ∧ t.curPath.pc = s.curSlot.ulipc ∧ t.curSlot.uiq = s.curSlot.uiq ∧
    ScalarsKept s t ∧ VectorsKept s t ∧ MasksKept s t ∧ t.curPath.live = s.curPath.live) ∧
  ∀ s, Runs .uret s → s.curSlot.uia = false →
    exec .uret s = .next (s.takeTrap { code := 0x02, faddr := s.pc, finfo := 0x0006 })

/-- R42: the compact forms, major 0x01. FN 0x00 writes s[a] to s[d], its imm6 zero; FN 0x01 writes s[a] plus the
sign-extended imm6, wrapped to 64 bits, and nothing when d = 0. A register field of 16 or more traps ILLEGAL_INSTR;
there is no other effect or fault. -/
def Obligations.CompactForms : Prop :=
  ∀ o : F1,
    encode (.movc o) = some (0x0500#16, o.toTail) ∧ encode (.addc o) = some (0x0501#16, o.toTail) ∧
    (wellFormed (.movc o) = true ↔ o.x = 0 ∧ o.d.toNat < 16 ∧ o.a.toNat < 16) ∧
    (wellFormed (.addc o) = true ↔ o.d.toNat < 16 ∧ o.a.toNat < 16) ∧
    Writes (.movc o) o.d (fun s => s.sreg o.a) ∧ Writes (.addc o) o.d (fun s => s.sreg o.a + o.x.signExtend 64) ∧
    (∀ s, Live s → wellFormed (.movc o) = true → Runs (.movc o) s) ∧ (∀ s, Live s → wellFormed (.addc o) = true → Runs (.addc o) s) ∧
    ∀ (s : State) (op : F1 → Instr) (h : Word), (op, h) ∈ [(Instr.movc, 0x0500), (Instr.addc, 0x0501)] → wellFormed (op o) = false →
      exec (op o) s = .next (s.takeTrap { code := 0x02, faddr := s.pc, finfo := h })

/-- Every step keeps memory, the F/E bits and the poison in their canonical forms: addresses rise and no listed byte
is what an unlisted one reads as. The form is the model's. -/
def Obligations.StepKeepsMemoryForm : Prop :=
  ∀ s t : State, s.memoryOk = true → step s = .next t → t.memoryOk = true

end Statements
end

