-- ==== Sys2Proof/Laws/State.lean ====
section
/-! SUPPORT. What each update of the state leaves as it is: one lemma for each field of the state and each named update. -/

namespace Sys2Proof.Machine

variable (s : State)


/-! modCore changes `cores` only. -/

@[simp] theorem State.modCore_agenda (c : Nat) (f : Core → Core) : (s.modCore c f).agenda = s.agenda := rfl
@[simp] theorem State.modCore_input (c : Nat) (f : Core → Core) : (s.modCore c f).input = s.input := rfl
@[simp] theorem State.modCore_cur (c : Nat) (f : Core → Core) : (s.modCore c f).cur = s.cur := rfl
@[simp] theorem State.modCore_chosen (c : Nat) (f : Core → Core) : (s.modCore c f).chosen = s.chosen := rfl
@[simp] theorem State.modCore_turn (c : Nat) (f : Core → Core) : (s.modCore c f).turn = s.turn := rfl
@[simp] theorem State.modCore_clk (c : Nat) (f : Core → Core) : (s.modCore c f).clk = s.clk := rfl
@[simp] theorem State.modCore_nextId (c : Nat) (f : Core → Core) : (s.modCore c f).nextId = s.nextId := rfl
@[simp] theorem State.modCore_freeCtr (c : Nat) (f : Core → Core) : (s.modCore c f).freeCtr = s.freeCtr := rfl
@[simp] theorem State.modCore_outbox (c : Nat) (f : Core → Core) : (s.modCore c f).outbox = s.outbox := rfl
@[simp] theorem State.modCore_mem (c : Nat) (f : Core → Core) : (s.modCore c f).mem = s.mem := rfl
@[simp] theorem State.modCore_empties (c : Nat) (f : Core → Core) : (s.modCore c f).empties = s.empties := rfl
@[simp] theorem State.modCore_poison (c : Nat) (f : Core → Core) : (s.modCore c f).poison = s.poison := rfl
@[simp] theorem State.modCore_pkgId (c : Nat) (f : Core → Core) : (s.modCore c f).pkgId = s.pkgId := rfl
@[simp] theorem State.modCore_bootStep (c : Nat) (f : Core → Core) : (s.modCore c f).bootStep = s.bootStep := rfl
@[simp] theorem State.modCore_admitting (c : Nat) (f : Core → Core) : (s.modCore c f).admitting = s.admitting := rfl
@[simp] theorem State.modCore_manifest (c : Nat) (f : Core → Core) : (s.modCore c f).manifest = s.manifest := rfl
@[simp] theorem State.modCore_badPorts (c : Nat) (f : Core → Core) : (s.modCore c f).badPorts = s.badPorts := rfl
@[simp] theorem State.modCore_revision (c : Nat) (f : Core → Core) : (s.modCore c f).revision = s.revision := rfl
@[simp] theorem State.modCore_links (c : Nat) (f : Core → Core) : (s.modCore c f).links = s.links := rfl
@[simp] theorem State.modCore_clockStep (c : Nat) (f : Core → Core) : (s.modCore c f).clockStep = s.clockStep := rfl
@[simp] theorem State.modCore_gated (c : Nat) (f : Core → Core) : (s.modCore c f).gated = s.gated := rfl
@[simp] theorem State.modCore_teams (c : Nat) (f : Core → Core) : (s.modCore c f).teams = s.teams := rfl
@[simp] theorem State.modCore_clusters (c : Nat) (f : Core → Core) : (s.modCore c f).clusters = s.clusters := rfl
@[simp] theorem State.modCore_grids (c : Nat) (f : Core → Core) : (s.modCore c f).grids = s.grids := rfl
@[simp] theorem State.modCore_dies (c : Nat) (f : Core → Core) : (s.modCore c f).dies = s.dies := rfl
@[simp] theorem State.modCore_bays (c : Nat) (f : Core → Core) : (s.modCore c f).bays = s.bays := rfl
@[simp] theorem State.modCore_parts (c : Nat) (f : Core → Core) : (s.modCore c f).parts = s.parts := rfl
@[simp] theorem State.modCore_vaults (c : Nat) (f : Core → Core) : (s.modCore c f).vaults = s.vaults := rfl
@[simp] theorem State.modCore_ports (c : Nat) (f : Core → Core) : (s.modCore c f).ports = s.ports := rfl
@[simp] theorem State.modCore_lent (c : Nat) (f : Core → Core) : (s.modCore c f).lent = s.lent := rfl
@[simp] theorem State.modCore_borrowed (c : Nat) (f : Core → Core) : (s.modCore c f).borrowed = s.borrowed := rfl
@[simp] theorem State.modCore_reqs (c : Nat) (f : Core → Core) : (s.modCore c f).reqs = s.reqs := rfl
@[simp] theorem State.modCore_epochs (c : Nat) (f : Core → Core) : (s.modCore c f).epochs = s.epochs := rfl
@[simp] theorem State.modCore_quarantined (c : Nat) (f : Core → Core) : (s.modCore c f).quarantined = s.quarantined := rfl
@[simp] theorem State.modCore_filfelPantry (c : Nat) (f : Core → Core) : (s.modCore c f).filfelPantry = s.filfelPantry := rfl
@[simp] theorem State.modCore_firmware (c : Nat) (f : Core → Core) : (s.modCore c f).firmware = s.firmware := rfl

/-! modSlot changes `cores` only. -/

@[simp] theorem State.modSlot_agenda (c k : Nat) (f : Slot → Slot) : (s.modSlot c k f).agenda = s.agenda := rfl
@[simp] theorem State.modSlot_input (c k : Nat) (f : Slot → Slot) : (s.modSlot c k f).input = s.input := rfl
@[simp] theorem State.modSlot_cur (c k : Nat) (f : Slot → Slot) : (s.modSlot c k f).cur = s.cur := rfl
@[simp] theorem State.modSlot_chosen (c k : Nat) (f : Slot → Slot) : (s.modSlot c k f).chosen = s.chosen := rfl
@[simp] theorem State.modSlot_turn (c k : Nat) (f : Slot → Slot) : (s.modSlot c k f).turn = s.turn := rfl
@[simp] theorem State.modSlot_clk (c k : Nat) (f : Slot → Slot) : (s.modSlot c k f).clk = s.clk := rfl
@[simp] theorem State.modSlot_nextId (c k : Nat) (f : Slot → Slot) : (s.modSlot c k f).nextId = s.nextId := rfl
@[simp] theorem State.modSlot_freeCtr (c k : Nat) (f : Slot → Slot) : (s.modSlot c k f).freeCtr = s.freeCtr := rfl
@[simp] theorem State.modSlot_outbox (c k : Nat) (f : Slot → Slot) : (s.modSlot c k f).outbox = s.outbox := rfl
@[simp] theorem State.modSlot_mem (c k : Nat) (f : Slot → Slot) : (s.modSlot c k f).mem = s.mem := rfl
@[simp] theorem State.modSlot_empties (c k : Nat) (f : Slot → Slot) : (s.modSlot c k f).empties = s.empties := rfl
@[simp] theorem State.modSlot_poison (c k : Nat) (f : Slot → Slot) : (s.modSlot c k f).poison = s.poison := rfl
@[simp] theorem State.modSlot_pkgId (c k : Nat) (f : Slot → Slot) : (s.modSlot c k f).pkgId = s.pkgId := rfl
@[simp] theorem State.modSlot_bootStep (c k : Nat) (f : Slot → Slot) : (s.modSlot c k f).bootStep = s.bootStep := rfl
@[simp] theorem State.modSlot_admitting (c k : Nat) (f : Slot → Slot) : (s.modSlot c k f).admitting = s.admitting := rfl
@[simp] theorem State.modSlot_manifest (c k : Nat) (f : Slot → Slot) : (s.modSlot c k f).manifest = s.manifest := rfl
@[simp] theorem State.modSlot_badPorts (c k : Nat) (f : Slot → Slot) : (s.modSlot c k f).badPorts = s.badPorts := rfl
@[simp] theorem State.modSlot_revision (c k : Nat) (f : Slot → Slot) : (s.modSlot c k f).revision = s.revision := rfl
@[simp] theorem State.modSlot_links (c k : Nat) (f : Slot → Slot) : (s.modSlot c k f).links = s.links := rfl
@[simp] theorem State.modSlot_clockStep (c k : Nat) (f : Slot → Slot) : (s.modSlot c k f).clockStep = s.clockStep := rfl
@[simp] theorem State.modSlot_gated (c k : Nat) (f : Slot → Slot) : (s.modSlot c k f).gated = s.gated := rfl
@[simp] theorem State.modSlot_teams (c k : Nat) (f : Slot → Slot) : (s.modSlot c k f).teams = s.teams := rfl
@[simp] theorem State.modSlot_clusters (c k : Nat) (f : Slot → Slot) : (s.modSlot c k f).clusters = s.clusters := rfl
@[simp] theorem State.modSlot_grids (c k : Nat) (f : Slot → Slot) : (s.modSlot c k f).grids = s.grids := rfl
@[simp] theorem State.modSlot_dies (c k : Nat) (f : Slot → Slot) : (s.modSlot c k f).dies = s.dies := rfl
@[simp] theorem State.modSlot_bays (c k : Nat) (f : Slot → Slot) : (s.modSlot c k f).bays = s.bays := rfl
@[simp] theorem State.modSlot_parts (c k : Nat) (f : Slot → Slot) : (s.modSlot c k f).parts = s.parts := rfl
@[simp] theorem State.modSlot_vaults (c k : Nat) (f : Slot → Slot) : (s.modSlot c k f).vaults = s.vaults := rfl
@[simp] theorem State.modSlot_ports (c k : Nat) (f : Slot → Slot) : (s.modSlot c k f).ports = s.ports := rfl
@[simp] theorem State.modSlot_lent (c k : Nat) (f : Slot → Slot) : (s.modSlot c k f).lent = s.lent := rfl
@[simp] theorem State.modSlot_borrowed (c k : Nat) (f : Slot → Slot) : (s.modSlot c k f).borrowed = s.borrowed := rfl
@[simp] theorem State.modSlot_reqs (c k : Nat) (f : Slot → Slot) : (s.modSlot c k f).reqs = s.reqs := rfl
@[simp] theorem State.modSlot_epochs (c k : Nat) (f : Slot → Slot) : (s.modSlot c k f).epochs = s.epochs := rfl
@[simp] theorem State.modSlot_quarantined (c k : Nat) (f : Slot → Slot) : (s.modSlot c k f).quarantined = s.quarantined := rfl
@[simp] theorem State.modSlot_filfelPantry (c k : Nat) (f : Slot → Slot) : (s.modSlot c k f).filfelPantry = s.filfelPantry := rfl
@[simp] theorem State.modSlot_firmware (c k : Nat) (f : Slot → Slot) : (s.modSlot c k f).firmware = s.firmware := rfl

/-! modPathOf changes `cores` only. -/

@[simp] theorem State.modPathOf_agenda (c k : Nat) (q : Bool) (f : Path → Path) : (s.modPathOf c k q f).agenda = s.agenda := rfl
@[simp] theorem State.modPathOf_input (c k : Nat) (q : Bool) (f : Path → Path) : (s.modPathOf c k q f).input = s.input := rfl
@[simp] theorem State.modPathOf_cur (c k : Nat) (q : Bool) (f : Path → Path) : (s.modPathOf c k q f).cur = s.cur := rfl
@[simp] theorem State.modPathOf_chosen (c k : Nat) (q : Bool) (f : Path → Path) : (s.modPathOf c k q f).chosen = s.chosen := rfl
@[simp] theorem State.modPathOf_turn (c k : Nat) (q : Bool) (f : Path → Path) : (s.modPathOf c k q f).turn = s.turn := rfl
@[simp] theorem State.modPathOf_clk (c k : Nat) (q : Bool) (f : Path → Path) : (s.modPathOf c k q f).clk = s.clk := rfl
@[simp] theorem State.modPathOf_nextId (c k : Nat) (q : Bool) (f : Path → Path) : (s.modPathOf c k q f).nextId = s.nextId := rfl
@[simp] theorem State.modPathOf_freeCtr (c k : Nat) (q : Bool) (f : Path → Path) : (s.modPathOf c k q f).freeCtr = s.freeCtr := rfl
@[simp] theorem State.modPathOf_outbox (c k : Nat) (q : Bool) (f : Path → Path) : (s.modPathOf c k q f).outbox = s.outbox := rfl
@[simp] theorem State.modPathOf_mem (c k : Nat) (q : Bool) (f : Path → Path) : (s.modPathOf c k q f).mem = s.mem := rfl
@[simp] theorem State.modPathOf_empties (c k : Nat) (q : Bool) (f : Path → Path) : (s.modPathOf c k q f).empties = s.empties := rfl
@[simp] theorem State.modPathOf_poison (c k : Nat) (q : Bool) (f : Path → Path) : (s.modPathOf c k q f).poison = s.poison := rfl
@[simp] theorem State.modPathOf_pkgId (c k : Nat) (q : Bool) (f : Path → Path) : (s.modPathOf c k q f).pkgId = s.pkgId := rfl
@[simp] theorem State.modPathOf_bootStep (c k : Nat) (q : Bool) (f : Path → Path) : (s.modPathOf c k q f).bootStep = s.bootStep := rfl
@[simp] theorem State.modPathOf_admitting (c k : Nat) (q : Bool) (f : Path → Path) : (s.modPathOf c k q f).admitting = s.admitting := rfl
@[simp] theorem State.modPathOf_manifest (c k : Nat) (q : Bool) (f : Path → Path) : (s.modPathOf c k q f).manifest = s.manifest := rfl
@[simp] theorem State.modPathOf_badPorts (c k : Nat) (q : Bool) (f : Path → Path) : (s.modPathOf c k q f).badPorts = s.badPorts := rfl
@[simp] theorem State.modPathOf_revision (c k : Nat) (q : Bool) (f : Path → Path) : (s.modPathOf c k q f).revision = s.revision := rfl
@[simp] theorem State.modPathOf_links (c k : Nat) (q : Bool) (f : Path → Path) : (s.modPathOf c k q f).links = s.links := rfl
@[simp] theorem State.modPathOf_clockStep (c k : Nat) (q : Bool) (f : Path → Path) : (s.modPathOf c k q f).clockStep = s.clockStep := rfl
@[simp] theorem State.modPathOf_gated (c k : Nat) (q : Bool) (f : Path → Path) : (s.modPathOf c k q f).gated = s.gated := rfl
@[simp] theorem State.modPathOf_teams (c k : Nat) (q : Bool) (f : Path → Path) : (s.modPathOf c k q f).teams = s.teams := rfl
@[simp] theorem State.modPathOf_clusters (c k : Nat) (q : Bool) (f : Path → Path) : (s.modPathOf c k q f).clusters = s.clusters := rfl
@[simp] theorem State.modPathOf_grids (c k : Nat) (q : Bool) (f : Path → Path) : (s.modPathOf c k q f).grids = s.grids := rfl
@[simp] theorem State.modPathOf_dies (c k : Nat) (q : Bool) (f : Path → Path) : (s.modPathOf c k q f).dies = s.dies := rfl
@[simp] theorem State.modPathOf_bays (c k : Nat) (q : Bool) (f : Path → Path) : (s.modPathOf c k q f).bays = s.bays := rfl
@[simp] theorem State.modPathOf_parts (c k : Nat) (q : Bool) (f : Path → Path) : (s.modPathOf c k q f).parts = s.parts := rfl
@[simp] theorem State.modPathOf_vaults (c k : Nat) (q : Bool) (f : Path → Path) : (s.modPathOf c k q f).vaults = s.vaults := rfl
@[simp] theorem State.modPathOf_ports (c k : Nat) (q : Bool) (f : Path → Path) : (s.modPathOf c k q f).ports = s.ports := rfl
@[simp] theorem State.modPathOf_lent (c k : Nat) (q : Bool) (f : Path → Path) : (s.modPathOf c k q f).lent = s.lent := rfl
@[simp] theorem State.modPathOf_borrowed (c k : Nat) (q : Bool) (f : Path → Path) : (s.modPathOf c k q f).borrowed = s.borrowed := rfl
@[simp] theorem State.modPathOf_reqs (c k : Nat) (q : Bool) (f : Path → Path) : (s.modPathOf c k q f).reqs = s.reqs := rfl
@[simp] theorem State.modPathOf_epochs (c k : Nat) (q : Bool) (f : Path → Path) : (s.modPathOf c k q f).epochs = s.epochs := rfl
@[simp] theorem State.modPathOf_quarantined (c k : Nat) (q : Bool) (f : Path → Path) : (s.modPathOf c k q f).quarantined = s.quarantined := rfl
@[simp] theorem State.modPathOf_filfelPantry (c k : Nat) (q : Bool) (f : Path → Path) : (s.modPathOf c k q f).filfelPantry = s.filfelPantry := rfl
@[simp] theorem State.modPathOf_firmware (c k : Nat) (q : Bool) (f : Path → Path) : (s.modPathOf c k q f).firmware = s.firmware := rfl

/-! modCurCore changes `cores` only. -/

@[simp] theorem State.modCurCore_agenda (f : Core → Core) : (s.modCurCore f).agenda = s.agenda := rfl
@[simp] theorem State.modCurCore_input (f : Core → Core) : (s.modCurCore f).input = s.input := rfl
@[simp] theorem State.modCurCore_cur (f : Core → Core) : (s.modCurCore f).cur = s.cur := rfl
@[simp] theorem State.modCurCore_chosen (f : Core → Core) : (s.modCurCore f).chosen = s.chosen := rfl
@[simp] theorem State.modCurCore_turn (f : Core → Core) : (s.modCurCore f).turn = s.turn := rfl
@[simp] theorem State.modCurCore_clk (f : Core → Core) : (s.modCurCore f).clk = s.clk := rfl
@[simp] theorem State.modCurCore_nextId (f : Core → Core) : (s.modCurCore f).nextId = s.nextId := rfl
@[simp] theorem State.modCurCore_freeCtr (f : Core → Core) : (s.modCurCore f).freeCtr = s.freeCtr := rfl
@[simp] theorem State.modCurCore_outbox (f : Core → Core) : (s.modCurCore f).outbox = s.outbox := rfl
@[simp] theorem State.modCurCore_mem (f : Core → Core) : (s.modCurCore f).mem = s.mem := rfl
@[simp] theorem State.modCurCore_empties (f : Core → Core) : (s.modCurCore f).empties = s.empties := rfl
@[simp] theorem State.modCurCore_poison (f : Core → Core) : (s.modCurCore f).poison = s.poison := rfl
@[simp] theorem State.modCurCore_pkgId (f : Core → Core) : (s.modCurCore f).pkgId = s.pkgId := rfl
@[simp] theorem State.modCurCore_bootStep (f : Core → Core) : (s.modCurCore f).bootStep = s.bootStep := rfl
@[simp] theorem State.modCurCore_admitting (f : Core → Core) : (s.modCurCore f).admitting = s.admitting := rfl
@[simp] theorem State.modCurCore_manifest (f : Core → Core) : (s.modCurCore f).manifest = s.manifest := rfl
@[simp] theorem State.modCurCore_badPorts (f : Core → Core) : (s.modCurCore f).badPorts = s.badPorts := rfl
@[simp] theorem State.modCurCore_revision (f : Core → Core) : (s.modCurCore f).revision = s.revision := rfl
@[simp] theorem State.modCurCore_links (f : Core → Core) : (s.modCurCore f).links = s.links := rfl
@[simp] theorem State.modCurCore_clockStep (f : Core → Core) : (s.modCurCore f).clockStep = s.clockStep := rfl
@[simp] theorem State.modCurCore_gated (f : Core → Core) : (s.modCurCore f).gated = s.gated := rfl
@[simp] theorem State.modCurCore_teams (f : Core → Core) : (s.modCurCore f).teams = s.teams := rfl
@[simp] theorem State.modCurCore_clusters (f : Core → Core) : (s.modCurCore f).clusters = s.clusters := rfl
@[simp] theorem State.modCurCore_grids (f : Core → Core) : (s.modCurCore f).grids = s.grids := rfl
@[simp] theorem State.modCurCore_dies (f : Core → Core) : (s.modCurCore f).dies = s.dies := rfl
@[simp] theorem State.modCurCore_bays (f : Core → Core) : (s.modCurCore f).bays = s.bays := rfl
@[simp] theorem State.modCurCore_parts (f : Core → Core) : (s.modCurCore f).parts = s.parts := rfl
@[simp] theorem State.modCurCore_vaults (f : Core → Core) : (s.modCurCore f).vaults = s.vaults := rfl
@[simp] theorem State.modCurCore_ports (f : Core → Core) : (s.modCurCore f).ports = s.ports := rfl
@[simp] theorem State.modCurCore_lent (f : Core → Core) : (s.modCurCore f).lent = s.lent := rfl
@[simp] theorem State.modCurCore_borrowed (f : Core → Core) : (s.modCurCore f).borrowed = s.borrowed := rfl
@[simp] theorem State.modCurCore_reqs (f : Core → Core) : (s.modCurCore f).reqs = s.reqs := rfl
@[simp] theorem State.modCurCore_epochs (f : Core → Core) : (s.modCurCore f).epochs = s.epochs := rfl
@[simp] theorem State.modCurCore_quarantined (f : Core → Core) : (s.modCurCore f).quarantined = s.quarantined := rfl
@[simp] theorem State.modCurCore_filfelPantry (f : Core → Core) : (s.modCurCore f).filfelPantry = s.filfelPantry := rfl
@[simp] theorem State.modCurCore_firmware (f : Core → Core) : (s.modCurCore f).firmware = s.firmware := rfl

/-! modCur changes `cores` only. -/

@[simp] theorem State.modCur_agenda (f : Slot → Slot) : (s.modCur f).agenda = s.agenda := rfl
@[simp] theorem State.modCur_input (f : Slot → Slot) : (s.modCur f).input = s.input := rfl
@[simp] theorem State.modCur_cur (f : Slot → Slot) : (s.modCur f).cur = s.cur := rfl
@[simp] theorem State.modCur_chosen (f : Slot → Slot) : (s.modCur f).chosen = s.chosen := rfl
@[simp] theorem State.modCur_turn (f : Slot → Slot) : (s.modCur f).turn = s.turn := rfl
@[simp] theorem State.modCur_clk (f : Slot → Slot) : (s.modCur f).clk = s.clk := rfl
@[simp] theorem State.modCur_nextId (f : Slot → Slot) : (s.modCur f).nextId = s.nextId := rfl
@[simp] theorem State.modCur_freeCtr (f : Slot → Slot) : (s.modCur f).freeCtr = s.freeCtr := rfl
@[simp] theorem State.modCur_outbox (f : Slot → Slot) : (s.modCur f).outbox = s.outbox := rfl
@[simp] theorem State.modCur_mem (f : Slot → Slot) : (s.modCur f).mem = s.mem := rfl
@[simp] theorem State.modCur_empties (f : Slot → Slot) : (s.modCur f).empties = s.empties := rfl
@[simp] theorem State.modCur_poison (f : Slot → Slot) : (s.modCur f).poison = s.poison := rfl
@[simp] theorem State.modCur_pkgId (f : Slot → Slot) : (s.modCur f).pkgId = s.pkgId := rfl
@[simp] theorem State.modCur_bootStep (f : Slot → Slot) : (s.modCur f).bootStep = s.bootStep := rfl
@[simp] theorem State.modCur_admitting (f : Slot → Slot) : (s.modCur f).admitting = s.admitting := rfl
@[simp] theorem State.modCur_manifest (f : Slot → Slot) : (s.modCur f).manifest = s.manifest := rfl
@[simp] theorem State.modCur_badPorts (f : Slot → Slot) : (s.modCur f).badPorts = s.badPorts := rfl
@[simp] theorem State.modCur_revision (f : Slot → Slot) : (s.modCur f).revision = s.revision := rfl
@[simp] theorem State.modCur_links (f : Slot → Slot) : (s.modCur f).links = s.links := rfl
@[simp] theorem State.modCur_clockStep (f : Slot → Slot) : (s.modCur f).clockStep = s.clockStep := rfl
@[simp] theorem State.modCur_gated (f : Slot → Slot) : (s.modCur f).gated = s.gated := rfl
@[simp] theorem State.modCur_teams (f : Slot → Slot) : (s.modCur f).teams = s.teams := rfl
@[simp] theorem State.modCur_clusters (f : Slot → Slot) : (s.modCur f).clusters = s.clusters := rfl
@[simp] theorem State.modCur_grids (f : Slot → Slot) : (s.modCur f).grids = s.grids := rfl
@[simp] theorem State.modCur_dies (f : Slot → Slot) : (s.modCur f).dies = s.dies := rfl
@[simp] theorem State.modCur_bays (f : Slot → Slot) : (s.modCur f).bays = s.bays := rfl
@[simp] theorem State.modCur_parts (f : Slot → Slot) : (s.modCur f).parts = s.parts := rfl
@[simp] theorem State.modCur_vaults (f : Slot → Slot) : (s.modCur f).vaults = s.vaults := rfl
@[simp] theorem State.modCur_ports (f : Slot → Slot) : (s.modCur f).ports = s.ports := rfl
@[simp] theorem State.modCur_lent (f : Slot → Slot) : (s.modCur f).lent = s.lent := rfl
@[simp] theorem State.modCur_borrowed (f : Slot → Slot) : (s.modCur f).borrowed = s.borrowed := rfl
@[simp] theorem State.modCur_reqs (f : Slot → Slot) : (s.modCur f).reqs = s.reqs := rfl
@[simp] theorem State.modCur_epochs (f : Slot → Slot) : (s.modCur f).epochs = s.epochs := rfl
@[simp] theorem State.modCur_quarantined (f : Slot → Slot) : (s.modCur f).quarantined = s.quarantined := rfl
@[simp] theorem State.modCur_filfelPantry (f : Slot → Slot) : (s.modCur f).filfelPantry = s.filfelPantry := rfl
@[simp] theorem State.modCur_firmware (f : Slot → Slot) : (s.modCur f).firmware = s.firmware := rfl

/-! modPath changes `cores` only. -/

@[simp] theorem State.modPath_agenda (f : Path → Path) : (s.modPath f).agenda = s.agenda := rfl
@[simp] theorem State.modPath_input (f : Path → Path) : (s.modPath f).input = s.input := rfl
@[simp] theorem State.modPath_cur (f : Path → Path) : (s.modPath f).cur = s.cur := rfl
@[simp] theorem State.modPath_chosen (f : Path → Path) : (s.modPath f).chosen = s.chosen := rfl
@[simp] theorem State.modPath_turn (f : Path → Path) : (s.modPath f).turn = s.turn := rfl
@[simp] theorem State.modPath_clk (f : Path → Path) : (s.modPath f).clk = s.clk := rfl
@[simp] theorem State.modPath_nextId (f : Path → Path) : (s.modPath f).nextId = s.nextId := rfl
@[simp] theorem State.modPath_freeCtr (f : Path → Path) : (s.modPath f).freeCtr = s.freeCtr := rfl
@[simp] theorem State.modPath_outbox (f : Path → Path) : (s.modPath f).outbox = s.outbox := rfl
@[simp] theorem State.modPath_mem (f : Path → Path) : (s.modPath f).mem = s.mem := rfl
@[simp] theorem State.modPath_empties (f : Path → Path) : (s.modPath f).empties = s.empties := rfl
@[simp] theorem State.modPath_poison (f : Path → Path) : (s.modPath f).poison = s.poison := rfl
@[simp] theorem State.modPath_pkgId (f : Path → Path) : (s.modPath f).pkgId = s.pkgId := rfl
@[simp] theorem State.modPath_bootStep (f : Path → Path) : (s.modPath f).bootStep = s.bootStep := rfl
@[simp] theorem State.modPath_admitting (f : Path → Path) : (s.modPath f).admitting = s.admitting := rfl
@[simp] theorem State.modPath_manifest (f : Path → Path) : (s.modPath f).manifest = s.manifest := rfl
@[simp] theorem State.modPath_badPorts (f : Path → Path) : (s.modPath f).badPorts = s.badPorts := rfl
@[simp] theorem State.modPath_revision (f : Path → Path) : (s.modPath f).revision = s.revision := rfl
@[simp] theorem State.modPath_links (f : Path → Path) : (s.modPath f).links = s.links := rfl
@[simp] theorem State.modPath_clockStep (f : Path → Path) : (s.modPath f).clockStep = s.clockStep := rfl
@[simp] theorem State.modPath_gated (f : Path → Path) : (s.modPath f).gated = s.gated := rfl
@[simp] theorem State.modPath_teams (f : Path → Path) : (s.modPath f).teams = s.teams := rfl
@[simp] theorem State.modPath_clusters (f : Path → Path) : (s.modPath f).clusters = s.clusters := rfl
@[simp] theorem State.modPath_grids (f : Path → Path) : (s.modPath f).grids = s.grids := rfl
@[simp] theorem State.modPath_dies (f : Path → Path) : (s.modPath f).dies = s.dies := rfl
@[simp] theorem State.modPath_bays (f : Path → Path) : (s.modPath f).bays = s.bays := rfl
@[simp] theorem State.modPath_parts (f : Path → Path) : (s.modPath f).parts = s.parts := rfl
@[simp] theorem State.modPath_vaults (f : Path → Path) : (s.modPath f).vaults = s.vaults := rfl
@[simp] theorem State.modPath_ports (f : Path → Path) : (s.modPath f).ports = s.ports := rfl
@[simp] theorem State.modPath_lent (f : Path → Path) : (s.modPath f).lent = s.lent := rfl
@[simp] theorem State.modPath_borrowed (f : Path → Path) : (s.modPath f).borrowed = s.borrowed := rfl
@[simp] theorem State.modPath_reqs (f : Path → Path) : (s.modPath f).reqs = s.reqs := rfl
@[simp] theorem State.modPath_epochs (f : Path → Path) : (s.modPath f).epochs = s.epochs := rfl
@[simp] theorem State.modPath_quarantined (f : Path → Path) : (s.modPath f).quarantined = s.quarantined := rfl
@[simp] theorem State.modPath_filfelPantry (f : Path → Path) : (s.modPath f).filfelPantry = s.filfelPantry := rfl
@[simp] theorem State.modPath_firmware (f : Path → Path) : (s.modPath f).firmware = s.firmware := rfl

/-! setS changes `cores` only. -/

@[simp] theorem State.setS_agenda (n : BitVec 5) (v : Word) : (s.setS n v).agenda = s.agenda := rfl
@[simp] theorem State.setS_input (n : BitVec 5) (v : Word) : (s.setS n v).input = s.input := rfl
@[simp] theorem State.setS_cur (n : BitVec 5) (v : Word) : (s.setS n v).cur = s.cur := rfl
@[simp] theorem State.setS_chosen (n : BitVec 5) (v : Word) : (s.setS n v).chosen = s.chosen := rfl
@[simp] theorem State.setS_turn (n : BitVec 5) (v : Word) : (s.setS n v).turn = s.turn := rfl
@[simp] theorem State.setS_clk (n : BitVec 5) (v : Word) : (s.setS n v).clk = s.clk := rfl
@[simp] theorem State.setS_nextId (n : BitVec 5) (v : Word) : (s.setS n v).nextId = s.nextId := rfl
@[simp] theorem State.setS_freeCtr (n : BitVec 5) (v : Word) : (s.setS n v).freeCtr = s.freeCtr := rfl
@[simp] theorem State.setS_outbox (n : BitVec 5) (v : Word) : (s.setS n v).outbox = s.outbox := rfl
@[simp] theorem State.setS_mem (n : BitVec 5) (v : Word) : (s.setS n v).mem = s.mem := rfl
@[simp] theorem State.setS_empties (n : BitVec 5) (v : Word) : (s.setS n v).empties = s.empties := rfl
@[simp] theorem State.setS_poison (n : BitVec 5) (v : Word) : (s.setS n v).poison = s.poison := rfl
@[simp] theorem State.setS_pkgId (n : BitVec 5) (v : Word) : (s.setS n v).pkgId = s.pkgId := rfl
@[simp] theorem State.setS_bootStep (n : BitVec 5) (v : Word) : (s.setS n v).bootStep = s.bootStep := rfl
@[simp] theorem State.setS_admitting (n : BitVec 5) (v : Word) : (s.setS n v).admitting = s.admitting := rfl
@[simp] theorem State.setS_manifest (n : BitVec 5) (v : Word) : (s.setS n v).manifest = s.manifest := rfl
@[simp] theorem State.setS_badPorts (n : BitVec 5) (v : Word) : (s.setS n v).badPorts = s.badPorts := rfl
@[simp] theorem State.setS_revision (n : BitVec 5) (v : Word) : (s.setS n v).revision = s.revision := rfl
@[simp] theorem State.setS_links (n : BitVec 5) (v : Word) : (s.setS n v).links = s.links := rfl
@[simp] theorem State.setS_clockStep (n : BitVec 5) (v : Word) : (s.setS n v).clockStep = s.clockStep := rfl
@[simp] theorem State.setS_gated (n : BitVec 5) (v : Word) : (s.setS n v).gated = s.gated := rfl
@[simp] theorem State.setS_teams (n : BitVec 5) (v : Word) : (s.setS n v).teams = s.teams := rfl
@[simp] theorem State.setS_clusters (n : BitVec 5) (v : Word) : (s.setS n v).clusters = s.clusters := rfl
@[simp] theorem State.setS_grids (n : BitVec 5) (v : Word) : (s.setS n v).grids = s.grids := rfl
@[simp] theorem State.setS_dies (n : BitVec 5) (v : Word) : (s.setS n v).dies = s.dies := rfl
@[simp] theorem State.setS_bays (n : BitVec 5) (v : Word) : (s.setS n v).bays = s.bays := rfl
@[simp] theorem State.setS_parts (n : BitVec 5) (v : Word) : (s.setS n v).parts = s.parts := rfl
@[simp] theorem State.setS_vaults (n : BitVec 5) (v : Word) : (s.setS n v).vaults = s.vaults := rfl
@[simp] theorem State.setS_ports (n : BitVec 5) (v : Word) : (s.setS n v).ports = s.ports := rfl
@[simp] theorem State.setS_lent (n : BitVec 5) (v : Word) : (s.setS n v).lent = s.lent := rfl
@[simp] theorem State.setS_borrowed (n : BitVec 5) (v : Word) : (s.setS n v).borrowed = s.borrowed := rfl
@[simp] theorem State.setS_reqs (n : BitVec 5) (v : Word) : (s.setS n v).reqs = s.reqs := rfl
@[simp] theorem State.setS_epochs (n : BitVec 5) (v : Word) : (s.setS n v).epochs = s.epochs := rfl
@[simp] theorem State.setS_quarantined (n : BitVec 5) (v : Word) : (s.setS n v).quarantined = s.quarantined := rfl
@[simp] theorem State.setS_filfelPantry (n : BitVec 5) (v : Word) : (s.setS n v).filfelPantry = s.filfelPantry := rfl
@[simp] theorem State.setS_firmware (n : BitVec 5) (v : Word) : (s.setS n v).firmware = s.firmware := rfl

/-! setV changes `cores` only. -/

@[simp] theorem State.setV_agenda (n : Nat) (v : VReg) : (s.setV n v).agenda = s.agenda := rfl
@[simp] theorem State.setV_input (n : Nat) (v : VReg) : (s.setV n v).input = s.input := rfl
@[simp] theorem State.setV_cur (n : Nat) (v : VReg) : (s.setV n v).cur = s.cur := rfl
@[simp] theorem State.setV_chosen (n : Nat) (v : VReg) : (s.setV n v).chosen = s.chosen := rfl
@[simp] theorem State.setV_turn (n : Nat) (v : VReg) : (s.setV n v).turn = s.turn := rfl
@[simp] theorem State.setV_clk (n : Nat) (v : VReg) : (s.setV n v).clk = s.clk := rfl
@[simp] theorem State.setV_nextId (n : Nat) (v : VReg) : (s.setV n v).nextId = s.nextId := rfl
@[simp] theorem State.setV_freeCtr (n : Nat) (v : VReg) : (s.setV n v).freeCtr = s.freeCtr := rfl
@[simp] theorem State.setV_outbox (n : Nat) (v : VReg) : (s.setV n v).outbox = s.outbox := rfl
@[simp] theorem State.setV_mem (n : Nat) (v : VReg) : (s.setV n v).mem = s.mem := rfl
@[simp] theorem State.setV_empties (n : Nat) (v : VReg) : (s.setV n v).empties = s.empties := rfl
@[simp] theorem State.setV_poison (n : Nat) (v : VReg) : (s.setV n v).poison = s.poison := rfl
@[simp] theorem State.setV_pkgId (n : Nat) (v : VReg) : (s.setV n v).pkgId = s.pkgId := rfl
@[simp] theorem State.setV_bootStep (n : Nat) (v : VReg) : (s.setV n v).bootStep = s.bootStep := rfl
@[simp] theorem State.setV_admitting (n : Nat) (v : VReg) : (s.setV n v).admitting = s.admitting := rfl
@[simp] theorem State.setV_manifest (n : Nat) (v : VReg) : (s.setV n v).manifest = s.manifest := rfl
@[simp] theorem State.setV_badPorts (n : Nat) (v : VReg) : (s.setV n v).badPorts = s.badPorts := rfl
@[simp] theorem State.setV_revision (n : Nat) (v : VReg) : (s.setV n v).revision = s.revision := rfl
@[simp] theorem State.setV_links (n : Nat) (v : VReg) : (s.setV n v).links = s.links := rfl
@[simp] theorem State.setV_clockStep (n : Nat) (v : VReg) : (s.setV n v).clockStep = s.clockStep := rfl
@[simp] theorem State.setV_gated (n : Nat) (v : VReg) : (s.setV n v).gated = s.gated := rfl
@[simp] theorem State.setV_teams (n : Nat) (v : VReg) : (s.setV n v).teams = s.teams := rfl
@[simp] theorem State.setV_clusters (n : Nat) (v : VReg) : (s.setV n v).clusters = s.clusters := rfl
@[simp] theorem State.setV_grids (n : Nat) (v : VReg) : (s.setV n v).grids = s.grids := rfl
@[simp] theorem State.setV_dies (n : Nat) (v : VReg) : (s.setV n v).dies = s.dies := rfl
@[simp] theorem State.setV_bays (n : Nat) (v : VReg) : (s.setV n v).bays = s.bays := rfl
@[simp] theorem State.setV_parts (n : Nat) (v : VReg) : (s.setV n v).parts = s.parts := rfl
@[simp] theorem State.setV_vaults (n : Nat) (v : VReg) : (s.setV n v).vaults = s.vaults := rfl
@[simp] theorem State.setV_ports (n : Nat) (v : VReg) : (s.setV n v).ports = s.ports := rfl
@[simp] theorem State.setV_lent (n : Nat) (v : VReg) : (s.setV n v).lent = s.lent := rfl
@[simp] theorem State.setV_borrowed (n : Nat) (v : VReg) : (s.setV n v).borrowed = s.borrowed := rfl
@[simp] theorem State.setV_reqs (n : Nat) (v : VReg) : (s.setV n v).reqs = s.reqs := rfl
@[simp] theorem State.setV_epochs (n : Nat) (v : VReg) : (s.setV n v).epochs = s.epochs := rfl
@[simp] theorem State.setV_quarantined (n : Nat) (v : VReg) : (s.setV n v).quarantined = s.quarantined := rfl
@[simp] theorem State.setV_filfelPantry (n : Nat) (v : VReg) : (s.setV n v).filfelPantry = s.filfelPantry := rfl
@[simp] theorem State.setV_firmware (n : Nat) (v : VReg) : (s.setV n v).firmware = s.firmware := rfl

/-! setM changes `cores` only. -/

@[simp] theorem State.setM_agenda (n : Nat) (v : Mask) : (s.setM n v).agenda = s.agenda := rfl
@[simp] theorem State.setM_input (n : Nat) (v : Mask) : (s.setM n v).input = s.input := rfl
@[simp] theorem State.setM_cur (n : Nat) (v : Mask) : (s.setM n v).cur = s.cur := rfl
@[simp] theorem State.setM_chosen (n : Nat) (v : Mask) : (s.setM n v).chosen = s.chosen := rfl
@[simp] theorem State.setM_turn (n : Nat) (v : Mask) : (s.setM n v).turn = s.turn := rfl
@[simp] theorem State.setM_clk (n : Nat) (v : Mask) : (s.setM n v).clk = s.clk := rfl
@[simp] theorem State.setM_nextId (n : Nat) (v : Mask) : (s.setM n v).nextId = s.nextId := rfl
@[simp] theorem State.setM_freeCtr (n : Nat) (v : Mask) : (s.setM n v).freeCtr = s.freeCtr := rfl
@[simp] theorem State.setM_outbox (n : Nat) (v : Mask) : (s.setM n v).outbox = s.outbox := rfl
@[simp] theorem State.setM_mem (n : Nat) (v : Mask) : (s.setM n v).mem = s.mem := rfl
@[simp] theorem State.setM_empties (n : Nat) (v : Mask) : (s.setM n v).empties = s.empties := rfl
@[simp] theorem State.setM_poison (n : Nat) (v : Mask) : (s.setM n v).poison = s.poison := rfl
@[simp] theorem State.setM_pkgId (n : Nat) (v : Mask) : (s.setM n v).pkgId = s.pkgId := rfl
@[simp] theorem State.setM_bootStep (n : Nat) (v : Mask) : (s.setM n v).bootStep = s.bootStep := rfl
@[simp] theorem State.setM_admitting (n : Nat) (v : Mask) : (s.setM n v).admitting = s.admitting := rfl
@[simp] theorem State.setM_manifest (n : Nat) (v : Mask) : (s.setM n v).manifest = s.manifest := rfl
@[simp] theorem State.setM_badPorts (n : Nat) (v : Mask) : (s.setM n v).badPorts = s.badPorts := rfl
@[simp] theorem State.setM_revision (n : Nat) (v : Mask) : (s.setM n v).revision = s.revision := rfl
@[simp] theorem State.setM_links (n : Nat) (v : Mask) : (s.setM n v).links = s.links := rfl
@[simp] theorem State.setM_clockStep (n : Nat) (v : Mask) : (s.setM n v).clockStep = s.clockStep := rfl
@[simp] theorem State.setM_gated (n : Nat) (v : Mask) : (s.setM n v).gated = s.gated := rfl
@[simp] theorem State.setM_teams (n : Nat) (v : Mask) : (s.setM n v).teams = s.teams := rfl
@[simp] theorem State.setM_clusters (n : Nat) (v : Mask) : (s.setM n v).clusters = s.clusters := rfl
@[simp] theorem State.setM_grids (n : Nat) (v : Mask) : (s.setM n v).grids = s.grids := rfl
@[simp] theorem State.setM_dies (n : Nat) (v : Mask) : (s.setM n v).dies = s.dies := rfl
@[simp] theorem State.setM_bays (n : Nat) (v : Mask) : (s.setM n v).bays = s.bays := rfl
@[simp] theorem State.setM_parts (n : Nat) (v : Mask) : (s.setM n v).parts = s.parts := rfl
@[simp] theorem State.setM_vaults (n : Nat) (v : Mask) : (s.setM n v).vaults = s.vaults := rfl
@[simp] theorem State.setM_ports (n : Nat) (v : Mask) : (s.setM n v).ports = s.ports := rfl
@[simp] theorem State.setM_lent (n : Nat) (v : Mask) : (s.setM n v).lent = s.lent := rfl
@[simp] theorem State.setM_borrowed (n : Nat) (v : Mask) : (s.setM n v).borrowed = s.borrowed := rfl
@[simp] theorem State.setM_reqs (n : Nat) (v : Mask) : (s.setM n v).reqs = s.reqs := rfl
@[simp] theorem State.setM_epochs (n : Nat) (v : Mask) : (s.setM n v).epochs = s.epochs := rfl
@[simp] theorem State.setM_quarantined (n : Nat) (v : Mask) : (s.setM n v).quarantined = s.quarantined := rfl
@[simp] theorem State.setM_filfelPantry (n : Nat) (v : Mask) : (s.setM n v).filfelPantry = s.filfelPantry := rfl
@[simp] theorem State.setM_firmware (n : Nat) (v : Mask) : (s.setM n v).firmware = s.firmware := rfl

/-! waitFor changes `cores` only. -/

@[simp] theorem State.waitFor_agenda (w : Wait) : (s.waitFor w).agenda = s.agenda := rfl
@[simp] theorem State.waitFor_input (w : Wait) : (s.waitFor w).input = s.input := rfl
@[simp] theorem State.waitFor_cur (w : Wait) : (s.waitFor w).cur = s.cur := rfl
@[simp] theorem State.waitFor_chosen (w : Wait) : (s.waitFor w).chosen = s.chosen := rfl
@[simp] theorem State.waitFor_turn (w : Wait) : (s.waitFor w).turn = s.turn := rfl
@[simp] theorem State.waitFor_clk (w : Wait) : (s.waitFor w).clk = s.clk := rfl
@[simp] theorem State.waitFor_nextId (w : Wait) : (s.waitFor w).nextId = s.nextId := rfl
@[simp] theorem State.waitFor_freeCtr (w : Wait) : (s.waitFor w).freeCtr = s.freeCtr := rfl
@[simp] theorem State.waitFor_outbox (w : Wait) : (s.waitFor w).outbox = s.outbox := rfl
@[simp] theorem State.waitFor_mem (w : Wait) : (s.waitFor w).mem = s.mem := rfl
@[simp] theorem State.waitFor_empties (w : Wait) : (s.waitFor w).empties = s.empties := rfl
@[simp] theorem State.waitFor_poison (w : Wait) : (s.waitFor w).poison = s.poison := rfl
@[simp] theorem State.waitFor_pkgId (w : Wait) : (s.waitFor w).pkgId = s.pkgId := rfl
@[simp] theorem State.waitFor_bootStep (w : Wait) : (s.waitFor w).bootStep = s.bootStep := rfl
@[simp] theorem State.waitFor_admitting (w : Wait) : (s.waitFor w).admitting = s.admitting := rfl
@[simp] theorem State.waitFor_manifest (w : Wait) : (s.waitFor w).manifest = s.manifest := rfl
@[simp] theorem State.waitFor_badPorts (w : Wait) : (s.waitFor w).badPorts = s.badPorts := rfl
@[simp] theorem State.waitFor_revision (w : Wait) : (s.waitFor w).revision = s.revision := rfl
@[simp] theorem State.waitFor_links (w : Wait) : (s.waitFor w).links = s.links := rfl
@[simp] theorem State.waitFor_clockStep (w : Wait) : (s.waitFor w).clockStep = s.clockStep := rfl
@[simp] theorem State.waitFor_gated (w : Wait) : (s.waitFor w).gated = s.gated := rfl
@[simp] theorem State.waitFor_teams (w : Wait) : (s.waitFor w).teams = s.teams := rfl
@[simp] theorem State.waitFor_clusters (w : Wait) : (s.waitFor w).clusters = s.clusters := rfl
@[simp] theorem State.waitFor_grids (w : Wait) : (s.waitFor w).grids = s.grids := rfl
@[simp] theorem State.waitFor_dies (w : Wait) : (s.waitFor w).dies = s.dies := rfl
@[simp] theorem State.waitFor_bays (w : Wait) : (s.waitFor w).bays = s.bays := rfl
@[simp] theorem State.waitFor_parts (w : Wait) : (s.waitFor w).parts = s.parts := rfl
@[simp] theorem State.waitFor_vaults (w : Wait) : (s.waitFor w).vaults = s.vaults := rfl
@[simp] theorem State.waitFor_ports (w : Wait) : (s.waitFor w).ports = s.ports := rfl
@[simp] theorem State.waitFor_lent (w : Wait) : (s.waitFor w).lent = s.lent := rfl
@[simp] theorem State.waitFor_borrowed (w : Wait) : (s.waitFor w).borrowed = s.borrowed := rfl
@[simp] theorem State.waitFor_reqs (w : Wait) : (s.waitFor w).reqs = s.reqs := rfl
@[simp] theorem State.waitFor_epochs (w : Wait) : (s.waitFor w).epochs = s.epochs := rfl
@[simp] theorem State.waitFor_quarantined (w : Wait) : (s.waitFor w).quarantined = s.quarantined := rfl
@[simp] theorem State.waitFor_filfelPantry (w : Wait) : (s.waitFor w).filfelPantry = s.filfelPantry := rfl
@[simp] theorem State.waitFor_firmware (w : Wait) : (s.waitFor w).firmware = s.firmware := rfl

/-! count changes `cores` only. -/

@[simp] theorem State.count_agenda (c e : Nat) : (s.count c e).agenda = s.agenda := rfl
@[simp] theorem State.count_input (c e : Nat) : (s.count c e).input = s.input := rfl
@[simp] theorem State.count_cur (c e : Nat) : (s.count c e).cur = s.cur := rfl
@[simp] theorem State.count_chosen (c e : Nat) : (s.count c e).chosen = s.chosen := rfl
@[simp] theorem State.count_turn (c e : Nat) : (s.count c e).turn = s.turn := rfl
@[simp] theorem State.count_clk (c e : Nat) : (s.count c e).clk = s.clk := rfl
@[simp] theorem State.count_nextId (c e : Nat) : (s.count c e).nextId = s.nextId := rfl
@[simp] theorem State.count_freeCtr (c e : Nat) : (s.count c e).freeCtr = s.freeCtr := rfl
@[simp] theorem State.count_outbox (c e : Nat) : (s.count c e).outbox = s.outbox := rfl
@[simp] theorem State.count_mem (c e : Nat) : (s.count c e).mem = s.mem := rfl
@[simp] theorem State.count_empties (c e : Nat) : (s.count c e).empties = s.empties := rfl
@[simp] theorem State.count_poison (c e : Nat) : (s.count c e).poison = s.poison := rfl
@[simp] theorem State.count_pkgId (c e : Nat) : (s.count c e).pkgId = s.pkgId := rfl
@[simp] theorem State.count_bootStep (c e : Nat) : (s.count c e).bootStep = s.bootStep := rfl
@[simp] theorem State.count_admitting (c e : Nat) : (s.count c e).admitting = s.admitting := rfl
@[simp] theorem State.count_manifest (c e : Nat) : (s.count c e).manifest = s.manifest := rfl
@[simp] theorem State.count_badPorts (c e : Nat) : (s.count c e).badPorts = s.badPorts := rfl
@[simp] theorem State.count_revision (c e : Nat) : (s.count c e).revision = s.revision := rfl
@[simp] theorem State.count_links (c e : Nat) : (s.count c e).links = s.links := rfl
@[simp] theorem State.count_clockStep (c e : Nat) : (s.count c e).clockStep = s.clockStep := rfl
@[simp] theorem State.count_gated (c e : Nat) : (s.count c e).gated = s.gated := rfl
@[simp] theorem State.count_teams (c e : Nat) : (s.count c e).teams = s.teams := rfl
@[simp] theorem State.count_clusters (c e : Nat) : (s.count c e).clusters = s.clusters := rfl
@[simp] theorem State.count_grids (c e : Nat) : (s.count c e).grids = s.grids := rfl
@[simp] theorem State.count_dies (c e : Nat) : (s.count c e).dies = s.dies := rfl
@[simp] theorem State.count_bays (c e : Nat) : (s.count c e).bays = s.bays := rfl
@[simp] theorem State.count_parts (c e : Nat) : (s.count c e).parts = s.parts := rfl
@[simp] theorem State.count_vaults (c e : Nat) : (s.count c e).vaults = s.vaults := rfl
@[simp] theorem State.count_ports (c e : Nat) : (s.count c e).ports = s.ports := rfl
@[simp] theorem State.count_lent (c e : Nat) : (s.count c e).lent = s.lent := rfl
@[simp] theorem State.count_borrowed (c e : Nat) : (s.count c e).borrowed = s.borrowed := rfl
@[simp] theorem State.count_reqs (c e : Nat) : (s.count c e).reqs = s.reqs := rfl
@[simp] theorem State.count_epochs (c e : Nat) : (s.count c e).epochs = s.epochs := rfl
@[simp] theorem State.count_quarantined (c e : Nat) : (s.count c e).quarantined = s.quarantined := rfl
@[simp] theorem State.count_filfelPantry (c e : Nat) : (s.count c e).filfelPantry = s.filfelPantry := rfl
@[simp] theorem State.count_firmware (c e : Nat) : (s.count c e).firmware = s.firmware := rfl

/-! countAll changes `cores` only. -/

@[simp] theorem State.countAll_agenda (e : Nat) : (s.countAll e).agenda = s.agenda := rfl
@[simp] theorem State.countAll_input (e : Nat) : (s.countAll e).input = s.input := rfl
@[simp] theorem State.countAll_cur (e : Nat) : (s.countAll e).cur = s.cur := rfl
@[simp] theorem State.countAll_chosen (e : Nat) : (s.countAll e).chosen = s.chosen := rfl
@[simp] theorem State.countAll_turn (e : Nat) : (s.countAll e).turn = s.turn := rfl
@[simp] theorem State.countAll_clk (e : Nat) : (s.countAll e).clk = s.clk := rfl
@[simp] theorem State.countAll_nextId (e : Nat) : (s.countAll e).nextId = s.nextId := rfl
@[simp] theorem State.countAll_freeCtr (e : Nat) : (s.countAll e).freeCtr = s.freeCtr := rfl
@[simp] theorem State.countAll_outbox (e : Nat) : (s.countAll e).outbox = s.outbox := rfl
@[simp] theorem State.countAll_mem (e : Nat) : (s.countAll e).mem = s.mem := rfl
@[simp] theorem State.countAll_empties (e : Nat) : (s.countAll e).empties = s.empties := rfl
@[simp] theorem State.countAll_poison (e : Nat) : (s.countAll e).poison = s.poison := rfl
@[simp] theorem State.countAll_pkgId (e : Nat) : (s.countAll e).pkgId = s.pkgId := rfl
@[simp] theorem State.countAll_bootStep (e : Nat) : (s.countAll e).bootStep = s.bootStep := rfl
@[simp] theorem State.countAll_admitting (e : Nat) : (s.countAll e).admitting = s.admitting := rfl
@[simp] theorem State.countAll_manifest (e : Nat) : (s.countAll e).manifest = s.manifest := rfl
@[simp] theorem State.countAll_badPorts (e : Nat) : (s.countAll e).badPorts = s.badPorts := rfl
@[simp] theorem State.countAll_revision (e : Nat) : (s.countAll e).revision = s.revision := rfl
@[simp] theorem State.countAll_links (e : Nat) : (s.countAll e).links = s.links := rfl
@[simp] theorem State.countAll_clockStep (e : Nat) : (s.countAll e).clockStep = s.clockStep := rfl
@[simp] theorem State.countAll_gated (e : Nat) : (s.countAll e).gated = s.gated := rfl
@[simp] theorem State.countAll_teams (e : Nat) : (s.countAll e).teams = s.teams := rfl
@[simp] theorem State.countAll_clusters (e : Nat) : (s.countAll e).clusters = s.clusters := rfl
@[simp] theorem State.countAll_grids (e : Nat) : (s.countAll e).grids = s.grids := rfl
@[simp] theorem State.countAll_dies (e : Nat) : (s.countAll e).dies = s.dies := rfl
@[simp] theorem State.countAll_bays (e : Nat) : (s.countAll e).bays = s.bays := rfl
@[simp] theorem State.countAll_parts (e : Nat) : (s.countAll e).parts = s.parts := rfl
@[simp] theorem State.countAll_vaults (e : Nat) : (s.countAll e).vaults = s.vaults := rfl
@[simp] theorem State.countAll_ports (e : Nat) : (s.countAll e).ports = s.ports := rfl
@[simp] theorem State.countAll_lent (e : Nat) : (s.countAll e).lent = s.lent := rfl
@[simp] theorem State.countAll_borrowed (e : Nat) : (s.countAll e).borrowed = s.borrowed := rfl
@[simp] theorem State.countAll_reqs (e : Nat) : (s.countAll e).reqs = s.reqs := rfl
@[simp] theorem State.countAll_epochs (e : Nat) : (s.countAll e).epochs = s.epochs := rfl
@[simp] theorem State.countAll_quarantined (e : Nat) : (s.countAll e).quarantined = s.quarantined := rfl
@[simp] theorem State.countAll_filfelPantry (e : Nat) : (s.countAll e).filfelPantry = s.filfelPantry := rfl
@[simp] theorem State.countAll_firmware (e : Nat) : (s.countAll e).firmware = s.firmware := rfl

/-! modDie changes `dies` only. -/

@[simp] theorem State.modDie_agenda (d : Nat) (f : Die → Die) : (s.modDie d f).agenda = s.agenda := rfl
@[simp] theorem State.modDie_input (d : Nat) (f : Die → Die) : (s.modDie d f).input = s.input := rfl
@[simp] theorem State.modDie_cur (d : Nat) (f : Die → Die) : (s.modDie d f).cur = s.cur := rfl
@[simp] theorem State.modDie_chosen (d : Nat) (f : Die → Die) : (s.modDie d f).chosen = s.chosen := rfl
@[simp] theorem State.modDie_turn (d : Nat) (f : Die → Die) : (s.modDie d f).turn = s.turn := rfl
@[simp] theorem State.modDie_clk (d : Nat) (f : Die → Die) : (s.modDie d f).clk = s.clk := rfl
@[simp] theorem State.modDie_nextId (d : Nat) (f : Die → Die) : (s.modDie d f).nextId = s.nextId := rfl
@[simp] theorem State.modDie_freeCtr (d : Nat) (f : Die → Die) : (s.modDie d f).freeCtr = s.freeCtr := rfl
@[simp] theorem State.modDie_outbox (d : Nat) (f : Die → Die) : (s.modDie d f).outbox = s.outbox := rfl
@[simp] theorem State.modDie_mem (d : Nat) (f : Die → Die) : (s.modDie d f).mem = s.mem := rfl
@[simp] theorem State.modDie_empties (d : Nat) (f : Die → Die) : (s.modDie d f).empties = s.empties := rfl
@[simp] theorem State.modDie_poison (d : Nat) (f : Die → Die) : (s.modDie d f).poison = s.poison := rfl
@[simp] theorem State.modDie_pkgId (d : Nat) (f : Die → Die) : (s.modDie d f).pkgId = s.pkgId := rfl
@[simp] theorem State.modDie_bootStep (d : Nat) (f : Die → Die) : (s.modDie d f).bootStep = s.bootStep := rfl
@[simp] theorem State.modDie_admitting (d : Nat) (f : Die → Die) : (s.modDie d f).admitting = s.admitting := rfl
@[simp] theorem State.modDie_manifest (d : Nat) (f : Die → Die) : (s.modDie d f).manifest = s.manifest := rfl
@[simp] theorem State.modDie_badPorts (d : Nat) (f : Die → Die) : (s.modDie d f).badPorts = s.badPorts := rfl
@[simp] theorem State.modDie_revision (d : Nat) (f : Die → Die) : (s.modDie d f).revision = s.revision := rfl
@[simp] theorem State.modDie_links (d : Nat) (f : Die → Die) : (s.modDie d f).links = s.links := rfl
@[simp] theorem State.modDie_clockStep (d : Nat) (f : Die → Die) : (s.modDie d f).clockStep = s.clockStep := rfl
@[simp] theorem State.modDie_gated (d : Nat) (f : Die → Die) : (s.modDie d f).gated = s.gated := rfl
@[simp] theorem State.modDie_cores (d : Nat) (f : Die → Die) : (s.modDie d f).cores = s.cores := rfl
@[simp] theorem State.modDie_teams (d : Nat) (f : Die → Die) : (s.modDie d f).teams = s.teams := rfl
@[simp] theorem State.modDie_clusters (d : Nat) (f : Die → Die) : (s.modDie d f).clusters = s.clusters := rfl
@[simp] theorem State.modDie_grids (d : Nat) (f : Die → Die) : (s.modDie d f).grids = s.grids := rfl
@[simp] theorem State.modDie_bays (d : Nat) (f : Die → Die) : (s.modDie d f).bays = s.bays := rfl
@[simp] theorem State.modDie_parts (d : Nat) (f : Die → Die) : (s.modDie d f).parts = s.parts := rfl
@[simp] theorem State.modDie_vaults (d : Nat) (f : Die → Die) : (s.modDie d f).vaults = s.vaults := rfl
@[simp] theorem State.modDie_ports (d : Nat) (f : Die → Die) : (s.modDie d f).ports = s.ports := rfl
@[simp] theorem State.modDie_lent (d : Nat) (f : Die → Die) : (s.modDie d f).lent = s.lent := rfl
@[simp] theorem State.modDie_borrowed (d : Nat) (f : Die → Die) : (s.modDie d f).borrowed = s.borrowed := rfl
@[simp] theorem State.modDie_reqs (d : Nat) (f : Die → Die) : (s.modDie d f).reqs = s.reqs := rfl
@[simp] theorem State.modDie_epochs (d : Nat) (f : Die → Die) : (s.modDie d f).epochs = s.epochs := rfl
@[simp] theorem State.modDie_quarantined (d : Nat) (f : Die → Die) : (s.modDie d f).quarantined = s.quarantined := rfl
@[simp] theorem State.modDie_filfelPantry (d : Nat) (f : Die → Die) : (s.modDie d f).filfelPantry = s.filfelPantry := rfl
@[simp] theorem State.modDie_firmware (d : Nat) (f : Die → Die) : (s.modDie d f).firmware = s.firmware := rfl

/-! modBay changes `bays` only. -/

@[simp] theorem State.modBay_agenda (b : Nat) (f : Bay → Bay) : (s.modBay b f).agenda = s.agenda := rfl
@[simp] theorem State.modBay_input (b : Nat) (f : Bay → Bay) : (s.modBay b f).input = s.input := rfl
@[simp] theorem State.modBay_cur (b : Nat) (f : Bay → Bay) : (s.modBay b f).cur = s.cur := rfl
@[simp] theorem State.modBay_chosen (b : Nat) (f : Bay → Bay) : (s.modBay b f).chosen = s.chosen := rfl
@[simp] theorem State.modBay_turn (b : Nat) (f : Bay → Bay) : (s.modBay b f).turn = s.turn := rfl
@[simp] theorem State.modBay_clk (b : Nat) (f : Bay → Bay) : (s.modBay b f).clk = s.clk := rfl
@[simp] theorem State.modBay_nextId (b : Nat) (f : Bay → Bay) : (s.modBay b f).nextId = s.nextId := rfl
@[simp] theorem State.modBay_freeCtr (b : Nat) (f : Bay → Bay) : (s.modBay b f).freeCtr = s.freeCtr := rfl
@[simp] theorem State.modBay_outbox (b : Nat) (f : Bay → Bay) : (s.modBay b f).outbox = s.outbox := rfl
@[simp] theorem State.modBay_mem (b : Nat) (f : Bay → Bay) : (s.modBay b f).mem = s.mem := rfl
@[simp] theorem State.modBay_empties (b : Nat) (f : Bay → Bay) : (s.modBay b f).empties = s.empties := rfl
@[simp] theorem State.modBay_poison (b : Nat) (f : Bay → Bay) : (s.modBay b f).poison = s.poison := rfl
@[simp] theorem State.modBay_pkgId (b : Nat) (f : Bay → Bay) : (s.modBay b f).pkgId = s.pkgId := rfl
@[simp] theorem State.modBay_bootStep (b : Nat) (f : Bay → Bay) : (s.modBay b f).bootStep = s.bootStep := rfl
@[simp] theorem State.modBay_admitting (b : Nat) (f : Bay → Bay) : (s.modBay b f).admitting = s.admitting := rfl
@[simp] theorem State.modBay_manifest (b : Nat) (f : Bay → Bay) : (s.modBay b f).manifest = s.manifest := rfl
@[simp] theorem State.modBay_badPorts (b : Nat) (f : Bay → Bay) : (s.modBay b f).badPorts = s.badPorts := rfl
@[simp] theorem State.modBay_revision (b : Nat) (f : Bay → Bay) : (s.modBay b f).revision = s.revision := rfl
@[simp] theorem State.modBay_links (b : Nat) (f : Bay → Bay) : (s.modBay b f).links = s.links := rfl
@[simp] theorem State.modBay_clockStep (b : Nat) (f : Bay → Bay) : (s.modBay b f).clockStep = s.clockStep := rfl
@[simp] theorem State.modBay_gated (b : Nat) (f : Bay → Bay) : (s.modBay b f).gated = s.gated := rfl
@[simp] theorem State.modBay_cores (b : Nat) (f : Bay → Bay) : (s.modBay b f).cores = s.cores := rfl
@[simp] theorem State.modBay_teams (b : Nat) (f : Bay → Bay) : (s.modBay b f).teams = s.teams := rfl
@[simp] theorem State.modBay_clusters (b : Nat) (f : Bay → Bay) : (s.modBay b f).clusters = s.clusters := rfl
@[simp] theorem State.modBay_grids (b : Nat) (f : Bay → Bay) : (s.modBay b f).grids = s.grids := rfl
@[simp] theorem State.modBay_dies (b : Nat) (f : Bay → Bay) : (s.modBay b f).dies = s.dies := rfl
@[simp] theorem State.modBay_parts (b : Nat) (f : Bay → Bay) : (s.modBay b f).parts = s.parts := rfl
@[simp] theorem State.modBay_vaults (b : Nat) (f : Bay → Bay) : (s.modBay b f).vaults = s.vaults := rfl
@[simp] theorem State.modBay_ports (b : Nat) (f : Bay → Bay) : (s.modBay b f).ports = s.ports := rfl
@[simp] theorem State.modBay_lent (b : Nat) (f : Bay → Bay) : (s.modBay b f).lent = s.lent := rfl
@[simp] theorem State.modBay_borrowed (b : Nat) (f : Bay → Bay) : (s.modBay b f).borrowed = s.borrowed := rfl
@[simp] theorem State.modBay_reqs (b : Nat) (f : Bay → Bay) : (s.modBay b f).reqs = s.reqs := rfl
@[simp] theorem State.modBay_epochs (b : Nat) (f : Bay → Bay) : (s.modBay b f).epochs = s.epochs := rfl
@[simp] theorem State.modBay_quarantined (b : Nat) (f : Bay → Bay) : (s.modBay b f).quarantined = s.quarantined := rfl
@[simp] theorem State.modBay_filfelPantry (b : Nat) (f : Bay → Bay) : (s.modBay b f).filfelPantry = s.filfelPantry := rfl
@[simp] theorem State.modBay_firmware (b : Nat) (f : Bay → Bay) : (s.modBay b f).firmware = s.firmware := rfl

/-! modPart changes `parts` only. -/

@[simp] theorem State.modPart_agenda (p : Nat) (f : Part → Part) : (s.modPart p f).agenda = s.agenda := rfl
@[simp] theorem State.modPart_input (p : Nat) (f : Part → Part) : (s.modPart p f).input = s.input := rfl
@[simp] theorem State.modPart_cur (p : Nat) (f : Part → Part) : (s.modPart p f).cur = s.cur := rfl
@[simp] theorem State.modPart_chosen (p : Nat) (f : Part → Part) : (s.modPart p f).chosen = s.chosen := rfl
@[simp] theorem State.modPart_turn (p : Nat) (f : Part → Part) : (s.modPart p f).turn = s.turn := rfl
@[simp] theorem State.modPart_clk (p : Nat) (f : Part → Part) : (s.modPart p f).clk = s.clk := rfl
@[simp] theorem State.modPart_nextId (p : Nat) (f : Part → Part) : (s.modPart p f).nextId = s.nextId := rfl
@[simp] theorem State.modPart_freeCtr (p : Nat) (f : Part → Part) : (s.modPart p f).freeCtr = s.freeCtr := rfl
@[simp] theorem State.modPart_outbox (p : Nat) (f : Part → Part) : (s.modPart p f).outbox = s.outbox := rfl
@[simp] theorem State.modPart_mem (p : Nat) (f : Part → Part) : (s.modPart p f).mem = s.mem := rfl
@[simp] theorem State.modPart_empties (p : Nat) (f : Part → Part) : (s.modPart p f).empties = s.empties := rfl
@[simp] theorem State.modPart_poison (p : Nat) (f : Part → Part) : (s.modPart p f).poison = s.poison := rfl
@[simp] theorem State.modPart_pkgId (p : Nat) (f : Part → Part) : (s.modPart p f).pkgId = s.pkgId := rfl
@[simp] theorem State.modPart_bootStep (p : Nat) (f : Part → Part) : (s.modPart p f).bootStep = s.bootStep := rfl
@[simp] theorem State.modPart_admitting (p : Nat) (f : Part → Part) : (s.modPart p f).admitting = s.admitting := rfl
@[simp] theorem State.modPart_manifest (p : Nat) (f : Part → Part) : (s.modPart p f).manifest = s.manifest := rfl
@[simp] theorem State.modPart_badPorts (p : Nat) (f : Part → Part) : (s.modPart p f).badPorts = s.badPorts := rfl
@[simp] theorem State.modPart_revision (p : Nat) (f : Part → Part) : (s.modPart p f).revision = s.revision := rfl
@[simp] theorem State.modPart_links (p : Nat) (f : Part → Part) : (s.modPart p f).links = s.links := rfl
@[simp] theorem State.modPart_clockStep (p : Nat) (f : Part → Part) : (s.modPart p f).clockStep = s.clockStep := rfl
@[simp] theorem State.modPart_gated (p : Nat) (f : Part → Part) : (s.modPart p f).gated = s.gated := rfl
@[simp] theorem State.modPart_cores (p : Nat) (f : Part → Part) : (s.modPart p f).cores = s.cores := rfl
@[simp] theorem State.modPart_teams (p : Nat) (f : Part → Part) : (s.modPart p f).teams = s.teams := rfl
@[simp] theorem State.modPart_clusters (p : Nat) (f : Part → Part) : (s.modPart p f).clusters = s.clusters := rfl
@[simp] theorem State.modPart_grids (p : Nat) (f : Part → Part) : (s.modPart p f).grids = s.grids := rfl
@[simp] theorem State.modPart_dies (p : Nat) (f : Part → Part) : (s.modPart p f).dies = s.dies := rfl
@[simp] theorem State.modPart_bays (p : Nat) (f : Part → Part) : (s.modPart p f).bays = s.bays := rfl
@[simp] theorem State.modPart_vaults (p : Nat) (f : Part → Part) : (s.modPart p f).vaults = s.vaults := rfl
@[simp] theorem State.modPart_ports (p : Nat) (f : Part → Part) : (s.modPart p f).ports = s.ports := rfl
@[simp] theorem State.modPart_lent (p : Nat) (f : Part → Part) : (s.modPart p f).lent = s.lent := rfl
@[simp] theorem State.modPart_borrowed (p : Nat) (f : Part → Part) : (s.modPart p f).borrowed = s.borrowed := rfl
@[simp] theorem State.modPart_reqs (p : Nat) (f : Part → Part) : (s.modPart p f).reqs = s.reqs := rfl
@[simp] theorem State.modPart_epochs (p : Nat) (f : Part → Part) : (s.modPart p f).epochs = s.epochs := rfl
@[simp] theorem State.modPart_quarantined (p : Nat) (f : Part → Part) : (s.modPart p f).quarantined = s.quarantined := rfl
@[simp] theorem State.modPart_filfelPantry (p : Nat) (f : Part → Part) : (s.modPart p f).filfelPantry = s.filfelPantry := rfl
@[simp] theorem State.modPart_firmware (p : Nat) (f : Part → Part) : (s.modPart p f).firmware = s.firmware := rfl

/-! modVault changes `vaults` only. -/

@[simp] theorem State.modVault_agenda (k : Nat) (f : Stack → Stack) : (s.modVault k f).agenda = s.agenda := rfl
@[simp] theorem State.modVault_input (k : Nat) (f : Stack → Stack) : (s.modVault k f).input = s.input := rfl
@[simp] theorem State.modVault_cur (k : Nat) (f : Stack → Stack) : (s.modVault k f).cur = s.cur := rfl
@[simp] theorem State.modVault_chosen (k : Nat) (f : Stack → Stack) : (s.modVault k f).chosen = s.chosen := rfl
@[simp] theorem State.modVault_turn (k : Nat) (f : Stack → Stack) : (s.modVault k f).turn = s.turn := rfl
@[simp] theorem State.modVault_clk (k : Nat) (f : Stack → Stack) : (s.modVault k f).clk = s.clk := rfl
@[simp] theorem State.modVault_nextId (k : Nat) (f : Stack → Stack) : (s.modVault k f).nextId = s.nextId := rfl
@[simp] theorem State.modVault_freeCtr (k : Nat) (f : Stack → Stack) : (s.modVault k f).freeCtr = s.freeCtr := rfl
@[simp] theorem State.modVault_outbox (k : Nat) (f : Stack → Stack) : (s.modVault k f).outbox = s.outbox := rfl
@[simp] theorem State.modVault_mem (k : Nat) (f : Stack → Stack) : (s.modVault k f).mem = s.mem := rfl
@[simp] theorem State.modVault_empties (k : Nat) (f : Stack → Stack) : (s.modVault k f).empties = s.empties := rfl
@[simp] theorem State.modVault_poison (k : Nat) (f : Stack → Stack) : (s.modVault k f).poison = s.poison := rfl
@[simp] theorem State.modVault_pkgId (k : Nat) (f : Stack → Stack) : (s.modVault k f).pkgId = s.pkgId := rfl
@[simp] theorem State.modVault_bootStep (k : Nat) (f : Stack → Stack) : (s.modVault k f).bootStep = s.bootStep := rfl
@[simp] theorem State.modVault_admitting (k : Nat) (f : Stack → Stack) : (s.modVault k f).admitting = s.admitting := rfl
@[simp] theorem State.modVault_manifest (k : Nat) (f : Stack → Stack) : (s.modVault k f).manifest = s.manifest := rfl
@[simp] theorem State.modVault_badPorts (k : Nat) (f : Stack → Stack) : (s.modVault k f).badPorts = s.badPorts := rfl
@[simp] theorem State.modVault_revision (k : Nat) (f : Stack → Stack) : (s.modVault k f).revision = s.revision := rfl
@[simp] theorem State.modVault_links (k : Nat) (f : Stack → Stack) : (s.modVault k f).links = s.links := rfl
@[simp] theorem State.modVault_clockStep (k : Nat) (f : Stack → Stack) : (s.modVault k f).clockStep = s.clockStep := rfl
@[simp] theorem State.modVault_gated (k : Nat) (f : Stack → Stack) : (s.modVault k f).gated = s.gated := rfl
@[simp] theorem State.modVault_cores (k : Nat) (f : Stack → Stack) : (s.modVault k f).cores = s.cores := rfl
@[simp] theorem State.modVault_teams (k : Nat) (f : Stack → Stack) : (s.modVault k f).teams = s.teams := rfl
@[simp] theorem State.modVault_clusters (k : Nat) (f : Stack → Stack) : (s.modVault k f).clusters = s.clusters := rfl
@[simp] theorem State.modVault_grids (k : Nat) (f : Stack → Stack) : (s.modVault k f).grids = s.grids := rfl
@[simp] theorem State.modVault_dies (k : Nat) (f : Stack → Stack) : (s.modVault k f).dies = s.dies := rfl
@[simp] theorem State.modVault_bays (k : Nat) (f : Stack → Stack) : (s.modVault k f).bays = s.bays := rfl
@[simp] theorem State.modVault_parts (k : Nat) (f : Stack → Stack) : (s.modVault k f).parts = s.parts := rfl
@[simp] theorem State.modVault_ports (k : Nat) (f : Stack → Stack) : (s.modVault k f).ports = s.ports := rfl
@[simp] theorem State.modVault_lent (k : Nat) (f : Stack → Stack) : (s.modVault k f).lent = s.lent := rfl
@[simp] theorem State.modVault_borrowed (k : Nat) (f : Stack → Stack) : (s.modVault k f).borrowed = s.borrowed := rfl
@[simp] theorem State.modVault_reqs (k : Nat) (f : Stack → Stack) : (s.modVault k f).reqs = s.reqs := rfl
@[simp] theorem State.modVault_epochs (k : Nat) (f : Stack → Stack) : (s.modVault k f).epochs = s.epochs := rfl
@[simp] theorem State.modVault_quarantined (k : Nat) (f : Stack → Stack) : (s.modVault k f).quarantined = s.quarantined := rfl
@[simp] theorem State.modVault_filfelPantry (k : Nat) (f : Stack → Stack) : (s.modVault k f).filfelPantry = s.filfelPantry := rfl
@[simp] theorem State.modVault_firmware (k : Nat) (f : Stack → Stack) : (s.modVault k f).firmware = s.firmware := rfl

/-! modPort changes `ports` only. -/

@[simp] theorem State.modPort_agenda (p : Nat) (f : Port → Port) : (s.modPort p f).agenda = s.agenda := rfl
@[simp] theorem State.modPort_input (p : Nat) (f : Port → Port) : (s.modPort p f).input = s.input := rfl
@[simp] theorem State.modPort_cur (p : Nat) (f : Port → Port) : (s.modPort p f).cur = s.cur := rfl
@[simp] theorem State.modPort_chosen (p : Nat) (f : Port → Port) : (s.modPort p f).chosen = s.chosen := rfl
@[simp] theorem State.modPort_turn (p : Nat) (f : Port → Port) : (s.modPort p f).turn = s.turn := rfl
@[simp] theorem State.modPort_clk (p : Nat) (f : Port → Port) : (s.modPort p f).clk = s.clk := rfl
@[simp] theorem State.modPort_nextId (p : Nat) (f : Port → Port) : (s.modPort p f).nextId = s.nextId := rfl
@[simp] theorem State.modPort_freeCtr (p : Nat) (f : Port → Port) : (s.modPort p f).freeCtr = s.freeCtr := rfl
@[simp] theorem State.modPort_outbox (p : Nat) (f : Port → Port) : (s.modPort p f).outbox = s.outbox := rfl
@[simp] theorem State.modPort_mem (p : Nat) (f : Port → Port) : (s.modPort p f).mem = s.mem := rfl
@[simp] theorem State.modPort_empties (p : Nat) (f : Port → Port) : (s.modPort p f).empties = s.empties := rfl
@[simp] theorem State.modPort_poison (p : Nat) (f : Port → Port) : (s.modPort p f).poison = s.poison := rfl
@[simp] theorem State.modPort_pkgId (p : Nat) (f : Port → Port) : (s.modPort p f).pkgId = s.pkgId := rfl
@[simp] theorem State.modPort_bootStep (p : Nat) (f : Port → Port) : (s.modPort p f).bootStep = s.bootStep := rfl
@[simp] theorem State.modPort_admitting (p : Nat) (f : Port → Port) : (s.modPort p f).admitting = s.admitting := rfl
@[simp] theorem State.modPort_manifest (p : Nat) (f : Port → Port) : (s.modPort p f).manifest = s.manifest := rfl
@[simp] theorem State.modPort_badPorts (p : Nat) (f : Port → Port) : (s.modPort p f).badPorts = s.badPorts := rfl
@[simp] theorem State.modPort_revision (p : Nat) (f : Port → Port) : (s.modPort p f).revision = s.revision := rfl
@[simp] theorem State.modPort_links (p : Nat) (f : Port → Port) : (s.modPort p f).links = s.links := rfl
@[simp] theorem State.modPort_clockStep (p : Nat) (f : Port → Port) : (s.modPort p f).clockStep = s.clockStep := rfl
@[simp] theorem State.modPort_gated (p : Nat) (f : Port → Port) : (s.modPort p f).gated = s.gated := rfl
@[simp] theorem State.modPort_cores (p : Nat) (f : Port → Port) : (s.modPort p f).cores = s.cores := rfl
@[simp] theorem State.modPort_teams (p : Nat) (f : Port → Port) : (s.modPort p f).teams = s.teams := rfl
@[simp] theorem State.modPort_clusters (p : Nat) (f : Port → Port) : (s.modPort p f).clusters = s.clusters := rfl
@[simp] theorem State.modPort_grids (p : Nat) (f : Port → Port) : (s.modPort p f).grids = s.grids := rfl
@[simp] theorem State.modPort_dies (p : Nat) (f : Port → Port) : (s.modPort p f).dies = s.dies := rfl
@[simp] theorem State.modPort_bays (p : Nat) (f : Port → Port) : (s.modPort p f).bays = s.bays := rfl
@[simp] theorem State.modPort_parts (p : Nat) (f : Port → Port) : (s.modPort p f).parts = s.parts := rfl
@[simp] theorem State.modPort_vaults (p : Nat) (f : Port → Port) : (s.modPort p f).vaults = s.vaults := rfl
@[simp] theorem State.modPort_lent (p : Nat) (f : Port → Port) : (s.modPort p f).lent = s.lent := rfl
@[simp] theorem State.modPort_borrowed (p : Nat) (f : Port → Port) : (s.modPort p f).borrowed = s.borrowed := rfl
@[simp] theorem State.modPort_reqs (p : Nat) (f : Port → Port) : (s.modPort p f).reqs = s.reqs := rfl
@[simp] theorem State.modPort_epochs (p : Nat) (f : Port → Port) : (s.modPort p f).epochs = s.epochs := rfl
@[simp] theorem State.modPort_quarantined (p : Nat) (f : Port → Port) : (s.modPort p f).quarantined = s.quarantined := rfl
@[simp] theorem State.modPort_filfelPantry (p : Nat) (f : Port → Port) : (s.modPort p f).filfelPantry = s.filfelPantry := rfl
@[simp] theorem State.modPort_firmware (p : Nat) (f : Port → Port) : (s.modPort p f).firmware = s.firmware := rfl

/-! modTeam changes `teams` only. -/

@[simp] theorem State.modTeam_agenda (n : Nat) (f : Team → Team) : (s.modTeam n f).agenda = s.agenda := rfl
@[simp] theorem State.modTeam_input (n : Nat) (f : Team → Team) : (s.modTeam n f).input = s.input := rfl
@[simp] theorem State.modTeam_cur (n : Nat) (f : Team → Team) : (s.modTeam n f).cur = s.cur := rfl
@[simp] theorem State.modTeam_chosen (n : Nat) (f : Team → Team) : (s.modTeam n f).chosen = s.chosen := rfl
@[simp] theorem State.modTeam_turn (n : Nat) (f : Team → Team) : (s.modTeam n f).turn = s.turn := rfl
@[simp] theorem State.modTeam_clk (n : Nat) (f : Team → Team) : (s.modTeam n f).clk = s.clk := rfl
@[simp] theorem State.modTeam_nextId (n : Nat) (f : Team → Team) : (s.modTeam n f).nextId = s.nextId := rfl
@[simp] theorem State.modTeam_freeCtr (n : Nat) (f : Team → Team) : (s.modTeam n f).freeCtr = s.freeCtr := rfl
@[simp] theorem State.modTeam_outbox (n : Nat) (f : Team → Team) : (s.modTeam n f).outbox = s.outbox := rfl
@[simp] theorem State.modTeam_mem (n : Nat) (f : Team → Team) : (s.modTeam n f).mem = s.mem := rfl
@[simp] theorem State.modTeam_empties (n : Nat) (f : Team → Team) : (s.modTeam n f).empties = s.empties := rfl
@[simp] theorem State.modTeam_poison (n : Nat) (f : Team → Team) : (s.modTeam n f).poison = s.poison := rfl
@[simp] theorem State.modTeam_pkgId (n : Nat) (f : Team → Team) : (s.modTeam n f).pkgId = s.pkgId := rfl
@[simp] theorem State.modTeam_bootStep (n : Nat) (f : Team → Team) : (s.modTeam n f).bootStep = s.bootStep := rfl
@[simp] theorem State.modTeam_admitting (n : Nat) (f : Team → Team) : (s.modTeam n f).admitting = s.admitting := rfl
@[simp] theorem State.modTeam_manifest (n : Nat) (f : Team → Team) : (s.modTeam n f).manifest = s.manifest := rfl
@[simp] theorem State.modTeam_badPorts (n : Nat) (f : Team → Team) : (s.modTeam n f).badPorts = s.badPorts := rfl
@[simp] theorem State.modTeam_revision (n : Nat) (f : Team → Team) : (s.modTeam n f).revision = s.revision := rfl
@[simp] theorem State.modTeam_links (n : Nat) (f : Team → Team) : (s.modTeam n f).links = s.links := rfl
@[simp] theorem State.modTeam_clockStep (n : Nat) (f : Team → Team) : (s.modTeam n f).clockStep = s.clockStep := rfl
@[simp] theorem State.modTeam_gated (n : Nat) (f : Team → Team) : (s.modTeam n f).gated = s.gated := rfl
@[simp] theorem State.modTeam_cores (n : Nat) (f : Team → Team) : (s.modTeam n f).cores = s.cores := rfl
@[simp] theorem State.modTeam_clusters (n : Nat) (f : Team → Team) : (s.modTeam n f).clusters = s.clusters := rfl
@[simp] theorem State.modTeam_grids (n : Nat) (f : Team → Team) : (s.modTeam n f).grids = s.grids := rfl
@[simp] theorem State.modTeam_dies (n : Nat) (f : Team → Team) : (s.modTeam n f).dies = s.dies := rfl
@[simp] theorem State.modTeam_bays (n : Nat) (f : Team → Team) : (s.modTeam n f).bays = s.bays := rfl
@[simp] theorem State.modTeam_parts (n : Nat) (f : Team → Team) : (s.modTeam n f).parts = s.parts := rfl
@[simp] theorem State.modTeam_vaults (n : Nat) (f : Team → Team) : (s.modTeam n f).vaults = s.vaults := rfl
@[simp] theorem State.modTeam_ports (n : Nat) (f : Team → Team) : (s.modTeam n f).ports = s.ports := rfl
@[simp] theorem State.modTeam_lent (n : Nat) (f : Team → Team) : (s.modTeam n f).lent = s.lent := rfl
@[simp] theorem State.modTeam_borrowed (n : Nat) (f : Team → Team) : (s.modTeam n f).borrowed = s.borrowed := rfl
@[simp] theorem State.modTeam_reqs (n : Nat) (f : Team → Team) : (s.modTeam n f).reqs = s.reqs := rfl
@[simp] theorem State.modTeam_epochs (n : Nat) (f : Team → Team) : (s.modTeam n f).epochs = s.epochs := rfl
@[simp] theorem State.modTeam_quarantined (n : Nat) (f : Team → Team) : (s.modTeam n f).quarantined = s.quarantined := rfl
@[simp] theorem State.modTeam_filfelPantry (n : Nat) (f : Team → Team) : (s.modTeam n f).filfelPantry = s.filfelPantry := rfl
@[simp] theorem State.modTeam_firmware (n : Nat) (f : Team → Team) : (s.modTeam n f).firmware = s.firmware := rfl

/-! modCluster changes `clusters` only. -/

@[simp] theorem State.modCluster_agenda (n : Nat) (f : Cluster → Cluster) : (s.modCluster n f).agenda = s.agenda := rfl
@[simp] theorem State.modCluster_input (n : Nat) (f : Cluster → Cluster) : (s.modCluster n f).input = s.input := rfl
@[simp] theorem State.modCluster_cur (n : Nat) (f : Cluster → Cluster) : (s.modCluster n f).cur = s.cur := rfl
@[simp] theorem State.modCluster_chosen (n : Nat) (f : Cluster → Cluster) : (s.modCluster n f).chosen = s.chosen := rfl
@[simp] theorem State.modCluster_turn (n : Nat) (f : Cluster → Cluster) : (s.modCluster n f).turn = s.turn := rfl
@[simp] theorem State.modCluster_clk (n : Nat) (f : Cluster → Cluster) : (s.modCluster n f).clk = s.clk := rfl
@[simp] theorem State.modCluster_nextId (n : Nat) (f : Cluster → Cluster) : (s.modCluster n f).nextId = s.nextId := rfl
@[simp] theorem State.modCluster_freeCtr (n : Nat) (f : Cluster → Cluster) : (s.modCluster n f).freeCtr = s.freeCtr := rfl
@[simp] theorem State.modCluster_outbox (n : Nat) (f : Cluster → Cluster) : (s.modCluster n f).outbox = s.outbox := rfl
@[simp] theorem State.modCluster_mem (n : Nat) (f : Cluster → Cluster) : (s.modCluster n f).mem = s.mem := rfl
@[simp] theorem State.modCluster_empties (n : Nat) (f : Cluster → Cluster) : (s.modCluster n f).empties = s.empties := rfl
@[simp] theorem State.modCluster_poison (n : Nat) (f : Cluster → Cluster) : (s.modCluster n f).poison = s.poison := rfl
@[simp] theorem State.modCluster_pkgId (n : Nat) (f : Cluster → Cluster) : (s.modCluster n f).pkgId = s.pkgId := rfl
@[simp] theorem State.modCluster_bootStep (n : Nat) (f : Cluster → Cluster) : (s.modCluster n f).bootStep = s.bootStep := rfl
@[simp] theorem State.modCluster_admitting (n : Nat) (f : Cluster → Cluster) : (s.modCluster n f).admitting = s.admitting := rfl
@[simp] theorem State.modCluster_manifest (n : Nat) (f : Cluster → Cluster) : (s.modCluster n f).manifest = s.manifest := rfl
@[simp] theorem State.modCluster_badPorts (n : Nat) (f : Cluster → Cluster) : (s.modCluster n f).badPorts = s.badPorts := rfl
@[simp] theorem State.modCluster_revision (n : Nat) (f : Cluster → Cluster) : (s.modCluster n f).revision = s.revision := rfl
@[simp] theorem State.modCluster_links (n : Nat) (f : Cluster → Cluster) : (s.modCluster n f).links = s.links := rfl
@[simp] theorem State.modCluster_clockStep (n : Nat) (f : Cluster → Cluster) : (s.modCluster n f).clockStep = s.clockStep := rfl
@[simp] theorem State.modCluster_gated (n : Nat) (f : Cluster → Cluster) : (s.modCluster n f).gated = s.gated := rfl
@[simp] theorem State.modCluster_cores (n : Nat) (f : Cluster → Cluster) : (s.modCluster n f).cores = s.cores := rfl
@[simp] theorem State.modCluster_teams (n : Nat) (f : Cluster → Cluster) : (s.modCluster n f).teams = s.teams := rfl
@[simp] theorem State.modCluster_grids (n : Nat) (f : Cluster → Cluster) : (s.modCluster n f).grids = s.grids := rfl
@[simp] theorem State.modCluster_dies (n : Nat) (f : Cluster → Cluster) : (s.modCluster n f).dies = s.dies := rfl
@[simp] theorem State.modCluster_bays (n : Nat) (f : Cluster → Cluster) : (s.modCluster n f).bays = s.bays := rfl
@[simp] theorem State.modCluster_parts (n : Nat) (f : Cluster → Cluster) : (s.modCluster n f).parts = s.parts := rfl
@[simp] theorem State.modCluster_vaults (n : Nat) (f : Cluster → Cluster) : (s.modCluster n f).vaults = s.vaults := rfl
@[simp] theorem State.modCluster_ports (n : Nat) (f : Cluster → Cluster) : (s.modCluster n f).ports = s.ports := rfl
@[simp] theorem State.modCluster_lent (n : Nat) (f : Cluster → Cluster) : (s.modCluster n f).lent = s.lent := rfl
@[simp] theorem State.modCluster_borrowed (n : Nat) (f : Cluster → Cluster) : (s.modCluster n f).borrowed = s.borrowed := rfl
@[simp] theorem State.modCluster_reqs (n : Nat) (f : Cluster → Cluster) : (s.modCluster n f).reqs = s.reqs := rfl
@[simp] theorem State.modCluster_epochs (n : Nat) (f : Cluster → Cluster) : (s.modCluster n f).epochs = s.epochs := rfl
@[simp] theorem State.modCluster_quarantined (n : Nat) (f : Cluster → Cluster) : (s.modCluster n f).quarantined = s.quarantined := rfl
@[simp] theorem State.modCluster_filfelPantry (n : Nat) (f : Cluster → Cluster) : (s.modCluster n f).filfelPantry = s.filfelPantry := rfl
@[simp] theorem State.modCluster_firmware (n : Nat) (f : Cluster → Cluster) : (s.modCluster n f).firmware = s.firmware := rfl

/-! modGrid changes `grids` only. -/

@[simp] theorem State.modGrid_agenda (n : Nat) (f : Grid → Grid) : (s.modGrid n f).agenda = s.agenda := rfl
@[simp] theorem State.modGrid_input (n : Nat) (f : Grid → Grid) : (s.modGrid n f).input = s.input := rfl
@[simp] theorem State.modGrid_cur (n : Nat) (f : Grid → Grid) : (s.modGrid n f).cur = s.cur := rfl
@[simp] theorem State.modGrid_chosen (n : Nat) (f : Grid → Grid) : (s.modGrid n f).chosen = s.chosen := rfl
@[simp] theorem State.modGrid_turn (n : Nat) (f : Grid → Grid) : (s.modGrid n f).turn = s.turn := rfl
@[simp] theorem State.modGrid_clk (n : Nat) (f : Grid → Grid) : (s.modGrid n f).clk = s.clk := rfl
@[simp] theorem State.modGrid_nextId (n : Nat) (f : Grid → Grid) : (s.modGrid n f).nextId = s.nextId := rfl
@[simp] theorem State.modGrid_freeCtr (n : Nat) (f : Grid → Grid) : (s.modGrid n f).freeCtr = s.freeCtr := rfl
@[simp] theorem State.modGrid_outbox (n : Nat) (f : Grid → Grid) : (s.modGrid n f).outbox = s.outbox := rfl
@[simp] theorem State.modGrid_mem (n : Nat) (f : Grid → Grid) : (s.modGrid n f).mem = s.mem := rfl
@[simp] theorem State.modGrid_empties (n : Nat) (f : Grid → Grid) : (s.modGrid n f).empties = s.empties := rfl
@[simp] theorem State.modGrid_poison (n : Nat) (f : Grid → Grid) : (s.modGrid n f).poison = s.poison := rfl
@[simp] theorem State.modGrid_pkgId (n : Nat) (f : Grid → Grid) : (s.modGrid n f).pkgId = s.pkgId := rfl
@[simp] theorem State.modGrid_bootStep (n : Nat) (f : Grid → Grid) : (s.modGrid n f).bootStep = s.bootStep := rfl
@[simp] theorem State.modGrid_admitting (n : Nat) (f : Grid → Grid) : (s.modGrid n f).admitting = s.admitting := rfl
@[simp] theorem State.modGrid_manifest (n : Nat) (f : Grid → Grid) : (s.modGrid n f).manifest = s.manifest := rfl
@[simp] theorem State.modGrid_badPorts (n : Nat) (f : Grid → Grid) : (s.modGrid n f).badPorts = s.badPorts := rfl
@[simp] theorem State.modGrid_revision (n : Nat) (f : Grid → Grid) : (s.modGrid n f).revision = s.revision := rfl
@[simp] theorem State.modGrid_links (n : Nat) (f : Grid → Grid) : (s.modGrid n f).links = s.links := rfl
@[simp] theorem State.modGrid_clockStep (n : Nat) (f : Grid → Grid) : (s.modGrid n f).clockStep = s.clockStep := rfl
@[simp] theorem State.modGrid_gated (n : Nat) (f : Grid → Grid) : (s.modGrid n f).gated = s.gated := rfl
@[simp] theorem State.modGrid_cores (n : Nat) (f : Grid → Grid) : (s.modGrid n f).cores = s.cores := rfl
@[simp] theorem State.modGrid_teams (n : Nat) (f : Grid → Grid) : (s.modGrid n f).teams = s.teams := rfl
@[simp] theorem State.modGrid_clusters (n : Nat) (f : Grid → Grid) : (s.modGrid n f).clusters = s.clusters := rfl
@[simp] theorem State.modGrid_dies (n : Nat) (f : Grid → Grid) : (s.modGrid n f).dies = s.dies := rfl
@[simp] theorem State.modGrid_bays (n : Nat) (f : Grid → Grid) : (s.modGrid n f).bays = s.bays := rfl
@[simp] theorem State.modGrid_parts (n : Nat) (f : Grid → Grid) : (s.modGrid n f).parts = s.parts := rfl
@[simp] theorem State.modGrid_vaults (n : Nat) (f : Grid → Grid) : (s.modGrid n f).vaults = s.vaults := rfl
@[simp] theorem State.modGrid_ports (n : Nat) (f : Grid → Grid) : (s.modGrid n f).ports = s.ports := rfl
@[simp] theorem State.modGrid_lent (n : Nat) (f : Grid → Grid) : (s.modGrid n f).lent = s.lent := rfl
@[simp] theorem State.modGrid_borrowed (n : Nat) (f : Grid → Grid) : (s.modGrid n f).borrowed = s.borrowed := rfl
@[simp] theorem State.modGrid_reqs (n : Nat) (f : Grid → Grid) : (s.modGrid n f).reqs = s.reqs := rfl
@[simp] theorem State.modGrid_epochs (n : Nat) (f : Grid → Grid) : (s.modGrid n f).epochs = s.epochs := rfl
@[simp] theorem State.modGrid_quarantined (n : Nat) (f : Grid → Grid) : (s.modGrid n f).quarantined = s.quarantined := rfl
@[simp] theorem State.modGrid_filfelPantry (n : Nat) (f : Grid → Grid) : (s.modGrid n f).filfelPantry = s.filfelPantry := rfl
@[simp] theorem State.modGrid_firmware (n : Nat) (f : Grid → Grid) : (s.modGrid n f).firmware = s.firmware := rfl

/-! later changes `agenda` only. -/

@[simp] theorem State.later_input (due : Nat) (i : Instr) (inp : Input) : (s.later due i inp).input = s.input := rfl
@[simp] theorem State.later_cur (due : Nat) (i : Instr) (inp : Input) : (s.later due i inp).cur = s.cur := rfl
@[simp] theorem State.later_chosen (due : Nat) (i : Instr) (inp : Input) : (s.later due i inp).chosen = s.chosen := rfl
@[simp] theorem State.later_turn (due : Nat) (i : Instr) (inp : Input) : (s.later due i inp).turn = s.turn := rfl
@[simp] theorem State.later_clk (due : Nat) (i : Instr) (inp : Input) : (s.later due i inp).clk = s.clk := rfl
@[simp] theorem State.later_nextId (due : Nat) (i : Instr) (inp : Input) : (s.later due i inp).nextId = s.nextId := rfl
@[simp] theorem State.later_freeCtr (due : Nat) (i : Instr) (inp : Input) : (s.later due i inp).freeCtr = s.freeCtr := rfl
@[simp] theorem State.later_outbox (due : Nat) (i : Instr) (inp : Input) : (s.later due i inp).outbox = s.outbox := rfl
@[simp] theorem State.later_mem (due : Nat) (i : Instr) (inp : Input) : (s.later due i inp).mem = s.mem := rfl
@[simp] theorem State.later_empties (due : Nat) (i : Instr) (inp : Input) : (s.later due i inp).empties = s.empties := rfl
@[simp] theorem State.later_poison (due : Nat) (i : Instr) (inp : Input) : (s.later due i inp).poison = s.poison := rfl
@[simp] theorem State.later_pkgId (due : Nat) (i : Instr) (inp : Input) : (s.later due i inp).pkgId = s.pkgId := rfl
@[simp] theorem State.later_bootStep (due : Nat) (i : Instr) (inp : Input) : (s.later due i inp).bootStep = s.bootStep := rfl
@[simp] theorem State.later_admitting (due : Nat) (i : Instr) (inp : Input) : (s.later due i inp).admitting = s.admitting := rfl
@[simp] theorem State.later_manifest (due : Nat) (i : Instr) (inp : Input) : (s.later due i inp).manifest = s.manifest := rfl
@[simp] theorem State.later_badPorts (due : Nat) (i : Instr) (inp : Input) : (s.later due i inp).badPorts = s.badPorts := rfl
@[simp] theorem State.later_revision (due : Nat) (i : Instr) (inp : Input) : (s.later due i inp).revision = s.revision := rfl
@[simp] theorem State.later_links (due : Nat) (i : Instr) (inp : Input) : (s.later due i inp).links = s.links := rfl
@[simp] theorem State.later_clockStep (due : Nat) (i : Instr) (inp : Input) : (s.later due i inp).clockStep = s.clockStep := rfl
@[simp] theorem State.later_gated (due : Nat) (i : Instr) (inp : Input) : (s.later due i inp).gated = s.gated := rfl
@[simp] theorem State.later_cores (due : Nat) (i : Instr) (inp : Input) : (s.later due i inp).cores = s.cores := rfl
@[simp] theorem State.later_teams (due : Nat) (i : Instr) (inp : Input) : (s.later due i inp).teams = s.teams := rfl
@[simp] theorem State.later_clusters (due : Nat) (i : Instr) (inp : Input) : (s.later due i inp).clusters = s.clusters := rfl
@[simp] theorem State.later_grids (due : Nat) (i : Instr) (inp : Input) : (s.later due i inp).grids = s.grids := rfl
@[simp] theorem State.later_dies (due : Nat) (i : Instr) (inp : Input) : (s.later due i inp).dies = s.dies := rfl
@[simp] theorem State.later_bays (due : Nat) (i : Instr) (inp : Input) : (s.later due i inp).bays = s.bays := rfl
@[simp] theorem State.later_parts (due : Nat) (i : Instr) (inp : Input) : (s.later due i inp).parts = s.parts := rfl
@[simp] theorem State.later_vaults (due : Nat) (i : Instr) (inp : Input) : (s.later due i inp).vaults = s.vaults := rfl
@[simp] theorem State.later_ports (due : Nat) (i : Instr) (inp : Input) : (s.later due i inp).ports = s.ports := rfl
@[simp] theorem State.later_lent (due : Nat) (i : Instr) (inp : Input) : (s.later due i inp).lent = s.lent := rfl
@[simp] theorem State.later_borrowed (due : Nat) (i : Instr) (inp : Input) : (s.later due i inp).borrowed = s.borrowed := rfl
@[simp] theorem State.later_reqs (due : Nat) (i : Instr) (inp : Input) : (s.later due i inp).reqs = s.reqs := rfl
@[simp] theorem State.later_epochs (due : Nat) (i : Instr) (inp : Input) : (s.later due i inp).epochs = s.epochs := rfl
@[simp] theorem State.later_quarantined (due : Nat) (i : Instr) (inp : Input) : (s.later due i inp).quarantined = s.quarantined := rfl
@[simp] theorem State.later_filfelPantry (due : Nat) (i : Instr) (inp : Input) : (s.later due i inp).filfelPantry = s.filfelPantry := rfl
@[simp] theorem State.later_firmware (due : Nat) (i : Instr) (inp : Input) : (s.later due i inp).firmware = s.firmware := rfl

/-! soon changes `agenda` only. -/

@[simp] theorem State.soon_input (i : Instr) (inp : Input) : (s.soon i inp).input = s.input := rfl
@[simp] theorem State.soon_cur (i : Instr) (inp : Input) : (s.soon i inp).cur = s.cur := rfl
@[simp] theorem State.soon_chosen (i : Instr) (inp : Input) : (s.soon i inp).chosen = s.chosen := rfl
@[simp] theorem State.soon_turn (i : Instr) (inp : Input) : (s.soon i inp).turn = s.turn := rfl
@[simp] theorem State.soon_clk (i : Instr) (inp : Input) : (s.soon i inp).clk = s.clk := rfl
@[simp] theorem State.soon_nextId (i : Instr) (inp : Input) : (s.soon i inp).nextId = s.nextId := rfl
@[simp] theorem State.soon_freeCtr (i : Instr) (inp : Input) : (s.soon i inp).freeCtr = s.freeCtr := rfl
@[simp] theorem State.soon_outbox (i : Instr) (inp : Input) : (s.soon i inp).outbox = s.outbox := rfl
@[simp] theorem State.soon_mem (i : Instr) (inp : Input) : (s.soon i inp).mem = s.mem := rfl
@[simp] theorem State.soon_empties (i : Instr) (inp : Input) : (s.soon i inp).empties = s.empties := rfl
@[simp] theorem State.soon_poison (i : Instr) (inp : Input) : (s.soon i inp).poison = s.poison := rfl
@[simp] theorem State.soon_pkgId (i : Instr) (inp : Input) : (s.soon i inp).pkgId = s.pkgId := rfl
@[simp] theorem State.soon_bootStep (i : Instr) (inp : Input) : (s.soon i inp).bootStep = s.bootStep := rfl
@[simp] theorem State.soon_admitting (i : Instr) (inp : Input) : (s.soon i inp).admitting = s.admitting := rfl
@[simp] theorem State.soon_manifest (i : Instr) (inp : Input) : (s.soon i inp).manifest = s.manifest := rfl
@[simp] theorem State.soon_badPorts (i : Instr) (inp : Input) : (s.soon i inp).badPorts = s.badPorts := rfl
@[simp] theorem State.soon_revision (i : Instr) (inp : Input) : (s.soon i inp).revision = s.revision := rfl
@[simp] theorem State.soon_links (i : Instr) (inp : Input) : (s.soon i inp).links = s.links := rfl
@[simp] theorem State.soon_clockStep (i : Instr) (inp : Input) : (s.soon i inp).clockStep = s.clockStep := rfl
@[simp] theorem State.soon_gated (i : Instr) (inp : Input) : (s.soon i inp).gated = s.gated := rfl
@[simp] theorem State.soon_cores (i : Instr) (inp : Input) : (s.soon i inp).cores = s.cores := rfl
@[simp] theorem State.soon_teams (i : Instr) (inp : Input) : (s.soon i inp).teams = s.teams := rfl
@[simp] theorem State.soon_clusters (i : Instr) (inp : Input) : (s.soon i inp).clusters = s.clusters := rfl
@[simp] theorem State.soon_grids (i : Instr) (inp : Input) : (s.soon i inp).grids = s.grids := rfl
@[simp] theorem State.soon_dies (i : Instr) (inp : Input) : (s.soon i inp).dies = s.dies := rfl
@[simp] theorem State.soon_bays (i : Instr) (inp : Input) : (s.soon i inp).bays = s.bays := rfl
@[simp] theorem State.soon_parts (i : Instr) (inp : Input) : (s.soon i inp).parts = s.parts := rfl
@[simp] theorem State.soon_vaults (i : Instr) (inp : Input) : (s.soon i inp).vaults = s.vaults := rfl
@[simp] theorem State.soon_ports (i : Instr) (inp : Input) : (s.soon i inp).ports = s.ports := rfl
@[simp] theorem State.soon_lent (i : Instr) (inp : Input) : (s.soon i inp).lent = s.lent := rfl
@[simp] theorem State.soon_borrowed (i : Instr) (inp : Input) : (s.soon i inp).borrowed = s.borrowed := rfl
@[simp] theorem State.soon_reqs (i : Instr) (inp : Input) : (s.soon i inp).reqs = s.reqs := rfl
@[simp] theorem State.soon_epochs (i : Instr) (inp : Input) : (s.soon i inp).epochs = s.epochs := rfl
@[simp] theorem State.soon_quarantined (i : Instr) (inp : Input) : (s.soon i inp).quarantined = s.quarantined := rfl
@[simp] theorem State.soon_filfelPantry (i : Instr) (inp : Input) : (s.soon i inp).filfelPantry = s.filfelPantry := rfl
@[simp] theorem State.soon_firmware (i : Instr) (inp : Input) : (s.soon i inp).firmware = s.firmware := rfl

/-! send changes `agenda` only. -/

@[simp] theorem State.send_input (d u p k : Nat) (x : Cargo) : (s.send d u p k x).input = s.input := rfl
@[simp] theorem State.send_cur (d u p k : Nat) (x : Cargo) : (s.send d u p k x).cur = s.cur := rfl
@[simp] theorem State.send_chosen (d u p k : Nat) (x : Cargo) : (s.send d u p k x).chosen = s.chosen := rfl
@[simp] theorem State.send_turn (d u p k : Nat) (x : Cargo) : (s.send d u p k x).turn = s.turn := rfl
@[simp] theorem State.send_clk (d u p k : Nat) (x : Cargo) : (s.send d u p k x).clk = s.clk := rfl
@[simp] theorem State.send_nextId (d u p k : Nat) (x : Cargo) : (s.send d u p k x).nextId = s.nextId := rfl
@[simp] theorem State.send_freeCtr (d u p k : Nat) (x : Cargo) : (s.send d u p k x).freeCtr = s.freeCtr := rfl
@[simp] theorem State.send_outbox (d u p k : Nat) (x : Cargo) : (s.send d u p k x).outbox = s.outbox := rfl
@[simp] theorem State.send_mem (d u p k : Nat) (x : Cargo) : (s.send d u p k x).mem = s.mem := rfl
@[simp] theorem State.send_empties (d u p k : Nat) (x : Cargo) : (s.send d u p k x).empties = s.empties := rfl
@[simp] theorem State.send_poison (d u p k : Nat) (x : Cargo) : (s.send d u p k x).poison = s.poison := rfl
@[simp] theorem State.send_pkgId (d u p k : Nat) (x : Cargo) : (s.send d u p k x).pkgId = s.pkgId := rfl
@[simp] theorem State.send_bootStep (d u p k : Nat) (x : Cargo) : (s.send d u p k x).bootStep = s.bootStep := rfl
@[simp] theorem State.send_admitting (d u p k : Nat) (x : Cargo) : (s.send d u p k x).admitting = s.admitting := rfl
@[simp] theorem State.send_manifest (d u p k : Nat) (x : Cargo) : (s.send d u p k x).manifest = s.manifest := rfl
@[simp] theorem State.send_badPorts (d u p k : Nat) (x : Cargo) : (s.send d u p k x).badPorts = s.badPorts := rfl
@[simp] theorem State.send_revision (d u p k : Nat) (x : Cargo) : (s.send d u p k x).revision = s.revision := rfl
@[simp] theorem State.send_links (d u p k : Nat) (x : Cargo) : (s.send d u p k x).links = s.links := rfl
@[simp] theorem State.send_clockStep (d u p k : Nat) (x : Cargo) : (s.send d u p k x).clockStep = s.clockStep := rfl
@[simp] theorem State.send_gated (d u p k : Nat) (x : Cargo) : (s.send d u p k x).gated = s.gated := rfl
@[simp] theorem State.send_cores (d u p k : Nat) (x : Cargo) : (s.send d u p k x).cores = s.cores := rfl
@[simp] theorem State.send_teams (d u p k : Nat) (x : Cargo) : (s.send d u p k x).teams = s.teams := rfl
@[simp] theorem State.send_clusters (d u p k : Nat) (x : Cargo) : (s.send d u p k x).clusters = s.clusters := rfl
@[simp] theorem State.send_grids (d u p k : Nat) (x : Cargo) : (s.send d u p k x).grids = s.grids := rfl
@[simp] theorem State.send_dies (d u p k : Nat) (x : Cargo) : (s.send d u p k x).dies = s.dies := rfl
@[simp] theorem State.send_bays (d u p k : Nat) (x : Cargo) : (s.send d u p k x).bays = s.bays := rfl
@[simp] theorem State.send_parts (d u p k : Nat) (x : Cargo) : (s.send d u p k x).parts = s.parts := rfl
@[simp] theorem State.send_vaults (d u p k : Nat) (x : Cargo) : (s.send d u p k x).vaults = s.vaults := rfl
@[simp] theorem State.send_ports (d u p k : Nat) (x : Cargo) : (s.send d u p k x).ports = s.ports := rfl
@[simp] theorem State.send_lent (d u p k : Nat) (x : Cargo) : (s.send d u p k x).lent = s.lent := rfl
@[simp] theorem State.send_borrowed (d u p k : Nat) (x : Cargo) : (s.send d u p k x).borrowed = s.borrowed := rfl
@[simp] theorem State.send_reqs (d u p k : Nat) (x : Cargo) : (s.send d u p k x).reqs = s.reqs := rfl
@[simp] theorem State.send_epochs (d u p k : Nat) (x : Cargo) : (s.send d u p k x).epochs = s.epochs := rfl
@[simp] theorem State.send_quarantined (d u p k : Nat) (x : Cargo) : (s.send d u p k x).quarantined = s.quarantined := rfl
@[simp] theorem State.send_filfelPantry (d u p k : Nat) (x : Cargo) : (s.send d u p k x).filfelPantry = s.filfelPantry := rfl
@[simp] theorem State.send_firmware (d u p k : Nat) (x : Cargo) : (s.send d u p k x).firmware = s.firmware := rfl

/-! emit changes `outbox` only. -/

@[simp] theorem State.emit_agenda (o : Out) : (s.emit o).agenda = s.agenda := rfl
@[simp] theorem State.emit_input (o : Out) : (s.emit o).input = s.input := rfl
@[simp] theorem State.emit_cur (o : Out) : (s.emit o).cur = s.cur := rfl
@[simp] theorem State.emit_chosen (o : Out) : (s.emit o).chosen = s.chosen := rfl
@[simp] theorem State.emit_turn (o : Out) : (s.emit o).turn = s.turn := rfl
@[simp] theorem State.emit_clk (o : Out) : (s.emit o).clk = s.clk := rfl
@[simp] theorem State.emit_nextId (o : Out) : (s.emit o).nextId = s.nextId := rfl
@[simp] theorem State.emit_freeCtr (o : Out) : (s.emit o).freeCtr = s.freeCtr := rfl
@[simp] theorem State.emit_mem (o : Out) : (s.emit o).mem = s.mem := rfl
@[simp] theorem State.emit_empties (o : Out) : (s.emit o).empties = s.empties := rfl
@[simp] theorem State.emit_poison (o : Out) : (s.emit o).poison = s.poison := rfl
@[simp] theorem State.emit_pkgId (o : Out) : (s.emit o).pkgId = s.pkgId := rfl
@[simp] theorem State.emit_bootStep (o : Out) : (s.emit o).bootStep = s.bootStep := rfl
@[simp] theorem State.emit_admitting (o : Out) : (s.emit o).admitting = s.admitting := rfl
@[simp] theorem State.emit_manifest (o : Out) : (s.emit o).manifest = s.manifest := rfl
@[simp] theorem State.emit_badPorts (o : Out) : (s.emit o).badPorts = s.badPorts := rfl
@[simp] theorem State.emit_revision (o : Out) : (s.emit o).revision = s.revision := rfl
@[simp] theorem State.emit_links (o : Out) : (s.emit o).links = s.links := rfl
@[simp] theorem State.emit_clockStep (o : Out) : (s.emit o).clockStep = s.clockStep := rfl
@[simp] theorem State.emit_gated (o : Out) : (s.emit o).gated = s.gated := rfl
@[simp] theorem State.emit_cores (o : Out) : (s.emit o).cores = s.cores := rfl
@[simp] theorem State.emit_teams (o : Out) : (s.emit o).teams = s.teams := rfl
@[simp] theorem State.emit_clusters (o : Out) : (s.emit o).clusters = s.clusters := rfl
@[simp] theorem State.emit_grids (o : Out) : (s.emit o).grids = s.grids := rfl
@[simp] theorem State.emit_dies (o : Out) : (s.emit o).dies = s.dies := rfl
@[simp] theorem State.emit_bays (o : Out) : (s.emit o).bays = s.bays := rfl
@[simp] theorem State.emit_parts (o : Out) : (s.emit o).parts = s.parts := rfl
@[simp] theorem State.emit_vaults (o : Out) : (s.emit o).vaults = s.vaults := rfl
@[simp] theorem State.emit_ports (o : Out) : (s.emit o).ports = s.ports := rfl
@[simp] theorem State.emit_lent (o : Out) : (s.emit o).lent = s.lent := rfl
@[simp] theorem State.emit_borrowed (o : Out) : (s.emit o).borrowed = s.borrowed := rfl
@[simp] theorem State.emit_reqs (o : Out) : (s.emit o).reqs = s.reqs := rfl
@[simp] theorem State.emit_epochs (o : Out) : (s.emit o).epochs = s.epochs := rfl
@[simp] theorem State.emit_quarantined (o : Out) : (s.emit o).quarantined = s.quarantined := rfl
@[simp] theorem State.emit_filfelPantry (o : Out) : (s.emit o).filfelPantry = s.filfelPantry := rfl
@[simp] theorem State.emit_firmware (o : Out) : (s.emit o).firmware = s.firmware := rfl

/-! setByte changes `mem` only. -/

@[simp] theorem State.setByte_agenda (loc : Nat) (v : Byte) : (s.setByte loc v).agenda = s.agenda := rfl
@[simp] theorem State.setByte_input (loc : Nat) (v : Byte) : (s.setByte loc v).input = s.input := rfl
@[simp] theorem State.setByte_cur (loc : Nat) (v : Byte) : (s.setByte loc v).cur = s.cur := rfl
@[simp] theorem State.setByte_chosen (loc : Nat) (v : Byte) : (s.setByte loc v).chosen = s.chosen := rfl
@[simp] theorem State.setByte_turn (loc : Nat) (v : Byte) : (s.setByte loc v).turn = s.turn := rfl
@[simp] theorem State.setByte_clk (loc : Nat) (v : Byte) : (s.setByte loc v).clk = s.clk := rfl
@[simp] theorem State.setByte_nextId (loc : Nat) (v : Byte) : (s.setByte loc v).nextId = s.nextId := rfl
@[simp] theorem State.setByte_freeCtr (loc : Nat) (v : Byte) : (s.setByte loc v).freeCtr = s.freeCtr := rfl
@[simp] theorem State.setByte_outbox (loc : Nat) (v : Byte) : (s.setByte loc v).outbox = s.outbox := rfl
@[simp] theorem State.setByte_empties (loc : Nat) (v : Byte) : (s.setByte loc v).empties = s.empties := rfl
@[simp] theorem State.setByte_poison (loc : Nat) (v : Byte) : (s.setByte loc v).poison = s.poison := rfl
@[simp] theorem State.setByte_pkgId (loc : Nat) (v : Byte) : (s.setByte loc v).pkgId = s.pkgId := rfl
@[simp] theorem State.setByte_bootStep (loc : Nat) (v : Byte) : (s.setByte loc v).bootStep = s.bootStep := rfl
@[simp] theorem State.setByte_admitting (loc : Nat) (v : Byte) : (s.setByte loc v).admitting = s.admitting := rfl
@[simp] theorem State.setByte_manifest (loc : Nat) (v : Byte) : (s.setByte loc v).manifest = s.manifest := rfl
@[simp] theorem State.setByte_badPorts (loc : Nat) (v : Byte) : (s.setByte loc v).badPorts = s.badPorts := rfl
@[simp] theorem State.setByte_revision (loc : Nat) (v : Byte) : (s.setByte loc v).revision = s.revision := rfl
@[simp] theorem State.setByte_links (loc : Nat) (v : Byte) : (s.setByte loc v).links = s.links := rfl
@[simp] theorem State.setByte_clockStep (loc : Nat) (v : Byte) : (s.setByte loc v).clockStep = s.clockStep := rfl
@[simp] theorem State.setByte_gated (loc : Nat) (v : Byte) : (s.setByte loc v).gated = s.gated := rfl
@[simp] theorem State.setByte_cores (loc : Nat) (v : Byte) : (s.setByte loc v).cores = s.cores := rfl
@[simp] theorem State.setByte_teams (loc : Nat) (v : Byte) : (s.setByte loc v).teams = s.teams := rfl
@[simp] theorem State.setByte_clusters (loc : Nat) (v : Byte) : (s.setByte loc v).clusters = s.clusters := rfl
@[simp] theorem State.setByte_grids (loc : Nat) (v : Byte) : (s.setByte loc v).grids = s.grids := rfl
@[simp] theorem State.setByte_dies (loc : Nat) (v : Byte) : (s.setByte loc v).dies = s.dies := rfl
@[simp] theorem State.setByte_bays (loc : Nat) (v : Byte) : (s.setByte loc v).bays = s.bays := rfl
@[simp] theorem State.setByte_parts (loc : Nat) (v : Byte) : (s.setByte loc v).parts = s.parts := rfl
@[simp] theorem State.setByte_vaults (loc : Nat) (v : Byte) : (s.setByte loc v).vaults = s.vaults := rfl
@[simp] theorem State.setByte_ports (loc : Nat) (v : Byte) : (s.setByte loc v).ports = s.ports := rfl
@[simp] theorem State.setByte_lent (loc : Nat) (v : Byte) : (s.setByte loc v).lent = s.lent := rfl
@[simp] theorem State.setByte_borrowed (loc : Nat) (v : Byte) : (s.setByte loc v).borrowed = s.borrowed := rfl
@[simp] theorem State.setByte_reqs (loc : Nat) (v : Byte) : (s.setByte loc v).reqs = s.reqs := rfl
@[simp] theorem State.setByte_epochs (loc : Nat) (v : Byte) : (s.setByte loc v).epochs = s.epochs := rfl
@[simp] theorem State.setByte_quarantined (loc : Nat) (v : Byte) : (s.setByte loc v).quarantined = s.quarantined := rfl
@[simp] theorem State.setByte_filfelPantry (loc : Nat) (v : Byte) : (s.setByte loc v).filfelPantry = s.filfelPantry := rfl
@[simp] theorem State.setByte_firmware (loc : Nat) (v : Byte) : (s.setByte loc v).firmware = s.firmware := rfl

/-! setFull changes `empties` only. -/

@[simp] theorem State.setFull_agenda (loc : Nat) (b : Bool) : (s.setFull loc b).agenda = s.agenda := rfl
@[simp] theorem State.setFull_input (loc : Nat) (b : Bool) : (s.setFull loc b).input = s.input := rfl
@[simp] theorem State.setFull_cur (loc : Nat) (b : Bool) : (s.setFull loc b).cur = s.cur := rfl
@[simp] theorem State.setFull_chosen (loc : Nat) (b : Bool) : (s.setFull loc b).chosen = s.chosen := rfl
@[simp] theorem State.setFull_turn (loc : Nat) (b : Bool) : (s.setFull loc b).turn = s.turn := rfl
@[simp] theorem State.setFull_clk (loc : Nat) (b : Bool) : (s.setFull loc b).clk = s.clk := rfl
@[simp] theorem State.setFull_nextId (loc : Nat) (b : Bool) : (s.setFull loc b).nextId = s.nextId := rfl
@[simp] theorem State.setFull_freeCtr (loc : Nat) (b : Bool) : (s.setFull loc b).freeCtr = s.freeCtr := rfl
@[simp] theorem State.setFull_outbox (loc : Nat) (b : Bool) : (s.setFull loc b).outbox = s.outbox := rfl
@[simp] theorem State.setFull_mem (loc : Nat) (b : Bool) : (s.setFull loc b).mem = s.mem := rfl
@[simp] theorem State.setFull_poison (loc : Nat) (b : Bool) : (s.setFull loc b).poison = s.poison := rfl
@[simp] theorem State.setFull_pkgId (loc : Nat) (b : Bool) : (s.setFull loc b).pkgId = s.pkgId := rfl
@[simp] theorem State.setFull_bootStep (loc : Nat) (b : Bool) : (s.setFull loc b).bootStep = s.bootStep := rfl
@[simp] theorem State.setFull_admitting (loc : Nat) (b : Bool) : (s.setFull loc b).admitting = s.admitting := rfl
@[simp] theorem State.setFull_manifest (loc : Nat) (b : Bool) : (s.setFull loc b).manifest = s.manifest := rfl
@[simp] theorem State.setFull_badPorts (loc : Nat) (b : Bool) : (s.setFull loc b).badPorts = s.badPorts := rfl
@[simp] theorem State.setFull_revision (loc : Nat) (b : Bool) : (s.setFull loc b).revision = s.revision := rfl
@[simp] theorem State.setFull_links (loc : Nat) (b : Bool) : (s.setFull loc b).links = s.links := rfl
@[simp] theorem State.setFull_clockStep (loc : Nat) (b : Bool) : (s.setFull loc b).clockStep = s.clockStep := rfl
@[simp] theorem State.setFull_gated (loc : Nat) (b : Bool) : (s.setFull loc b).gated = s.gated := rfl
@[simp] theorem State.setFull_cores (loc : Nat) (b : Bool) : (s.setFull loc b).cores = s.cores := rfl
@[simp] theorem State.setFull_teams (loc : Nat) (b : Bool) : (s.setFull loc b).teams = s.teams := rfl
@[simp] theorem State.setFull_clusters (loc : Nat) (b : Bool) : (s.setFull loc b).clusters = s.clusters := rfl
@[simp] theorem State.setFull_grids (loc : Nat) (b : Bool) : (s.setFull loc b).grids = s.grids := rfl
@[simp] theorem State.setFull_dies (loc : Nat) (b : Bool) : (s.setFull loc b).dies = s.dies := rfl
@[simp] theorem State.setFull_bays (loc : Nat) (b : Bool) : (s.setFull loc b).bays = s.bays := rfl
@[simp] theorem State.setFull_parts (loc : Nat) (b : Bool) : (s.setFull loc b).parts = s.parts := rfl
@[simp] theorem State.setFull_vaults (loc : Nat) (b : Bool) : (s.setFull loc b).vaults = s.vaults := rfl
@[simp] theorem State.setFull_ports (loc : Nat) (b : Bool) : (s.setFull loc b).ports = s.ports := rfl
@[simp] theorem State.setFull_lent (loc : Nat) (b : Bool) : (s.setFull loc b).lent = s.lent := rfl
@[simp] theorem State.setFull_borrowed (loc : Nat) (b : Bool) : (s.setFull loc b).borrowed = s.borrowed := rfl
@[simp] theorem State.setFull_reqs (loc : Nat) (b : Bool) : (s.setFull loc b).reqs = s.reqs := rfl
@[simp] theorem State.setFull_epochs (loc : Nat) (b : Bool) : (s.setFull loc b).epochs = s.epochs := rfl
@[simp] theorem State.setFull_quarantined (loc : Nat) (b : Bool) : (s.setFull loc b).quarantined = s.quarantined := rfl
@[simp] theorem State.setFull_filfelPantry (loc : Nat) (b : Bool) : (s.setFull loc b).filfelPantry = s.filfelPantry := rfl
@[simp] theorem State.setFull_firmware (loc : Nat) (b : Bool) : (s.setFull loc b).firmware = s.firmware := rfl

/-! setPoison changes `poison` only. -/

@[simp] theorem State.setPoison_agenda (loc : Nat) (b : Bool) : (s.setPoison loc b).agenda = s.agenda := rfl
@[simp] theorem State.setPoison_input (loc : Nat) (b : Bool) : (s.setPoison loc b).input = s.input := rfl
@[simp] theorem State.setPoison_cur (loc : Nat) (b : Bool) : (s.setPoison loc b).cur = s.cur := rfl
@[simp] theorem State.setPoison_chosen (loc : Nat) (b : Bool) : (s.setPoison loc b).chosen = s.chosen := rfl
@[simp] theorem State.setPoison_turn (loc : Nat) (b : Bool) : (s.setPoison loc b).turn = s.turn := rfl
@[simp] theorem State.setPoison_clk (loc : Nat) (b : Bool) : (s.setPoison loc b).clk = s.clk := rfl
@[simp] theorem State.setPoison_nextId (loc : Nat) (b : Bool) : (s.setPoison loc b).nextId = s.nextId := rfl
@[simp] theorem State.setPoison_freeCtr (loc : Nat) (b : Bool) : (s.setPoison loc b).freeCtr = s.freeCtr := rfl
@[simp] theorem State.setPoison_outbox (loc : Nat) (b : Bool) : (s.setPoison loc b).outbox = s.outbox := rfl
@[simp] theorem State.setPoison_mem (loc : Nat) (b : Bool) : (s.setPoison loc b).mem = s.mem := rfl
@[simp] theorem State.setPoison_empties (loc : Nat) (b : Bool) : (s.setPoison loc b).empties = s.empties := rfl
@[simp] theorem State.setPoison_pkgId (loc : Nat) (b : Bool) : (s.setPoison loc b).pkgId = s.pkgId := rfl
@[simp] theorem State.setPoison_bootStep (loc : Nat) (b : Bool) : (s.setPoison loc b).bootStep = s.bootStep := rfl
@[simp] theorem State.setPoison_admitting (loc : Nat) (b : Bool) : (s.setPoison loc b).admitting = s.admitting := rfl
@[simp] theorem State.setPoison_manifest (loc : Nat) (b : Bool) : (s.setPoison loc b).manifest = s.manifest := rfl
@[simp] theorem State.setPoison_badPorts (loc : Nat) (b : Bool) : (s.setPoison loc b).badPorts = s.badPorts := rfl
@[simp] theorem State.setPoison_revision (loc : Nat) (b : Bool) : (s.setPoison loc b).revision = s.revision := rfl
@[simp] theorem State.setPoison_links (loc : Nat) (b : Bool) : (s.setPoison loc b).links = s.links := rfl
@[simp] theorem State.setPoison_clockStep (loc : Nat) (b : Bool) : (s.setPoison loc b).clockStep = s.clockStep := rfl
@[simp] theorem State.setPoison_gated (loc : Nat) (b : Bool) : (s.setPoison loc b).gated = s.gated := rfl
@[simp] theorem State.setPoison_cores (loc : Nat) (b : Bool) : (s.setPoison loc b).cores = s.cores := rfl
@[simp] theorem State.setPoison_teams (loc : Nat) (b : Bool) : (s.setPoison loc b).teams = s.teams := rfl
@[simp] theorem State.setPoison_clusters (loc : Nat) (b : Bool) : (s.setPoison loc b).clusters = s.clusters := rfl
@[simp] theorem State.setPoison_grids (loc : Nat) (b : Bool) : (s.setPoison loc b).grids = s.grids := rfl
@[simp] theorem State.setPoison_dies (loc : Nat) (b : Bool) : (s.setPoison loc b).dies = s.dies := rfl
@[simp] theorem State.setPoison_bays (loc : Nat) (b : Bool) : (s.setPoison loc b).bays = s.bays := rfl
@[simp] theorem State.setPoison_parts (loc : Nat) (b : Bool) : (s.setPoison loc b).parts = s.parts := rfl
@[simp] theorem State.setPoison_vaults (loc : Nat) (b : Bool) : (s.setPoison loc b).vaults = s.vaults := rfl
@[simp] theorem State.setPoison_ports (loc : Nat) (b : Bool) : (s.setPoison loc b).ports = s.ports := rfl
@[simp] theorem State.setPoison_lent (loc : Nat) (b : Bool) : (s.setPoison loc b).lent = s.lent := rfl
@[simp] theorem State.setPoison_borrowed (loc : Nat) (b : Bool) : (s.setPoison loc b).borrowed = s.borrowed := rfl
@[simp] theorem State.setPoison_reqs (loc : Nat) (b : Bool) : (s.setPoison loc b).reqs = s.reqs := rfl
@[simp] theorem State.setPoison_epochs (loc : Nat) (b : Bool) : (s.setPoison loc b).epochs = s.epochs := rfl
@[simp] theorem State.setPoison_quarantined (loc : Nat) (b : Bool) : (s.setPoison loc b).quarantined = s.quarantined := rfl
@[simp] theorem State.setPoison_filfelPantry (loc : Nat) (b : Bool) : (s.setPoison loc b).filfelPantry = s.filfelPantry := rfl
@[simp] theorem State.setPoison_firmware (loc : Nat) (b : Bool) : (s.setPoison loc b).firmware = s.firmware := rfl

end Sys2Proof.Machine
end

