-- ==== Sys2Proof/Laws/Table.lean ====
section
/-! SUPPORT. The sparse tables and the sets of numbers: what a read after an update gives, and that updates keep the
canonical form. -/

namespace Sys2Proof

variable {α : Type}

@[simp] theorem Table.get_nil (d : α) (k : Nat) : Table.get d [] k = d := rfl

theorem Table.get_ins_same (d : α) (t : Table α) (k : Nat) (v : α) : (t.ins k v).get d k = v := by
  induction t with
  | nil => simp [Table.ins, Table.get]
  | cons e t ih =>
    obtain ⟨k', w⟩ := e
    simp only [Table.ins]
    split
    · simp [Table.get]
    · split
      · simp [Table.get]
      · rename_i h _; simp [Table.get, h, ih]

theorem Table.get_ins_other (d : α) (t : Table α) {k j : Nat} (v : α) (h : j ≠ k) : (t.ins k v).get d j = t.get d j := by
  have hs := Ne.symm h
  induction t with
  | nil => simp [Table.ins, Table.get, hs]
  | cons e t ih =>
    obtain ⟨k', w⟩ := e
    simp only [Table.ins]
    split
    · subst_vars; simp [Table.get, hs]
    · split
      · simp [Table.get, hs]
      · simp [Table.get, ih]

@[simp] theorem Table.get_ins (d : α) (t : Table α) (k j : Nat) (v : α) :
    (t.ins k v).get d j = if j = k then v else t.get d j := by
  split
  · subst_vars; exact Table.get_ins_same d t _ v
  · exact Table.get_ins_other d t v ‹_›

@[simp] theorem Table.get_del (d : α) (t : Table α) (k j : Nat) :
    (t.del k).get d j = if j = k then d else t.get d j := by
  induction t with
  | nil => simp [Table.del, Table.get]
  | cons e t ih =>
    obtain ⟨k', w⟩ := e
    by_cases hk : k' = k <;> by_cases hj : k' = j <;> by_cases hjk : j = k <;>
      simp_all [Table.del, Table.get]

@[simp] theorem Table.get_put [DecidableEq α] (d : α) (t : Table α) (k j : Nat) (v : α) :
    (Table.put d t k v).get d j = if j = k then v else t.get d j := by
  unfold Table.put
  split <;> simp_all

/-! The canonical form: keys strictly rise. -/

/-- The keys of a table strictly rise. -/
abbrev Table.Rising (t : Table α) : Prop := t.Pairwise fun a b => a.1 < b.1

theorem Table.key_of_mem_ins {t : Table α} {k : Nat} {v : α} {e : Nat × α} (h : e ∈ t.ins k v) : e = (k, v) ∨ e ∈ t := by
  induction t with
  | nil => simpa [Table.ins] using h
  | cons f t ih =>
    obtain ⟨k', w⟩ := f
    simp only [Table.ins] at h
    split at h
    · simp at h; rcases h with h | h <;> simp [h]
    · split at h
      · simpa using h
      · simp at h; rcases h with h | h
        · simp [h]
        · rcases ih h with h | h <;> simp [h]

theorem Table.mem_of_mem_del {t : Table α} {k : Nat} {e : Nat × α} (h : e ∈ t.del k) : e ∈ t := by
  induction t with
  | nil => simp [Table.del] at h
  | cons f t ih =>
    obtain ⟨k', w⟩ := f
    simp only [Table.del] at h
    split at h
    · exact List.mem_cons_of_mem _ (ih h)
    · simp at h; rcases h with h | h
      · simp [h]
      · exact List.mem_cons_of_mem _ (ih h)

theorem Table.Rising.ins {t : Table α} (h : t.Rising) (k : Nat) (v : α) : (t.ins k v).Rising := by
  induction t with
  | nil => simp [Table.ins, Table.Rising]
  | cons f t ih =>
    obtain ⟨k', w⟩ := f
    simp only [Table.Rising, List.pairwise_cons] at h
    simp only [Table.ins]
    split
    · subst_vars; exact List.pairwise_cons.2 h
    · split
      · refine List.pairwise_cons.2 ⟨?_, List.pairwise_cons.2 h⟩
        intro e he
        simp at he; rcases he with he | he
        · simp [he]; omega
        · have := h.1 e he; simp only at this ⊢; omega
      · refine List.pairwise_cons.2 ⟨?_, ih h.2⟩
        intro e he
        rcases Table.key_of_mem_ins he with he | he
        · simp [he]; omega
        · exact h.1 e he

theorem Table.Rising.del {t : Table α} (h : t.Rising) (k : Nat) : (t.del k).Rising := by
  induction t with
  | nil => simp [Table.del, Table.Rising]
  | cons f t ih =>
    obtain ⟨k', w⟩ := f
    simp only [Table.Rising, List.pairwise_cons] at h
    simp only [Table.del]
    split
    · exact ih h.2
    · exact List.pairwise_cons.2 ⟨fun e he => h.1 e (Table.mem_of_mem_del he), ih h.2⟩

theorem Table.Rising.put [DecidableEq α] (d : α) {t : Table α} (h : t.Rising) (k : Nat) (v : α) : (Table.put d t k v).Rising := by
  unfold Table.put
  split
  · exact h.del k
  · exact h.ins k v

/-- A table none of whose entries holds the default keeps that under a write that erases the default. -/
theorem Table.put_ne [DecidableEq α] (d : α) {t : Table α} (h : ∀ e ∈ t, e.2 ≠ d) (k : Nat) (v : α) :
    ∀ e ∈ Table.put d t k v, e.2 ≠ d := by
  unfold Table.put
  split
  · exact fun e he => h e (Table.mem_of_mem_del he)
  · intro e he
    rcases Table.key_of_mem_ins he with he | he
    · simpa [he]
    · exact h e he

/-! Sets of numbers. -/

/-- The numbers of a set strictly rise. -/
abbrev NatSet.Rising (m : NatSet) : Prop := List.Pairwise (· < ·) m

@[simp] theorem NatSet.mem_add (m : NatSet) (k j : Nat) : j ∈ NatSet.add m k ↔ j = k ∨ j ∈ m := by
  induction m with
  | nil => simp [NatSet.add]
  | cons a t ih =>
    simp only [NatSet.add]
    split
    · subst_vars; simp
    · split
      · simp
      · simp only [List.mem_cons, ih]; tauto

@[simp] theorem NatSet.mem_rem (m : NatSet) (k j : Nat) : j ∈ NatSet.rem m k ↔ j ≠ k ∧ j ∈ m := by
  induction m with
  | nil => simp [NatSet.rem]
  | cons a t ih =>
    simp only [NatSet.rem]
    split
    · subst_vars; simp only [ih, List.mem_cons]; tauto
    · simp only [List.mem_cons, ih]
      constructor
      · rintro (rfl | h)
        · exact ⟨‹_›, .inl rfl⟩
        · exact ⟨h.1, .inr h.2⟩
      · rintro ⟨h1, rfl | h2⟩
        · exact .inl rfl
        · exact .inr ⟨h1, h2⟩

@[simp] theorem NatSet.contains_setTo (m : NatSet) (k j : Nat) (b : Bool) :
    (NatSet.setTo m k b).contains j = if j = k then b else m.contains j := by
  rw [Bool.eq_iff_iff, List.contains_iff_mem]
  cases b <;> simp [NatSet.setTo]

theorem NatSet.Rising.add {m : NatSet} (h : NatSet.Rising m) (k : Nat) : NatSet.Rising (NatSet.add m k) := by
  induction m with
  | nil => simp [NatSet.add, NatSet.Rising]
  | cons a t ih =>
    simp only [NatSet.Rising, List.pairwise_cons] at h
    simp only [NatSet.add]
    split
    · exact List.pairwise_cons.2 h
    · split
      · refine List.pairwise_cons.2 ⟨?_, List.pairwise_cons.2 h⟩
        intro x hx; simp at hx; rcases hx with hx | hx
        · omega
        · have := h.1 x hx; omega
      · refine List.pairwise_cons.2 ⟨?_, ih h.2⟩
        intro x hx; simp at hx; rcases hx with hx | hx
        · omega
        · exact h.1 x hx

theorem NatSet.Rising.rem {m : NatSet} (h : NatSet.Rising m) (k : Nat) : NatSet.Rising (NatSet.rem m k) := by
  induction m with
  | nil => simp [NatSet.rem, NatSet.Rising]
  | cons a t ih =>
    simp only [NatSet.Rising, List.pairwise_cons] at h
    simp only [NatSet.rem]
    split
    · exact ih h.2
    · exact List.pairwise_cons.2 ⟨fun x hx => h.1 x ((NatSet.mem_rem t k x).1 hx).2, ih h.2⟩

theorem NatSet.Rising.setTo {m : NatSet} (h : NatSet.Rising m) (k : Nat) (b : Bool) : NatSet.Rising (NatSet.setTo m k b) := by
  unfold NatSet.setTo
  split
  · exact h.add k
  · exact h.rem k

end Sys2Proof
end

