-- ==== Sys2Proof/Laws/Slots.lean ====
section
/-! SUPPORT. Cores, slots, paths and registers: what a read gives after an update of the same place and of another. -/

namespace Sys2Proof.Machine

variable (s : State)

/-! Cores and slots. -/

@[simp] theorem State.core_modCore (c j : Nat) (f : Core → Core) :
    (s.modCore c f).core j = if j = c then f (s.core c) else s.core j := by
  simp only [State.core, State.modCore, Table.get_ins]

@[simp] theorem Core.slot_modSlot (co : Core) (k j : Nat) (f : Slot → Slot) :
    (co.modSlot k f).slot j = if j = k then f (co.slot k) else co.slot j := by
  simp only [Core.slot, Core.modSlot, Table.get_ins]

theorem State.core_modSlot (c k j : Nat) (f : Slot → Slot) :
    (s.modSlot c k f).core j = if j = c then (s.core c).modSlot k f else s.core j := State.core_modCore s c j _

@[simp] theorem State.slot_modSlot (c k c' k' : Nat) (f : Slot → Slot) :
    (s.modSlot c k f).slot c' k' = if c' = c ∧ k' = k then f (s.slot c k) else s.slot c' k' := by
  simp only [State.slot, State.core_modSlot]
  by_cases hc : c' = c <;> by_cases hk : k' = k <;> simp [hc, hk]

@[simp] theorem State.slot_modCore_same (c k : Nat) (f : Core → Core) : (s.modCore c f).slot c k = (f (s.core c)).slot k := by
  simp [State.slot]
@[simp] theorem State.slot_modCore_other {c c' : Nat} (h : c' ≠ c) (k : Nat) (f : Core → Core) :
    (s.modCore c f).slot c' k = s.slot c' k := by
  simp [State.slot, h]

@[simp] theorem Slot.path_setPath (sl : Slot) (q r : Bool) (f : Path → Path) :
    (sl.setPath q f).path r = if r = q then f (sl.path q) else sl.path r := by
  cases q <;> cases r <;> rfl

@[simp] theorem State.slot_modPathOf (c k c' k' : Nat) (q : Bool) (f : Path → Path) :
    (s.modPathOf c k q f).slot c' k' = if c' = c ∧ k' = k then (s.slot c k).setPath q f else s.slot c' k' :=
  State.slot_modSlot s c k c' k' _

@[simp] theorem State.curSlot_modCur (f : Slot → Slot) : (s.modCur f).curSlot = f s.curSlot := by
  simp [State.curSlot, State.modCur]
@[simp] theorem State.curPath_modPath (f : Path → Path) : (s.modPath f).curPath = f s.curPath := by
  simp [State.curPath, State.curSlot, State.modPath]
@[simp] theorem State.curSlot_modPath (f : Path → Path) : (s.modPath f).curSlot = s.curSlot.setPath s.cur.pathQ f := by
  simp [State.curSlot, State.modPath]
@[simp] theorem State.curCore_modCurCore (f : Core → Core) : (s.modCurCore f).curCore = f s.curCore := by
  simp [State.curCore, State.modCurCore]

/-! Fields of a slot that setPath leaves. -/

variable (sl : Slot) (q : Bool) (f : Path → Path)
@[simp] theorem Slot.setPath_state : (sl.setPath q f).state = sl.state := by cases q <;> rfl
@[simp] theorem Slot.setPath_sregs : (sl.setPath q f).sregs = sl.sregs := by cases q <;> rfl
@[simp] theorem Slot.setPath_vregs : (sl.setPath q f).vregs = sl.vregs := by cases q <;> rfl
@[simp] theorem Slot.setPath_mregs : (sl.setPath q f).mregs = sl.mregs := by cases q <;> rfl
@[simp] theorem Slot.setPath_dual : (sl.setPath q f).dual = sl.dual := by cases q <;> rfl
@[simp] theorem Slot.setPath_unsettled : (sl.setPath q f).unsettled = sl.unsettled := by cases q <;> rfl
@[simp] theorem Slot.setPath_sub : (sl.setPath q f).sub = sl.sub := by cases q <;> rfl
@[simp] theorem Slot.setPath_gen : (sl.setPath q f).gen = sl.gen := by cases q <;> rfl
@[simp] theorem Slot.sreg_setPath (n : Nat) : (sl.setPath q f).sreg n = sl.sreg n := by cases q <;> rfl
@[simp] theorem Slot.vreg_setPath (n : Nat) : (sl.setPath q f).vreg n = sl.vreg n := by cases q <;> rfl

/-! Registers. -/

@[simp] theorem Slot.sreg_zero : sl.sreg 0 = 0 := rfl
/-- A write of a scalar register reads back, but for s0, which reads as zero (R81). -/
@[simp] theorem Slot.sreg_setS (n j : Nat) (v : Word) :
    (sl.setS n v).sreg j = if j = n ∧ n ≠ 0 then v else sl.sreg j := by
  by_cases hn : n = 0 <;> by_cases hj : j = 0 <;> by_cases hjn : j = n <;> simp_all [Slot.sreg, Slot.setS]
@[simp] theorem Slot.vreg_setS (n j : Nat) (v : Word) : (sl.setS n v).vreg j = sl.vreg j := by
  unfold Slot.setS; split <;> rfl
@[simp] theorem Slot.path_setS (n : Nat) (v : Word) (r : Bool) : (sl.setS n v).path r = sl.path r := by
  unfold Slot.setS; split <;> rfl
@[simp] theorem Slot.state_setS (n : Nat) (v : Word) : (sl.setS n v).state = sl.state := by unfold Slot.setS; split <;> rfl
@[simp] theorem Slot.dual_setS (n : Nat) (v : Word) : (sl.setS n v).dual = sl.dual := by unfold Slot.setS; split <;> rfl
@[simp] theorem Slot.vreg_setV (n j : Nat) (v : VReg) : (sl.setV n v).vreg j = if j = n then v else sl.vreg j := by
  simp [Slot.vreg, Slot.setV]
@[simp] theorem Slot.sreg_setV (n j : Nat) (v : VReg) : (sl.setV n v).sreg j = sl.sreg j := rfl
@[simp] theorem Slot.path_setV (n : Nat) (v : VReg) (r : Bool) : (sl.setV n v).path r = sl.path r := rfl
/-- A write of a mask register reads back, but for m0, which is the path's live mask (R115). -/
@[simp] theorem Slot.mreg_setM (r : Bool) (n j : Nat) (v : Mask) :
    (sl.setM n v).mreg r j = if j = n ∧ n ≠ 0 then v else sl.mreg r j := by
  have hp : (sl.setM n v).path r = sl.path r := by unfold Slot.setM; split <;> rfl
  by_cases hn : n = 0 <;> by_cases hj : j = 0 <;> by_cases hjn : j = n <;> simp_all [Slot.mreg, Slot.setM]

@[simp] theorem State.sreg_setS (n j : BitVec 5) (v : Word) :
    (s.setS n v).sreg j = if j = n ∧ n ≠ 0 then v else s.sreg j := by
  simp only [State.sreg, State.setS, State.curSlot_modCur, Slot.sreg_setS, ← BitVec.toNat_inj, ne_eq]
  rfl
@[simp] theorem State.vreg_setV (n j : Nat) (v : VReg) : (s.setV n v).vreg j = if j = n then v else s.vreg j := by
  simp [State.vreg, State.setV]
@[simp] theorem State.curSlot_setS (n : BitVec 5) (v : Word) : (s.setS n v).curSlot = s.curSlot.setS n.toNat v := by
  simp [State.setS]

/-! Package, dies, bays, partitions, stacks, ports. -/

@[simp] theorem State.die_modDie (d j : Nat) (f : Die → Die) :
    (s.modDie d f).die j = if j = d then f (s.die d) else s.die j := by simp only [State.die, State.modDie, Table.get_ins]
@[simp] theorem State.bay_modBay (b j : Nat) (f : Bay → Bay) :
    (s.modBay b f).bay j = if j = b then f (s.bay b) else s.bay j := by simp only [State.bay, State.modBay, Table.get_ins]
@[simp] theorem State.partn_modPart (p j : Nat) (f : Part → Part) :
    (s.modPart p f).partn j = if j = p then f (s.partn p) else s.partn j := by
  simp only [State.partn, State.modPart, Table.get_ins]
@[simp] theorem State.vault_modVault (k j : Nat) (f : Stack → Stack) :
    (s.modVault k f).vault j = if j = k then f (s.vault k) else s.vault j := by
  simp only [State.vault, State.modVault, Table.get_ins]
@[simp] theorem State.port_modPort (p j : Nat) (f : Port → Port) :
    (s.modPort p f).port j = if j = p then f (s.port p) else s.port j := by
  simp only [State.port, State.modPort, Table.get_ins]

end Sys2Proof.Machine
end

