-- ==== Sys2Proof/Laws/Run.lean ====
section
/-! SUPPORT. The shape of a meaning: what `run` answers where the decode traps hold back and where they do not; how an
instruction retires; what taking a trap leaves. -/

namespace Sys2Proof.Machine

variable {s : State} {i : Instr}

/-- An instruction that passes the decode traps answers what its effect leaves. -/
theorem run_of_gate (body : State → Act State) (h : s.gate i = none) (hk : s.curPath.kept = none) :
    run i s body = .next (finish i s (body s)) := by
  simp [run, h, State.onKept, hk]
/-- One that executes again after a wait reads the registers of its issue, and what it writes stands over the present ones. -/
theorem run_of_kept (body : State → Act State) (h : s.gate i = none) {r : Regs} (hk : s.curPath.kept = some r) :
    run i s body = .next (finish i s (mapAct (fun t => t.overRegs s.curSlot.regs r) (body (s.withRegs r)))) := by
  simp [run, h, State.onKept, hk]
/-- An instruction that the decode traps hold back takes that trap. -/
theorem run_of_trap (body : State → Act State) {t : Trap} (h : s.gate i = some t) : run i s body = .next (s.takeTrap t) := by
  simp [run, h]
/-- An encoded instruction always answers a next state. -/
theorem run_next (body : State → Act State) : ∃ t, run i s body = .next t := by
  unfold run; split <;> exact ⟨_, rfl⟩

@[simp] theorem finish_ok (t : State) : finish i s (.ok t) = t := rfl
@[simp] theorem finish_trap (t : Trap) : finish i s (.error (.trap t)) = s.takeTrap t := rfl
@[simp] theorem finish_trapAfter (t : Trap) (u : State) : finish i s (.error (.trapAfter t u)) = u.takeTrap t := rfl
@[simp] theorem finish_hold (w : Wait) : finish i s (.error (.hold w)) = s.waitInside i s.curSlot.regs w := rfl
@[simp] theorem finish_holdAfter (w : Wait) (u : State) :
    finish i s (.error (.holdAfter w u)) = u.waitInside i s.curSlot.regs w := rfl

/-- An instruction that passes the decode traps is well formed. -/
theorem wellFormed_of_gate (h : s.gate i = none) : wellFormed i = true := by
  unfold State.gate at h
  split at h
  · exact absurd h (by simp)
  · rename_i hn; simp at hn; exact hn.1
/-- An instruction that is not well formed traps ILLEGAL_INSTR. -/
theorem gate_illegal (h : wellFormed i = false) : s.gate i = some (s.illegal i) := by simp [State.gate, h]

/-! Retiring. -/

/-- A slot that is not trapped has nothing to settle. -/
theorem settle_of_active (c k : Nat) (h : (s.slot c k).state = .active) : s.settle c k = s := by
  simp [State.settle, h]

@[simp] theorem Slot.advance_state (sl : Slot) (q : Bool) (pc : Word) (clk : Nat) : (sl.advance q pc clk).state = sl.state := by
  by_cases h : (sl.path q).chan <;> cases q <;> simp [Slot.advance, Slot.setPath, h]
@[simp] theorem Slot.advance_sregs (sl : Slot) (q : Bool) (pc : Word) (clk : Nat) : (sl.advance q pc clk).sregs = sl.sregs := by
  by_cases h : (sl.path q).chan <;> cases q <;> simp [Slot.advance, Slot.setPath, h]

@[simp] theorem Slot.advance_vregs (sl : Slot) (q : Bool) (pc : Word) (clk : Nat) : (sl.advance q pc clk).vregs = sl.vregs := by
  by_cases h : (sl.path q).chan <;> cases q <;> simp [Slot.advance, Slot.setPath, h]
@[simp] theorem Slot.advance_mregs (sl : Slot) (q : Bool) (pc : Word) (clk : Nat) : (sl.advance q pc clk).mregs = sl.mregs := by
  by_cases h : (sl.path q).chan <;> cases q <;> simp [Slot.advance, Slot.setPath, h]
/-- An entry taken from a subscriber buffer leaves it. -/
theorem Slot.advance_sub (sl : Slot) (q : Bool) (pc : Word) (clk : Nat) :
    (sl.advance q pc clk).sub = if (sl.path q).chan then sl.sub.map fun b => b.pop pc clk else sl.sub := by
  by_cases h : (sl.path q).chan <;> cases q <;> simp [Slot.advance, Slot.setPath, h]
/-- Apart from its paths and its subscription a slot stays as it is. -/
theorem Slot.advance_rest (sl : Slot) (q : Bool) (pc : Word) (clk : Nat) :
    { sl.advance q pc clk with p := sl.p, q := sl.q, sub := sl.sub } = sl := by
  by_cases h : (sl.path q).chan <;> cases q <;> simp [Slot.advance, Slot.setPath, h]

/-- Where the executing slot is active, going on at `pc` changes that slot alone. -/
theorem goto_of_active (pc : Word) (h : s.curSlot.state = .active) :
    s.goto pc = s.modCur fun sl => sl.advance (sl.eff s.cur.pathQ) pc s.clk := by
  unfold State.goto State.advance
  rw [settle_of_active]
  · rfl
  · simpa using (show (s.slot s.cur.core s.cur.slot).state = .active from h)

/-- The path that goes on stands at `pc` and waits for nothing. -/
@[simp] theorem Path.moveTo_pc (p : Path) (pc : Word) : (p.moveTo pc).pc = pc := rfl
@[simp] theorem Path.moveTo_wait (p : Path) (pc : Word) : (p.moveTo pc).wait = .none := rfl
@[simp] theorem Path.moveTo_live (p : Path) (pc : Word) : (p.moveTo pc).live = p.live := rfl
@[simp] theorem Path.moveTo_stack (p : Path) (pc : Word) : (p.moveTo pc).stack = p.stack := rfl

theorem Slot.advance_path (sl : Slot) (q r : Bool) (pc : Word) (clk : Nat) :
    (sl.advance q pc clk).path r = if r = q then { (sl.path q).moveTo pc with chan := false } else sl.path r := by
  by_cases h : (sl.path q).chan <;> cases q <;> cases r <;> simp_all [Slot.advance, Slot.setPath, Slot.path]

end Sys2Proof.Machine
end

