-- ==== Sys2Proof/Laws/Effects.lean ====
section
/-! SUPPORT. What the shared shapes of effect do and leave: going on, a scalar result. -/

namespace Sys2Proof.Laws

open Sys2Proof.Machine Sys2Proof.Claims

variable {s : State} {i : Instr}

/-- A change of the executing slot alone is a change of the cores alone. -/
theorem coreOnly_modSlot (s : State) (c k : Nat) (f : Slot → Slot) : CoreOnly s (s.modSlot c k f) c := by
  refine ⟨rfl, fun j hj => ?_, ?_⟩
  · simp [State.core_modSlot, hj]
  · simp [State.core_modSlot, Core.modSlot]
theorem slotOnly_modSlot (s : State) (c k : Nat) (f : Slot → Slot) : SlotOnly s (s.modSlot c k f) c k :=
  ⟨coreOnly_modSlot s c k f, fun j hj => by simp [hj]⟩

theorem CoresOnly.cur {s t : State} (h : CoresOnly s t) : t.cur = s.cur := by rw [← h]

/-- The slot after its path has gone on: registers are those before. -/
theorem eff_of_live (h : Live s) : s.curSlot.eff s.cur.pathQ = s.cur.pathQ := by
  unfold Slot.eff
  cases hq : s.cur.pathQ
  · rfl
  · simp [(h.2.1 hq).1]

/-- An executing path that goes on at `pc` from a state that differs from `s` in the registers of the executing slot only. -/
theorem goesOn_modCur (h : Live s) (pc : Word) (f : Slot → Slot)
    (hf : ∃ a b c, f s.curSlot = { s.curSlot with sregs := a, vregs := b, mregs := c }) :
    CurOnly s ((s.modCur f).goto pc) ∧ GoesOn s ((s.modCur f).goto pc) pc ∧
    ((s.modCur f).goto pc).curSlot.sregs = (f s.curSlot).sregs ∧ ((s.modCur f).goto pc).curSlot.vregs = (f s.curSlot).vregs ∧
    ((s.modCur f).goto pc).curSlot.mregs = (f s.curSlot).mregs := by
  obtain ⟨a, b, c, hk⟩ := hf
  have hst : (s.modCur f).curSlot.state = .active := by rw [State.curSlot_modCur, hk]; exact h.1
  rw [goto_of_active pc hst]
  have hcur : (s.modCur f).cur = s.cur := rfl
  have e : (s.modCur f).modCur (fun sl => sl.advance (sl.eff (s.modCur f).cur.pathQ) pc (s.modCur f).clk) =
      { s with cores := ((s.modCur f).modCur (fun sl => sl.advance (sl.eff (s.modCur f).cur.pathQ) pc (s.modCur f).clk)).cores } := rfl
  have hs : ((s.modCur f).modCur (fun sl => sl.advance (sl.eff (s.modCur f).cur.pathQ) pc (s.modCur f).clk)).curSlot =
      (f s.curSlot).advance s.cur.pathQ pc s.clk := by
    rw [State.curSlot_modCur, State.curSlot_modCur]
    congr 1
    rw [hk]; exact eff_of_live h
  refine ⟨⟨⟨⟨rfl, fun j hj => ?_, ?_⟩, fun j hj => ?_⟩, ?_⟩, ⟨?_, ?_, ?_⟩, ?_, ?_, ?_⟩
  · simp [State.modCur, State.core_modSlot, hj]
  · simp [State.modCur, State.core_modSlot, Core.modSlot]
  · simp [State.modCur, hj]
  · rw [hs]
    have hr := Slot.advance_rest (f s.curSlot) s.cur.pathQ pc s.clk
    rw [hk] at hr ⊢
    have := congrArg (fun x : Slot => { x with sregs := s.curSlot.sregs, vregs := s.curSlot.vregs, mregs := s.curSlot.mregs }) hr
    exact this
  · rw [hs, Slot.advance_path, if_pos rfl, hk]; rfl
  · rw [hs, Slot.advance_path, if_neg (by cases s.cur.pathQ <;> simp), hk]; rfl
  · rw [hs, Slot.advance_sub, hk]; rfl
  · rw [hs, Slot.advance_sregs]
  · rw [hs, Slot.advance_vregs]
  · rw [hs, Slot.advance_mregs]

theorem setS_regs (sl : Slot) (n : Nat) (v : Word) :
    ∃ a b c, sl.setS n v = { sl with sregs := a, vregs := b, mregs := c } := by
  unfold Slot.setS; split
  · exact ⟨sl.sregs, sl.vregs, sl.mregs, rfl⟩
  · exact ⟨_, _, _, rfl⟩

/-- What an instruction does whose one effect is a value in a scalar register. -/
theorem setScalar_spec (h : Runs i s) (d : BitVec 5) (v : State → Word) :
    ∃ t, setScalar i d v s = .next t ∧ SetsScalar s t d (v s) := by
  refine ⟨_, run_of_gate _ h.2 h.1.2.2, ?_⟩
  have hp : (s.setS d (v s)).curPath.succ = s.curPath.succ := by simp [State.curPath]
  obtain ⟨h1, h2, h3, h4, h5⟩ := goesOn_modCur h.1 s.curPath.succ (fun sl => sl.setS d.toNat (v s))
    (setS_regs _ _ _)
  simp only [finish_ok, State.retire, hp]
  refine ⟨h1, fun n => ?_, ?_, ?_, h2⟩
  · have : ∀ n, ((s.setS d (v s)).goto s.curPath.succ).sreg n = (s.setS d (v s)).sreg n := by
      intro n
      have h3' : ((s.setS d (v s)).goto s.curPath.succ).curSlot.sregs = (s.setS d (v s)).curSlot.sregs := by
        rw [State.curSlot_setS]; exact h3
      simp only [State.sreg, Slot.sreg, h3']
    rw [this, State.sreg_setS]
  · exact h4.trans (by simp only [Slot.setS]; split <;> rfl)
  · exact h5.trans (by simp only [Slot.setS]; split <;> rfl)

end Sys2Proof.Laws
end

