-- ==== Sys2Proof/Laws/Encoding.lean ====
section
/-! SUPPORT. The encoding: fields of words, the tail forms, the code line that holds one instruction. -/

namespace Sys2Proof

theorem toNat_cat {n m : Nat} (x : BitVec n) (y : BitVec m) : (x ++ y).toNat = x.toNat * 2 ^ m + y.toNat := by
  rw [BitVec.toNat_append, ← Nat.shiftLeft_add_eq_or_of_lt y.isLt, Nat.shiftLeft_eq]
theorem toNat_bits {n : Nat} (x : BitVec n) (lo w : Nat) : (bits x lo w).toNat = x.toNat / 2 ^ lo % 2 ^ w := by
  simp [bits, Nat.shiftRight_eq_div_pow]
theorem field_eq {n : Nat} (x : BitVec n) (lo w : Nat) : field x lo w = x.toNat / 2 ^ lo % 2 ^ w := by
  simp [field, Nat.shiftRight_eq_div_pow]

/-- The number whose half-word `k` is `f k`, over `n` half-words. -/
def lineNat (f : Nat → Nat) : Nat → Nat
  | 0 => 0
  | n + 1 => lineNat f n + f n * 65536 ^ n
theorem lineNat_lt (f : Nat → Nat) (hf : ∀ k, f k < 65536) : ∀ n, lineNat f n < 65536 ^ n
  | 0 => by simp [lineNat]
  | n + 1 => by
    have := lineNat_lt f hf n
    have := hf n
    simp only [lineNat, Nat.pow_succ]
    nlinarith
theorem lineNat_digit (f : Nat → Nat) (hf : ∀ k, f k < 65536) : ∀ n k, k < n → lineNat f n / 65536 ^ k % 65536 = f k
  | 0, k, h => by omega
  | n + 1, k, h => by
    simp only [lineNat]
    rcases Nat.lt_succ_iff_lt_or_eq.1 h with h | h
    · have e : f n * 65536 ^ n = 65536 ^ k * (65536 * (f n * 65536 ^ (n - k - 1))) := by
        rw [show n = k + 1 + (n - k - 1) by omega, Nat.pow_add, Nat.pow_succ]
        simp only [show k + 1 + (n - k - 1) - k - 1 = n - k - 1 by omega]
        ring
      rw [e, Nat.add_mul_div_left _ _ (by positivity), Nat.add_mul_mod_self_left]
      exact lineNat_digit f hf n k h
    · subst h
      have := lineNat_lt f hf k
      rw [Nat.add_mul_div_right _ _ (by positivity), Nat.div_eq_of_lt this, Nat.zero_add, Nat.mod_eq_of_lt (hf k)]
theorem foldl_lineNat (f : Nat → Nat) (n : Nat) : (List.range n).foldl (fun acc k => acc + f k * 65536 ^ k) 0 = lineNat f n := by
  induction n with
  | zero => rfl
  | succ n ih => rw [List.range_succ, List.foldl_append, ih]; rfl

/-- Half-word `k` of the line that holds one instruction. -/
def lineHalf (h : Half) (t : Tail) (k : Nat) : Nat :=
  if k = 0 then 2048 + field h 8 2
  else if k = 1 then h.toNat
  else if k < 32 - field h 8 2 then 65535
  else field t (16 * (k - (32 - field h 8 2))) 16
theorem field_lt {n : Nat} (x : BitVec n) (lo w : Nat) : field x lo w < 2 ^ w := by
  rw [field_eq]; exact Nat.mod_lt _ (by positivity)
theorem lineHalf_lt (h : Half) (t : Tail) (k : Nat) : lineHalf h t k < 65536 := by
  unfold lineHalf
  have := field_lt h 8 2
  split
  · omega
  · split
    · exact h.isLt
    · split
      · omega
      · exact field_lt t _ 16
theorem lineHw_lineOf (h : Half) (t : Tail) (k : Nat) (hk : k < 32) : (lineHw (lineOf h t) k).toNat = lineHalf h t k := by
  have e : lineOf h t = BitVec.ofNat 512 (lineNat (lineHalf h t) 32) := by rw [← foldl_lineNat]; rfl
  have hlt : lineNat (lineHalf h t) 32 < 2 ^ 512 := by
    have := lineNat_lt (lineHalf h t) (lineHalf_lt h t) 32
    exact (show (65536 : Nat) ^ 32 = 2 ^ 512 from (Nat.pow_mul 2 16 32).symm) ▸ this
  have hd := lineNat_digit (lineHalf h t) (lineHalf_lt h t) 32 k hk
  rw [lineHw, toNat_bits, e, BitVec.toNat_ofNat, Nat.mod_eq_of_lt hlt, Nat.pow_mul]
  exact hd
/-- The head of the line that holds one instruction. -/
theorem lineHw_head (h : Half) (t : Tail) : lineHw (lineOf h t) 1 = h := by
  have e := lineHw_lineOf h t 1 (by omega)
  rw [lineHalf, if_neg (by omega), if_pos rfl] at e
  exact BitVec.eq_of_toNat_eq e
/-- Its tail. -/
theorem lineTail_lineOf (h : Half) (t : Tail) (ht : t.toNat < 65536 ^ field h 8 2) : lineTail (lineOf h t) 1 = t := by
  have hs : tailSum (lineOf h t) 1 = field h 8 2 := by
    simp only [tailSum, Nat.zero_add, lineHw_head]
  apply BitVec.eq_of_toNat_eq
  simp only [lineTail, lineHw_head, hs]
  have hlt := field_lt h 8 2
  have hw : ∀ j, j < field h 8 2 → (lineHw (lineOf h t) (32 - field h 8 2 + j)).toNat = field t (16 * j) 16 := by
    intro j hj
    rw [lineHw_lineOf _ _ _ (by omega), lineHalf, if_neg (by omega), if_neg (by omega), if_neg (by omega)]
    congr 2; omega
  have ht2 := t.isLt
  generalize hn : field h 8 2 = n at *
  rw [foldl_lineNat (fun j => (lineHw (lineOf h t) (32 - n + j)).toNat), BitVec.toNat_ofNat]
  generalize lineOf h t = L at *
  have hn4 : n = 0 ∨ n = 1 ∨ n = 2 ∨ n = 3 := by omega
  rcases hn4 with rfl | rfl | rfl | rfl
  · simp only [lineNat]; omega
  · have h0 := hw 0 (by omega)
    simp only [lineNat, h0, field_eq]; omega
  · have h0 := hw 0 (by omega); have h1 := hw 1 (by omega)
    simp only [lineNat, h0, h1, field_eq]; omega
  · have h0 := hw 0 (by omega); have h1 := hw 1 (by omega); have h2 := hw 2 (by omega)
    simp only [lineNat, h0, h1, h2, field_eq]; omega
/-- It is a legal line. -/
theorem lineReason_lineOf (h : Half) (t : Tail) : lineReason (lineOf h t) 1 = 0 := by
  have h0 := lineHw_lineOf h t 0 (by omega)
  simp only [lineHalf, if_true] at h0
  have hlt := field_lt h 8 2
  have hs : tailSum (lineOf h t) 1 = field h 8 2 := by
    simp only [tailSum, Nat.zero_add, lineHw_head]
  simp only [lineReason, field_eq (lineHw (lineOf h t) 0), h0]
  have e1 : (2048 + field h 8 2) / 2 ^ 11 % 2 ^ 5 = 1 := by omega
  have e2 : (2048 + field h 8 2) / 2 ^ 9 % 2 ^ 2 = 0 := by omega
  have e3 : (2048 + field h 8 2) / 2 ^ 0 % 2 ^ 9 = field h 8 2 := by omega
  simp only [e1, e2, e3, hs]
  simp
  omega

/-! The tail forms: reading the fields of a tail gives what was written there, and a tail stays within its half-words. -/

theorem F1.ofTail_toTail (o : F1) : F1.ofTail o.toTail = o := by
  obtain ⟨d, a, x⟩ := o
  have := d.isLt; have := a.isLt; have := x.isLt
  simp only [F1.ofTail, F1.toTail, F1.mk.injEq, ← BitVec.toNat_inj, toNat_bits, toNat_cat, BitVec.toNat_ofNat]
  omega
theorem F1.toTail_lt (o : F1) : o.toTail.toNat < 65536 ^ 1 := by
  obtain ⟨d, a, x⟩ := o
  have := d.isLt; have := a.isLt; have := x.isLt
  simp only [F1.toTail, toNat_cat, BitVec.toNat_ofNat]
  omega

theorem F2.ofTail_toTail (o : F2) : F2.ofTail o.toTail = o := by
  obtain ⟨d, a, b, c, x⟩ := o
  have := d.isLt; have := a.isLt; have := b.isLt; have := c.isLt; have := x.isLt
  simp only [F2.ofTail, F2.toTail, F2.mk.injEq, ← BitVec.toNat_inj, toNat_bits, toNat_cat, BitVec.toNat_ofNat]
  omega
theorem F2.toTail_lt (o : F2) : o.toTail.toNat < 65536 ^ 2 := by
  obtain ⟨d, a, b, c, x⟩ := o
  have := d.isLt; have := a.isLt; have := b.isLt; have := c.isLt; have := x.isLt
  simp only [F2.toTail, toNat_cat, BitVec.toNat_ofNat]
  omega

theorem F3.ofTail_toTail (o : F3) : F3.ofTail o.toTail = o := by
  obtain ⟨d, a, x, imm⟩ := o
  have := d.isLt; have := a.isLt; have := x.isLt; have := imm.isLt
  simp only [F3.ofTail, F3.toTail, F3.mk.injEq, ← BitVec.toNat_inj, toNat_bits, toNat_cat]
  omega
theorem F3.toTail_lt (o : F3) : o.toTail.toNat < 65536 ^ 3 := by
  exact o.toTail.isLt

theorem V3.ofTail_toTail (o : V3) : V3.ofTail o.toTail = o := by
  obtain ⟨vd, va, vb, vc, mask, ty, rnd, x⟩ := o
  have := vd.isLt; have := va.isLt; have := vb.isLt; have := vc.isLt; have := mask.isLt; have := ty.isLt; have := rnd.isLt; have := x.isLt
  simp only [V3.ofTail, V3.toTail, V3.mk.injEq, ← BitVec.toNat_inj, toNat_bits, toNat_cat]
  omega
theorem V3.toTail_lt (o : V3) : o.toTail.toNat < 65536 ^ 3 := by
  exact o.toTail.isLt

theorem B1.ofTail_toTail (o : B1) : B1.ofTail o.toTail = o := by
  obtain ⟨delta, head⟩ := o
  have := delta.isLt; have := head.isLt
  simp only [B1.ofTail, B1.toTail, B1.mk.injEq, ← BitVec.toNat_inj, toNat_bits, toNat_cat, BitVec.toNat_ofNat]
  omega
theorem B1.toTail_lt (o : B1) : o.toTail.toNat < 65536 ^ 1 := by
  obtain ⟨delta, head⟩ := o
  have := delta.isLt; have := head.isLt
  simp only [B1.toTail, toNat_cat, BitVec.toNat_ofNat]
  omega

theorem B2.ofTail_toTail (o : B2) : B2.ofTail o.toTail = o := by
  obtain ⟨a, b, delta, head⟩ := o
  have := a.isLt; have := b.isLt; have := delta.isLt; have := head.isLt
  simp only [B2.ofTail, B2.toTail, B2.mk.injEq, ← BitVec.toNat_inj, toNat_bits, toNat_cat, BitVec.toNat_ofNat]
  omega
theorem B2.toTail_lt (o : B2) : o.toTail.toNat < 65536 ^ 2 := by
  obtain ⟨a, b, delta, head⟩ := o
  have := a.isLt; have := b.isLt; have := delta.isLt; have := head.isLt
  simp only [B2.toTail, toNat_cat, BitVec.toNat_ofNat]
  omega

theorem D3.ofTail_toTail (o : D3) : D3.ofTail o.toTail = o := by
  obtain ⟨mask, x, delta, head, jdelta, jhead⟩ := o
  have := mask.isLt; have := x.isLt; have := delta.isLt; have := head.isLt; have := jdelta.isLt; have := jhead.isLt
  simp only [D3.ofTail, D3.toTail, D3.mk.injEq, ← BitVec.toNat_inj, toNat_bits, toNat_cat]
  omega
theorem D3.toTail_lt (o : D3) : o.toTail.toNat < 65536 ^ 3 := by
  exact o.toTail.isLt

theorem M3.ofTail_toTail (o : M3) : M3.ofTail o.toTail = o := by
  obtain ⟨data, base, idx, form, scope, order, ty, mode, off⟩ := o
  have := data.isLt; have := base.isLt; have := idx.isLt; have := form.isLt; have := scope.isLt; have := order.isLt; have := ty.isLt; have := mode.isLt; have := off.isLt
  simp only [M3.ofTail, M3.toTail, M3.mk.injEq, ← BitVec.toNat_inj, toNat_bits, toNat_cat]
  omega
theorem M3.toTail_lt (o : M3) : o.toTail.toNat < 65536 ^ 3 := by
  exact o.toTail.isLt

end Sys2Proof
end

