-- ==== Sys2Proof/Laws/Memory.lean ====
section
/-! SUPPORT. The bytes of memory: a read after a write, what a write leaves, and that every operation on memory, on the F/E bits
and on poison keeps the canonical form. -/

namespace Sys2Proof.Machine

variable (s : State)

/-! A read after a write. -/

@[simp] theorem State.byte_setByte (loc j : Nat) (v : Byte) :
    (s.setByte loc v).byte j = if j = loc then v else s.byte j := by
  simp only [State.byte, State.setByte, Table.get_put]

theorem State.byte_writeN (n : Nat) : ∀ (s : State) (loc v j : Nat),
    (s.writeN loc n v).byte j =
      if loc ≤ j ∧ j < loc + n then BitVec.ofNat 8 (v / 256 ^ (j - loc)) else s.byte j := by
  induction n with
  | zero => intro s loc v j; simp [State.writeN]
  | succ n ih =>
    intro s loc v j
    simp only [State.writeN, ih, State.byte_setByte]
    by_cases hj : j = loc
    · subst hj
      simp
    · by_cases hr : loc + 1 ≤ j ∧ j < loc + 1 + n
      · have h2 : loc ≤ j ∧ j < loc + (n + 1) := by omega
        have e : j - loc = j - (loc + 1) + 1 := by omega
        simp only [hr, h2, and_self, if_true]
        rw [e, Nat.pow_succ, Nat.mul_comm, Nat.div_div_eq_div_mul]
      · have h2 : ¬ (loc ≤ j ∧ j < loc + (n + 1)) := by omega
        rw [if_neg hr, if_neg h2, if_neg hj]

/-- A write leaves every byte outside it. -/
theorem State.byte_writeN_other (loc n v j : Nat) (h : j < loc ∨ loc + n ≤ j) : (s.writeN loc n v).byte j = s.byte j := by
  rw [State.byte_writeN, if_neg]; omega

theorem State.readN_congr {s t : State} (n : Nat) : ∀ loc, (∀ j, loc ≤ j → j < loc + n → t.byte j = s.byte j) →
    t.readN loc n = s.readN loc n := by
  induction n with
  | zero => intro loc _; rfl
  | succ n ih =>
    intro loc h
    simp only [State.readN]
    rw [h loc (by omega) (by omega), ih (loc + 1) fun j h1 h2 => h j (by omega) (by omega)]

/-- What was written reads back. -/
theorem State.readN_writeN (n : Nat) : ∀ (s : State) (loc v : Nat), (s.writeN loc n v).readN loc n = v % 256 ^ n := by
  induction n with
  | zero => intro s loc v; simp [State.readN, Nat.mod_one]
  | succ n ih =>
    intro s loc v
    simp only [State.readN, State.writeN]
    rw [ih, State.byte_writeN_other _ _ _ _ _ (by omega)]
    simp only [State.byte_setByte, if_true, BitVec.toNat_ofNat]
    rw [show 2 ^ 8 = 256 from rfl, Nat.add_comm n 1, Nat.pow_add, Nat.pow_one, Nat.mod_mul]

/-- A word of 64 bits reads back. -/
@[simp] theorem State.read64_write64 (loc : Nat) (v : Word) : (s.write64 loc v).read64 loc = v := by
  simp only [State.read64, State.write64, State.readN_writeN]
  have : v.toNat < 256 ^ 8 := v.isLt
  rw [Nat.mod_eq_of_lt this]; simp

/-- A write of memory changes memory only. -/
theorem State.writeN_frame (n : Nat) : ∀ (s : State) (loc v : Nat), { s.writeN loc n v with mem := s.mem } = s := by
  induction n with
  | zero => intro s loc v; rfl
  | succ n ih =>
    intro s loc v
    have h := ih (s.setByte loc (BitVec.ofNat 8 v)) (loc + 1) (v / 256)
    simp only [State.writeN]
    have h' := congrArg (fun t : State => { t with mem := s.mem }) h
    exact h'

@[simp] theorem State.full_setFull (loc j : Nat) (b : Bool) :
    (s.setFull loc b).full j = if j / 8 = loc / 8 then b else s.full j := by
  simp only [State.full, State.setFull, NatSet.contains_setTo]
  split <;> simp

/-! The canonical form. -/

theorem Memory.wfFrom_iff : ∀ (m : List Host.Cell) (lo : Nat),
    Memory.wfFrom lo m = true ↔ (∀ e ∈ m, lo ≤ e.1) ∧ Table.Rising m ∧ ∀ e ∈ m, e.2 ≠ 0
  | [], lo => by simp [Memory.wfFrom, Table.Rising]
  | (a, v) :: t, lo => by
    simp only [Memory.wfFrom, Bool.and_eq_true, decide_eq_true_eq, Memory.wfFrom_iff t, Table.Rising,
      List.pairwise_cons, List.mem_cons, forall_eq_or_imp]
    constructor
    · rintro ⟨⟨h1, h2⟩, h3, h4, h5⟩
      exact ⟨⟨h1, fun e he => by have := h3 e he; omega⟩, ⟨fun e he => by have := h3 e he; omega, h4⟩, h2, h5⟩
    · rintro ⟨⟨h1, h3⟩, ⟨h6, h4⟩, h2, h5⟩
      exact ⟨⟨h1, h2⟩, fun e he => by have := h6 e he; omega, h4, h5⟩

theorem Memory.wf_iff (m : List Host.Cell) : Memory.wf m = true ↔ Table.Rising m ∧ ∀ e ∈ m, e.2 ≠ 0 := by
  simp [Memory.wf, Memory.wfFrom_iff]

theorem NatSet.wfFrom_iff : ∀ (m : NatSet) (lo : Nat),
    NatSet.wfFrom lo m = true ↔ (∀ a ∈ m, lo ≤ a) ∧ NatSet.Rising m
  | [], lo => by simp [NatSet.wfFrom, NatSet.Rising]
  | a :: t, lo => by
    simp only [NatSet.wfFrom, Bool.and_eq_true, decide_eq_true_eq, NatSet.wfFrom_iff t, NatSet.Rising,
      List.pairwise_cons, List.mem_cons, forall_eq_or_imp]
    constructor
    · rintro ⟨h1, h3, h4⟩
      exact ⟨⟨h1, fun e he => by have := h3 e he; omega⟩, fun e he => by have := h3 e he; omega, h4⟩
    · rintro ⟨⟨h1, h3⟩, h6, h4⟩
      exact ⟨h1, fun e he => by have := h6 e he; omega, h4⟩

theorem NatSet.wf_iff (m : NatSet) : NatSet.wf m = true ↔ NatSet.Rising m := by
  simp [NatSet.wf, NatSet.wfFrom_iff]

theorem NatSet.wf_setTo {m : NatSet} (h : NatSet.wf m = true) (k : Nat) (b : Bool) : NatSet.wf (NatSet.setTo m k b) = true := by
  rw [NatSet.wf_iff] at *; exact h.setTo k b

theorem memoryOk_iff : s.memoryOk = true ↔ Memory.wf s.mem = true ∧ NatSet.wf s.empties = true ∧ NatSet.wf s.poison = true := by
  simp [State.memoryOk, and_assoc]

/-- Whatever leaves memory and the sets over it as they are keeps their form. -/
theorem memoryOk_congr {s t : State} (h : s.memoryOk = true) (h1 : t.mem = s.mem) (h2 : t.empties = s.empties)
    (h3 : t.poison = s.poison) : t.memoryOk = true := by
  rw [memoryOk_iff] at *; rw [h1, h2, h3]; exact h

variable {s}

theorem memoryOk_setByte (h : s.memoryOk = true) (loc : Nat) (v : Byte) : (s.setByte loc v).memoryOk = true := by
  rw [memoryOk_iff] at *
  refine ⟨?_, h.2⟩
  have hm := (Memory.wf_iff _).1 h.1
  exact (Memory.wf_iff _).2 ⟨hm.1.put 0 loc v, Table.put_ne 0 hm.2 loc v⟩

theorem memoryOk_writeN (n : Nat) : ∀ {s : State}, s.memoryOk = true → ∀ loc v, (s.writeN loc n v).memoryOk = true := by
  induction n with
  | zero => intro s h loc v; exact h
  | succ n ih => intro s h loc v; exact ih (memoryOk_setByte h _ _) _ _

theorem memoryOk_write64 (h : s.memoryOk = true) (loc : Nat) (v : Word) : (s.write64 loc v).memoryOk = true :=
  memoryOk_writeN 8 h _ _

theorem memoryOk_setFull (h : s.memoryOk = true) (loc : Nat) (b : Bool) : (s.setFull loc b).memoryOk = true := by
  rw [memoryOk_iff] at *
  exact ⟨h.1, NatSet.wf_setTo h.2.1 _ _, h.2.2⟩

theorem memoryOk_setPoison (h : s.memoryOk = true) (loc : Nat) (b : Bool) : (s.setPoison loc b).memoryOk = true := by
  rw [memoryOk_iff] at *
  refine ⟨h.1, h.2.1, ?_⟩
  simp only [State.setPoison]
  generalize hm : s.poison = m
  have hw : NatSet.wf m = true := hm ▸ h.2.2
  clear hm h
  induction poisonUnit loc generalizing m with
  | nil => exact hw
  | cons a t ih => exact ih _ (NatSet.wf_setTo hw _ _)

theorem memoryOk_writeWord (h : s.memoryOk = true) (loc : Nat) (v : Word) : (s.writeWord loc v).memoryOk = true := by
  unfold State.writeWord
  split
  · exact memoryOk_setPoison (memoryOk_setFull (memoryOk_write64 h _ _) _ _) _ _
  · exact memoryOk_write64 h _ _

/-- A fold of updates that keep the form keeps it. -/
theorem memoryOk_foldl {α : Type} {f : State → α → State} (hf : ∀ s x, s.memoryOk = true → (f s x).memoryOk = true)
    (l : List α) : ∀ {s : State}, s.memoryOk = true → (l.foldl f s).memoryOk = true := by
  induction l with
  | nil => intro s h; exact h
  | cons a t ih => intro s h; exact ih (hf _ _ h)

theorem memoryOk_storeAt (h : s.memoryOk = true) {loc n : Nat} {v : Word} {t : State} (e : s.storeAt loc n v = some t) :
    t.memoryOk = true := by
  unfold State.storeAt at e
  split at e
  · split at e
    · cases e; exact memoryOk_writeWord h _ _
    · cases e
  · cases e; exact memoryOk_writeN n h _ _

theorem memoryOk_copyPiece (h : s.memoryOk = true) {loc n : Nat} {v : Word} {full : Option Bool} {poison whole : Bool}
    {t : State} (e : s.copyPiece loc n v full poison whole = some t) : t.memoryOk = true := by
  unfold State.copyPiece at e
  simp only at e
  split at e
  · cases e
  · cases e
    have h1 : ∀ b : Bool, (if b then (poisonUnit loc).foldl (fun s w => s.setFull (8 * w) true) (s.setPoison loc false) else s).memoryOk
        = true := by
      intro b; split
      · exact memoryOk_foldl (fun s x hs => memoryOk_setFull hs _ _) _ (memoryOk_setPoison h _ _)
      · exact h
    have h2 := memoryOk_writeN n (h1 (s.poisonedIn loc n)) loc v.toNat
    cases full with
    | none => simp only; split <;> first | exact memoryOk_setPoison h2 _ _ | exact h2
    | some b =>
      simp only
      split <;> split <;>
        first | exact memoryOk_setPoison h2 _ _ | exact memoryOk_setPoison (memoryOk_setFull h2 _ _) _ _ | exact h2
              | exact memoryOk_setFull h2 _ _

/-- Memory after reset lists nothing. -/
theorem memoryOk_reset : State.reset.memoryOk = true := rfl

end Sys2Proof.Machine
end

