-- ==== Sys2Proof/Laws/PerInstr.lean ====
section
/-! SUPPORT. The family RoundTrip: what each instruction encodes to decodes to it, and its tail stays within its half-words. -/

namespace Sys2Proof.Laws

/-- A head and a tail decode to an instruction. -/
theorem decodeRaw_of {h : Half} {t : Tail} {n : Nat} {mk : Tail → Instr} {i : Instr}
    (ho : opcode (bits h 10 6) (bits h 0 8) = .ok (n, mk)) (hn : field h 8 2 = n) (hi : mk t = i) : decodeRaw h t = .ok i := by
  simp [decodeRaw, ho, hn, hi]

/-- What a well-formed instruction encodes to decodes to it, and the tail has no bit above its half-words. -/
def RoundTrip.Statement (i : Instr) : Prop :=
  ∀ h t, wellFormed i = true → encode i = some (h, t) → decodeRaw h t = .ok i ∧ t.toNat < 65536 ^ field h 8 2

/-- Major 0x28. -/
theorem opcode_28 (fn : BitVec 8) :
    opcode 0x28#6 fn = (match minor28 fn with | some x => .ok x | none => .error .reservedMinor) := rfl

/-- An instruction of a fixed head. -/
theorem RoundTrip.of_checked {i : Instr} {h : Half} {t : Tail} {mk : Tail → Instr} {n : Nat} (e : encode i = some (h, t))
    (ho : opcode (bits h 10 6) (bits h 0 8) = .ok (n, mk)) (hn : field h 8 2 = n) (hi : wellFormed i = true → mk t = i)
    (hlt : t.toNat < 65536 ^ n) : RoundTrip.Statement i := by
  intro h' t' hw e'
  rw [e] at e'
  cases e'
  exact ⟨decodeRaw_of ho hn (hi hw), hn ▸ hlt⟩
theorem RoundTrip.of_fixed {i : Instr} {h : Half} {t : Tail} {mk : Tail → Instr} {n : Nat} (e : encode i = some (h, t))
    (ho : opcode (bits h 10 6) (bits h 0 8) = .ok (n, mk)) (hn : field h 8 2 = n) (hi : mk t = i)
    (hlt : t.toNat < 65536 ^ n) : RoundTrip.Statement i :=
  of_checked e ho hn (fun _ => hi) hlt

theorem and_true_left {a b : Bool} (h : (a && b) = true) : a = true := by simp_all

/-- A `slot` names its operation. -/
theorem slot_names {o : F2} {op : Nat} {a c idx : Bool} (h : slotOk o op a c idx = true) : field o.x 0 4 = op := by
  simp only [slotOk, Bool.and_eq_true, decide_eq_true_eq] at h
  exact h.1.1.1.1

/-- The low bits of a tail of form F2 are those of its x field. -/
theorem F2.field_toTail_0_10 (o : F2) : field o.toTail 0 10 = field o.x 0 10 := by
  obtain ⟨d, a, b, c, x⟩ := o
  simp only [F2.toTail, field_eq, toNat_cat]; omega
theorem F2.field_toTail_0_4 (o : F2) : field o.toTail 0 4 = field o.x 0 4 := by
  obtain ⟨d, a, b, c, x⟩ := o
  simp only [F2.toTail, field_eq, toNat_cat]; omega

/-- A step of the device has no encoding. -/
theorem RoundTrip.of_none {i : Instr} (e : encode i = none) : RoundTrip.Statement i := by
  intro h t _ e'; rw [e] at e'; cases e'

theorem RoundTrip.nop : RoundTrip.Statement .nop := of_fixed (mk := fun _ => .nop) rfl rfl rfl rfl (by decide)
theorem RoundTrip.yield : RoundTrip.Statement .yield := of_fixed (mk := fun _ => .yield) rfl rfl rfl rfl (by decide)
theorem RoundTrip.endGroup : RoundTrip.Statement .endGroup := of_fixed (mk := fun _ => .endGroup) rfl rfl rfl rfl (by decide)
theorem RoundTrip.done : RoundTrip.Statement .done := of_fixed (mk := fun _ => .done) rfl rfl rfl rfl (by decide)
theorem RoundTrip.join : RoundTrip.Statement .join := of_fixed (mk := fun _ => .join) rfl rfl rfl rfl (by decide)
theorem RoundTrip.ifence : RoundTrip.Statement .ifence := of_fixed (mk := fun _ => .ifence) rfl rfl rfl rfl (by decide)
theorem RoundTrip.uret : RoundTrip.Statement .uret := of_fixed (mk := fun _ => .uret) rfl rfl rfl rfl (by decide)
theorem RoundTrip.eret : RoundTrip.Statement .eret := of_fixed (mk := fun _ => .eret) rfl rfl rfl rfl (by decide)
theorem RoundTrip.movc (o : F1) : RoundTrip.Statement (.movc o) :=
  of_fixed (n := 1) (mk := fun t => .movc (F1.ofTail t)) rfl rfl rfl (congrArg Instr.movc o.ofTail_toTail) o.toTail_lt
theorem RoundTrip.addc (o : F1) : RoundTrip.Statement (.addc o) :=
  of_fixed (n := 1) (mk := fun t => .addc (F1.ofTail t)) rfl rfl rfl (congrArg Instr.addc o.ofTail_toTail) o.toTail_lt
theorem RoundTrip.add (o : F2) : RoundTrip.Statement (.add o) :=
  of_fixed (n := 2) (mk := fun t => .add (F2.ofTail t)) rfl rfl rfl (congrArg Instr.add o.ofTail_toTail) o.toTail_lt
theorem RoundTrip.sub (o : F2) : RoundTrip.Statement (.sub o) :=
  of_fixed (n := 2) (mk := fun t => .sub (F2.ofTail t)) rfl rfl rfl (congrArg Instr.sub o.ofTail_toTail) o.toTail_lt
theorem RoundTrip.and (o : F2) : RoundTrip.Statement (.and o) :=
  of_fixed (n := 2) (mk := fun t => .and (F2.ofTail t)) rfl rfl rfl (congrArg Instr.and o.ofTail_toTail) o.toTail_lt
theorem RoundTrip.or (o : F2) : RoundTrip.Statement (.or o) :=
  of_fixed (n := 2) (mk := fun t => .or (F2.ofTail t)) rfl rfl rfl (congrArg Instr.or o.ofTail_toTail) o.toTail_lt
theorem RoundTrip.xor (o : F2) : RoundTrip.Statement (.xor o) :=
  of_fixed (n := 2) (mk := fun t => .xor (F2.ofTail t)) rfl rfl rfl (congrArg Instr.xor o.ofTail_toTail) o.toTail_lt
theorem RoundTrip.andn (o : F2) : RoundTrip.Statement (.andn o) :=
  of_fixed (n := 2) (mk := fun t => .andn (F2.ofTail t)) rfl rfl rfl (congrArg Instr.andn o.ofTail_toTail) o.toTail_lt
theorem RoundTrip.shl (o : F2) : RoundTrip.Statement (.shl o) :=
  of_fixed (n := 2) (mk := fun t => .shl (F2.ofTail t)) rfl rfl rfl (congrArg Instr.shl o.ofTail_toTail) o.toTail_lt
theorem RoundTrip.shr (o : F2) : RoundTrip.Statement (.shr o) :=
  of_fixed (n := 2) (mk := fun t => .shr (F2.ofTail t)) rfl rfl rfl (congrArg Instr.shr o.ofTail_toTail) o.toTail_lt
theorem RoundTrip.sar (o : F2) : RoundTrip.Statement (.sar o) :=
  of_fixed (n := 2) (mk := fun t => .sar (F2.ofTail t)) rfl rfl rfl (congrArg Instr.sar o.ofTail_toTail) o.toTail_lt
theorem RoundTrip.rol (o : F2) : RoundTrip.Statement (.rol o) :=
  of_fixed (n := 2) (mk := fun t => .rol (F2.ofTail t)) rfl rfl rfl (congrArg Instr.rol o.ofTail_toTail) o.toTail_lt
theorem RoundTrip.min (o : F2) : RoundTrip.Statement (.min o) :=
  of_fixed (n := 2) (mk := fun t => .min (F2.ofTail t)) rfl rfl rfl (congrArg Instr.min o.ofTail_toTail) o.toTail_lt
theorem RoundTrip.max (o : F2) : RoundTrip.Statement (.max o) :=
  of_fixed (n := 2) (mk := fun t => .max (F2.ofTail t)) rfl rfl rfl (congrArg Instr.max o.ofTail_toTail) o.toTail_lt
theorem RoundTrip.mul (o : F2) : RoundTrip.Statement (.mul o) :=
  of_fixed (n := 2) (mk := fun t => .mul (F2.ofTail t)) rfl rfl rfl (congrArg Instr.mul o.ofTail_toTail) o.toTail_lt
theorem RoundTrip.mulh (o : F2) : RoundTrip.Statement (.mulh o) :=
  of_fixed (n := 2) (mk := fun t => .mulh (F2.ofTail t)) rfl rfl rfl (congrArg Instr.mulh o.ofTail_toTail) o.toTail_lt
theorem RoundTrip.div (o : F2) : RoundTrip.Statement (.div o) :=
  of_fixed (n := 2) (mk := fun t => .div (F2.ofTail t)) rfl rfl rfl (congrArg Instr.div o.ofTail_toTail) o.toTail_lt
theorem RoundTrip.rem (o : F2) : RoundTrip.Statement (.rem o) :=
  of_fixed (n := 2) (mk := fun t => .rem (F2.ofTail t)) rfl rfl rfl (congrArg Instr.rem o.ofTail_toTail) o.toTail_lt
theorem RoundTrip.sel (o : F2) : RoundTrip.Statement (.sel o) :=
  of_fixed (n := 2) (mk := fun t => .sel (F2.ofTail t)) rfl rfl rfl (congrArg Instr.sel o.ofTail_toTail) o.toTail_lt
theorem RoundTrip.cmp (o : F2) : RoundTrip.Statement (.cmp o) :=
  of_fixed (n := 2) (mk := fun t => .cmp (F2.ofTail t)) rfl rfl rfl (congrArg Instr.cmp o.ofTail_toTail) o.toTail_lt
theorem RoundTrip.clz (o : F2) : RoundTrip.Statement (.clz o) :=
  of_fixed (n := 2) (mk := fun t => .clz (F2.ofTail t)) rfl rfl rfl (congrArg Instr.clz o.ofTail_toTail) o.toTail_lt
theorem RoundTrip.ctz (o : F2) : RoundTrip.Statement (.ctz o) :=
  of_fixed (n := 2) (mk := fun t => .ctz (F2.ofTail t)) rfl rfl rfl (congrArg Instr.ctz o.ofTail_toTail) o.toTail_lt
theorem RoundTrip.popc (o : F2) : RoundTrip.Statement (.popc o) :=
  of_fixed (n := 2) (mk := fun t => .popc (F2.ofTail t)) rfl rfl rfl (congrArg Instr.popc o.ofTail_toTail) o.toTail_lt
theorem RoundTrip.bext (o : F2) : RoundTrip.Statement (.bext o) :=
  of_fixed (n := 2) (mk := fun t => .bext (F2.ofTail t)) rfl rfl rfl (congrArg Instr.bext o.ofTail_toTail) o.toTail_lt
theorem RoundTrip.bins (o : F2) : RoundTrip.Statement (.bins o) :=
  of_fixed (n := 2) (mk := fun t => .bins (F2.ofTail t)) rfl rfl rfl (congrArg Instr.bins o.ofTail_toTail) o.toTail_lt
theorem RoundTrip.li (o : F3) : RoundTrip.Statement (.li o) :=
  of_fixed (n := 3) (mk := fun t => .li (F3.ofTail t)) rfl rfl rfl (congrArg Instr.li o.ofTail_toTail) o.toTail_lt
theorem RoundTrip.lih (o : F3) : RoundTrip.Statement (.lih o) :=
  of_fixed (n := 3) (mk := fun t => .lih (F3.ofTail t)) rfl rfl rfl (congrArg Instr.lih o.ofTail_toTail) o.toTail_lt
theorem RoundTrip.addi (o : F3) : RoundTrip.Statement (.addi o) :=
  of_fixed (n := 3) (mk := fun t => .addi (F3.ofTail t)) rfl rfl rfl (congrArg Instr.addi o.ofTail_toTail) o.toTail_lt
theorem RoundTrip.andi (o : F3) : RoundTrip.Statement (.andi o) :=
  of_fixed (n := 3) (mk := fun t => .andi (F3.ofTail t)) rfl rfl rfl (congrArg Instr.andi o.ofTail_toTail) o.toTail_lt
theorem RoundTrip.ori (o : F3) : RoundTrip.Statement (.ori o) :=
  of_fixed (n := 3) (mk := fun t => .ori (F3.ofTail t)) rfl rfl rfl (congrArg Instr.ori o.ofTail_toTail) o.toTail_lt
theorem RoundTrip.xori (o : F3) : RoundTrip.Statement (.xori o) :=
  of_fixed (n := 3) (mk := fun t => .xori (F3.ofTail t)) rfl rfl rfl (congrArg Instr.xori o.ofTail_toTail) o.toTail_lt
theorem RoundTrip.shli (o : F3) : RoundTrip.Statement (.shli o) :=
  of_fixed (n := 3) (mk := fun t => .shli (F3.ofTail t)) rfl rfl rfl (congrArg Instr.shli o.ofTail_toTail) o.toTail_lt
theorem RoundTrip.shri (o : F3) : RoundTrip.Statement (.shri o) :=
  of_fixed (n := 3) (mk := fun t => .shri (F3.ofTail t)) rfl rfl rfl (congrArg Instr.shri o.ofTail_toTail) o.toTail_lt
theorem RoundTrip.sari (o : F3) : RoundTrip.Statement (.sari o) :=
  of_fixed (n := 3) (mk := fun t => .sari (F3.ofTail t)) rfl rfl rfl (congrArg Instr.sari o.ofTail_toTail) o.toTail_lt
theorem RoundTrip.cmpi (o : F3) : RoundTrip.Statement (.cmpi o) :=
  of_fixed (n := 3) (mk := fun t => .cmpi (F3.ofTail t)) rfl rfl rfl (congrArg Instr.cmpi o.ofTail_toTail) o.toTail_lt
theorem RoundTrip.muli (o : F3) : RoundTrip.Statement (.muli o) :=
  of_fixed (n := 3) (mk := fun t => .muli (F3.ofTail t)) rfl rfl rfl (congrArg Instr.muli o.ofTail_toTail) o.toTail_lt
theorem RoundTrip.sid (o : F2) : RoundTrip.Statement (.sid o) :=
  of_fixed (n := 2) (mk := fun t => .sid (F2.ofTail t)) rfl rfl rfl (congrArg Instr.sid o.ofTail_toTail) o.toTail_lt
theorem RoundTrip.addr (o : F3) : RoundTrip.Statement (.addr o) :=
  of_fixed (n := 3) (mk := fun t => .addr (F3.ofTail t)) rfl rfl rfl (congrArg Instr.addr o.ofTail_toTail) o.toTail_lt
theorem RoundTrip.fadd (o : F2) : RoundTrip.Statement (.fadd o) :=
  of_fixed (n := 2) (mk := fun t => .fadd (F2.ofTail t)) rfl rfl rfl (congrArg Instr.fadd o.ofTail_toTail) o.toTail_lt
theorem RoundTrip.fsub (o : F2) : RoundTrip.Statement (.fsub o) :=
  of_fixed (n := 2) (mk := fun t => .fsub (F2.ofTail t)) rfl rfl rfl (congrArg Instr.fsub o.ofTail_toTail) o.toTail_lt
theorem RoundTrip.fmul (o : F2) : RoundTrip.Statement (.fmul o) :=
  of_fixed (n := 2) (mk := fun t => .fmul (F2.ofTail t)) rfl rfl rfl (congrArg Instr.fmul o.ofTail_toTail) o.toTail_lt
theorem RoundTrip.fma (o : F2) : RoundTrip.Statement (.fma o) :=
  of_fixed (n := 2) (mk := fun t => .fma (F2.ofTail t)) rfl rfl rfl (congrArg Instr.fma o.ofTail_toTail) o.toTail_lt
theorem RoundTrip.fdiv (o : F2) : RoundTrip.Statement (.fdiv o) :=
  of_fixed (n := 2) (mk := fun t => .fdiv (F2.ofTail t)) rfl rfl rfl (congrArg Instr.fdiv o.ofTail_toTail) o.toTail_lt
theorem RoundTrip.fsqrt (o : F2) : RoundTrip.Statement (.fsqrt o) :=
  of_fixed (n := 2) (mk := fun t => .fsqrt (F2.ofTail t)) rfl rfl rfl (congrArg Instr.fsqrt o.ofTail_toTail) o.toTail_lt
theorem RoundTrip.fmin (o : F2) : RoundTrip.Statement (.fmin o) :=
  of_fixed (n := 2) (mk := fun t => .fmin (F2.ofTail t)) rfl rfl rfl (congrArg Instr.fmin o.ofTail_toTail) o.toTail_lt
theorem RoundTrip.fmax (o : F2) : RoundTrip.Statement (.fmax o) :=
  of_fixed (n := 2) (mk := fun t => .fmax (F2.ofTail t)) rfl rfl rfl (congrArg Instr.fmax o.ofTail_toTail) o.toTail_lt
theorem RoundTrip.fcmp (o : F2) : RoundTrip.Statement (.fcmp o) :=
  of_fixed (n := 2) (mk := fun t => .fcmp (F2.ofTail t)) rfl rfl rfl (congrArg Instr.fcmp o.ofTail_toTail) o.toTail_lt
theorem RoundTrip.fcvt (o : F2) : RoundTrip.Statement (.fcvt o) :=
  of_fixed (n := 2) (mk := fun t => .fcvt (F2.ofTail t)) rfl rfl rfl (congrArg Instr.fcvt o.ofTail_toTail) o.toTail_lt
theorem RoundTrip.fclass (o : F2) : RoundTrip.Statement (.fclass o) :=
  of_fixed (n := 2) (mk := fun t => .fclass (F2.ofTail t)) rfl rfl rfl (congrArg Instr.fclass o.ofTail_toTail) o.toTail_lt
theorem RoundTrip.br (o : B1) : RoundTrip.Statement (.br o) :=
  of_fixed (n := 1) (mk := fun t => .br (B1.ofTail t)) rfl rfl rfl (congrArg Instr.br o.ofTail_toTail) o.toTail_lt
theorem RoundTrip.call (o : B1) : RoundTrip.Statement (.call o) :=
  of_fixed (n := 1) (mk := fun t => .call (B1.ofTail t)) rfl rfl rfl (congrArg Instr.call o.ofTail_toTail) o.toTail_lt
theorem RoundTrip.bc (cond : BitVec 4) (o : B2) : RoundTrip.Statement (.bc cond o) := by
  have h1 : bits (headOf 7 2 cond.toNat) 10 6 = 7#6 := by revert cond; decide
  have h2 : bits (headOf 7 2 cond.toNat) 0 8 < 16#8 := by revert cond; decide
  have h3 : bits (bits (headOf 7 2 cond.toNat) 0 8) 0 4 = cond := by revert cond; decide
  have ho : ∀ fn : BitVec 8, opcode 7#6 fn = (match minor07 fn with | some x => .ok x | none => .error .reservedMinor) :=
    fun _ => rfl
  refine of_fixed (n := 2) (mk := fun t => .bc cond (B2.ofTail t)) rfl ?_ (by revert cond; decide)
    (congrArg (Instr.bc cond) o.ofTail_toTail) o.toTail_lt
  rw [h1, ho, minor07, if_pos h2, h3]
theorem RoundTrip.loop (o : B2) : RoundTrip.Statement (.loop o) :=
  of_fixed (n := 2) (mk := fun t => .loop (B2.ofTail t)) rfl rfl rfl (congrArg Instr.loop o.ofTail_toTail) o.toTail_lt
theorem RoundTrip.jr (o : F2) : RoundTrip.Statement (.jr o) :=
  of_fixed (n := 2) (mk := fun t => .jr (F2.ofTail t)) rfl rfl rfl (congrArg Instr.jr o.ofTail_toTail) o.toTail_lt
theorem RoundTrip.callr (o : F2) : RoundTrip.Statement (.callr o) :=
  of_fixed (n := 2) (mk := fun t => .callr (F2.ofTail t)) rfl rfl rfl (congrArg Instr.callr o.ofTail_toTail) o.toTail_lt
theorem RoundTrip.ret (o : F2) : RoundTrip.Statement (.ret o) :=
  of_fixed (n := 2) (mk := fun t => .ret (F2.ofTail t)) rfl rfl rfl (congrArg Instr.ret o.ofTail_toTail) o.toTail_lt
theorem RoundTrip.brd (o : D3) : RoundTrip.Statement (.brd o) :=
  of_fixed (n := 3) (mk := fun t => .brd (D3.ofTail t)) rfl rfl rfl (congrArg Instr.brd o.ofTail_toTail) o.toTail_lt
theorem RoundTrip.trap (code : BitVec 8) (o : F1) : RoundTrip.Statement (.trap code o) := by
  have h1 : bits (headOf 10 1 code.toNat) 10 6 = 10#6 := by revert code; decide
  have h2 : bits (headOf 10 1 code.toNat) 0 8 = code := by revert code; decide
  refine of_fixed (mk := fun t => .trap code (F1.ofTail t)) rfl ?_ ?_ (congrArg (Instr.trap code) o.ofTail_toTail) o.toTail_lt
  · rw [h1, h2]; rfl
  · revert code; decide
theorem RoundTrip.coreResetRelease : RoundTrip.Statement .coreResetRelease := of_none rfl
theorem RoundTrip.trapEventEntry : RoundTrip.Statement .trapEventEntry := of_none rfl
theorem RoundTrip.userInterruptEntry : RoundTrip.Statement .userInterruptEntry := of_none rfl
theorem RoundTrip.vadd (o : V3) : RoundTrip.Statement (.vadd o) :=
  of_fixed (n := 3) (mk := fun t => .vadd (V3.ofTail t)) rfl rfl rfl (congrArg Instr.vadd o.ofTail_toTail) o.toTail_lt
theorem RoundTrip.vsub (o : V3) : RoundTrip.Statement (.vsub o) :=
  of_fixed (n := 3) (mk := fun t => .vsub (V3.ofTail t)) rfl rfl rfl (congrArg Instr.vsub o.ofTail_toTail) o.toTail_lt
theorem RoundTrip.vmul (o : V3) : RoundTrip.Statement (.vmul o) :=
  of_fixed (n := 3) (mk := fun t => .vmul (V3.ofTail t)) rfl rfl rfl (congrArg Instr.vmul o.ofTail_toTail) o.toTail_lt
theorem RoundTrip.vmulh (o : V3) : RoundTrip.Statement (.vmulh o) :=
  of_fixed (n := 3) (mk := fun t => .vmulh (V3.ofTail t)) rfl rfl rfl (congrArg Instr.vmulh o.ofTail_toTail) o.toTail_lt
theorem RoundTrip.vfma (o : V3) : RoundTrip.Statement (.vfma o) :=
  of_fixed (n := 3) (mk := fun t => .vfma (V3.ofTail t)) rfl rfl rfl (congrArg Instr.vfma o.ofTail_toTail) o.toTail_lt
theorem RoundTrip.vmin (o : V3) : RoundTrip.Statement (.vmin o) :=
  of_fixed (n := 3) (mk := fun t => .vmin (V3.ofTail t)) rfl rfl rfl (congrArg Instr.vmin o.ofTail_toTail) o.toTail_lt
theorem RoundTrip.vmax (o : V3) : RoundTrip.Statement (.vmax o) :=
  of_fixed (n := 3) (mk := fun t => .vmax (V3.ofTail t)) rfl rfl rfl (congrArg Instr.vmax o.ofTail_toTail) o.toTail_lt
theorem RoundTrip.vabs (o : V3) : RoundTrip.Statement (.vabs o) :=
  of_fixed (n := 3) (mk := fun t => .vabs (V3.ofTail t)) rfl rfl rfl (congrArg Instr.vabs o.ofTail_toTail) o.toTail_lt
theorem RoundTrip.vneg (o : V3) : RoundTrip.Statement (.vneg o) :=
  of_fixed (n := 3) (mk := fun t => .vneg (V3.ofTail t)) rfl rfl rfl (congrArg Instr.vneg o.ofTail_toTail) o.toTail_lt
theorem RoundTrip.vdiv (o : V3) : RoundTrip.Statement (.vdiv o) :=
  of_fixed (n := 3) (mk := fun t => .vdiv (V3.ofTail t)) rfl rfl rfl (congrArg Instr.vdiv o.ofTail_toTail) o.toTail_lt
theorem RoundTrip.vsqrt (o : V3) : RoundTrip.Statement (.vsqrt o) :=
  of_fixed (n := 3) (mk := fun t => .vsqrt (V3.ofTail t)) rfl rfl rfl (congrArg Instr.vsqrt o.ofTail_toTail) o.toTail_lt
theorem RoundTrip.vrcp (o : V3) : RoundTrip.Statement (.vrcp o) :=
  of_fixed (n := 3) (mk := fun t => .vrcp (V3.ofTail t)) rfl rfl rfl (congrArg Instr.vrcp o.ofTail_toTail) o.toTail_lt
theorem RoundTrip.vrsq (o : V3) : RoundTrip.Statement (.vrsq o) :=
  of_fixed (n := 3) (mk := fun t => .vrsq (V3.ofTail t)) rfl rfl rfl (congrArg Instr.vrsq o.ofTail_toTail) o.toTail_lt
theorem RoundTrip.vexp2 (o : V3) : RoundTrip.Statement (.vexp2 o) :=
  of_fixed (n := 3) (mk := fun t => .vexp2 (V3.ofTail t)) rfl rfl rfl (congrArg Instr.vexp2 o.ofTail_toTail) o.toTail_lt
theorem RoundTrip.vlog2 (o : V3) : RoundTrip.Statement (.vlog2 o) :=
  of_fixed (n := 3) (mk := fun t => .vlog2 (V3.ofTail t)) rfl rfl rfl (congrArg Instr.vlog2 o.ofTail_toTail) o.toTail_lt
theorem RoundTrip.vdot (o : V3) : RoundTrip.Statement (.vdot o) :=
  of_fixed (n := 3) (mk := fun t => .vdot (V3.ofTail t)) rfl rfl rfl (congrArg Instr.vdot o.ofTail_toTail) o.toTail_lt
theorem RoundTrip.vand (o : V3) : RoundTrip.Statement (.vand o) :=
  of_fixed (n := 3) (mk := fun t => .vand (V3.ofTail t)) rfl rfl rfl (congrArg Instr.vand o.ofTail_toTail) o.toTail_lt
theorem RoundTrip.vor (o : V3) : RoundTrip.Statement (.vor o) :=
  of_fixed (n := 3) (mk := fun t => .vor (V3.ofTail t)) rfl rfl rfl (congrArg Instr.vor o.ofTail_toTail) o.toTail_lt
theorem RoundTrip.vxor (o : V3) : RoundTrip.Statement (.vxor o) :=
  of_fixed (n := 3) (mk := fun t => .vxor (V3.ofTail t)) rfl rfl rfl (congrArg Instr.vxor o.ofTail_toTail) o.toTail_lt
theorem RoundTrip.vnot (o : V3) : RoundTrip.Statement (.vnot o) :=
  of_fixed (n := 3) (mk := fun t => .vnot (V3.ofTail t)) rfl rfl rfl (congrArg Instr.vnot o.ofTail_toTail) o.toTail_lt
theorem RoundTrip.vshl (o : V3) : RoundTrip.Statement (.vshl o) :=
  of_fixed (n := 3) (mk := fun t => .vshl (V3.ofTail t)) rfl rfl rfl (congrArg Instr.vshl o.ofTail_toTail) o.toTail_lt
theorem RoundTrip.vshr (o : V3) : RoundTrip.Statement (.vshr o) :=
  of_fixed (n := 3) (mk := fun t => .vshr (V3.ofTail t)) rfl rfl rfl (congrArg Instr.vshr o.ofTail_toTail) o.toTail_lt
theorem RoundTrip.vsar (o : V3) : RoundTrip.Statement (.vsar o) :=
  of_fixed (n := 3) (mk := fun t => .vsar (V3.ofTail t)) rfl rfl rfl (congrArg Instr.vsar o.ofTail_toTail) o.toTail_lt
theorem RoundTrip.vcmp (o : V3) : RoundTrip.Statement (.vcmp o) :=
  of_fixed (n := 3) (mk := fun t => .vcmp (V3.ofTail t)) rfl rfl rfl (congrArg Instr.vcmp o.ofTail_toTail) o.toTail_lt
theorem RoundTrip.vsel (o : V3) : RoundTrip.Statement (.vsel o) :=
  of_fixed (n := 3) (mk := fun t => .vsel (V3.ofTail t)) rfl rfl rfl (congrArg Instr.vsel o.ofTail_toTail) o.toTail_lt
theorem RoundTrip.vcvt (o : V3) : RoundTrip.Statement (.vcvt o) :=
  of_fixed (n := 3) (mk := fun t => .vcvt (V3.ofTail t)) rfl rfl rfl (congrArg Instr.vcvt o.ofTail_toTail) o.toTail_lt
theorem RoundTrip.vpack (o : V3) : RoundTrip.Statement (.vpack o) :=
  of_fixed (n := 3) (mk := fun t => .vpack (V3.ofTail t)) rfl rfl rfl (congrArg Instr.vpack o.ofTail_toTail) o.toTail_lt
theorem RoundTrip.vunpk (o : V3) : RoundTrip.Statement (.vunpk o) :=
  of_fixed (n := 3) (mk := fun t => .vunpk (V3.ofTail t)) rfl rfl rfl (congrArg Instr.vunpk o.ofTail_toTail) o.toTail_lt
theorem RoundTrip.vlut (o : V3) : RoundTrip.Statement (.vlut o) :=
  of_fixed (n := 3) (mk := fun t => .vlut (V3.ofTail t)) rfl rfl rfl (congrArg Instr.vlut o.ofTail_toTail) o.toTail_lt
theorem RoundTrip.vbcast (o : V3) : RoundTrip.Statement (.vbcast o) :=
  of_fixed (n := 3) (mk := fun t => .vbcast (V3.ofTail t)) rfl rfl rfl (congrArg Instr.vbcast o.ofTail_toTail) o.toTail_lt
theorem RoundTrip.vlane (o : V3) : RoundTrip.Statement (.vlane o) :=
  of_fixed (n := 3) (mk := fun t => .vlane (V3.ofTail t)) rfl rfl rfl (congrArg Instr.vlane o.ofTail_toTail) o.toTail_lt
theorem RoundTrip.vperm (o : V3) : RoundTrip.Statement (.vperm o) :=
  of_fixed (n := 3) (mk := fun t => .vperm (V3.ofTail t)) rfl rfl rfl (congrArg Instr.vperm o.ofTail_toTail) o.toTail_lt
theorem RoundTrip.vshuf (o : V3) : RoundTrip.Statement (.vshuf o) :=
  of_fixed (n := 3) (mk := fun t => .vshuf (V3.ofTail t)) rfl rfl rfl (congrArg Instr.vshuf o.ofTail_toTail) o.toTail_lt
theorem RoundTrip.vcomp (o : V3) : RoundTrip.Statement (.vcomp o) :=
  of_fixed (n := 3) (mk := fun t => .vcomp (V3.ofTail t)) rfl rfl rfl (congrArg Instr.vcomp o.ofTail_toTail) o.toTail_lt
theorem RoundTrip.vexpd (o : V3) : RoundTrip.Statement (.vexpd o) :=
  of_fixed (n := 3) (mk := fun t => .vexpd (V3.ofTail t)) rfl rfl rfl (congrArg Instr.vexpd o.ofTail_toTail) o.toTail_lt
theorem RoundTrip.vext (o : V3) : RoundTrip.Statement (.vext o) :=
  of_fixed (n := 3) (mk := fun t => .vext (V3.ofTail t)) rfl rfl rfl (congrArg Instr.vext o.ofTail_toTail) o.toTail_lt
theorem RoundTrip.vins (o : V3) : RoundTrip.Statement (.vins o) :=
  of_fixed (n := 3) (mk := fun t => .vins (V3.ofTail t)) rfl rfl rfl (congrArg Instr.vins o.ofTail_toTail) o.toTail_lt
theorem RoundTrip.vred (o : V3) : RoundTrip.Statement (.vred o) :=
  of_fixed (n := 3) (mk := fun t => .vred (V3.ofTail t)) rfl rfl rfl (congrArg Instr.vred o.ofTail_toTail) o.toTail_lt
theorem RoundTrip.vscan (o : V3) : RoundTrip.Statement (.vscan o) :=
  of_fixed (n := 3) (mk := fun t => .vscan (V3.ofTail t)) rfl rfl rfl (congrArg Instr.vscan o.ofTail_toTail) o.toTail_lt
theorem RoundTrip.mand (o : F2) : RoundTrip.Statement (.mand o) :=
  of_fixed (n := 2) (mk := fun t => .mand (F2.ofTail t)) rfl rfl rfl (congrArg Instr.mand o.ofTail_toTail) o.toTail_lt
theorem RoundTrip.mor (o : F2) : RoundTrip.Statement (.mor o) :=
  of_fixed (n := 2) (mk := fun t => .mor (F2.ofTail t)) rfl rfl rfl (congrArg Instr.mor o.ofTail_toTail) o.toTail_lt
theorem RoundTrip.mxor (o : F2) : RoundTrip.Statement (.mxor o) :=
  of_fixed (n := 2) (mk := fun t => .mxor (F2.ofTail t)) rfl rfl rfl (congrArg Instr.mxor o.ofTail_toTail) o.toTail_lt
theorem RoundTrip.mnot (o : F1) : RoundTrip.Statement (.mnot o) :=
  of_fixed (n := 1) (mk := fun t => .mnot (F1.ofTail t)) rfl rfl rfl (congrArg Instr.mnot o.ofTail_toTail) o.toTail_lt
theorem RoundTrip.mpop (o : F1) : RoundTrip.Statement (.mpop o) :=
  of_fixed (n := 1) (mk := fun t => .mpop (F1.ofTail t)) rfl rfl rfl (congrArg Instr.mpop o.ofTail_toTail) o.toTail_lt
theorem RoundTrip.mfirst (o : F1) : RoundTrip.Statement (.mfirst o) :=
  of_fixed (n := 1) (mk := fun t => .mfirst (F1.ofTail t)) rfl rfl rfl (congrArg Instr.mfirst o.ofTail_toTail) o.toTail_lt
theorem RoundTrip.mset (o : F1) : RoundTrip.Statement (.mset o) :=
  of_fixed (n := 1) (mk := fun t => .mset (F1.ofTail t)) rfl rfl rfl (congrArg Instr.mset o.ofTail_toTail) o.toTail_lt
theorem RoundTrip.mtest (o : F2) : RoundTrip.Statement (.mtest o) :=
  of_fixed (n := 2) (mk := fun t => .mtest (F2.ofTail t)) rfl rfl rfl (congrArg Instr.mtest o.ofTail_toTail) o.toTail_lt
theorem RoundTrip.ld (o : M3) : RoundTrip.Statement (.ld o) :=
  of_fixed (n := 3) (mk := fun t => .ld (M3.ofTail t)) rfl rfl rfl (congrArg Instr.ld o.ofTail_toTail) o.toTail_lt
theorem RoundTrip.st (o : M3) : RoundTrip.Statement (.st o) :=
  of_fixed (n := 3) (mk := fun t => .st (M3.ofTail t)) rfl rfl rfl (congrArg Instr.st o.ofTail_toTail) o.toTail_lt
theorem RoundTrip.ldf (o : M3) : RoundTrip.Statement (.ldf o) :=
  of_fixed (n := 3) (mk := fun t => .ldf (M3.ofTail t)) rfl rfl rfl (congrArg Instr.ldf o.ofTail_toTail) o.toTail_lt
theorem RoundTrip.stf (o : M3) : RoundTrip.Statement (.stf o) :=
  of_fixed (n := 3) (mk := fun t => .stf (M3.ofTail t)) rfl rfl rfl (congrArg Instr.stf o.ofTail_toTail) o.toTail_lt
theorem RoundTrip.fe (o : M3) : RoundTrip.Statement (.fe o) :=
  of_fixed (n := 3) (mk := fun t => .fe (M3.ofTail t)) rfl rfl rfl (congrArg Instr.fe o.ofTail_toTail) o.toTail_lt
theorem RoundTrip.pref (o : M3) : RoundTrip.Statement (.pref o) :=
  of_fixed (n := 3) (mk := fun t => .pref (M3.ofTail t)) rfl rfl rfl (congrArg Instr.pref o.ofTail_toTail) o.toTail_lt
theorem RoundTrip.vld (o : M3) : RoundTrip.Statement (.vld o) :=
  of_fixed (n := 3) (mk := fun t => .vld (M3.ofTail t)) rfl rfl rfl (congrArg Instr.vld o.ofTail_toTail) o.toTail_lt
theorem RoundTrip.vst (o : M3) : RoundTrip.Statement (.vst o) :=
  of_fixed (n := 3) (mk := fun t => .vst (M3.ofTail t)) rfl rfl rfl (congrArg Instr.vst o.ofTail_toTail) o.toTail_lt
theorem RoundTrip.vgat (o : M3) : RoundTrip.Statement (.vgat o) :=
  of_fixed (n := 3) (mk := fun t => .vgat (M3.ofTail t)) rfl rfl rfl (congrArg Instr.vgat o.ofTail_toTail) o.toTail_lt
theorem RoundTrip.vsct (o : M3) : RoundTrip.Statement (.vsct o) :=
  of_fixed (n := 3) (mk := fun t => .vsct (M3.ofTail t)) rfl rfl rfl (congrArg Instr.vsct o.ofTail_toTail) o.toTail_lt
theorem RoundTrip.amo (o : M3) : RoundTrip.Statement (.amo o) :=
  of_fixed (n := 3) (mk := fun t => .amo (M3.ofTail t)) rfl rfl rfl (congrArg Instr.amo o.ofTail_toTail) o.toTail_lt
theorem RoundTrip.famo (o : M3) : RoundTrip.Statement (.famo o) :=
  of_fixed (n := 3) (mk := fun t => .famo (M3.ofTail t)) rfl rfl rfl (congrArg Instr.famo o.ofTail_toTail) o.toTail_lt
theorem RoundTrip.cas (o : M3) : RoundTrip.Statement (.cas o) :=
  of_fixed (n := 3) (mk := fun t => .cas (M3.ofTail t)) rfl rfl rfl (congrArg Instr.cas o.ofTail_toTail) o.toTail_lt
theorem RoundTrip.vamo (o : M3) : RoundTrip.Statement (.vamo o) :=
  of_fixed (n := 3) (mk := fun t => .vamo (M3.ofTail t)) rfl rfl rfl (congrArg Instr.vamo o.ofTail_toTail) o.toTail_lt
theorem RoundTrip.dec (o : M3) : RoundTrip.Statement (.dec o) :=
  of_fixed (n := 3) (mk := fun t => .dec (M3.ofTail t)) rfl rfl rfl (congrArg Instr.dec o.ofTail_toTail) o.toTail_lt
theorem RoundTrip.fence (kind scope : BitVec 4) (o : F1) : RoundTrip.Statement (.fence kind scope o) := by
  have hk := kind.isLt
  have hs := scope.isLt
  have h1 : bits (headOf 0x1B 1 (kind.toNat * 16 + scope.toNat)) 10 6 = 0x1B#6 := by
    apply BitVec.eq_of_toNat_eq; simp only [toNat_bits, headOf, BitVec.toNat_ofNat]; omega
  have h2 : bits (bits (headOf 0x1B 1 (kind.toNat * 16 + scope.toNat)) 0 8) 4 4 = kind := by
    apply BitVec.eq_of_toNat_eq; simp only [toNat_bits, headOf, BitVec.toNat_ofNat]; omega
  have h3 : bits (bits (headOf 0x1B 1 (kind.toNat * 16 + scope.toNat)) 0 8) 0 4 = scope := by
    apply BitVec.eq_of_toNat_eq; simp only [toNat_bits, headOf, BitVec.toNat_ofNat]; omega
  have h4 : field (headOf 0x1B 1 (kind.toNat * 16 + scope.toNat)) 8 2 = 1 := by
    simp only [field_eq, headOf, BitVec.toNat_ofNat]; omega
  refine of_fixed (mk := fun t => .fence _ _ (F1.ofTail t)) rfl (by rw [h1]; rfl) h4 ?_ o.toTail_lt
  simp only [h2, h3, F1.ofTail_toTail]
theorem RoundTrip.barInit (o : F1) : RoundTrip.Statement (.barInit o) :=
  of_fixed (n := 1) (mk := fun t => .barInit (F1.ofTail t)) rfl rfl rfl (congrArg Instr.barInit o.ofTail_toTail) o.toTail_lt
theorem RoundTrip.barArr (o : F1) : RoundTrip.Statement (.barArr o) :=
  of_fixed (n := 1) (mk := fun t => .barArr (F1.ofTail t)) rfl rfl rfl (congrArg Instr.barArr o.ofTail_toTail) o.toTail_lt
theorem RoundTrip.barWait (o : F1) : RoundTrip.Statement (.barWait o) :=
  of_fixed (n := 1) (mk := fun t => .barWait (F1.ofTail t)) rfl rfl rfl (congrArg Instr.barWait o.ofTail_toTail) o.toTail_lt
theorem RoundTrip.barSync (o : F1) : RoundTrip.Statement (.barSync o) :=
  of_fixed (n := 1) (mk := fun t => .barSync (F1.ofTail t)) rfl rfl rfl (congrArg Instr.barSync o.ofTail_toTail) o.toTail_lt
theorem RoundTrip.barInv (o : F1) : RoundTrip.Statement (.barInv o) :=
  of_fixed (n := 1) (mk := fun t => .barInv (F1.ofTail t)) rfl rfl rfl (congrArg Instr.barInv o.ofTail_toTail) o.toTail_lt
theorem RoundTrip.cbar (o : F1) : RoundTrip.Statement (.cbar o) :=
  of_fixed (n := 1) (mk := fun t => .cbar (F1.ofTail t)) rfl rfl rfl (congrArg Instr.cbar o.ofTail_toTail) o.toTail_lt
theorem RoundTrip.qpush (o : F1) : RoundTrip.Statement (.qpush o) :=
  of_fixed (n := 1) (mk := fun t => .qpush (F1.ofTail t)) rfl rfl rfl (congrArg Instr.qpush o.ofTail_toTail) o.toTail_lt
theorem RoundTrip.qpop (o : F1) : RoundTrip.Statement (.qpop o) :=
  of_fixed (n := 1) (mk := fun t => .qpop (F1.ofTail t)) rfl rfl rfl (congrArg Instr.qpop o.ofTail_toTail) o.toTail_lt
theorem RoundTrip.qstop (o : F1) : RoundTrip.Statement (.qstop o) :=
  of_fixed (n := 1) (mk := fun t => .qstop (F1.ofTail t)) rfl rfl rfl (congrArg Instr.qstop o.ofTail_toTail) o.toTail_lt
theorem RoundTrip.qstat (o : F1) : RoundTrip.Statement (.qstat o) :=
  of_fixed (n := 1) (mk := fun t => .qstat (F1.ofTail t)) rfl rfl rfl (congrArg Instr.qstat o.ofTail_toTail) o.toTail_lt
theorem RoundTrip.qinit (o : F1) : RoundTrip.Statement (.qinit o) :=
  of_fixed (n := 1) (mk := fun t => .qinit (F1.ofTail t)) rfl rfl rfl (congrArg Instr.qinit o.ofTail_toTail) o.toTail_lt
theorem RoundTrip.midx (o : F3) : RoundTrip.Statement (.midx o) :=
  of_fixed (n := 3) (mk := fun t => .midx (F3.ofTail t)) rfl rfl rfl (congrArg Instr.midx o.ofTail_toTail) o.toTail_lt
theorem RoundTrip.mopen (o : F3) : RoundTrip.Statement (.mopen o) :=
  of_fixed (n := 3) (mk := fun t => .mopen (F3.ofTail t)) rfl rfl rfl (congrArg Instr.mopen o.ofTail_toTail) o.toTail_lt
theorem RoundTrip.mstep (o : F3) : RoundTrip.Statement (.mstep o) :=
  of_fixed (n := 3) (mk := fun t => .mstep (F3.ofTail t)) rfl rfl rfl (congrArg Instr.mstep o.ofTail_toTail) o.toTail_lt
theorem RoundTrip.mclose (o : F3) : RoundTrip.Statement (.mclose o) :=
  of_fixed (n := 3) (mk := fun t => .mclose (F3.ofTail t)) rfl rfl rfl (congrArg Instr.mclose o.ofTail_toTail) o.toTail_lt
theorem RoundTrip.mst (o : F3) : RoundTrip.Statement (.mst o) :=
  of_fixed (n := 3) (mk := fun t => .mst (F3.ofTail t)) rfl rfl rfl (congrArg Instr.mst o.ofTail_toTail) o.toTail_lt
theorem RoundTrip.mld (o : F3) : RoundTrip.Statement (.mld o) :=
  of_fixed (n := 3) (mk := fun t => .mld (F3.ofTail t)) rfl rfl rfl (congrArg Instr.mld o.ofTail_toTail) o.toTail_lt
theorem RoundTrip.mzero (o : F3) : RoundTrip.Statement (.mzero o) :=
  of_fixed (n := 3) (mk := fun t => .mzero (F3.ofTail t)) rfl rfl rfl (congrArg Instr.mzero o.ofTail_toTail) o.toTail_lt
theorem RoundTrip.mtab (o : F3) : RoundTrip.Statement (.mtab o) :=
  of_fixed (n := 3) (mk := fun t => .mtab (F3.ofTail t)) rfl rfl rfl (congrArg Instr.mtab o.ofTail_toTail) o.toTail_lt
theorem RoundTrip.mwait (o : F3) : RoundTrip.Statement (.mwait o) :=
  of_fixed (n := 3) (mk := fun t => .mwait (F3.ofTail t)) rfl rfl rfl (congrArg Instr.mwait o.ofTail_toTail) o.toTail_lt
theorem RoundTrip.msave (o : F3) : RoundTrip.Statement (.msave o) :=
  of_fixed (n := 3) (mk := fun t => .msave (F3.ofTail t)) rfl rfl rfl (congrArg Instr.msave o.ofTail_toTail) o.toTail_lt
theorem RoundTrip.mrest (o : F3) : RoundTrip.Statement (.mrest o) :=
  of_fixed (n := 3) (mk := fun t => .mrest (F3.ofTail t)) rfl rfl rfl (congrArg Instr.mrest o.ofTail_toTail) o.toTail_lt
theorem RoundTrip.matrixArbitration : RoundTrip.Statement .matrixArbitration := of_none rfl
theorem RoundTrip.matrixCommandComplete : RoundTrip.Statement .matrixCommandComplete := of_none rfl
theorem RoundTrip.matrixStepAbort : RoundTrip.Statement .matrixStepAbort := of_none rfl
theorem RoundTrip.cpy (o : F2) : RoundTrip.Statement (.cpy o) :=
  of_fixed (n := 2) (mk := fun t => .cpy (F2.ofTail t)) rfl rfl rfl (congrArg Instr.cpy o.ofTail_toTail) o.toTail_lt
theorem RoundTrip.cpst (o : F2) : RoundTrip.Statement (.cpst o) :=
  of_fixed (n := 2) (mk := fun t => .cpst (F2.ofTail t)) rfl rfl rfl (congrArg Instr.cpst o.ofTail_toTail) o.toTail_lt
theorem RoundTrip.cpwait (o : F2) : RoundTrip.Statement (.cpwait o) :=
  of_fixed (n := 2) (mk := fun t => .cpwait (F2.ofTail t)) rfl rfl rfl (congrArg Instr.cpwait o.ofTail_toTail) o.toTail_lt
theorem RoundTrip.mcjoin (o : F2) : RoundTrip.Statement (.mcjoin o) :=
  of_fixed (n := 2) (mk := fun t => .mcjoin (F2.ofTail t)) rfl rfl rfl (congrArg Instr.mcjoin o.ofTail_toTail) o.toTail_lt
theorem RoundTrip.mcleave (o : F2) : RoundTrip.Statement (.mcleave o) :=
  of_fixed (n := 2) (mk := fun t => .mcleave (F2.ofTail t)) rfl rfl rfl (congrArg Instr.mcleave o.ofTail_toTail) o.toTail_lt
theorem RoundTrip.copyLineTransfer : RoundTrip.Statement .copyLineTransfer := of_none rfl
theorem RoundTrip.copyFaultTrap : RoundTrip.Statement .copyFaultTrap := of_none rfl
theorem RoundTrip.copyCompletion : RoundTrip.Statement .copyCompletion := of_none rfl
theorem RoundTrip.multicastJoinPacket : RoundTrip.Statement .multicastJoinPacket := of_none rfl
theorem RoundTrip.multicastLeavePacket : RoundTrip.Statement .multicastLeavePacket := of_none rfl
theorem RoundTrip.multicastLineDelivery : RoundTrip.Statement .multicastLineDelivery := of_none rfl
theorem RoundTrip.pub (o : F1) : RoundTrip.Statement (.pub o) :=
  of_fixed (n := 1) (mk := fun t => .pub (F1.ofTail t)) rfl rfl rfl (congrArg Instr.pub o.ofTail_toTail) o.toTail_lt
theorem RoundTrip.unpub (o : F1) : RoundTrip.Statement (.unpub o) :=
  of_fixed (n := 1) (mk := fun t => .unpub (F1.ofTail t)) rfl rfl rfl (congrArg Instr.unpub o.ofTail_toTail) o.toTail_lt
theorem RoundTrip.subChannel (o : F2) : RoundTrip.Statement (.subChannel o) :=
  of_fixed (n := 2) (mk := fun t => .subChannel (F2.ofTail t)) rfl rfl rfl (congrArg Instr.subChannel o.ofTail_toTail) o.toTail_lt
theorem RoundTrip.unsub (o : F1) : RoundTrip.Statement (.unsub o) :=
  of_fixed (n := 1) (mk := fun t => .unsub (F1.ofTail t)) rfl rfl rfl (congrArg Instr.unsub o.ofTail_toTail) o.toTail_lt
theorem RoundTrip.resub (o : F2) : RoundTrip.Statement (.resub o) :=
  of_fixed (n := 2) (mk := fun t => .resub (F2.ofTail t)) rfl rfl rfl (congrArg Instr.resub o.ofTail_toTail) o.toTail_lt
theorem RoundTrip.rdv (o : F1) : RoundTrip.Statement (.rdv o) :=
  of_fixed (n := 1) (mk := fun t => .rdv (F1.ofTail t)) rfl rfl rfl (congrArg Instr.rdv o.ofTail_toTail) o.toTail_lt
theorem RoundTrip.send (o : F2) : RoundTrip.Statement (.send o) :=
  of_fixed (n := 2) (mk := fun t => .send (F2.ofTail t)) rfl rfl rfl (congrArg Instr.send o.ofTail_toTail) o.toTail_lt
theorem RoundTrip.sendjc (o : F2) : RoundTrip.Statement (.sendjc o) :=
  of_fixed (n := 2) (mk := fun t => .sendjc (F2.ofTail t)) rfl rfl rfl (congrArg Instr.sendjc o.ofTail_toTail) o.toTail_lt
theorem RoundTrip.invoke (o : F2) : RoundTrip.Statement (.invoke o) :=
  of_fixed (n := 2) (mk := fun t => .invoke (F2.ofTail t)) rfl rfl rfl (congrArg Instr.invoke o.ofTail_toTail) o.toTail_lt
theorem RoundTrip.invf (o : F2) : RoundTrip.Statement (.invf o) :=
  of_fixed (n := 2) (mk := fun t => .invf (F2.ofTail t)) rfl rfl rfl (congrArg Instr.invf o.ofTail_toTail) o.toTail_lt
theorem RoundTrip.resolve (o : F2) : RoundTrip.Statement (.resolve o) :=
  of_fixed (n := 2) (mk := fun t => .resolve (F2.ofTail t)) rfl rfl rfl (congrArg Instr.resolve o.ofTail_toTail) o.toTail_lt
theorem RoundTrip.fkplace (o : F2) : RoundTrip.Statement (.fkplace o) :=
  of_fixed (n := 2) (mk := fun t => .fkplace (F2.ofTail t)) rfl rfl rfl (congrArg Instr.fkplace o.ofTail_toTail) o.toTail_lt
theorem RoundTrip.fkget (o : F2) : RoundTrip.Statement (.fkget o) :=
  of_fixed (n := 2) (mk := fun t => .fkget (F2.ofTail t)) rfl rfl rfl (congrArg Instr.fkget o.ofTail_toTail) o.toTail_lt
theorem RoundTrip.fkstate (o : F2) : RoundTrip.Statement (.fkstate o) :=
  of_fixed (n := 2) (mk := fun t => .fkstate (F2.ofTail t)) rfl rfl rfl (congrArg Instr.fkstate o.ofTail_toTail) o.toTail_lt
theorem RoundTrip.fkbreak (o : F2) : RoundTrip.Statement (.fkbreak o) :=
  of_fixed (n := 2) (mk := fun t => .fkbreak (F2.ofTail t)) rfl rfl rfl (congrArg Instr.fkbreak o.ofTail_toTail) o.toTail_lt
theorem RoundTrip.fkOpInvf : RoundTrip.Statement .fkOpInvf := of_none rfl
theorem RoundTrip.fkOpResolve : RoundTrip.Statement .fkOpResolve := of_none rfl
theorem RoundTrip.fkOpPlace : RoundTrip.Statement .fkOpPlace := of_none rfl
theorem RoundTrip.fkOpGet : RoundTrip.Statement .fkOpGet := of_none rfl
theorem RoundTrip.fkOpState : RoundTrip.Statement .fkOpState := of_none rfl
theorem RoundTrip.fkOpBreak : RoundTrip.Statement .fkOpBreak := of_none rfl
theorem RoundTrip.fkOpDrop : RoundTrip.Statement .fkOpDrop := of_none rfl
theorem RoundTrip.breakNotice : RoundTrip.Statement .breakNotice := of_none rfl
theorem RoundTrip.drainMarker : RoundTrip.Statement .drainMarker := of_none rfl
theorem RoundTrip.dropNotice : RoundTrip.Statement .dropNotice := of_none rfl
theorem RoundTrip.firkinAnswer : RoundTrip.Statement .firkinAnswer := of_none rfl
theorem RoundTrip.firkinOpRetry : RoundTrip.Statement .firkinOpRetry := of_none rfl
theorem RoundTrip.fkgetRetry : RoundTrip.Statement .fkgetRetry := of_none rfl
theorem RoundTrip.lease (o : F2) : RoundTrip.Statement (.lease o) :=
  of_fixed (n := 2) (mk := fun t => .lease (F2.ofTail t)) rfl rfl rfl (congrArg Instr.lease o.ofTail_toTail) o.toTail_lt
theorem RoundTrip.lrel (o : F2) : RoundTrip.Statement (.lrel o) :=
  of_fixed (n := 2) (mk := fun t => .lrel (F2.ofTail t)) rfl rfl rfl (congrArg Instr.lrel o.ofTail_toTail) o.toTail_lt
theorem RoundTrip.estat (o : F2) : RoundTrip.Statement (.estat o) :=
  of_fixed (n := 2) (mk := fun t => .estat (F2.ofTail t)) rfl rfl rfl (congrArg Instr.estat o.ofTail_toTail) o.toTail_lt
theorem RoundTrip.epush (o : F2) : RoundTrip.Statement (.epush o) :=
  of_fixed (n := 2) (mk := fun t => .epush (F2.ofTail t)) rfl rfl rfl (congrArg Instr.epush o.ofTail_toTail) o.toTail_lt
theorem RoundTrip.epop (o : F2) : RoundTrip.Statement (.epop o) :=
  of_fixed (n := 2) (mk := fun t => .epop (F2.ofTail t)) rfl rfl rfl (congrArg Instr.epop o.ofTail_toTail) o.toTail_lt
theorem RoundTrip.leaseQueueReexamine : RoundTrip.Statement .leaseQueueReexamine := of_none rfl
theorem RoundTrip.evictionDrainComplete : RoundTrip.Statement .evictionDrainComplete := of_none rfl
theorem RoundTrip.engineWakeComplete : RoundTrip.Statement .engineWakeComplete := of_none rfl
theorem RoundTrip.engineIdleSleep : RoundTrip.Statement .engineIdleSleep := of_none rfl
theorem RoundTrip.leaseHoldThreshold : RoundTrip.Statement .leaseHoldThreshold := of_none rfl
theorem RoundTrip.softmax : RoundTrip.Statement .softmax := of_none rfl
theorem RoundTrip.rowmax : RoundTrip.Statement .rowmax := of_none rfl
theorem RoundTrip.rowsum : RoundTrip.Statement .rowsum := of_none rfl
theorem RoundTrip.exp : RoundTrip.Statement .exp := of_none rfl
theorem RoundTrip.log : RoundTrip.Statement .log := of_none rfl
theorem RoundTrip.sort : RoundTrip.Statement .sort := of_none rfl
theorem RoundTrip.topk : RoundTrip.Statement .topk := of_none rfl
theorem RoundTrip.segsort : RoundTrip.Statement .segsort := of_none rfl
theorem RoundTrip.zf8enc : RoundTrip.Statement .zf8enc := of_none rfl
theorem RoundTrip.zf8dec : RoundTrip.Statement .zf8dec := of_none rfl
theorem RoundTrip.gather : RoundTrip.Statement .gather := of_none rfl
theorem RoundTrip.embbag : RoundTrip.Statement .embbag := of_none rfl
theorem RoundTrip.segred : RoundTrip.Statement .segred := of_none rfl
theorem RoundTrip.launch (o : F2) : RoundTrip.Statement (.launch o) :=
  of_fixed (n := 2) (mk := fun t => .launch (F2.ofTail t)) rfl rfl rfl (congrArg Instr.launch o.ofTail_toTail) o.toTail_lt
theorem RoundTrip.lwait (o : F2) : RoundTrip.Statement (.lwait o) :=
  of_fixed (n := 2) (mk := fun t => .lwait (F2.ofTail t)) rfl rfl rfl (congrArg Instr.lwait o.ofTail_toTail) o.toTail_lt
theorem RoundTrip.lwaitReread : RoundTrip.Statement .lwaitReread := of_none rfl
theorem RoundTrip.ctlRd (o : F2) : RoundTrip.Statement (.ctlRd o) :=
  of_fixed (n := 2) (mk := fun t => .ctlRd (F2.ofTail t)) rfl 
    (by rw [show bits (headOf 0x28 2 0) 10 6 = 0x28#6 by decide, show bits (headOf 0x28 2 0) 0 8 = 0#8 by decide, opcode_28]; rfl)
     rfl (congrArg Instr.ctlRd o.ofTail_toTail) o.toTail_lt
theorem RoundTrip.ctlWr (o : F2) : RoundTrip.Statement (.ctlWr o) := by
  refine of_checked (n := 2) (mk := ctlWrOf) rfl
    (by rw [show bits (headOf 0x28 2 1) 10 6 = 0x28#6 by decide, show bits (headOf 0x28 2 1) 0 8 = 1#8 by decide, opcode_28]; rfl) rfl (fun hw => ?_) o.toTail_lt
  have hw : ctlWrOk o 0 = true := hw
  simp only [ctlWrOk, Bool.and_eq_true, decide_eq_true_eq] at hw
  simp only [ctlWrOf, F2.field_toTail_0_10, hw.2, F2.ofTail_toTail]
theorem RoundTrip.ctlWrStatus (o : F2) : RoundTrip.Statement (.ctlWrStatus o) := by
  refine of_checked (n := 2) (mk := ctlWrOf) rfl
    (by rw [show bits (headOf 0x28 2 1) 10 6 = 0x28#6 by decide, show bits (headOf 0x28 2 1) 0 8 = 1#8 by decide, opcode_28]; rfl) rfl (fun hw => ?_) o.toTail_lt
  have hw : ctlWrOk o 1 = true := hw
  simp only [ctlWrOk, Bool.and_eq_true, decide_eq_true_eq] at hw
  simp only [ctlWrOf, F2.field_toTail_0_10, hw.2, F2.ofTail_toTail]
theorem RoundTrip.ctlWrTrbase (o : F2) : RoundTrip.Statement (.ctlWrTrbase o) := by
  refine of_checked (n := 2) (mk := ctlWrOf) rfl
    (by rw [show bits (headOf 0x28 2 1) 10 6 = 0x28#6 by decide, show bits (headOf 0x28 2 1) 0 8 = 1#8 by decide, opcode_28]; rfl) rfl (fun hw => ?_) o.toTail_lt
  have hw : ctlWrOk o 2 = true := hw
  simp only [ctlWrOk, Bool.and_eq_true, decide_eq_true_eq] at hw
  simp only [ctlWrOf, F2.field_toTail_0_10, hw.2, F2.ofTail_toTail]
theorem RoundTrip.ctlWrExpert (o : F2) : RoundTrip.Statement (.ctlWrExpert o) := by
  refine of_checked (n := 2) (mk := ctlWrOf) rfl
    (by rw [show bits (headOf 0x28 2 1) 10 6 = 0x28#6 by decide, show bits (headOf 0x28 2 1) 0 8 = 1#8 by decide, opcode_28]; rfl) rfl (fun hw => ?_) o.toTail_lt
  have hw : ctlWrOk o 3 = true := hw
  simp only [ctlWrOk, Bool.and_eq_true, decide_eq_true_eq] at hw
  simp only [ctlWrOf, F2.field_toTail_0_10, hw.2, F2.ofTail_toTail]
theorem RoundTrip.ctlWrClkfix (o : F2) : RoundTrip.Statement (.ctlWrClkfix o) := by
  refine of_checked (n := 2) (mk := ctlWrOf) rfl
    (by rw [show bits (headOf 0x28 2 1) 10 6 = 0x28#6 by decide, show bits (headOf 0x28 2 1) 0 8 = 1#8 by decide, opcode_28]; rfl) rfl (fun hw => ?_) o.toTail_lt
  have hw : ctlWrOk o 4 = true := hw
  simp only [ctlWrOk, Bool.and_eq_true, decide_eq_true_eq] at hw
  simp only [ctlWrOf, F2.field_toTail_0_10, hw.2, F2.ofTail_toTail]
theorem RoundTrip.slotResume (o : F2) : RoundTrip.Statement (.slotResume o) := by
  refine of_checked (n := 2) (mk := slotOf) rfl
    (by rw [show bits (headOf 0x28 2 4) 10 6 = 0x28#6 by decide, show bits (headOf 0x28 2 4) 0 8 = 4#8 by decide, opcode_28]; rfl) rfl (fun hw => ?_) o.toTail_lt
  have hop : field o.x 0 4 = 0 := slot_names hw
  simp only [slotOf, F2.field_toTail_0_4, hop, F2.ofTail_toTail]
theorem RoundTrip.slotKill (o : F2) : RoundTrip.Statement (.slotKill o) := by
  refine of_checked (n := 2) (mk := slotOf) rfl
    (by rw [show bits (headOf 0x28 2 4) 10 6 = 0x28#6 by decide, show bits (headOf 0x28 2 4) 0 8 = 4#8 by decide, opcode_28]; rfl) rfl (fun hw => ?_) o.toTail_lt
  have hop : field o.x 0 4 = 1 := slot_names hw
  simp only [slotOf, F2.field_toTail_0_4, hop, F2.ofTail_toTail]
theorem RoundTrip.slotSkip (o : F2) : RoundTrip.Statement (.slotSkip o) := by
  refine of_checked (n := 2) (mk := slotOf) rfl
    (by rw [show bits (headOf 0x28 2 4) 10 6 = 0x28#6 by decide, show bits (headOf 0x28 2 4) 0 8 = 4#8 by decide, opcode_28]; rfl) rfl (fun hw => ?_) o.toTail_lt
  have hop : field o.x 0 4 = 2 := slot_names hw
  simp only [slotOf, F2.field_toTail_0_4, hop, F2.ofTail_toTail]
theorem RoundTrip.slotRds (o : F2) : RoundTrip.Statement (.slotRds o) := by
  refine of_checked (n := 2) (mk := slotOf) rfl
    (by rw [show bits (headOf 0x28 2 4) 10 6 = 0x28#6 by decide, show bits (headOf 0x28 2 4) 0 8 = 4#8 by decide, opcode_28]; rfl) rfl (fun hw => ?_) o.toTail_lt
  have hop : field o.x 0 4 = 3 := slot_names hw
  simp only [slotOf, F2.field_toTail_0_4, hop, F2.ofTail_toTail]
theorem RoundTrip.slotWrs (o : F2) : RoundTrip.Statement (.slotWrs o) := by
  refine of_checked (n := 2) (mk := slotOf) rfl
    (by rw [show bits (headOf 0x28 2 4) 10 6 = 0x28#6 by decide, show bits (headOf 0x28 2 4) 0 8 = 4#8 by decide, opcode_28]; rfl) rfl (fun hw => ?_) o.toTail_lt
  have hop : field o.x 0 4 = 4 := slot_names hw
  simp only [slotOf, F2.field_toTail_0_4, hop, F2.ofTail_toTail]
theorem RoundTrip.slotRdv (o : F2) : RoundTrip.Statement (.slotRdv o) := by
  refine of_checked (n := 2) (mk := slotOf) rfl
    (by rw [show bits (headOf 0x28 2 4) 10 6 = 0x28#6 by decide, show bits (headOf 0x28 2 4) 0 8 = 4#8 by decide, opcode_28]; rfl) rfl (fun hw => ?_) o.toTail_lt
  have hop : field o.x 0 4 = 5 := slot_names hw
  simp only [slotOf, F2.field_toTail_0_4, hop, F2.ofTail_toTail]
theorem RoundTrip.slotWrv (o : F2) : RoundTrip.Statement (.slotWrv o) := by
  refine of_checked (n := 2) (mk := slotOf) rfl
    (by rw [show bits (headOf 0x28 2 4) 10 6 = 0x28#6 by decide, show bits (headOf 0x28 2 4) 0 8 = 4#8 by decide, opcode_28]; rfl) rfl (fun hw => ?_) o.toTail_lt
  have hop : field o.x 0 4 = 6 := slot_names hw
  simp only [slotOf, F2.field_toTail_0_4, hop, F2.ofTail_toTail]
theorem RoundTrip.slotRdm (o : F2) : RoundTrip.Statement (.slotRdm o) := by
  refine of_checked (n := 2) (mk := slotOf) rfl
    (by rw [show bits (headOf 0x28 2 4) 10 6 = 0x28#6 by decide, show bits (headOf 0x28 2 4) 0 8 = 4#8 by decide, opcode_28]; rfl) rfl (fun hw => ?_) o.toTail_lt
  have hop : field o.x 0 4 = 7 := slot_names (and_true_left (and_true_left hw))
  simp only [slotOf, F2.field_toTail_0_4, hop, F2.ofTail_toTail]
theorem RoundTrip.slotWrm (o : F2) : RoundTrip.Statement (.slotWrm o) := by
  refine of_checked (n := 2) (mk := slotOf) rfl
    (by rw [show bits (headOf 0x28 2 4) 10 6 = 0x28#6 by decide, show bits (headOf 0x28 2 4) 0 8 = 4#8 by decide, opcode_28]; rfl) rfl (fun hw => ?_) o.toTail_lt
  have hop : field o.x 0 4 = 8 := slot_names (and_true_left (and_true_left hw))
  simp only [slotOf, F2.field_toTail_0_4, hop, F2.ofTail_toTail]
theorem RoundTrip.slotTdown (o : F2) : RoundTrip.Statement (.slotTdown o) := by
  refine of_checked (n := 2) (mk := slotOf) rfl
    (by rw [show bits (headOf 0x28 2 4) 10 6 = 0x28#6 by decide, show bits (headOf 0x28 2 4) 0 8 = 4#8 by decide, opcode_28]; rfl) rfl (fun hw => ?_) o.toTail_lt
  have hop : field o.x 0 4 = 9 := slot_names hw
  simp only [slotOf, F2.field_toTail_0_4, hop, F2.ofTail_toTail]
theorem RoundTrip.tlbiMark (o : F2) : RoundTrip.Statement (.tlbiMark o) :=
  of_fixed (n := 2) (mk := fun t => .tlbiMark (F2.ofTail t)) rfl 
    (by rw [show bits (headOf 0x28 2 2) 10 6 = 0x28#6 by decide, show bits (headOf 0x28 2 2) 0 8 = 2#8 by decide, opcode_28]; rfl)
     rfl (congrArg Instr.tlbiMark o.ofTail_toTail) o.toTail_lt
theorem RoundTrip.tlbiConf (o : F2) : RoundTrip.Statement (.tlbiConf o) :=
  of_fixed (n := 2) (mk := fun t => .tlbiConf (F2.ofTail t)) rfl 
    (by rw [show bits (headOf 0x28 2 3) 10 6 = 0x28#6 by decide, show bits (headOf 0x28 2 3) 0 8 = 3#8 by decide, opcode_28]; rfl)
     rfl (congrArg Instr.tlbiConf o.ofTail_toTail) o.toTail_lt
theorem RoundTrip.tlbWalk : RoundTrip.Statement .tlbWalk := of_none rfl
theorem RoundTrip.issueSelect : RoundTrip.Statement .issueSelect := of_none rfl
theorem RoundTrip.clockStep : RoundTrip.Statement .clockStep := of_none rfl
theorem RoundTrip.accessAtHome : RoundTrip.Statement .accessAtHome := of_none rfl
theorem RoundTrip.shelfRetry : RoundTrip.Statement .shelfRetry := of_none rfl
theorem RoundTrip.shelfWithdrawal : RoundTrip.Statement .shelfWithdrawal := of_none rfl
theorem RoundTrip.pantryExpiry : RoundTrip.Statement .pantryExpiry := of_none rfl
theorem RoundTrip.replyArrival : RoundTrip.Statement .replyArrival := of_none rfl
theorem RoundTrip.requestTimeout : RoundTrip.Statement .requestTimeout := of_none rfl
theorem RoundTrip.tagQuarantineEnd : RoundTrip.Statement .tagQuarantineEnd := of_none rfl
theorem RoundTrip.channelWheelTurn : RoundTrip.Statement .channelWheelTurn := of_none rfl
theorem RoundTrip.patrolScrub : RoundTrip.Statement .patrolScrub := of_none rfl
theorem RoundTrip.larderRetentionEntry : RoundTrip.Statement .larderRetentionEntry := of_none rfl
theorem RoundTrip.larderRetentionExit : RoundTrip.Statement .larderRetentionExit := of_none rfl
theorem RoundTrip.regbankRetentionEntry : RoundTrip.Statement .regbankRetentionEntry := of_none rfl
theorem RoundTrip.regbankRetentionExit : RoundTrip.Statement .regbankRetentionExit := of_none rfl
theorem RoundTrip.checkFailureAtCrossing : RoundTrip.Statement .checkFailureAtCrossing := of_none rfl
theorem RoundTrip.omyanHop : RoundTrip.Statement .omyanHop := of_none rfl
theorem RoundTrip.fabricWheelTurn : RoundTrip.Statement .fabricWheelTurn := of_none rfl
theorem RoundTrip.laneFailure : RoundTrip.Statement .laneFailure := of_none rfl
theorem RoundTrip.portRetrainComplete : RoundTrip.Statement .portRetrainComplete := of_none rfl
theorem RoundTrip.messageArrival : RoundTrip.Statement .messageArrival := of_none rfl
theorem RoundTrip.taskDispatch : RoundTrip.Statement .taskDispatch := of_none rfl
theorem RoundTrip.vectorTableReread : RoundTrip.Statement .vectorTableReread := of_none rfl
theorem RoundTrip.hostPageAnswer : RoundTrip.Statement .hostPageAnswer := of_none rfl
theorem RoundTrip.watchdogTick : RoundTrip.Statement .watchdogTick := of_none rfl
theorem RoundTrip.groupStart : RoundTrip.Statement .groupStart := of_none rfl
theorem RoundTrip.admitterPass : RoundTrip.Statement .admitterPass := of_none rfl
theorem RoundTrip.backfillLimitExpiry : RoundTrip.Statement .backfillLimitExpiry := of_none rfl
theorem RoundTrip.preemptionEnd : RoundTrip.Statement .preemptionEnd := of_none rfl
theorem RoundTrip.gridCompletion : RoundTrip.Statement .gridCompletion := of_none rfl
theorem RoundTrip.pendingLaunchTransfer : RoundTrip.Statement .pendingLaunchTransfer := of_none rfl
theorem RoundTrip.launchRingAccept : RoundTrip.Statement .launchRingAccept := of_none rfl
theorem RoundTrip.dbres : RoundTrip.Statement .dbres := of_none rfl
theorem RoundTrip.dbell : RoundTrip.Statement .dbell := of_none rfl
theorem RoundTrip.granaryGrant : RoundTrip.Statement .granaryGrant := of_none rfl
theorem RoundTrip.reclaimRequest : RoundTrip.Statement .reclaimRequest := of_none rfl
theorem RoundTrip.termEnd : RoundTrip.Statement .termEnd := of_none rfl
theorem RoundTrip.granaryRelease : RoundTrip.Statement .granaryRelease := of_none rfl
theorem RoundTrip.reclaimNotice : RoundTrip.Statement .reclaimNotice := of_none rfl
theorem RoundTrip.pageMove : RoundTrip.Statement .pageMove := of_none rfl
theorem RoundTrip.reclaimDeadline : RoundTrip.Statement .reclaimDeadline := of_none rfl
theorem RoundTrip.releaseNotice : RoundTrip.Statement .releaseNotice := of_none rfl
theorem RoundTrip.borrowerLost : RoundTrip.Statement .borrowerLost := of_none rfl
theorem RoundTrip.packageReset : RoundTrip.Statement .packageReset := of_none rfl
theorem RoundTrip.secureRomVerify : RoundTrip.Statement .secureRomVerify := of_none rfl
theorem RoundTrip.dieImageVerify : RoundTrip.Statement .dieImageVerify := of_none rfl
theorem RoundTrip.dieLinkTraining : RoundTrip.Statement .dieLinkTraining := of_none rfl
theorem RoundTrip.vaultTrainAndClear : RoundTrip.Statement .vaultTrainAndClear := of_none rfl
theorem RoundTrip.omyanPortTraining : RoundTrip.Statement .omyanPortTraining := of_none rfl
theorem RoundTrip.systemTypeBinding : RoundTrip.Statement .systemTypeBinding := of_none rfl
theorem RoundTrip.partitionSetup : RoundTrip.Statement .partitionSetup := of_none rfl
theorem RoundTrip.attestationQuote : RoundTrip.Statement .attestationQuote := of_none rfl
theorem RoundTrip.uncorrectableError : RoundTrip.Statement .uncorrectableError := of_none rfl
theorem RoundTrip.cellarResultWritten : RoundTrip.Statement .cellarResultWritten := of_none rfl

end Sys2Proof.Laws
end

