-- ==== Sys2Proof/Tests/Slice0.lean ====
section
/-! SUPPORT. The author's tests: terms that WellFormed refuses, words written out from the encoding tables, single steps with results
from the spec's rules, and a witness for the hypotheses of each statement. -/

-- The tests are elaborated one after another: in parallel their kernel evaluations wait for each other, each in a thread of its own.
set_option Elab.async false

namespace Sys2Proof.Tests

open Sys2Proof Sys2Proof.Machine Sys2Proof.Claims

/-! Small states. -/

/-- A group with registers, about to execute the instruction at 0x10002. -/
def group (regs : List (Nat × Word)) : Slot :=
  { state := .active, valloc := 64, member := some ⟨1, 2, 3, 0⟩, sregs := regs, lwin := [(0, 0xE0000000003FE000)]
    p := { pc := 0x10002, succ := 0x10004, live := allLanes } }
/-- A leaf for the 64 KiB page 1 of a Vault, with every permission. -/
def leaf1 : Word := 0xF080000000010000
/-- The cells of eight bytes at a place. -/
def cells (loc v : Nat) : List Host.Cell :=
  (List.range 8).filterMap fun j => if v / 256 ^ j % 256 = 0 then none else some (loc + j, BitVec.ofNat 8 (v / 256 ^ j))
/-- A package in use, the ready ring of core 0 without a chain: one team of two groups on core 0, of which the first is the slot given. -/
def pack (sl : Slot) : State :=
  { State.reset with
    mem := cells (2 ^ 48 + 0x100800) (2 ^ 64 - 1) ++ cells (2 ^ 48 + 0x100808) (2 ^ 64 - 1)
    agenda := [], bootStep := 7, admitting := true, clk := 1000, chosen := true
    cores := [(0, { rrbase := 0x100000, frtbase := 0x110000, vtbase := 0x10000
                    slots := [(0, sl), (1, { group [] with member := some ⟨1, 2, 3, 1⟩ })], l1d := [⟨1, 1, leaf1, 0⟩], l1i := [⟨1, 1, leaf1, 0⟩] })]
    parts := [(0, { pairs := 255 })], dies := (List.range 16).map fun d => (d, { absent := false })
    teams := [(3, { grid := 1, cluster := 2, core := 0, off := 0, units := 1, tiles := 1, valloc := 64, groups := 2, slots := [0, 1]
                    qs := [(0, { state := .open_, wset := 3, rset := 3, live := 3 })] })]
    clusters := [(2, { grid := 1, index := 0, die := 0, x0 := 0, y0 := 0, w := 1, h := 1, teams := [3], exp := 2 })]
    grids := [(1, { record := [], part := 0, clusters := [2], admitted := 1, live := 2, parent := none, children := 0 })] }
/-- The group executes with registers. -/
def st (regs : List (Nat × Word)) : State := pack (group regs)
/-- The group differs. -/
def stWith (regs : List (Nat × Word)) (f : Slot → Slot) : State := pack (f (group regs))
/-- A task executes with registers. -/
def taskSt (regs : List (Nat × Word)) : State :=
  let s := (st []).modSlot 0 62 fun _ => { group regs with member := none, valloc := 16, task := some ⟨2, false⟩ }
  { s with cur := ⟨0, 62, false⟩ }
/-- The S-slot executes with registers. -/
def sSt (regs : List (Nat × Word)) : State :=
  let s := (st []).modSlot 0 63 fun sl =>
    { sl with state := .active, sregs := regs, member := none, p := { pc := 0x10002, succ := 0x10004, live := allLanes } }
  { s with cur := ⟨0, 63, false⟩ }
def f2 (d a b c : BitVec 5) (x : BitVec 12 := 0) : F2 := ⟨d, a, b, c, x⟩
/-- A register of lane values from lane 0 on. -/
def lanes (l : List (BitVec 32)) : VReg := BitVec.ofNat 4096 (packLanes (fun i => (l.getD i 0).toNat) 128 0)
/-- The state after an instruction that answers a next state. -/
def after (i : Instr) (s : State) : State :=
  match exec i s with
  | .next t => t
  | _ => State.reset
/-- The executing path can execute each of these. -/
abbrev RunsAll (l : List Instr) (s : State) : Prop := ∀ i ∈ l, Runs i s
/-- ServesNow, as a test that can be evaluated. -/
def serves (s : State) : List (Nat × Nat) → Bool
  | [] => true
  | (loc, n) :: rest => decide ((s.arriveAll loc n).2 ≤ s.clk) && serves (s.arriveAll loc n).1 rest
theorem servesNow_of {l : List (Nat × Nat)} : ∀ {s : State}, serves s l = true → ServesNow s l := by
  induction l with
  | nil => intro s _; trivial
  | cons e rest ih =>
    intro s h
    obtain ⟨loc, n⟩ := e
    simp only [serves, Bool.and_eq_true, decide_eq_true_eq] at h
    exact ⟨h.1, ih h.2⟩
/-- ReachesAt, as a test that can be evaluated. -/
abbrev arrives (s : State) (p : ScalarAcc) (ea : Word) (h : Home) : Prop :=
  s.check s.who [p.use ea] = .ok () ∧ s.releaseHold p.rel = .ok () ∧ s.home s.who (p.use ea) = h ∧ HomeOk s h p.n ∧
  serves s [(h.loc, p.n)] = true
theorem reachesAt_of {s : State} {p : ScalarAcc} {ea : Word} {h : Home} (a : arrives s p ea h) : ReachesAt s p ea h :=
  ⟨a.1, a.2.1, a.2.2.1, a.2.2.2.1, servesNow_of a.2.2.2.2⟩
theorem reaches_of {s : State} {o : M3} {p : ScalarAcc} {status : Bool} {size : Nat} {h : Home} (ea : Word)
    (e : s.effAddr o false status size p.wr = .ok ea) (a : arrives s p ea h) : Reaches s o p status size h :=
  ⟨ea, e, reachesAt_of a⟩
/-- LanesReach, as a test that can be evaluated. -/
theorem lanesReach_of {s : State} {o : M3} {p : VecAcc} {m : Mask} {addr : Word → Nat → Word} {h : Nat → Home} (ea : Word)
    (e : s.effAddr o p.vec false (elemBytes o.ty) p.wr = .ok ea)
    (a : let us := laneUses p (elemBytes o.ty) ea (addr ea) ((List.range 128).filter fun l => m.getLsbD l)
      s.check s.who us = .ok () ∧ s.releaseHold p.rel = .ok () ∧ s.curPath.vdone = [] ∧
      serves s (us.map fun u => ((h (u.lane.getD 0)).loc, elemBytes o.ty)) = true ∧
      ∀ u ∈ us, s.home s.who u = h (u.lane.getD 0) ∧ HomeOk s (h (u.lane.getD 0)) (elemBytes o.ty)) :
    LanesReach s o p m addr h :=
  ⟨ea, e, a.1, a.2.1, a.2.2.1, servesNow_of a.2.2.2.1, a.2.2.2.2⟩

/-! Witnesses: states and operands that meet the hypotheses of the statements. -/

/-- ScalarArithmetic: extreme operands, s0 as a destination, a divisor of zero. -/
theorem witness_scalar : RunsAll
    ([Instr.add, .sub, .and, .or, .xor, .andn, .shl, .shr, .sar, .rol, .mul, .mulh, .min, .max, .div, .rem, .cmp].map
        (fun i => i (f2 31 1 31 0)) ++
      [Instr.mulh, .min, .max, .div, .rem].map (fun i => i (f2 0 1 2 0 1)) ++
      [.clz (f2 1 0 0 0), .ctz (f2 1 0 0 0), .popc (f2 1 1 0 0), .sel (f2 1 2 3 4), .cmp (f2 1 2 3 0 9),
       .bext (f2 1 2 0 0 0xFC0), .bext (f2 1 2 0 0 0x03F), .bins (f2 1 2 3 0 0xFFF)])
    (st [(1, BitVec.intMin 64), (31, BitVec.allOnes 64)]) := by decide +kernel
/-- ScalarFloat, with a NaN, infinities and both zeros among the operands. -/
theorem witness_scalar_float : RunsAll
    (([Instr.fadd, .fsub, .fmul, .fdiv].flatMap fun i => [0x00A#12, 0x03B, 0x009, 0x018].map fun x => i (f2 1 2 3 0 x)) ++
      [.fmin (f2 1 2 3 0 0xA), .fmax (f2 1 2 3 0 8), .fma (f2 1 2 3 4 0x00A), .fsqrt (f2 1 3 0 0 0x00B),
       .fcmp (f2 1 2 3 0 0x10A), .fclass (f2 1 2 0 0 0x00A), .fcvt (f2 1 2 0 0 0xA0B), .fcvt (f2 1 2 0 0 0x20A),
       .fcvt (f2 1 2 0 0 0xA02)])
    (st [(2, 0x7FC00000), (3, 1 <<< 63), (4, 0xFF800000)]) := by decide +kernel
/-- ImmediatesAndAddresses: the extremes of the immediate. -/
theorem witness_immediates : RunsAll
    ([Instr.addi, .andi, .ori, .xori, .muli].map (fun i => i ⟨0, 1, 0, 0x80000000⟩) ++
      [Instr.shli, .shri, .sari].flatMap (fun i => [i ⟨1, 2, 0, 63⟩, i ⟨1, 2, 0, 0⟩]) ++
      [.li ⟨1, 0, 0, 0xFFFFFFFF⟩, .lih ⟨1, 2, 0, 1⟩, .cmpi ⟨1, 2, 9, 5⟩])
    (st [(2, 5)]) := by decide +kernel
theorem witness_identity :
    ((List.range 22).all fun n => let x := BitVec.ofNat 12 n
    
      Runs (.sid (f2 1 0 0 0 x)) (st []) ∧ Runs (.sid (f2 1 0 0 0 x)) (taskSt [])) ∧
    (st []).curSlot.member = some ⟨1, 2, 3, 0⟩ ∧ (st []).curTeam?.isSome = true ∧ (st []).curCluster?.isSome = true ∧
    (st []).curGrid?.isSome = true ∧ (taskSt []).curSlot.member = none := by decide +kernel
theorem witness_addr :
    Runs (.addr ⟨1, 2, 0, 8⟩) (st []) ∧ (st []).convert 0 8 0 = some 8 ∧
    Runs (.addr ⟨1, 2, 1, 8⟩) (taskSt []) ∧ (taskSt []).convert 0 8 1 = none := by decide +kernel

/-- NopOnlyAdvances, Branches, Loop, with backward, forward and extreme targets. -/
theorem witness_branches : RunsAll
    [.nop, .br ⟨0x7FE, 3⟩, .br ⟨0x400, 31⟩, .call ⟨0, 1⟩, .bc 0 ⟨1, 2, 0x1FFFF, 1⟩, .bc 5 ⟨0, 0, 0x10000, 31⟩, .jr (f2 0 1 0 0),
     .callr (f2 0 31 0 0), .ret (f2 0 0 0 0), .loop ⟨1, 0, 0x1FFFF, 1⟩, .loop ⟨31, 0, 0x10000, 31⟩]
    (st [(1, 1)]) ∧ (st []).curPath.chan = false := by decide +kernel
/-- A group in dual-path mode at J, with a stack. -/
def dualSt (stack : List DivEntry) (parked : Bool) : State :=
  stWith [] fun sl => { sl with
    dual := true, j := 0x10002, p := { sl.p with live := 0xFF, stack := stack }
    q := { pc := 0x10002, live := 0xF00, parked := parked }, mregs := [(1, 0xFF), (2, 0x0F)] }
/-- A mask-stack entry whose join PC is where the path stands. -/
def here (phase : Bool) : DivEntry := ⟨0x10002, 0xFFF, 0xF00, 0x10040, phase⟩
/-- DivergentPaths. -/
theorem witness_divergence :
    (let s := stWith [] fun sl => { sl with mregs := [(1, 0), (2, allLanes), (3, 1)] }
     RunsAll [.brd ⟨1, 0, 1, 1, 2, 1⟩, .brd ⟨2, 0, 1, 1, 2, 1⟩, .brd ⟨3, 0, 0x10000, 1, 0x400, 31⟩] s ∧
     s.cur.pathQ = false ∧ s.curSlot.dual = false ∧ s.publishing = false ∧ s.subscribed = false ∧ s.curPath.stack = [] ∧
     s.curPath.chan = false ∧ s.mreg 1 &&& s.curPath.live = 0 ∧ s.mreg 2 &&& s.curPath.live ≠ 0 ∧
     s.curPath.live &&& ~~~s.mreg 2 = 0 ∧ s.curPath.live &&& ~~~s.mreg 3 ≠ 0) ∧
    (∀ n ∈ [8, 7, 0], let s := dualSt (List.replicate n (here false)) false
     Runs (.brd ⟨2, 0, 1, 1, 2, 1⟩) s ∧ s.curSlot.dual = true ∧ s.publishing = false ∧ s.subscribed = false ∧
     s.mreg 2 &&& s.curPath.live ≠ 0 ∧ s.curPath.live &&& ~~~s.mreg 2 ≠ 0 ∧ s.curPath.stack.length = n) ∧
    (let s := dualSt [] false
     RunsAll [.brd ⟨0, 0, 1, 1, 2, 1⟩, .brd ⟨3, 0, 1, 1, 2, 1⟩] s ∧ s.curSlot.dual = true ∧ s.publishing = false ∧ s.subscribed = false ∧
     s.curPath.live &&& ~~~s.mreg 0 = 0 ∧ s.mreg 3 &&& s.curPath.live = 0) ∧
    (let s := (st []).modCore 0 fun co => { co with chan := some ⟨0, 0, [], 0⟩ }
     Runs (.brd ⟨0, 0, 1, 1, 2, 1⟩) s ∧ s.publishing = true ∧ s.curPath.stack.length ≠ 8) := by decide +kernel
theorem witness_join :
    (∀ ph ∈ [false, true], let s := dualSt [here ph] false
      Runs .join s ∧ s.curPath.stack = [here ph] ∧ (here ph).joinPC = s.pc) ∧
    (let s := dualSt [{ here false with joinPC := 0x20 }] false; Runs .join s ∧ (0x20 : Word) ≠ s.pc) ∧
    (Runs .join (st []) ∧ (st []).curPath.stack = [] ∧ (st []).curSlot.dual = false) ∧
    (∀ b ∈ [false, true], let s := dualSt [] b
      Runs .join s ∧ s.curPath.stack = [] ∧ s.pc = s.curSlot.j ∧ (s.curSlot.path (!s.cur.pathQ)).parked = b) := by
  refine ⟨?_, ?_, ?_, ?_⟩ <;> decide +kernel
/-- EndOutsideGroups, DoneOutsideTasks. -/
theorem witness_outside :
    (taskSt []).isGroup = false ∧ (sSt []).isGroup = false ∧ (st []).isTask = false ∧ (sSt []).isTask = false := by decide +kernel

/-- DecodeTraps: a reserved field, a privileged instruction in a group, a vector register beyond the allocation. -/
theorem witness_decode_traps :
    (encode (.loop ⟨0, 0, 0, 1⟩)).isSome = true ∧ wellFormed (.loop ⟨0, 0, 0, 1⟩) = false ∧
    (encode .eret).isSome = true ∧ wellFormed .eret = true ∧ privileged .eret = true ∧ (st []).cur.slot ≠ 63 ∧
    (let i := Instr.vadd ⟨64, 0, 0, 0, 0, 2, 0, 0⟩
     (encode i).isSome = true ∧ wellFormed i = true ∧ (st []).illegalHere i = false ∧ privileged i = false ∧
     (st []).outOfRange i = some (64, 0)) ∧
    (let i := Instr.qpush ⟨8, 0, 7⟩; (encode i).isSome = true ∧ wellFormed i = true ∧ (taskSt []).isGroup = false) := by decide +kernel
/-- TrapsTaken: a group, a group whose other path stands in no instruction, the S-slot. -/
theorem witness_traps_taken :
    Live (st []) ∧ (st []).cur.slot ≠ 63 ∧ (((st []).curSlot.path true).wait.inside = false) ∧ Live (dualSt [] false) ∧
    (sSt []).cur.slot = 63 ∧ (sSt []).curCore.inReset = false := by decide +kernel
/-- TrapEntriesAndReturns. -/
theorem witness_trap_entry :
    Runs (.trap 0x21 ⟨0, 4, 0⟩) (st []) ∧ Runs .eret (sSt []) ∧ (sSt []).outstanding 0 63 = [] ∧
    (let s := (st []).modCore 0 fun co => { co with events := [(7, 1)] }
     s.input.a = 0 ∧ (s.core 0).events = [(7, 1)] ∧ (s.core 0).idle = true ∧ (s.core 0).inReset = false) ∧
    ((stWith [] fun sl => { sl with uiq := [(0x40000, 9)] }).slot 0 0).uiq = [(0x40000, 9)] ∧
    (let s := (st []).modCore 0 fun co => { co with inReset := true }
     (s.core 0).inReset = true ∧ (s.core 0).checkGrids = []) := by decide +kernel
/-- UserReturn: inside a handler and outside one. -/
theorem witness_user_return :
    (let s := stWith [] fun sl => { sl with uia := true, ulipc := 0x20002 }
     Runs .uret s ∧ s.curSlot.uia = true ∧ s.curSlot.dual = false ∧ s.curPath.stack = []) ∧
    (Runs .uret (st []) ∧ (st []).curSlot.uia = false) := by decide +kernel

/-- ControlRegisters: each clause, MBLIMIT at the ends of its range. -/
theorem witness_control_reads :
    RunsAll [.ctlRd (f2 3 0 0 0 1), .ctlRd (f2 3 0 0 0 0x40F), .ctlRd (f2 3 0 1 0 0x404)] (sSt [(1, 5)]) ∧
    field ((sSt [(1, 5)]).sreg 1) 0 6 ≠ 63 ∧ Runs (.ctlRd (f2 3 0 1 0 0x404)) (sSt [(1, 63)]) ∧
    field ((sSt [(1, 63)]).sreg 1) 0 6 = 63 := by decide +kernel
theorem witness_control_writes :
    RunsAll [.ctlWr (f2 3 1 0 0 6), .ctlWrStatus (f2 3 1 0 0 0)] (st [(1, 0x800)]) ∧
    ([1#64, 224, 225].all fun v => Runs (.ctlWr (f2 3 1 0 0 0x48)) (sSt [(1, v)]) ∧ (sSt [(1, v)]).sreg 1 = v) ∧
    Runs (.ctlWr (f2 3 1 0 0 0x42)) (sSt [(1, 256)]) ∧
    (let s := ((sSt [(1, 256)]).modCore 0 fun co => { co with rrtail := 1 }); s.quiet 0 = false ∧ Runs (.ctlWr (f2 3 1 0 0 0x42)) s) ∧
    RunsAll [.ctlWrTrbase (f2 3 1 0 0 0x4C), .ctlWrExpert (f2 3 1 0 0 0x80), .ctlWrClkfix (f2 3 1 0 0 0x81)] (sSt [(1, 0x1001)]) ∧
    ((sSt [(1, 0x1001)]).sreg 1).getLsbD 63 = false ∧ field ((sSt [(1, 0x1001)]).sreg 1) 8 5 = 16 ∧
    (let s := sSt [(2, 9 <<< 32)]
     Runs (.ctlWr (f2 3 1 2 0 0x406)) s ∧ field (s.sreg 2) 0 6 ≠ 63 ∧
     bits (s.sreg 2) 32 32 ≠ (s.slot s.cur.core (field (s.sreg 2) 0 6)).gen) := by decide +kernel
/-- ControlRegisters: registers of the own slot and of slot 0, windows at the edge of the mesh, core registers at the ends of their
ranges, on a core with no group and on one with a group. -/
theorem witness_control_ranges :
    (let s := sSt [(1, 0xFFFFFFFF), (2, 0)]
     ([1, 2, 3, 4, 5, 6, 7, 8, 9, 0xA, 0xB, 0x10].all fun n => Runs (.ctlWr (f2 3 1 0 0 n)) s ∧ Runs (.ctlWr (f2 3 1 2 0 (0x400 + n))) s) ∧
     field (s.sreg 2) 0 6 ≠ 63 ∧ bits (s.sreg 2) 32 32 = (s.slot 0 0).gen ∧ s.quiet 0 = false ∧ Runs (.ctlWr (f2 3 1 0 0 0x44)) s) ∧
    ([0xC#12, 0xF].all fun n => Runs (.ctlWr (f2 3 1 0 0 n)) (sSt [(1, 1)])) ∧
    Claims.windowFits (2 ^ 63 + 15 * 2 ^ 35 + 9 * 2 ^ 31 + 511 * 2 ^ 13) ∧ ¬Claims.windowFits (2 ^ 43 + 15 * 2 ^ 35) ∧
    (let s := (sSt [(1, 4096)]).modCore 0 fun co => { co with slots := co.slots.filter fun e => e.1 = 63 }
     ([0x40#12, 0x41, 0x42, 0x43, 0x44, 0x45, 0x46, 0x47, 0x48, 0x49, 0x4A, 0x4B, 0x4D, 0x4E, 0x4F, 0x60, 0x6F].all fun n =>
       Runs (.ctlWr (f2 3 1 0 0 n)) s) ∧ s.quiet 0 = true) := by
  refine ⟨?_, ?_, ?_, ?_, ?_⟩ <;> first | decide +kernel | simp [Claims.windowFits]
theorem witness_core_accepts :
    (∀ n ∈ [0x40, 0x41, 0x43, 0x44, 0x45, 0x46, 0x47, 0x4B, 0x4D, 0x4F, 0x60], Claims.coreAccepts n 4096) ∧ Claims.coreAccepts 0x4E 2 ∧
    Claims.coreAccepts 0x42 4096 ∧ ¬Claims.coreAccepts 0x43 65536 ∧ ¬Claims.coreAccepts 0x49 33 ∧ ¬Claims.coreAccepts 0x4E 64 := by
  refine ⟨?_, ?_, ?_, ?_, ?_, ?_⟩ <;> simp [Claims.coreAccepts]
  exact ⟨12, by decide, by decide, rfl⟩
/-- The S-slot names slot 0, trapped at an instruction or at fetch. -/
def trapped (regs : List (Nat × Word)) (f : Slot → Slot) : State :=
  (sSt regs).modSlot 0 0 fun sl => f { sl with state := .trapped, epc := sl.p.pc, cause := 2 }
def slotOps (x : BitVec 12) : List Instr :=
  [.slotResume (f2 3 0 1 0 0), .slotSkip (f2 3 0 1 0 2), .slotRds (f2 3 0 1 4 (3 + x)), .slotWrs (f2 3 1 1 0 (4 + x)),
   .slotRdv (f2 3 1 1 5 5), .slotWrv (f2 3 1 1 5 6), .slotRdm (f2 3 0 1 5 (7 + x)), .slotWrm (f2 3 0 1 5 (8 + x))]
/-- SlotInstructions: a stale generation, slot 63, a slot that is not trapped, the slot named. -/
theorem witness_slots :
    (RunsAll (slotOps 0x10) (sSt [(1, 7 <<< 32)]) ∧ ((sSt []).slot 0 0).gen ≠ 7 ∧ ((sSt []).slot 0 5).state = .free) ∧
    (RunsAll (slotOps 0x10) (sSt [(1, 63)]) ∧ ((sSt []).slot 0 63).state ≠ .free ∧ ((sSt []).slot 0 63).gen = 0) ∧
    (RunsAll (slotOps 0x10) (sSt []) ∧ ((sSt []).slot 0 0).state = .active ∧ ((sSt []).slot 0 0).gen = 0) ∧
    (let s := trapped [] id
     RunsAll (slotOps 0xF0) s ∧ (s.slot 0 0).state = .trapped ∧ (s.slot 0 0).gen = 0 ∧ 0 < (s.slot 0 0).valloc ∧
     (s.slot 0 0).task = none ∧ (s.slot 0 0).dual = false) := by decide +kernel
theorem witness_slot_restarts :
    (let s := trapped [] id
     RunsAll [.slotResume (f2 3 0 1 0 0), .slotKill (f2 3 0 1 0 1), .slotTdown (f2 3 2 1 0 9)] s ∧
     (s.slot 0 0).epc = (s.slot 0 0).p.pc ∧ (s.slot 0 0).sub = none ∧ s.publishes 0 0 = false ∧
     (s.slot 0 0).member = some ⟨1, 2, 3, 0⟩ ∧ (s.slot 0 0).fetchTrap = false) ∧
    (let s := trapped [] fun sl => { sl with fetchTrap := true }
     Runs (.slotSkip (f2 3 0 1 0 2)) s ∧ (s.slot 0 0).fetchTrap = true) := by decide +kernel

/-! Encoding and fetch. -/

/-- A code line in the page of the group's code. -/
def withCode (line : BitVec 512) (s : State) : State :=
  { s with mem := (List.range 64).filterMap fun j =>
      let b : Byte := bits line (8 * j) 8
      if b = 0 then none else some (0x10000 + j, b) }
/-- EncodeThenDecode, DecodeThenEncode. -/
theorem witness_encoding :
    (let i := Instr.li ⟨31, 0, 0, 0xFFFFFFFF⟩; wellFormed i = true ∧ (encode i).isSome = true) ∧
    (0xF80000000100#48).toNat < 65536 ^ field 0x0F00#16 8 2 ∧ decode 0x0F00 0xF80000000100 = .ok (.li ⟨31, 0, 0, 0x100⟩) ∧
    field 0x2C00#16 10 6 = 0x0B ∧ field 0xFB00#16 10 6 = 0x3E ∧ field 0xFFFF#16 10 6 = 0x3F ∧
    (field 0x0A17#16 10 6 = 0x02 ∧ field 0x0A17#16 0 8 = 0x17) ∧ field 0x0900#16 10 6 = 0x02 ∧ field 0x0900#16 8 2 = 1 ∧
    (∀ r ∈ opcodeMap, listedLen r.1 0xFF = none ∨ r.1 = 0x0A ∨ r.1 = 0x1B) ∧
    (∀ r ∈ opcodeMap, ∀ fn ∈ r.2.1, listedLen r.1 fn = some r.2.2 ∧ (r.2.2 + 1) % 4 ≠ r.2.2) := by
  decide +kernel
/-- FetchReadsTheLine: a line with a nop, and one that is not well formed. -/
theorem witness_fetch :
    (let s := withCode (lineOf 0 0) (st [])
     s.lineHome s.cur.core s.pc = .ok ⟨0, 0x10000, 0⟩ ∧ s.pkgId = 0 ∧ s.curCore.cached 0x10000 = none ∧
     (∀ j < 8, s.poisoned (0x10000 + 8 * j) = false) ∧ pcReason (BitVec.ofNat 512 (s.readN 0x10000 64)) s.pc = 0) ∧
    (let s := st []
     s.lineHome s.cur.core s.pc = .ok ⟨0, 0x10000, 0⟩ ∧ pcReason (BitVec.ofNat 512 (s.readN 0x10000 64)) s.pc ≠ 0) :=
  ⟨⟨rfl, by decide +kernel⟩, rfl, by decide +kernel⟩
/-- StepRunsInstruction: a path that fetches a nop; an event that is due. -/
theorem witness_step :
    (let s := withCode (lineOf 0 0) (st [])
     s.chosen = true ∧ s.agenda = [] ∧ s.boundary = .instr ∧ s.curSlot.sub = none ∧ s.curPath.wait = .none ∧
     matrixQueued .nop = false ∧
     s.fetch.toOption.any (fun x => decide (x.1.curPath.wait = .none ∧ x.2.instr = some .nop)) = true) ∧
    (let s := { st [] with agenda := [(3, Instr.clockStep, {})] }; s.agenda = [(3, Instr.clockStep, {})] ∧ 3 ≤ s.clk) :=
  ⟨by decide +kernel, rfl, by decide +kernel⟩
/-- StepRunsInstruction: a path whose wait inside its instruction is over. -/
theorem witness_step_again :
    let s := withCode (lineOf 0 0) { stWith [] fun sl => { sl with p := { sl.p with wait := .matrices } } with chosen := false }
    let w := ({ s with cur := ⟨0, 0, false⟩ } : State).modPath fun p => { p with tried := s.clk + 1 }
    s.agenda = [] ∧ (s.cores.find? fun e => s.turn ≤ e.1).map Prod.fst = some 0 ∧ s.front 0 = some ⟨0, 0, false⟩ ∧
    w.curPath.wait.issued = true ∧ w.boundary = .instr ∧ w.curSlot.sub = none ∧
    w.fetch.toOption.any (fun x => decide (x.2.instr = some .nop)) = true := by
  refine ⟨rfl, ?_, ?_, ?_, ?_, ?_, ?_⟩ <;> decide +kernel
/-- SlotInstructions: slot.skip of a slot whose line can be read. -/
theorem witness_slot_skip :
    let s := withCode (lineOf 0 0) (trapped [] id)
    (s.slot 0 0).state = .trapped ∧ (s.slot 0 0).dual = false ∧ (s.slot 0 0).sub = none ∧ (s.slot 0 0).fetchTrap = false ∧
    (match s.skipTarget (s.slot 0 0) with | .ok (some _) => true | _ => false) = true ∧
    Runs (.slotSkip (f2 3 0 1 0 2)) s := by decide +kernel

/-! WellFormed: a term for each check, which the check refuses. -/

def refused (l : List Instr) : Bool := l.all fun i => !wellFormed i
/-- R36, R42, R37, R40 (reserved fields, compact registers, branch heads, immediate ranges). -/
theorem test_refuses_scalar : refused
    [.movc ⟨16, 0, 0⟩, .movc ⟨0, 16, 0⟩, .movc ⟨0, 0, 1⟩, .addc ⟨16, 0, 0⟩, .addc ⟨0, 16, 0⟩, .add (f2 1 2 3 4), .add (f2 1 2 3 0 1),
     .min (f2 1 2 3 4), .min (f2 1 2 3 0 2), .sel (f2 1 2 3 4 1), .cmp (f2 1 2 3 1), .cmp (f2 1 2 3 0 16), .clz (f2 1 2 1 0),
     .clz (f2 1 2 0 1), .clz (f2 1 2 0 0 1), .bext (f2 1 2 1 0), .bins (f2 1 2 3 1), .li ⟨1, 1, 0, 0⟩, .li ⟨1, 0, 1, 0⟩,
     .addi ⟨1, 1, 1, 0⟩, .shli ⟨1, 1, 0, 64⟩, .shri ⟨1, 1, 1, 0⟩, .cmpi ⟨1, 1, 16, 0⟩, .sid (f2 1 0 0 0 0x16), .sid (f2 1 1 0 0),
     .addr ⟨1, 1, 3, 0⟩, .addr ⟨1, 1, 4, 0⟩, .fadd (f2 1 2 3 0 2), .fadd (f2 1 2 3 0 0x4A), .fadd (f2 1 2 3 1 0xA), .fma (f2 1 2 3 4 7),
     .fsqrt (f2 1 2 3 0 0xA), .fmin (f2 1 2 3 0 0x1A), .fmin (f2 1 2 3 0 2), .fcmp (f2 1 2 3 0 0x80A), .fcmp (f2 1 2 3 0 0x102),
     .fcvt (f2 1 2 0 0 0x203), .fcvt (f2 1 2 0 0 0xF0A), .fcvt (f2 1 2 0 0 0xA0F), .fclass (f2 1 2 0 0 7), .fclass (f2 1 2 0 0 15)] =
    true := by decide +kernel
theorem test_refuses_control : refused
    [.br ⟨1, 0⟩, .call ⟨1, 0⟩, .bc 0 ⟨1, 2, 1, 0⟩, .loop ⟨1, 0, 1, 0⟩, .loop ⟨1, 1, 1, 1⟩, .loop ⟨0, 0, 1, 1⟩, .jr (f2 1 1 0 0),
     .callr (f2 0 1 1 0), .ret (f2 0 1 0 0), .brd ⟨1, 1, 0, 1, 0, 1⟩, .brd ⟨1, 0, 0, 0, 0, 1⟩, .brd ⟨1, 0, 0, 1, 0, 0⟩,
     .trap 1 ⟨1, 0, 0⟩, .trap 1 ⟨0, 0, 1⟩, .fence 0 2 ⟨0, 0, 0⟩, .fence 4 2 ⟨0, 0, 0⟩, .fence 1 10 ⟨0, 0, 0⟩, .fence 1 2 ⟨1, 0, 0⟩] =
    true := by decide +kernel
/-- R125, R126, R39, R113 (types, reserved operand fields, SAT, rounding, register pairs, masks). -/
theorem test_refuses_vector : refused
    [.vadd ⟨0, 0, 0, 0, 0, 12, 0, 0⟩, .vadd ⟨0, 0, 1, 128, 0, 2, 0, 0⟩, .vadd ⟨0, 0, 0, 1, 0, 2, 0, 0⟩, .vadd ⟨1, 0, 0, 0, 0, 3, 0, 0⟩,
     .vadd ⟨0, 1, 0, 0, 0, 3, 0, 0⟩, .vadd ⟨0, 0, 0, 0, 0, 10, 0, 1⟩, .vadd ⟨0, 0, 0, 0, 0, 2, 1, 0⟩, .vadd ⟨0, 0, 0, 0, 0, 2, 0, 2⟩,
     .vfma ⟨0, 0, 0, 160, 0, 2, 0, 0⟩, .vmulh ⟨0, 0, 0, 0, 0, 10, 0, 0⟩, .vmin ⟨0, 0, 0, 0, 0, 2, 0, 1⟩, .vabs ⟨0, 0, 1, 0, 0, 2, 0, 0⟩,
     .vdiv ⟨0, 0, 0, 0, 0, 2, 0, 1⟩, .vsqrt ⟨0, 0, 0, 0, 0, 2, 0, 0⟩, .vdot ⟨0, 0, 0, 0, 0, 2, 0, 0⟩, .vand ⟨0, 0, 0, 0, 0, 10, 0, 0⟩,
     .vnot ⟨0, 0, 1, 0, 0, 2, 0, 0⟩, .vcmp ⟨0, 0, 0, 0, 0, 2, 0, 0⟩, .vcmp ⟨16, 0, 0, 0, 0, 2, 0, 0⟩, .vcmp ⟨1, 0, 0, 0, 0, 2, 0, 6⟩,
     .vcmp ⟨1, 0, 0, 0, 0, 10, 0, 8⟩, .vsel ⟨0, 0, 0, 0, 0, 12, 0, 0⟩, .vsel ⟨0, 0, 0, 0, 0, 2, 1, 0⟩] = true := by decide +kernel
theorem test_refuses_lanes : refused
    [.vcvt ⟨0, 0, 0, 0, 0, 15, 0, 0⟩, .vcvt ⟨0, 0, 1, 0, 0, 2, 0, 0⟩, .vcvt ⟨0, 0, 0, 1, 0, 2, 0, 0⟩, .vcvt ⟨0, 0, 0, 0, 0, 8, 0, 16⟩,
     .vcvt ⟨0, 0, 0, 128, 0, 10, 0, 16⟩, .vcvt ⟨0, 1, 0, 0, 0, 2, 0, 3⟩, .vpack ⟨1, 0, 0, 0, 0, 1, 0, 0⟩, .vpack ⟨8, 0, 0, 0, 1, 1, 0, 0⟩,
     .vpack ⟨8, 0, 0, 0, 0, 2, 0, 0⟩, .vunpk ⟨0, 1, 0, 0, 0, 1, 0, 0⟩, .vlut ⟨0, 0, 0, 0, 0, 0, 0, 0⟩, .vlut ⟨0, 0, 0, 0, 0, 15, 1, 0⟩,
     .vbcast ⟨0, 0, 0, 0, 0, 2, 0, 0⟩, .vbcast ⟨0, 1, 0, 128, 0, 2, 0, 0⟩, .vbcast ⟨0, 0, 0, 128, 0, 14, 0, 0⟩, .vlane ⟨0, 0, 0, 128, 0, 10, 0, 0⟩,
     .vperm ⟨0, 0, 0, 0, 0, 1, 0, 0⟩, .vperm ⟨0, 0, 0, 1, 0, 2, 0, 0⟩, .vshuf ⟨0, 0, 0, 128, 0, 2, 0, 7⟩, .vshuf ⟨0, 0, 0, 0, 0, 2, 0, 0⟩,
     .vshuf ⟨0, 0, 0, 128, 0, 2, 0, 1⟩, .vshuf ⟨0, 0, 1, 0, 0, 3, 0, 3⟩, .vcomp ⟨0, 0, 0, 0, 0, 4, 0, 0⟩, .vexpd ⟨0, 0, 0, 0, 0, 2, 0, 1⟩,
     .vext ⟨32, 0, 0, 0, 0, 2, 0, 0⟩, .vext ⟨0, 0, 128, 0, 0, 2, 0, 0⟩, .vext ⟨0, 0, 0, 0, 1, 2, 0, 0⟩, .vins ⟨0, 128, 0, 128, 0, 2, 0, 0⟩,
     .vins ⟨0, 0, 0, 0, 0, 2, 0, 0⟩, .vred ⟨32, 0, 0, 0, 0, 2, 0, 0⟩, .vred ⟨0, 0, 0, 0, 0, 10, 0, 3⟩, .vred ⟨0, 0, 0, 0, 0, 2, 0, 6⟩,
     .vscan ⟨1, 0, 0, 0, 0, 3, 0, 0⟩, .mand (f2 0 1 2 0), .mand (f2 1 16 2 0), .mnot ⟨0, 1, 0⟩, .mpop ⟨1, 16, 0⟩, .mset ⟨0, 1, 0⟩,
     .mset ⟨1, 1, 4⟩, .mtest (f2 1 2 3 0 2), .mtest (f2 1 2 3 0 4)] = true := by decide +kernel
/-- R205, R39, R207, R213, R216 to R218 (address form, scope, order, type, mode, registers of an access). -/
theorem test_refuses_memory : refused
    [.ld ⟨1, 2, 0, 3, 0, 0, 3, 0, 0⟩, .ld ⟨1, 2, 0, 0, 10, 1, 3, 0, 0⟩, .ld ⟨1, 2, 0, 0, 2, 0, 3, 0, 0⟩, .ld ⟨32, 2, 0, 0, 0, 0, 3, 0, 0⟩,
     .ld ⟨1, 2, 0, 0, 0, 0, 14, 0, 0⟩, .ld ⟨1, 2, 0, 0, 2, 2, 3, 0, 0⟩, .ld ⟨1, 2, 0, 0, 0, 0, 3, 1, 0⟩, .st ⟨1, 2, 0, 0, 2, 1, 3, 0, 0⟩,
     .ldf ⟨1, 2, 0, 0, 0, 0, 2, 0, 0⟩, .stf ⟨1, 2, 0, 0, 0, 0, 3, 2, 0⟩, .fe ⟨1, 2, 0, 0, 0, 1, 3, 0, 0⟩, .pref ⟨1, 2, 0, 0, 0, 0, 3, 0, 0⟩,
     .vld ⟨1, 2, 0, 0, 0, 0, 3, 0, 0⟩, .vst ⟨0, 2, 0, 0, 2, 1, 2, 0, 0⟩, .vgat ⟨0, 2, 0, 0, 0, 0, 2, 0, 0⟩, .vgat ⟨0, 2, 1, 0, 0, 0, 14, 0, 0⟩,
     .vgat ⟨2, 2, 3, 0, 0, 0, 3, 0, 0⟩, .vsct ⟨2, 2, 2, 0, 0, 0, 3, 0, 0⟩, .amo ⟨1, 2, 0, 0, 0, 0, 4, 0, 0⟩, .amo ⟨1, 2, 0, 0, 0, 0, 3, 7, 0⟩,
     .famo ⟨1, 2, 0, 0, 0, 0, 3, 1, 0⟩, .famo ⟨1, 2, 0, 0, 0, 0, 10, 2, 0⟩, .cas ⟨31, 2, 0, 0, 0, 0, 3, 0, 0⟩, .cas ⟨0, 2, 0, 0, 0, 0, 3, 0, 0⟩,
     .vamo ⟨0, 2, 0, 0, 0, 0, 2, 0, 0⟩, .vamo ⟨0, 2, 1, 0, 0, 0, 2, 7, 0⟩, .dec ⟨1, 2, 0, 0, 0, 0, 3, 0, 0⟩, .dec ⟨1, 2, 0, 0, 0, 1, 7, 0, 0⟩] =
    true := by decide +kernel
/-- Tables 14-1, 11-1, 6-6, 12-2, 11-6, 13-4, 13-11 and 7-1: the operands of the remaining instructions. -/
theorem test_refuses_units : refused
    [.barInit ⟨0, 0, 16⟩, .barInv ⟨0, 1, 0⟩, .cbar ⟨0, 1, 0⟩, .qpush ⟨0, 1, 0⟩, .qstop ⟨1, 0, 0⟩, .qstat ⟨1, 0, 8⟩, .qinit ⟨1, 2, 8⟩,
     .midx ⟨1, 2, 0, 0⟩, .midx ⟨0, 2, 4, 0⟩, .midx ⟨0, 2, 1, 0⟩, .midx ⟨0, 0, 1, 65536⟩, .midx ⟨0, 0, 2, 1⟩, .midx ⟨0, 2, 3, 1⟩,
     .mopen ⟨16, 0, 0, 0⟩, .mopen ⟨1, 0, 0, 1024⟩, .mopen ⟨1, 0, 0, 0x10⟩, .mstep ⟨1, 29, 0, 16⟩, .mstep ⟨1, 0, 0, 16⟩, .mstep ⟨1, 1, 0, 0⟩,
     .mstep ⟨1, 1, 0, 513⟩, .mstep ⟨1, 1, 0, 0x410⟩, .mclose ⟨16, 0, 0, 0⟩, .mzero ⟨1, 0, 0, 1⟩, .mst ⟨1, 0, 2, 0⟩, .mld ⟨16, 0, 0, 0⟩,
     .mtab ⟨0, 1, 9, 0⟩, .mtab ⟨0, 31, 8, 0⟩, .mwait ⟨0, 0, 0, 1⟩, .msave ⟨1, 0, 1, 0⟩, .mrest ⟨0, 0, 2, 0⟩, .cpy (f2 1 0 0 0),
     .cpy (f2 1 29 0 0), .cpst (f2 1 2 0 0 2), .cpwait (f2 1 2 0 0 1), .mcjoin (f2 1 2 3 4), .mcleave (f2 1 2 3 0), .pub ⟨1, 1, 0⟩,
     .unpub ⟨1, 0, 0⟩, .rdv ⟨1, 0, 0⟩, .subChannel (f2 1 2 1 0), .resub (f2 1 2 0 0 64), .send (f2 1 2 0 0), .send (f2 0 2 0 0 248),
     .send (f2 0 2 0 0 0x701), .send (f2 0 2 27 0 0x601), .send (f2 0 2 1 0 1), .sendjc (f2 1 2 0 3), .invoke (f2 1 2 0 3 6),
     .invf (f2 1 2 3 4 1), .resolve (f2 1 2 3 4), .fkplace (f2 0 2 0 0), .fkplace (f2 31 2 0 0), .fkget (f2 1 2 0 3 2), .fkstate (f2 1 2 3 0),
     .fkbreak (f2 1 2 0 0 256), .lease (f2 1 2 0 0 4), .lrel (f2 1 2 0 0 1), .epush (f2 1 2 0 0 0x200), .launch (f2 1 2 3 0),
     .ctlRd (f2 1 1 0 0 1), .ctlRd (f2 1 0 0 0 0x11), .ctlRd (f2 1 0 1 0 0x440), .ctlRd (f2 1 0 1 0 1), .ctlWr (f2 1 2 0 0 0),
     .ctlWrStatus (f2 1 2 0 0 1), .slotRds (f2 1 2 1 0 3), .slotRdm (f2 1 0 1 16 7), .slotRdm (f2 1 0 1 0 0x107), .slotKill (f2 1 0 1 0 0x201),
     .slotResume (f2 1 0 1 0 1), .tlbiMark (f2 1 2 3 0 10), .tlbiMark (f2 1 2 3 4 2), .tlbiConf (f2 1 2 0 0)] = true := by decide +kernel

/-! Words written out from Tables 2-5 and 2-9, the head as OP, TL and FN, the tail field by field. -/

def head (op tl fn : Nat) : Half := BitVec.ofNat 16 (op * 1024 + tl * 256 + fn)
def w1 (d a x : Nat) : Tail := BitVec.ofNat 48 (d * 2048 + a * 64 + x)
def w2 (d a b c x : Nat) : Tail := BitVec.ofNat 48 (d * 2 ^ 27 + a * 2 ^ 22 + b * 2 ^ 17 + c * 2 ^ 12 + x)
def w3 (d a x imm : Nat) : Tail := BitVec.ofNat 48 (d * 2 ^ 43 + a * 2 ^ 38 + x * 2 ^ 32 + imm)
def wv (vd va vb vc mask ty rnd x : Nat) : Tail :=
  BitVec.ofNat 48 (vd * 2 ^ 40 + va * 2 ^ 32 + vb * 2 ^ 24 + vc * 2 ^ 16 + mask * 4096 + ty * 256 + rnd * 64 + x)
def wm (data base idx form scope order ty mode off : Nat) : Tail :=
  BitVec.ofNat 48 (data * 2 ^ 40 + base * 2 ^ 35 + idx * 2 ^ 30 + form * 2 ^ 28 + scope * 2 ^ 24 + order * 2 ^ 22 + ty * 2 ^ 18 +
    mode * 2 ^ 14 + off)
def wordsRead (l : List ((Half × Tail) × Instr)) : Bool := l.all fun e => (decode e.1.1 e.1.2).toOption == some e.2
theorem test_words_scalar : wordsRead
    [((head 0x00 0 0, 0), .nop), ((head 0x00 0 1, 0), .yield), ((head 0x00 0 2, 0), .endGroup), ((head 0x00 0 3, 0), .done),
     ((head 0x00 0 4, 0), .join), ((head 0x00 0 5, 0), .ifence), ((head 0x00 0 6, 0), .uret), ((head 0x00 0 7, 0), .eret),
     ((head 0x01 1 0, w1 3 4 0), .movc ⟨3, 4, 0⟩), ((head 0x01 1 1, w1 3 4 0x3F), .addc ⟨3, 4, 0x3F⟩),
     ((head 0x02 2 1, w2 1 2 3 0 0), .sub (f2 1 2 3 0)), ((head 0x02 2 0x0F, w2 31 30 29 0 1), .rem (f2 31 30 29 0 1)),
     ((head 0x02 2 0x16, w2 1 2 3 0 0xFC1), .bins (f2 1 2 3 0 0xFC1)), ((head 0x03 3 9, w3 1 2 9 0x80000000), .cmpi ⟨1, 2, 9, 0x80000000⟩),
     ((head 0x04 2 0, w2 5 0 0 0 0x13), .sid (f2 5 0 0 0 0x13)), ((head 0x05 2 9, w2 1 2 0 0 0xA1B), .fcvt (f2 1 2 0 0 0xA1B)),
     ((head 0x07 2 0x0D, BitVec.ofNat 48 (1 * 2 ^ 27 + 2 * 2 ^ 22 + 0x1FFFF * 32 + 31)), .bc 13 ⟨1, 2, 0x1FFFF, 31⟩),
     ((head 0x07 2 0x10, BitVec.ofNat 48 (1 * 2 ^ 27 + 32 + 2)), .loop ⟨1, 0, 1, 2⟩),
     ((head 0x08 3 0, BitVec.ofNat 48 (3 * 2 ^ 44 + 5 * 2 ^ 21 + 6 * 2 ^ 16 + 7 * 32 + 8)), .brd ⟨3, 0, 5, 6, 7, 8⟩),
     ((head 0x09 2 2, 0), .ret (f2 0 0 0 0))] = true := by decide +kernel
theorem test_words_vector : wordsRead
    [((head 0x10 3 4, wv 1 2 3 4 5 10 3 0), .vfma ⟨1, 2, 3, 4, 5, 10, 3, 0⟩), ((head 0x11 3 7, wv 15 2 3 0 1 2 0 5), .vcmp ⟨15, 2, 3, 0, 1, 2, 0, 5⟩),
     ((head 0x12 3 7, wv 2 4 0 135 0 3 0 2), .vshuf ⟨2, 4, 0, 135, 0, 3, 0, 2⟩), ((head 0x13 3 1, wv 5 4 0 0 2 1 0 0), .vscan ⟨5, 4, 0, 0, 2, 1, 0, 0⟩),
     ((0x5106, 0x19C0), .mset ⟨3, 7, 0⟩), ((head 0x14 2 7, w2 1 2 3 0 1), .mtest (f2 1 2 3 0 1)),
     ((head 0x18 3 0, wm 1 2 3 1 9 1 3 0 0x3FFF), .ld ⟨1, 2, 3, 1, 9, 1, 3, 0, 0x3FFF⟩),
     ((head 0x19 3 3, wm 200 2 3 0 4 2 10 7 1), .vsct ⟨200, 2, 3, 0, 4, 2, 10, 7, 1⟩),
     ((head 0x1A 3 2, wm 30 2 3 2 9 3 7 0 5), .cas ⟨30, 2, 3, 2, 9, 3, 7, 0, 5⟩), ((head 0x1A 3 3, wm 1 2 0 0 0 0 7 0 0), .dec ⟨1, 2, 0, 0, 0, 0, 7, 0, 0⟩),
     ((head 0x1B 1 0x25, 0), .fence 2 5 ⟨0, 0, 0⟩)] = true := by decide +kernel
/-- The words of the examples of 06, 07 and 11 among them. -/
theorem test_words_units : wordsRead
    [((head 0x1C 1 3, w1 1 2 15), .barSync ⟨1, 2, 15⟩), ((head 0x1C 1 5, w1 1 0 0), .cbar ⟨1, 0, 0⟩), ((0x7504, 0x2141), .qinit ⟨4, 5, 1⟩),
     ((0x7500, 0x1801), .qpush ⟨3, 0, 1⟩), ((0x7501, 0x4181), .qpop ⟨8, 6, 1⟩), ((0x7502, 0x0001), .qstop ⟨0, 0, 1⟩),
     ((0x8300, 0x018000000000), .midx ⟨0, 6, 0, 0⟩), ((0x8301, 0x180000000299), .mopen ⟨3, 0, 0, 0x299⟩),
     ((0x8302, 0x190000008010), .mstep ⟨3, 4, 0, 0x8010⟩), ((0x8303, 0x180000000000), .mclose ⟨3, 0, 0, 0⟩),
     ((0x8304, 0x190000001000), .mst ⟨3, 4, 0, 0x1000⟩), ((0x8308, 0), .mwait ⟨0, 0, 0, 0⟩), ((head 0x21 2 2, w2 1 2 0 0 0), .cpwait (f2 1 2 0 0)),
     ((head 0x22 2 4, w2 1 2 0 0 63), .resub (f2 1 2 0 0 63)), ((head 0x23 2 0, w2 0 2 3 0 0x2F7), .send (f2 0 2 3 0 0x2F7)),
     ((head 0x24 2 2, w2 1 2 0 3 1), .fkget (f2 1 2 0 3 1)), ((head 0x25 2 3, w2 1 2 0 0 0x1FF), .epop (f2 1 2 0 0 0x1FF)),
     ((head 0x26 2 1, w2 1 2 0 0 0), .lwait (f2 1 2 0 0)), ((head 0x28 2 1, w2 1 2 0 0 0x81), .ctlWrClkfix (f2 1 2 0 0 0x81)),
     ((head 0x28 2 2, w2 1 2 3 0 7), .tlbiMark (f2 1 2 3 0 7)), ((head 0x28 2 4, w2 1 2 3 0 9), .slotTdown (f2 1 2 3 0 9))] = true := by
  decide +kernel

/-! Single steps. The expected results are those of the spec's examples and tables, or worked out from their rules by hand. -/

/-- The example of R96: the neighbour to the right, and no neighbour at x 15. -/
theorem test_addr_neighbour :
    let s := fun (x : Nat) =>
      let c := 2 * 160 + 3 * 16 + x
      let s := (st []).modSlot c 0 fun _ => group [(4, 0x8000200000000100)]
      { s with cur := ⟨c, 0, false⟩, pkgId := 0x012 }
    (after (.addr ⟨5, 4, 1, 0x40⟩) (s 7)).sreg 5 = 0x8125060000000140 ∧
    (after (.addr ⟨5, 4, 1, 0x40⟩) (s 15)).curSlot.faddr = 0x8000200000000100 ∧
    (after (.addr ⟨5, 4, 1, 0x40⟩) (s 15)).sreg 5 = 0 := by decide +kernel
/-- The example of 04: `li` and `lih`. -/
theorem test_li_lih : (after (.lih ⟨4, 4, 0, 0x80002000⟩) (after (.li ⟨4, 0, 0, 0x100⟩) (st []))).sreg 4 = 0x8000200000000100 := by
  decide +kernel
/-- R56: division by zero, and the one quotient that overflows. -/
theorem test_div_corners :
    (after (.div (f2 3 1 2 0)) (st [(1, 7)])).sreg 3 = BitVec.allOnes 64 ∧ (after (.rem (f2 3 1 2 0)) (st [(1, 7)])).sreg 3 = 7 ∧
    (after (.div (f2 3 1 2 0)) (st [(1, BitVec.intMin 64), (2, BitVec.allOnes 64)])).sreg 3 = BitVec.intMin 64 ∧
    (after (.rem (f2 3 1 2 0)) (st [(1, -7), (2, 2)])).sreg 3 = -1 := by decide +kernel
/-- R87: a shift by the full width uses s[b] modulo 64; the high half of a signed product. -/
theorem test_shift_mulh :
    (after (.shl (f2 3 1 2 0)) (st [(1, 5), (2, 64)])).sreg 3 = 5 ∧
    (after (.mulh (f2 3 1 1 0)) (st [(1, -1)])).sreg 3 = 0 ∧
    (after (.mulh (f2 3 1 1 0 1)) (st [(1, -1)])).sreg 3 = 0xFFFFFFFFFFFFFFFE := by decide +kernel
/-- R90: 1.5 + 2.25 and 1 / 3 in f32, rounded to nearest and up. -/
theorem test_float :
    (after (.fadd (f2 3 1 2 0 0xA)) (st [(1, 0x3FC00000), (2, 0x40100000)])).sreg 3 = 0x40700000 ∧
    (after (.fdiv (f2 3 1 2 0 0xA)) (st [(1, 0x3F800000), (2, 0x40400000)])).sreg 3 = 0x3EAAAAAB ∧
    (after (.fdiv (f2 3 1 2 0 0x1A)) (st [(1, 0x3F800000), (2, 0x40400000)])).sreg 3 = 0x3EAAAAAA := by decide +kernel
/-- The example of R129: one lane of `vdot.i8`. -/
theorem test_vdot :
    let s := stWith [] fun sl => { sl with vregs := [(5, lanes [10]), (6, lanes [0x8003FE01]), (7, lanes [0x80060504])] }
    lane ((after (.vdot ⟨5, 6, 7, 5, 0, 0, 0, 0⟩) s).vreg 5) 0 = 16406 := by decide +kernel
/-- The example of R140 and R141: a sum by the tree and by the prefix. -/
theorem test_vred_vscan :
    let s := stWith [] fun sl => { sl with vregs := [(4, lanes [30000, 10000, 7, 0xFFFF]), (5, lanes [1, 2, 3, 4])], mregs := [(2, 11)] }
    (after (.vred ⟨3, 4, 0, 0, 2, 1, 0, 0⟩) s).sreg 3 = 0xFFFFFFFFFFFF9C3F ∧
    let v := (after (.vscan ⟨5, 4, 0, 0, 2, 1, 0, 0⟩) s).vreg 5
    lane v 0 = 30000 ∧ lane v 1 = -25536 ∧ lane v 2 = 3 ∧ lane v 3 = -25537 ∧ lane v 4 = 0 := by decide +kernel
/-- The example of R143: `mset.pre`, `mand` with a live mask, `mfirst`. -/
theorem test_masks :
    let s := after (.mset ⟨3, 7, 0⟩) (stWith [(7, 48)] fun sl => { sl with p := { sl.p with live := allLanes <<< 32 } })
    let t := after (.mfirst ⟨8, 4, 0⟩) (after (.mand (f2 4 3 0 0)) s)
    s.mreg 3 = 0xFFFFFFFFFFFF ∧ t.mreg 4 = 0xFFFF00000000 ∧ t.sreg 8 = 32 := by decide +kernel
/-- The example of R187: `trap` with its code. -/
theorem test_trap :
    let sl := (after (.trap 0x21 ⟨0, 4, 0⟩) (st [(4, 0x1234)])).curSlot
    sl.cause = 0x18 ∧ sl.finfo = 0x21 ∧ sl.faddr = 0x1234 ∧ sl.epc = 0x10002 ∧ sl.state = .trapped := by decide +kernel
/-- R195, R206: an offset counts elements; bytes are stored least significant first; a signed load of the middle of them. -/
theorem test_store_load :
    let t := after (.st ⟨1, 2, 0, 0, 0, 0, 3, 0, 0x20⟩) (st [(1, 0x0102030405F60708), (2, 0x10000)])
    t.byte 0x10100 = 8 ∧ t.byte 0x10107 = 1 ∧ (after (.ld ⟨3, 2, 0, 0, 0, 0, 0, 0, 0x102⟩) t).sreg 3 = -10 := by decide +kernel
/-- R215: `amo` of an i32 maximum gives the old value; R216: `cas` that does not match. -/
theorem test_atomics :
    let s := after (.st ⟨1, 2, 0, 0, 0, 0, 3, 0, 0⟩) (st [(1, 0xFFFFFFFF), (2, 0x10000), (4, 5)])
    let t := after (.amo ⟨4, 2, 0, 0, 0, 0, 2, 6, 0⟩) s
    (after (.cas ⟨4, 2, 0, 0, 0, 0, 3, 0, 0⟩) s).readN 0x10000 8 = 0xFFFFFFFF ∧
    (after (.cas ⟨4, 2, 0, 0, 0, 0, 3, 0, 0⟩) s).sreg 4 = 0xFFFFFFFF ∧ t.sreg 4 = BitVec.allOnes 64 := by decide +kernel
/-- The example of R74: a ZF8 block of 26 bytes. -/
theorem test_zf8_block :
    let block : List Byte := [0xA3, 0x00] ++ List.replicate 14 0 ++ [0x00, 0x5C, 0, 0, 0, 0]
    zSize 0x4247E000 = 26 ∧ ((zf8Values [0, 0, 0x8888884213888888] 0x4247E000 block).getD []).map (f32.encode .rne) =
      [0x3F300000, 0xBFA00000, 0x40000000] ++ List.replicate 29 0x3F000000 := by decide +kernel
/-- The example of R77: a chunk of sixteen products of −128 by −128, and of −128 by 1. -/
theorem test_chunks :
    chunkInt 0 (List.replicate 16 (-128), List.replicate 16 (-128)) = 0x40000 ∧
    chunkInt 0 (List.replicate 16 (-128), List.replicate 16 1) = 0xFFFFF800 := by decide +kernel
/-- R353, R349: the last arrival at a named barrier begins its next generation. -/
theorem test_barrier :
    let s := after (.barInit ⟨0, 1, 2⟩) (st [(1, 1)])
    (after (.barArr ⟨3, 0, 2⟩) s).sreg 3 = 0x100000000 := by decide +kernel
/-- The first words of the example of 11: the queue register is open for its writers and readers. -/
theorem test_qinit :
    let t := after (.qinit ⟨4, 5, 1⟩) (st [(4, 1), (5, 2)])
    (after (.qstat ⟨6, 0, 1⟩) t).sreg 6 = 0x50 := by decide +kernel

/-! Memory. -/

/-- A larder address of core 0. -/
def larder (off : Nat) : Word := larderAddr 0 0 0 0 off
/-- The word of the larder of core 0 at offset 0x40 holds `v`. -/
def cell (v : Nat) (s : State) : State := { s with mem := cells (2 ^ 48 + 0x40) v ++ s.mem }
/-- That word is empty. -/
def empty (s : State) : State := { s with empties := [(2 ^ 48 + 0x40) / 8] }
def m3 (data base : Nat) (ty : BitVec 4) (mode : BitVec 4 := 0) (idx : BitVec 5 := 0) : M3 :=
  ⟨BitVec.ofNat 8 data, BitVec.ofNat 5 base, idx, 0, 0, 0, ty, mode, 0⟩
def larderHome0 : Home := ⟨0, 2 ^ 48 + 0x40, 0⟩
/-- AccessTraps: no address can be formed in a task's cluster; no translation; a misaligned larder address. -/
theorem witness_access_traps :
    (let o : M3 := { m3 1 2 3 with form := 2 }
     RunsAll [.ld o, .st o, .cas o, .amo o, .fe o] (taskSt []) ∧ Runs (.famo { o with ty := 10, mode := 1 }) (taskSt []) ∧
     (taskSt []).convert 0 ((taskSt []).disp o true 8) o.form = none) ∧
    (let s := st [(2, 0x7000000)]; let o := m3 1 2 3
     Runs (.ld o) s ∧ s.convert (s.sreg 2) (s.disp o true 8) 0 = some 0x7000000 ∧
     (s.accessFault s.who [(accLd o).use 0x7000000]).isSome = true) ∧
    (let s := st [(2, larder 0x41)]; let o := m3 1 2 3
     RunsAll [.ld o, .st o, .cas o, .amo o, .fe o] s ∧ s.convert (s.sreg 2) (s.disp o true 8) 0 = some (larder 0x41) ∧
     isLarderAddr (larder 0x41) = true ∧ ((accLd o).use (larder 0x41)).row1 = none ∧ (larder 0x41).toNat % 8 ≠ 0) := by
  decide +kernel
/-- LoadsStoresAtomics, in a Vault and in a larder. -/
theorem witness_accesses (b : Bool) :
    let a : Word := if b then larder 0x40 else 0x10100
    let h : Home := if b then larderHome0 else ⟨0, 0x10100, 0⟩
    let s := cell 7 (st [(2, a), (1, 7)])
    let o := m3 1 2 3
    let f : M3 := { m3 1 2 10 with mode := 1 }
    RunsAll [.ld o, .st o, .amo o, .cas o, .famo f] s ∧ Reaches s o (accLd o) false 8 h ∧ Reaches s o (accSt o s) false 8 h ∧
    Reaches s o (accAmo o s) false 8 h ∧ Reaches s f (accAmo f s) false 4 h ∧ Reaches s o (accCas o s) false 8 h := by
  cases b <;>
  exact ⟨by decide +kernel, reaches_of _ (by rfl) (by decide +kernel), reaches_of _ (by rfl) (by decide +kernel),
    reaches_of _ (by rfl) (by decide +kernel), reaches_of _ (by rfl) (by decide +kernel), reaches_of _ (by rfl) (by decide +kernel)⟩
/-- SyncInstructions: a full word, an empty one, in a group and in a task. -/
theorem witness_sync_full :
    let s := cell 7 (st [(2, larder 0x40), (1, 7)])
    let e := empty s
    RunsAll [.ldf (m3 1 2 3), .ldf (m3 1 2 3 1), .stf (m3 1 2 3), .stf (m3 1 2 3 1), .fe (m3 1 2 3), .fe (m3 1 2 3 1)] s ∧
    s.shelfOf larderHome0.loc = [] ∧ s.full larderHome0.loc = true ∧ e.full larderHome0.loc = false ∧ s.isGroup = true ∧
    Reaches s (m3 1 2 3) (accLdf (m3 1 2 3)) true 8 larderHome0 ∧ Reaches s (m3 1 2 3 1) (accStf (m3 1 2 3 1) s) true 8 larderHome0 ∧
    Reaches e (m3 1 2 3) (accStf (m3 1 2 3) e) true 8 larderHome0 ∧ Reaches s (m3 1 2 3) (accFe (m3 1 2 3)) false 8 larderHome0 ∧
    Reaches e (m3 1 2 3) (accLdf (m3 1 2 3)) true 8 larderHome0 ∧ (e.shelfOf larderHome0.loc).length < shelfSize larderHome0.loc := by
  refine ⟨?_, ?_, ?_, ?_, ?_, reaches_of _ rfl ?_, reaches_of _ rfl ?_, reaches_of _ rfl ?_, reaches_of _ rfl ?_, reaches_of _ rfl ?_, ?_⟩ <;>
    decide +kernel
theorem witness_sync_task :
    let e := empty (taskSt [(2, larder 0x40)])
    Runs (.ldf (m3 1 2 3 0 5)) e ∧ Reaches e (m3 1 2 3 0 5) (accLdf (m3 1 2 3 0 5)) true 8 larderHome0 ∧ e.isGroup = false ∧
    RunsAll [.ldf (m3 1 2 3), .stf (m3 1 2 3)] e ∧
    (let o := m3 1 2 3 0 5
     let s := cell 7 (taskSt [(2, larder 0x40)])
     Runs (.stf o) s ∧ o.mode = 0 ∧ s.full larderHome0.loc = true ∧ Reaches s o (accStf o s) true 8 larderHome0) ∧
    (let s := cell 7 (st [(2, larder 0x40)]); Reaches s (m3 1 2 3) (accStf (m3 1 2 3) s) true 8 larderHome0) := by
  refine ⟨?_, reaches_of _ rfl ?_, ?_, ?_, ⟨?_, ?_, ?_, reaches_of _ rfl ?_⟩, reaches_of _ rfl ?_⟩ <;> decide +kernel
abbrev decReaches (s : State) : Prop :=
  let o := m3 1 2 7
  Runs (.dec o) s ∧ arrives s (accDec o s) (larder 0x40) larderHome0 ∧ s.effAddr o false false 8 true = .ok (larder 0x40)
def decSt (v : Nat) (n : Word) : State := cell v (st [(2, larder 0x40), (1, n)])
/-- `dec`: a counter above and at the amount, an empty word, a zero counter, a zero amount. -/
theorem witness_dec :
    (∀ s ∈ [decSt 7 6, decSt 7 7, decSt 0 1, decSt 7 0, empty (decSt 7 1)], decReaches s) ∧
    (let s := decSt 7 7
    s.full larderHome0.loc = true ∧ s.readN larderHome0.loc 8 = 7 ∧ s.shelfOf larderHome0.loc = [] ∧ s.poison = [] ∧
    s.chainHead 0 = noLink ∧ (s.core 0).ringCount < (s.core 0).ringSize ∧
    larderHome0.loc + 8 ≤ s.ringLoc 0 (s.core 0).ringSize) := by
  refine ⟨?_, ?_⟩ <;> decide +kernel
/-- The executing slot has a request outstanding at another package. -/
def owing (s : State) : State :=
  { s with reqs := [(1, ⟨0, 5, 0, ⟨.load, 0x10000, 0, 8, 0, 0, 5, 0, s.cur.core, s.cur.slot, 0, false, 0, 0, true, 1, 0, 0, false⟩, .path, 0, 0, true, false, 0⟩)] }
/-- HintsAndOrder: a scope that holds nothing, one with earlier accesses performed, one with an access outstanding. -/
theorem witness_hints :
    RunsAll [.yield, .fence 1 0 ⟨0, 0, 0⟩, .fence 3 9 ⟨0, 0, 0⟩, .pref (m3 0 2 0)] (st []) ∧ strong 0 = false ∧ strong 2 = true ∧
    (st []).waitOver 0 0 (.performed false) = true ∧
    Runs (.fence 2 9 ⟨0, 0, 0⟩) (owing (st [])) ∧ (owing (st [])).waitOver 0 0 (.performed false) = false := by decide +kernel

/-! Vectors and masks. -/

/-- A group with a small live mask, index registers and data. -/
def vecSt (live : Mask) : State :=
  stWith [(2, 0x10000), (3, 5)] fun sl => { sl with
    p := { sl.p with live := live }, vregs := [(6, lanes [0, 4, 8, 4]), (7, lanes [0xFFFFFFFF, 2, 3])], mregs := [(1, 0x55), (2, 0)] }
def vm (data : Nat) (ty mode : BitVec 4) (idx : BitVec 5 := 0) : M3 := ⟨BitVec.ofNat 8 data, 2, idx, 0, 0, 0, ty, mode, 0⟩
/-- VectorMemory: every lane contiguous; two lanes that meet; lanes apart; a nibble type; no lane. -/
theorem witness_vector_memory :
    (let s := vecSt allLanes
     let h := fun (l : Nat) => (⟨0, 0x10000 + 4 * l, 0⟩ : Home)
     RunsAll [.vld (vm 8 2 0), .vst (vm 8 2 0)] s ∧
     LanesReach s (vm 8 2 0) ⟨true, false, false, false⟩ (s.active 0) (contiguous 2) h ∧
     LanesReach s (vm 8 2 0) ⟨false, true, false, false⟩ (s.active 0) (contiguous 2) h) ∧
    (let s := vecSt 15
     let h := fun (l : Nat) => (⟨0, 0x10000 + [0, 4, 8, 4].getD l 0, 0⟩ : Home)
     RunsAll [.vgat (vm 8 2 0 6), .vsct (vm 8 2 1 6)] s ∧
     LanesReach s (vm 8 2 0 6) ⟨true, false, false, true⟩ (s.active 0) (s.gathered (vm 8 2 0 6)) h ∧
     LanesReach s (vm 8 2 1 6) ⟨false, true, false, true⟩ (s.active 1) (s.gathered (vm 8 2 1 6)) h) ∧
    (let s := vecSt 15
     let h := fun (l : Nat) => (⟨0, 0x10000 + l / 2, 0⟩ : Home)
     RunsAll [.vld (vm 8 15 0), .vst (vm 8 15 0), .vst (vm 8 14 2)] s ∧
     LanesReach s (vm 8 15 0) ⟨false, true, false, false⟩ (s.active 0) (contiguous 15) h ∧ s.active 2 = 0) := by
  refine ⟨⟨?_, lanesReach_of _ rfl ?_, lanesReach_of _ rfl ?_⟩, ⟨?_, lanesReach_of _ rfl ?_, lanesReach_of _ rfl ?_⟩, ?_, lanesReach_of _ rfl ?_, ?_⟩ <;>
    decide +kernel
theorem witness_vamo :
    let s := vecSt 7
    let h := fun (l : Nat) => (⟨0, 0x10000 + 4 * l, 0⟩ : Home)
    Runs (.vamo (vm 8 2 0 6)) s ∧ LanesReach s (vm 8 2 0 6) ⟨true, true, false, true⟩ (s.mreg 0) (s.gathered (vm 8 2 0 6)) h ∧
    ∀ l < 128, ∀ k < 128, l ≠ k → (s.mreg 0).getLsbD l = true → (s.mreg 0).getLsbD k = true →
      (h k).loc + 4 ≤ (h l).loc ∨ (h l).loc + 4 ≤ (h k).loc := by
  exact ⟨by decide +kernel, lanesReach_of _ rfl (by decide +kernel), fun l _ k _ _ _ _ => by show 0x10000 + 4 * k + 4 ≤ 0x10000 + 4 * l ∨ 0x10000 + 4 * l + 4 ≤ 0x10000 + 4 * k; omega⟩
/-- VectorArithmetic, VectorLogic: integer, float and 64-bit types, a scalar operand, saturation, masks. -/
theorem witness_vector_arithmetic : RunsAll
    ([Instr.vadd, .vsub, .vmul].flatMap (fun i => [i ⟨1, 6, 7, 0, 1, 2, 0, 1⟩, i ⟨2, 6, 8, 0, 0, 11, 3, 0⟩, i ⟨1, 6, 0, 131, 2, 0, 0, 0⟩]) ++
     [Instr.vmin, .vmax, .vdiv].flatMap (fun i => [i ⟨1, 6, 7, 0, 1, 1, 0, 0⟩, i ⟨1, 6, 7, 0, 0, 10, 0, 0⟩]) ++
     [Instr.vabs, .vneg].flatMap (fun i => [i ⟨1, 6, 0, 0, 1, 3 - 1, 0, 1⟩, i ⟨1, 6, 0, 0, 0, 9, 0, 0⟩]) ++
     [Instr.vsqrt, .vrcp, .vrsq, .vexp2, .vlog2].map (fun i => i ⟨1, 6, 0, 0, 1, 10, 2, 0⟩) ++
     [.vmulh ⟨1, 6, 7, 0, 1, 6, 0, 0⟩, .vfma ⟨1, 6, 7, 8, 1, 2, 0, 1⟩, .vfma ⟨1, 6, 7, 131, 1, 8, 1, 0⟩, .vdot ⟨1, 6, 7, 1, 1, 0, 0, 1⟩,
      .vdot ⟨1, 6, 7, 1, 0, 5, 0, 0⟩, .vnot ⟨1, 6, 0, 0, 1, 4, 0, 0⟩, .vcmp ⟨15, 6, 7, 0, 1, 2, 0, 5⟩, .vcmp ⟨1, 6, 7, 0, 1, 10, 0, 7⟩,
      .vsel ⟨1, 6, 7, 0, 1, 2, 0, 0⟩] ++
     [Instr.vand, .vor, .vxor, .vshl, .vshr, .vsar].map (fun i => i ⟨1, 6, 7, 0, 1, 3 - 2, 0, 0⟩))
    (vecSt 15) := by decide +kernel
/-- LaneMovement, Reductions, Masks. -/
theorem witness_lanes : RunsAll
    ([.vcvt ⟨1, 6, 0, 0, 1, 10, 0, 2⟩, .vcvt ⟨1, 6, 0, 131, 1, 9, 0, 0x1A⟩, .vlut ⟨1, 6, 0, 0, 1, 15, 0, 0⟩, .vbcast ⟨1, 0, 0, 131, 1, 2, 0, 0⟩,
      .vbcast ⟨1, 6, 0, 131, 1, 2, 0, 1⟩, .vlane ⟨1, 0, 0, 131, 1, 2, 0, 0⟩, .vperm ⟨1, 6, 7, 0, 1, 2, 0, 0⟩, .vshuf ⟨1, 6, 0, 131, 1, 2, 0, 0⟩,
      .vshuf ⟨1, 6, 0, 0, 1, 2, 0, 1⟩, .vshuf ⟨1, 6, 0, 131, 1, 2, 0, 2⟩, .vext ⟨31, 6, 127, 0, 0, 2, 0, 0⟩, .vins ⟨1, 127, 0, 131, 0, 2, 0, 0⟩,
      .vcomp ⟨1, 6, 0, 0, 1, 2, 0, 0⟩, .vexpd ⟨1, 6, 0, 0, 2, 2, 0, 0⟩, .vpack ⟨1, 6, 0, 0, 0, 0, 0, 0⟩, .vpack ⟨1, 6, 0, 0, 0, 15, 0, 0⟩,
      .vunpk ⟨1, 6, 0, 0, 0, 1, 0, 0⟩, .vred ⟨0, 6, 0, 0, 2, 2, 0, 5⟩, .vred ⟨3, 6, 0, 0, 1, 10, 3, 2⟩, .vscan ⟨1, 6, 0, 0, 1, 2, 0, 0⟩,
      .mand (f2 15 1 2 0), .mor (f2 1 1 2 0), .mxor (f2 1 1 0 0), .mtest (f2 1 1 2 0 0), .mtest (f2 1 1 2 0 1), .mtest (f2 1 1 0 0 2),
      .mtest (f2 1 1 0 0 3), .mnot ⟨1, 2, 0⟩, .mpop ⟨0, 1, 0⟩, .mfirst ⟨1, 2, 0⟩, .mset ⟨1, 3, 0⟩, .mset ⟨1, 3, 1⟩, .mset ⟨1, 3, 2⟩,
      .mset ⟨1, 0, 3⟩] ++ [3#6, 4, 5, 6].map (fun x => .vshuf ⟨1, 6, 7, 0, 1, 2, 0, x⟩))
    (vecSt 15) ∧ ((List.range 128).filter fun l => ((vecSt 15).active 1).getLsbD l) = [0, 2] := by decide +kernel

/-! Groups and teams. -/

/-- EndDoneIfence. -/
theorem witness_end :
    (let s := st []
     RunsAll [.endGroup, .ifence] s ∧ s.isGroup = true ∧ s.openBatch = none ∧ s.curSlot.dual = false ∧ s.waitOver 0 0 .ending = true ∧
     s.curPath.chan = false ∧ s.waitOver 0 0 (.performed false) = true) ∧
    (let s := owing (st []); Runs .endGroup s ∧ s.isGroup = true ∧ s.openBatch = none ∧ s.waitOver 0 0 .ending = false) ∧
    (let s := dualSt [] false; Runs .endGroup s ∧ s.openBatch = none ∧ s.curSlot.dual = true ∧ (s.curSlot.path (!s.cur.pathQ)).parked = false) ∧
    (let s := (st []).modCore 0 fun co => { co with tiles := [(3, { opened := true })] }
     Runs .endGroup s ∧ s.isGroup = true ∧ s.openBatch = some 3) ∧
    (Runs .done (taskSt []) ∧ (taskSt []).isTask = true ∧ (taskSt []).waitOver 0 62 .finish = true) := by
  refine ⟨?_, ?_, ?_, ?_, ?_⟩ <;> decide +kernel
/-- The team of the executing group differs. -/
def teamSt (regs : List (Nat × Word)) (f : Team → Team) : State :=
  { stWith regs fun sl => { sl with vregs := [(8, lanes [1, 2])] } with
    teams := [(3, f { grid := 1, cluster := 2, core := 0, off := 0, units := 1, tiles := 4, valloc := 64, groups := 2, slots := [0, 1] })] }
/-- Its barrier 5. -/
def barSt (regs : List (Nat × Word)) (b : Bar) : State := teamSt regs fun t => { t with bars := [(5, b)] }
abbrev barIn (s : State) (b : Bar) : Prop :=
  s.isGroup = true ∧ s.curSlot.member = some ⟨1, 2, 3, 0⟩ ∧ (s.team? 3).map (fun t => t.bar 5) = some b ∧
  s.waitOver s.cur.core s.cur.slot (.performed false) = true
/-- Barriers: an initialisation at each end of its range and outside, arrivals that are the last and are not, an INVALID barrier,
marked arrivals, waits that are over and are not. -/
theorem witness_barrier_init :
    ([1, 64, 0, 65].all fun (n : Nat) => Runs (.barInit ⟨3, 1, 5⟩) (barSt [(1, BitVec.ofNat 64 n)] {}) ∧
      ((barSt [(1, BitVec.ofNat 64 n)] {}).sreg 1).toNat = n) ∧
    (∀ b ∈ [({ exp := 2, initexp := 2 } : Bar), { exp := 1, initexp := 1 }, { valid := false, gen := 1, lastinv := 1 }],
      barIn (barSt [] b) b ∧ (barSt [] b).curPath.arrived = none ∧ RunsAll [.barArr ⟨3, 0, 5⟩, .barSync ⟨3, 0, 5⟩, .barInv ⟨3, 0, 5⟩] (barSt [] b)) ∧
    (let b : Bar := { exp := 2, arr := 1, gen := 4, lastinv := 1 }; b.arr + 1 = b.exp ∧ barIn (barSt [] b) b ∧ Runs (.barArr ⟨3, 0, 5⟩) (barSt [] b)) := by
  refine ⟨?_, ?_, ?_⟩ <;> decide +kernel
theorem witness_barrier_wait :
    (let b : Bar := { exp := 2, arr := 1, gen := 4, lastinv := 1 }
     let s := fun (g : BitVec 32) => (barSt [(1, g ++ (0 : BitVec 32))] b).modSlot 0 0 fun sl => { sl with p := { sl.p with arrived := some g } }
     (Runs (.barSync ⟨3, 0, 5⟩) (s 4) ∧ (s 4).curPath.arrived = some b.gen ∧ (b.gen - b.lastinv).toNat < 2 ^ 31) ∧
     (Runs (.barSync ⟨3, 0, 5⟩) (s 3) ∧ b.outcome 3 = some 0) ∧
     (Runs (.barWait ⟨3, 1, 5⟩) (s 0) ∧ b.outcome (bits ((s 0).sreg 1) 32 32) = some 5) ∧
     (Runs (.barWait ⟨3, 1, 5⟩) (s 4) ∧ b.outcome (bits ((s 4).sreg 1) 32 32) = none) ∧
     let u := barSt [(1, 4 <<< 32)] b
     Runs (.barWait ⟨3, 1, 5⟩) u ∧ u.curPath.arrived = none) ∧
    (∀ n ∈ [0, 1], let s := (st []).modCluster 2 fun c => { c with arr := n }
      Runs (.cbar ⟨3, 0, 0⟩) s ∧ s.isGroup = true ∧ s.curPath.arrived = none ∧
      (s.cluster? 2).map (fun c => (c.arr, c.exp)) = some (n, 2)) := by
  refine ⟨⟨?_, ?_, ?_, ?_, ?_⟩, ?_⟩ <;> decide +kernel
/-- QueueRegisters: room, none, a broken register, entries, none with an end token, an open register, sets that are empty. -/
def queueSt (r : QReg) : State := teamSt [(1, 3), (4, 2)] fun t => { t with qs := [(7, r)] }
theorem witness_queues :
    (let r : QReg := { state := .open_, live := 1, rset := 1, wset := 1, entries := List.replicate 3 0 }
     let s := queueSt r
     RunsAll [.qpush ⟨8, 0, 7⟩, .qpop ⟨8, 5, 7⟩, .qstop ⟨0, 0, 7⟩, .qstat ⟨5, 0, 7⟩, .qinit ⟨1, 4, 7⟩, .qinit ⟨0, 4, 7⟩] s ∧
     (s.team? 3).map (fun t => (t.q 7, s.queueBehind t true 7, s.queueBehind t false 7)) = some (r, false, false)) ∧
    (let s := queueSt { state := .open_, live := 1, entries := List.replicate 4 0 }
     Runs (.qpush ⟨8, 0, 7⟩) s ∧ (s.team? 3).map (fun t => (t.q 7).entries.length) = some 4) ∧
    (let s := queueSt { state := .broken }
     Runs (.qpush ⟨8, 0, 7⟩) s ∧ (s.team? 3).map (fun t => s.queueBehind t true 7) = some false) ∧
    (let s := queueSt { state := .stopped, rset := 1, tok := true }
     Runs (.qpop ⟨8, 5, 7⟩) s ∧ (s.team? 3).map (fun t => s.queueBehind t false 7) = some false) := by
  refine ⟨?_, ?_, ?_, ?_⟩ <;> decide +kernel
/-- Channels: a free channel, one taken, the publisher, a subscriber, a channel of the same grid and of another. -/
def chanSt (f : Slot → Slot) (ch : Option Chan) : State :=
  (stWith [(1, 1)] f).modCore 1 fun co => { co with chan := ch, slots := [(0, group [])] }
theorem witness_publish :
    (let s := st []
     Runs (.pub ⟨3, 0, 0⟩) s ∧ s.isGroup = true ∧ s.subscribed = false ∧ s.publishing = false ∧ s.curCore.chan = none ∧
     RunsAll [.unpub ⟨0, 0, 0⟩, .unsub ⟨0, 0, 0⟩, .rdv ⟨0, 0, 63⟩] s) ∧
    (let s := (st []).modCore 0 fun co => { co with chan := some ⟨1, 0, [], 0⟩ }
     Runs (.pub ⟨3, 0, 0⟩) s ∧ s.publishing = false ∧ s.curCore.chan ≠ none) ∧
    (let s := (st []).modCore 0 fun co => { co with chan := some ⟨0, 0, [], 0⟩ }; Runs (.unpub ⟨0, 0, 0⟩) s ∧ s.publishing = true) := by
  refine ⟨?_, ?_, ?_⟩ <;> decide +kernel
/-- A subscriber that executes an entry of its channel. -/
def subscriber (taken : Bool) (target : Word) : State :=
  chanSt (fun sl => { sl with
    p := { sl.p with chan := true }
    sub := some ⟨1, 0, 0x10002, 0x10004, [⟨.nop, 0x10002, 0x10004, taken, target, 0⟩], false, 0⟩ }) (some ⟨0, 0, [(0, 0)], 0⟩)
theorem witness_subscribers :
    (let s := subscriber true 0
     RunsAll [.unpub ⟨0, 0, 0⟩, .unsub ⟨0, 0, 0⟩, .bc 0 ⟨0, 0, 1, 1⟩, .bc 1 ⟨0, 0, 1, 1⟩, .jr (f2 0 1 0 0), .loop ⟨1, 0, 1, 1⟩,
       .callr (f2 0 1 0 0), .ret (f2 0 0 0 0)] s ∧
     s.curPath.chan = true ∧ s.subscribed = true ∧ s.channelEntry.isSome = true ∧ s.cur.pathQ = false ∧
     s.outcome (.bc 0 ⟨0, 0, 1, 1⟩) = (true, 0) ∧ s.outcome (.bc 1 ⟨0, 0, 1, 1⟩) ≠ (true, 0)) ∧
    (let s := chanSt id (some ⟨0, 0, [], 0⟩)
     RunsAll [.subChannel (f2 3 1 0 0), .resub (f2 3 1 0 0 63)] s ∧ s.isGroup = true ∧ s.curSlot.dual = false ∧ s.subscribed = false ∧
     s.publishing = false ∧ field (s.sreg 1) 0 11 = 1 ∧ (s.core 1).chan = some ⟨0, 0, [], 0⟩ ∧ s.curSlot.member = (s.slot 1 0).member) ∧
    (let s := chanSt (fun sl => { sl with member := some ⟨7, 2, 3, 0⟩ }) (some ⟨0, 0, [], 0⟩)
     RunsAll [.subChannel (f2 3 1 0 0), .resub (f2 3 1 0 0 0)] s ∧ s.publishing = false ∧
     (s.slot 1 0).member = some ⟨1, 2, 3, 0⟩ ∧ s.curSlot.member = some ⟨7, 2, 3, 0⟩) := by
  refine ⟨?_, ?_, ?_⟩ <;> decide +kernel

/-! The matrix unit. -/

/-- A group of the matrix team, with addresses of the larder, whose core's tile 3 is as given. -/
def matSt (r : TileRec) (f : Core → Core := id) : State :=
  (teamSt [(4, larder 0x1000), (5, larder 0x2000), (6, larder 0x3000), (7, 0x8888888888888888)] id).modCore 0 fun co =>
    f { co with tiles := [(3, r)] }
def batch : TileRec := { opened := true, i32 := true, afmt := 9, bfmt := 9, rowStride := 64, rowCount := 8 }
def inQueue (seq : Nat) (op : MatOp) : MatCmd := ⟨seq, op, 0, 0, 0, false, false, none⟩
/-- MatrixInstructions: a group of the matrix team with room in the queue, its tile outside a batch and in its batch. -/
theorem witness_matrix_group :
    (let s := matSt {}
     RunsAll [.midx ⟨0, 0, 1, 0xFFFF⟩, .midx ⟨0, 0, 2, 0⟩, .midx ⟨0, 7, 3, 0⟩, .midx ⟨0, 6, 0, 0⟩, .mopen ⟨3, 0, 0, 0x299⟩,
       .mopen ⟨3, 0, 0, 0⟩, .mzero ⟨3, 0, 0, 0⟩, .mst ⟨3, 4, 0, 0x1000⟩, .mst ⟨3, 4, 1, 0x1000⟩, .mld ⟨3, 4, 1, 0x1000⟩, .mtab ⟨0, 7, 7, 0⟩,
       .mtab ⟨0, 4, 8, 0⟩, .mwait ⟨0, 0, 0, 0⟩] s ∧
     s.curCore.mcmds.length < 2 ∧ s.waitOver 0 0 (.performed false) = true ∧ s.isS = false ∧ s.isGroup = true ∧ s.teamTiles = 4 ∧
     (s.foreseen 0 3).opened = false ∧ (s.foreseen 0 3).i32 = false ∧ tokenOk (s.sreg 7) = true ∧
     s.waitOver 0 0 .matrices = true ∧ (s.midxValues ⟨0, 6, 0, 0⟩).toOption.map Prod.snd = some (List.replicate 64 0) ∧
     (s.curCore.mcmds.any fun m => MatOp.loads m.op 3) = false) ∧
    (let s := matSt batch
     RunsAll [.mstep ⟨3, 4, 0, 0x8010⟩, .mclose ⟨3, 0, 0, 0⟩] s ∧ s.owns (s.foreseen 0 3) = true ∧ s.teamTiles = 4) ∧
    (let s := matSt {} fun co => { co with mcmds := [inQueue 7 (.mzero 3)] }
     Runs (.mwait ⟨0, 0, 0, 0⟩) s ∧ s.teamTiles ≠ 0 ∧ s.waitOver 0 0 .matrices = false) := by
  refine ⟨?_, ?_, ?_⟩ <;> decide +kernel
theorem witness_matrix_supervisor :
    let s := sSt [(4, larder 0x1000)]
    RunsAll [.msave ⟨13, 4, 0, 0⟩, .msave ⟨0, 4, 1, 0⟩, .mrest ⟨13, 4, 0, 0⟩, .mrest ⟨0, 4, 1, 0⟩, .mzero ⟨15, 0, 0, 0⟩,
      .mst ⟨14, 4, 0, 0x1000⟩, .mst ⟨14, 4, 1, 0x1000⟩, .mld ⟨15, 4, 0, 0x1000⟩] s ∧
    (∀ n ∈ [16384, 8192], (s.ownImage (larder 0x2000) n true).toOption.isSome = true) ∧
    (s.ownImage (larder 0x2000) 16384 false).toOption.isSome = true ∧ s.curCore.mcmds = [] ∧
    s.waitOver 0 63 (.performed false) = true ∧ s.isS = true ∧
    (∀ n ∈ [257, 4], (s.imageCheck (larder 0x1000) n 64 true).toOption.isSome = true ∧
      (s.imageCheck (larder 0x1000) n 64 false).toOption.any (fun u =>
        (dwPieces (larder 0x1000) (8 * if n = 4 then 32 else 2056)).all fun p => !u.across (u.pieceHome p)) = true) := by
  decide +kernel
/-- Where they stop: a full queue, privileged tiles of each side, no matrix team, a tile beyond the team's, the wrong batch state, a
queued load of the tile. -/
theorem witness_matrix_stops :
    (let s := matSt {} fun co => { co with mcmds := [inQueue 7 (.mzero 3), inQueue 8 (.mzero 3)] }
     Runs (.mzero ⟨3, 0, 0, 0⟩) s ∧ 2 ≤ s.curCore.mcmds.length) ∧
    (RunsAll [.mzero ⟨14, 0, 0, 0⟩, .mst ⟨4, 4, 0, 0⟩, .mstep ⟨4, 4, 0, 0x8010⟩, .mclose ⟨3, 0, 0, 0⟩] (matSt {}) ∧
     (matSt {}).teamTiles ≤ 4 ∧ (matSt {}).owns ((matSt {}).foreseen 0 3) = false) ∧
    (Runs (.mzero ⟨13, 0, 0, 0⟩) (sSt []) ∧ (sSt []).isS = true) ∧
    (Runs (.mzero ⟨13, 0, 0, 0⟩) (taskSt []) ∧ (taskSt []).isS = false ∧ (taskSt []).teamTiles = 0) ∧
    (RunsAll [.mopen ⟨3, 0, 0, 0x299⟩, .mzero ⟨3, 0, 0, 0⟩, .mst ⟨3, 4, 0, 0⟩, .mld ⟨3, 4, 0, 0⟩] (matSt batch) ∧
     ((matSt batch).foreseen 0 3).opened = true) ∧
    (let s := matSt {} fun co => { co with mcmds := [inQueue 7 (.mld 3 (larder 0x1000) false)] }
     Runs (.mzero ⟨3, 0, 0, 0⟩) s ∧ s.curCore.mcmds.length < 2 ∧ s.waitOver 0 0 (.performed false) = true ∧
     (s.curCore.mcmds.any fun m => MatOp.loads m.op 3) = true) := by
  refine ⟨?_, ?_, ?_, ?_, ?_, ?_⟩ <;> decide +kernel
/-- MatrixUnit: the command at the head of a bay's only core: a step that passes, one of a closed tile, a clearing command. -/
def unitSt (r : TileRec) (op : MatOp) : State :=
  { matSt r fun co => { co with mcmds := [inQueue 7 op] } with input := { b := 7 } }
def theStep : MatOp := .mstep 3 (larder 0x1000) (larder 0x2000) 0 0 16 16
theorem witness_matrix_unit :
    (∀ e ∈ [(batch, theStep), ({}, theStep), ({}, .mzero 3), (batch, .mclose 3)],
      let s := unitSt e.1 e.2
      s.input.a = 0 ∧ (s.bay 0).busy ≤ s.clk ∧ s.gatedNow 0 = false ∧ s.arbPick 0 = some 0 ∧ bayCore 0 0 = 0 ∧
      s.cmdHead 0 = some (inQueue 7 e.2) ∧
      ∀ x ∈ s.startLines 0 (inQueue 7 e.2), let co := s.core (larderCore x); let b := bankOf (larderOff x)
        Table.get 0 co.asleep b = 0 ∧ s.bankIdle (larderCore x) b = false ∧ ∀ e ∈ Table.get [] co.bankq b, e.2 < s.clk) ∧
    ((unitSt batch theStep).stepAbort ((inQueue 7 theStep).step 0) 0 = none ∧
     ((unitSt {} theStep).stepAbort ((inQueue 7 theStep).step 0) 0).isSome = true) ∧
    (matInt ((unitSt batch theStep).fa ((inQueue 7 theStep).step 0)) = true ∧
     (unitSt batch theStep).rowNull ((inQueue 7 theStep).step 0) 63 = true) := by
  refine ⟨?_, ?_, ?_⟩ <;> decide +kernel
theorem witness_matrix_end :
    let m := { inQueue 7 theStep with abort := some (0x13, 0, 0x81), started := true }
    let s := (unitSt batch theStep).modCore 0 fun co => { co with
      mcmds := [m], slots := [(0, { group [] with p := { (group []).p with wait := .matrix 7 } })] }
    (s.core 0).mcmds.find? (fun x => decide (x.seq = s.input.b)) = some m ∧ m.slot ≠ 63 ∧ (s.slot 0 0).state = .active ∧
    s.cmdAwaited 0 m = true ∧ s.savesOut 0 m = false ∧ m.pathQ = false ∧ m.abort.isSome = true := by
  decide +kernel

/-! Copies and multicast. -/

/-- The destination of core 0. -/
def toCore0 : Word := 63

/-- A request of `n` bytes from one larder word to another, `done` bytes performed, with a parameter block. -/
def request (n done : Nat) (pb : List Word) : CopyReq :=
  ⟨0, 0, larder 0x100, larder 0x207, BitVec.ofNat 64 n, pb, 1 <<< 63, 0, none, done, true, none, [], none, [], 0⟩
def copySt (regs : List (Nat × Word)) (q : List CopyReq) : State := (st regs).modCore 0 fun co => { co with copyq := q }
/-- CopyInstructions: good words, words of length 0, a full FIFO, words kept from a wait. -/
theorem witness_copies :
    (let s := copySt [(4, larder 0x100), (5, larder 0x207), (6, 1)] []
     Runs (.cpy (f2 3 4 0 0)) s ∧ s.sreg 7 = 0 ∧ requestBad (s.sreg 4) (s.sreg 5) (s.sreg 6) = false ∧ s.curCore.copyq.length < 8 ∧
     s.waitOver 0 0 (.performed false) = true ∧ requestBad (s.sreg 4) (s.sreg 5) (s.sreg 7) = true) ∧
    (let s := copySt [(6, 1)] (List.replicate 8 (request 1 0 []))
     RunsAll [.cpy (f2 3 4 0 0), .cpy (f2 3 4 0 0 1), .cpst (f2 3 4 0 0), .cpst (f2 3 4 0 0 1)] s ∧
     requestBad (s.sreg 4) (s.sreg 5) (s.sreg 6) = false ∧ s.curPath.cpyKept = none ∧ 8 ≤ s.curCore.copyq.length) ∧
    (let s := (copySt [] []).modPath fun p => p.keepCpy [larder 0x100, larder 0x207, 1] []
     Runs (.cpy (f2 3 4 0 0)) s ∧ s.curPath.cpyKept = some ([larder 0x100, larder 0x207, 1], []) ∧ s.curCore.copyq.length < 8 ∧
     s.waitOver 0 0 (.performed false) = true) := by
  refine ⟨?_, ?_, ?_⟩ <;> decide +kernel
/-- `cpwait` of transfer 2 of channel 1, of which 3 have been issued and 2 or 1 are done; no handle; a handle of the future. -/
theorem witness_copy_waits :
    (let s := fun (d : BitVec 32) => stWith [(1, 0x8000000100000002), (2, 0x8000000100000009), (3, 2)] fun sl =>
       { sl with issued := [(1, 3)], done := [(1, d)] }
     (∀ i ∈ [Instr.cpwait (f2 5 1 0 0), .cpwait (f2 5 2 0 0), .cpwait (f2 5 3 0 0)], Runs i (s 2) ∧ Runs i (s 1)) ∧
     (s 2).curSlot.issuedOf 1 = 3 ∧ (s 2).curSlot.doneOf 1 = 2 ∧ (s 1).curSlot.doneOf 1 = 1 ∧ (s 1).isTask = false ∧
     (2#32 - 2).toNat < 2 ^ 31 ∧ 2 ^ 31 ≤ (1#32 - 2).toNat ∧ (3#32 - 2).toNat < 2 ^ 31 ∧ 2 ^ 31 ≤ (3#32 - 9).toNat) ∧
    (let s := (taskSt [(1, 0x8000000100000002)]).modSlot 0 62 fun sl => { sl with issued := [(1, 3)], done := [(1, 1)] }
     Runs (.cpwait (f2 5 1 0 0)) s ∧ s.isTask = true ∧ s.curSlot.doneOf 1 = 1) := by
  refine ⟨?_, ?_⟩ <;> decide +kernel
/-- A `cpwait` whose handle another path has overwritten since it issued. -/
theorem witness_copy_wait_kept :
    let s := (stWith [(1, 9)] fun sl => { sl with issued := [(1, 3)], done := [(1, 2)] }).modPath fun p =>
      { p with kept := some ⟨[(1, 0x8000000100000002)], [], []⟩ }
    let u := s.withRegs ⟨[(1, 0x8000000100000002)], [], []⟩
    s.curSlot.state = .active ∧ s.cur.pathQ = false ∧ s.gate (.cpwait (f2 5 1 0 0)) = none ∧ s.sreg 5 = u.sreg 5 ∧
    field (u.sreg 1) 34 29 = 0 ∧ (u.curSlot.issuedOf 1 - 2).toNat < 2 ^ 31 ∧ (u.curSlot.doneOf 1 - 2).toNat < 2 ^ 31 := by decide +kernel
theorem witness_multicast :
    ([1, 255].all fun (n : Nat) =>
      let s := st [(1, BitVec.ofNat 64 n), (2, larder 0x1000)]
      Runs (.mcjoin (f2 3 1 2 0)) s ∧ s.joinTrap (s.sreg 2) = none ∧ (s.sreg 1).toNat = n ∧ s.mcEntry n = none ∧
      s.curCore.mcast.length < 16 ∧ s.multicasting 0 n = false ∧ Runs (.mcleave (f2 3 1 0 0)) s ∧ (s.mcEntry n).any s.mcMine = false) ∧
    (let s := (st [(1, 17), (2, larder 0x1000)]).modCore 0 fun co => { co with mcast := (List.range 16).map fun i => ⟨i + 1, 1, 0, 0, true⟩ }
     Runs (.mcjoin (f2 3 1 2 0)) s ∧ s.mcEntry 17 = none ∧ 16 ≤ s.curCore.mcast.length) ∧
    (let s := (st [(1, 17), (2, larder 0x1000)]).modCore 0 fun co => { co with mcast := [⟨17, 0, 0, 0, true⟩] }
     RunsAll [.mcleave (f2 3 1 0 0), .mcjoin (f2 3 1 2 0)] s ∧ s.curPath.mcDone = false ∧ s.joinTrap (s.sreg 2) = none ∧
     (s.mcEntry 17).any s.mcMine = true) ∧
    (let s := (st [(1, 17)]).modPath fun p => { p with buf := [(mcSent, 0)] }
     RunsAll [.mcleave (f2 3 1 0 0), .mcjoin (f2 3 1 2 0)] s ∧ s.isGroup = true ∧ s.curPath.mcDone = true) := by
  refine ⟨?_, ?_, ?_, ?_⟩ <;> decide +kernel
/-- The checks of a stretch are passed, as a test that can be evaluated. -/
def passed : CopyCheck → Bool
  | .ok => true
  | _ => false
theorem of_passed {x : CopyCheck} (h : passed x = true) : x = .ok := by
  cases x <;> first | rfl | exact absurd h Bool.false_ne_true
/-- The state of the checks of the line below, its pieces, and what they need. -/
def copyU : State :=
  ((copySt [] [request 16 0 []]).installAll 0
    ((dwPieces (larder 0x100) 16).map fun p => { addr := p.1, size := p.2, align := 1, rd := true, wr := false })).installAll 0
      [{ addr := larder 0x207, size := 16, align := 1, rd := false, wr := true }]
abbrev copyPieces : List (Word × Nat) := dwPieces (larder 0x100) 16
abbrev copyGood (p : Word × Nat) : Prop :=
  let s := copySt [] [request 16 0 []]
  let who := s.copyWho 0 (request 16 0 [])
  let src : Home := ⟨0, 2 ^ 48 + aOff p.1, 0⟩
  passed (copyU.copyCheck who (s.partOf 0) p.1 p.2 false) = true ∧ copyU.copyHome who p.1 p.2 false = src ∧ s.across src = false ∧
    s.poisonedIn src.loc p.2 = false
/-- CopyEngine: a line of two doublewords that arrives at an odd address. -/
theorem witness_copy_line :
    let r := request 16 0 []
    let s := copySt [] [r]
    let who := s.copyWho 0 r
    let dst : Home := ⟨0, 2 ^ 48 + 0x207, 0⟩
    let src := fun (a : Word) => (⟨0, 2 ^ 48 + aOff a, 0⟩ : Home)
    let ps := dwPieces r.w0 16
    let u := (s.installAll 0 (ps.map fun p => { addr := p.1, size := p.2, align := 1, rd := true, wr := false })).installAll 0
      [{ addr := r.w1, size := 16, align := 1, rd := false, wr := true }]
    (s.input.a = 0 ∧ s.input.b = 0 ∧ (s.core 0).copyHead 0 = some r ∧ (s.core 0).copyFaulted = [] ∧ r.mctag = 0 ∧ r.fe = false ∧
      r.done < r.len ∧ min (r.len - r.done) (64 - r.w1.toNat % 64) = 16 ∧ (s.core 0).copyBusy s.clk = false ∧ s.copyOther 0 0 = false) ∧
    (∀ p ∈ ps, u.copyCheck who (s.partOf 0) p.1 p.2 false = .ok ∧ u.copyHome who p.1 p.2 false = src p.1 ∧
      s.across (src p.1) = false ∧ s.poisonedIn (src p.1).loc p.2 = false) ∧
    (u.copyCheck who (s.partOf 0) r.w1 16 true = .ok ∧ u.copyHome who r.w1 16 true = dst ∧ s.across dst = false ∧
      s.poisonedIn dst.loc 16 = false) ∧
    ServesNow u (ps.map (fun p => ((src p.1).loc, p.2)) ++ [(dst.loc, 16)]) ∧ s.shelfOf (2 ^ 48 + 0x200) = [] :=
  ⟨by decide +kernel,
    fun p hp =>
      have h := (by decide +kernel : ∀ p ∈ copyPieces, copyGood p) p hp
      ⟨of_passed h.1, h.2⟩,
    ⟨of_passed (by decide +kernel), by decide +kernel⟩, servesNow_of (by decide +kernel), by decide +kernel⟩
/-- CopyEngine: a finished request in each kind of mode; an abandoned one; a fault that a slot takes; a delivered line; a tag with and
without a request in progress. -/
theorem witness_copy_ends :
    (∀ e ∈ [([], 4), ([0, 0x40000], 0), ([1, toCore0], 1)], let r := request 1 1 e.1; let s := copySt [] [r]
      (s.core s.input.a).copyHead s.input.b = some r ∧ (s.slot 0 r.slot).gen = r.gen ∧ s.input.flag = false ∧ r.done = r.len ∧
      r.awaited = 0 ∧ r.mode = e.2 ∧ (r.mode = 1 → tagPkg (destWord (r.pbWord 1)) = s.pkgId.toNat)) ∧
    (let r := { request 9 1 [] with fault := some (0x08, larder 0x108, 0) }
     let s := { copySt [] [r] with input := { flag := true } }
     (s.core s.input.a).copyHead s.input.b = some r ∧ s.input.flag = true ∧ r.fault.isSome = true ∧ r.mode = 4) ∧
    (let r := { request 9 1 [] with fault := some (0x08, larder 0x108, 0) }
     let s := (copySt [] [r]).modSlot 0 0 fun sl => { sl with copyFaults := [0] }
     (s.slot s.input.a s.input.b).copyFaults = [0] ∧ (s.slot 0 0).state = .active ∧
     (s.core 0).copyq.find? (fun x => x.chan = 0 && x.slot = 0 && x.fault ≠ none) = some r) ∧
    (let s := { st [] with input := { b := 17, c := 6, body := .bytes [1, 2] } }
     s.input.body = .bytes [1, 2] ∧ s.input.flag = false ∧ s.input.word = 0 ∧ s.mcBase 0 17 s.input.d + 6 = 6 ∧ s.poison = [] ∧
     s.shelfOf (2 ^ 48) = [] ∧ serves s [(2 ^ 48 + 6, 2)] = true) ∧
    (∀ b ∈ [false, true],
      let s := copySt [] (if b then [{ request 8 0 [] with w2 := 8 + 17 * 2 ^ 32, members := [0] }] else [])
      s.multicasting (coreDie s.input.a) 17 = b) := by
  refine ⟨?_, ?_, ?_, ?_, ?_⟩ <;> decide +kernel
/-- CopyEngine: a finished and an abandoned request in modes 1, 2 and 3; a barrier that is valid, one that is not, one that has been
invalid since the acceptance. -/
theorem witness_copy_modes :
    (∀ e ∈ [([2, fkHandle 0 0 0 9], false), ([2, fkHandle 0 0 0 9], true), ([1, toCore0], true)],
      let r := { request 8 8 e.1 with fault := if e.2 then some (0x0C, 0, 0) else none }
      let s := { copySt [] [r] with input := { flag := e.2 } }
      (s.core 0).copyHead 0 = some r ∧ (s.slot 0 0).gen = r.gen ∧ r.mode = field (r.pbWord 0) 0 3 ∧
      (s.core 0).fkOut.contains (r.slot, r.pbWord 1) = false ∧ fkPkg ((s.core 0).fwdLookup (r.pbWord 1)) = s.pkgId.toNat ∧ r.fault.isSome = e.2) ∧
    (∀ e ∈ [(({ exp := 2, initexp := 2 } : Bar), true), ({ exp := 1, initexp := 1 }, true), ({ valid := false }, false),
        ({ exp := 2, initexp := 2, gen := 3, lastinv := 2 }, false)],
      let r := { request 8 8 [3 + 5 * 65536] with team := some 3, barGen := 1 }
      let s := (barSt [] e.1).modCore 0 fun co => { co with copyq := [r] }
      (s.core 0).copyHead 0 = some r ∧ r.mode = 3 ∧ (s.team? 3).map (fun t => t.bar (field (r.pbWord 0) 16 4)) = some e.1 ∧
      (e.1.valid && !genBefore r.barGen e.1.lastinv) = e.2) := by
  refine ⟨?_, ?_⟩ <;> decide +kernel

/-! Messages and firkins. -/

/-- Core 0 holds an FRT with these first words and values, by entry; entries after them are free. -/
def withFrt (l : List (Nat × Word × Word)) (s : State) : State :=
  l.foldl (fun s e => (s.setFrt 0 e.1 0 e.2.1).setFrt 0 e.1 1 e.2.2) s
/-- MessageInstructions: a core of the package, a counter in a larder, a free FRT entry, a full FRT, no such core. -/
theorem witness_messages :
    (let s := st [(1, toCore0), (2, 9), (3, larder 0x40), (4, 1280 <<< 6), (5, 0x20002)]
     RunsAll [.send (f2 0 1 2 0 0x2F7), .sendjc (f2 0 1 2 3 0x101), .invoke (f2 6 1 2 5 1), .send (f2 0 4 0 0 1)] s ∧
     s.destCheck (s.sreg 1) = .ok () ∧ tagPkg (destWord (s.sreg 1)) = s.pkgId.toNat ∧ s.waitOver 0 0 (.performed false) = true ∧
     s.curPath.buf = [] ∧ tagPkg (destWord (s.sreg 1 ||| 63)) = s.pkgId.toNat ∧ (1 : BitVec 5).toNat ≠ 6 ∧ s.frtFind 0 = .entry 0 1 ∧ 1280 ≤ tagCore (s.sreg 4)) ∧
    (let s := st [(3, larder 0x40)]
     let u : Use1 := { addr := larder 0x40, size := 8, align := 8, rd := true, wr := true }
     s.check s.who [u] = .ok () ∧ s.home s.who u = larderHome0 ∧ HomeOk s larderHome0 8 ∧ serves s [(larderHome0.loc, 8)] = true) ∧
    (let s := (withFrt [(0, frtWord 1 false false 0 0 true 1, 0)] (st [(1, toCore0)])).modCore 0 fun co => { co with frtsize := 1 }
     s.frtFind 0 = .full ∧ Runs (.invoke (f2 6 1 0 5 0)) s) := by
  refine ⟨?_, ?_, ?_⟩ <;> decide +kernel
def message (ty : BitVec 8) (payload : List Word) : Msg := ⟨ty, payload.length, 63, 63, payload, 0⟩
/-- An event of the device about a core, with a body. -/
def event (inp : Input) (s : State) : State := { s with input := inp }
/-- MessageUnit: arrivals with and without room, a type that becomes bound, a task of a message and of a descriptor. -/
theorem witness_arrival :
    (let s := event { body := .msg (message 7 [1]) } (st [])
     s.input.a < 1280 ∧ s.input.flag = false ∧ (s.core 0).inReset = false ∧ (message 7 [1]).ty ≠ 254 ∧ (s.core 0).port = [] ∧ (s.core 0).mailbox.length < 256 ∧
     ((s.core 0).mailbox.filter fun e => Msg.user e.msg).length < (s.core 0).mblimit.toNat) ∧
    (let s := (event { body := .msg (message 7 [1]) } (st [])).modCore 0 fun co => { co with mblimit := 1, mailbox := [⟨message 7 [], true, 0, 1⟩] }
     Msg.user (message 7 [1]) = true ∧ (s.core 0).mblimit.toNat ≤ ((s.core 0).mailbox.filter fun e => Msg.user e.msg).length ∧
     tagPkg (Msg.bounced (message 7 [1])).dst = s.pkgId.toNat) ∧
    (let s := event { body := .msg (message 248 [1]) } (st []); s.input.flag = false ∧ s.input.cause ≠ fromHost) := by
  refine ⟨?_, ?_, ?_⟩ <;> decide +kernel
/-- A message of type 7 in the mailbox, and the vector entry of the type: a handler with the valid bit, or nothing. -/
def mailSt (bound ready : Bool) : State :=
  let s := (st []).modCore 0 fun co => { co with mailbox := [⟨message 7 [1, 2], ready, 0, 5⟩] }
  event { b := 5 } (if bound then { s with mem := cells 0x10070 0x20002 ++ cells 0x10078 1 } else s)
theorem witness_mail :
    (∀ b ∈ [true, false],
      ((mailSt b false).core 0).mailbox.find? (fun e => e.seq = 5 && !e.ready) = some ⟨message 7 [1, 2], false, 0, 5⟩ ∧
      ((mailSt b false).vectorRead 0 7).dispatchable = b) ∧
    (let s := mailSt true true
     (s.core 0).inReset = false ∧ (s.core 0).nextStart ≤ s.clk ∧ s.freeH 0 = some 55 ∧ (s.core 0).port = [] ∧
     s.pick 0 = some (.mail ⟨message 7 [1, 2], true, 0, 5⟩) ∧ s.unmatched 0 (message 7 [1, 2]) = false ∧
     (s.reread255 0).pick 0 = some (.mail ⟨message 7 [1, 2], true, 0, 5⟩) ∧
     (s.reread255 0).vectorRead 0 7 ≠ .unbound ∧ ((s.reread255 0).vectorRead 0 7).start (message 7 [1, 2]) = .ok 0x20002) ∧
    (let s := (st []).modCore 0 fun co => { co with rrtail := 1 }
     (s.core 0).inReset = false ∧ (s.core 0).nextStart ≤ s.clk ∧ s.freeH 0 = some 55 ∧ (s.core 0).mailbox = [] ∧ (s.core 0).ready = [] ∧
     (s.core 0).rrhead ≠ (s.core 0).rrtail ∧ s.poison = [] ∧ s.chainHead 0 = noLink) := by
  refine ⟨?_, ?_, ?_⟩ <;> decide +kernel
/-- The host's answer to a page fault of slot 1: success, a failure code; one for no such slot. -/
theorem witness_host_answer :
    let s := (st []).modSlot 0 1 fun sl => { sl with state := .trapped, cause := 0x07 }
    (∀ l ∈ [[1, 0, 0], [1, 0, (0x23 : Word)]], field (l.getD 0 0) 0 6 = 1 ∧ bits (l.getD 0 0) 32 32 = (s.slot 0 1).gen) ∧
    (s.slot 0 1).state = .trapped ∧ field (s.slot 0 1).cause 0 8 = 0x07 ∧ (s.slot 0 1).unsettled = false ∧ (s.core 0).events = [] ∧
    (s.slot 0 2).state ≠ .trapped := by decide +kernel
def fkHere : Word := fkHandle 0 0 0 9
/-- FirkinInstructions: a handle of the package, a free and a full FRT, a larder address, no such core. -/
def fkOps : List Instr :=
  [.resolve (f2 3 1 2 0), .fkget (f2 3 1 0 4), .fkget (f2 3 1 0 4 1), .fkstate (f2 3 1 0 0), .fkstate (f2 3 1 0 0 1), .fkbreak (f2 3 1 0 0 0xFF),
   .fkplace (f2 3 1 0 0), .invf (f2 3 1 2 4)]
theorem witness_firkins :
    (let s := withFrt [(0, frtWord 1 false false 0 0 true 9, 0)] (st [(1, fkHere)])
     RunsAll fkOps s ∧ s.handleCheck (s.sreg 1) true = .ok () ∧ fkPkg (s.sreg 1) = s.pkgId.toNat ∧ s.curCore.fwd = [] ∧
     s.curCore.fkOut = [] ∧ s.waitOver 0 0 (.performed false) = true ∧ s.frtFind 0 = .entry 1 1) ∧
    (let s := (withFrt [(0, frtWord 1 false false 0 0 true 9, 0)] (st [(1, fkHere)])).modCore 0 fun co => { co with frtsize := 1 }
     RunsAll fkOps s ∧ s.handleCheck (s.sreg 1) true = .ok () ∧ s.frtFind 0 = .full) ∧
    (RunsAll fkOps (st [(1, larder 0)]) ∧ (larder 0).getLsbD 63 = true) ∧
    (RunsAll fkOps (st [(1, 10 <<< 41)]) ∧ (10 <<< 41 : Word).getLsbD 63 = false ∧ 10 ≤ field (10 <<< 41 : Word) 41 4) := by
  refine ⟨?_, ?_, ?_, ?_⟩ <;> decide +kernel
/-- A request to a home. -/
def fkReq (k : FkKind) (core : Nat := 0) : FkReq :=
  { named := fkHere, handle := fkHere, kind := k, pkg := 0, core := core, slot := 0, gen := 0, pathQ := false, d := 3, c := 4
    forwarded := false, refusals := 0, id := 12, tag := 0, epoch := 0, part := 0 }
/-- An entry that a placement has made, and that holds. -/
def heldSt : State := (withFrt [(0, frtWord 1 true false 0 0 true 9, 5)] (st [])).modCore 0 fun co => { co with placing := [(0, {})] }
/-- FirkinHomes: a PENDING, a FULL and a BROKEN entry without waiters, a FORWARDED one, with a free FRT entry and with none; a placement
that holds; a retry. -/
theorem witness_homes :
    (∀ n ∈ [1, 2, 3], ∀ k ∈ [FkKind.resolve 8, .place fkHere, .get false, .state false, .brk 7, .invf 0 0 0],
      let s := event { word := fkHere, body := .firkin (fkReq k 1) } (withFrt [(0, frtWord n false false 7 0 true 9, 5)] (st []))
      let w := s.frt 0 0 0
      fkCore fkHere = 0 ∧ fkIdx fkHere = 0 ∧ (s.core 0).inReset = false ∧ (s.core 0).frtSpoiled = false ∧ 0 < (s.core 0).frtsize.toNat ∧
      s.frtPoisoned 0 0 = false ∧ fGen w = fkGen fkHere ∧ fDrop w = false ∧ fHold w = false ∧ fQe w = true ∧ fState w = n ∧
      s.queuePoisoned 0 0 = false ∧ s.waitersOf 0 0 = [] ∧ (fkReq k 1).core ≠ 0 ∧ fkPkg fkHere = s.pkgId.toNat) ∧
    (∀ n ∈ [1, 2, 3, 4], ∀ a ∈ [0, 16], let s := event { word := fkHere, a := a } (withFrt [(0, frtWord n false false 0 0 true 9, 5)] (st []))
      s.frtFind 0 = .entry 1 1 ∧ (s.core 0).ready = [] ∧ s.fkEntry s.input.word = some (0, 0) ∧ s.frtPoisoned 0 0 = false ∧
      fState (s.frt 0 0 0) = n ∧ s.queuePoisoned 0 0 = false ∧ fkPkg (s.frt 0 0 2) = s.pkgId.toNat ∧
      (s.modCore 0 fun co => { co with frtsize := 1 }).frtFind 0 = .full) ∧
    (∀ n ∈ [0, 1], let s := event { word := fkHere, a := n } heldSt
      s.fkEntry s.input.word = some (0, 0) ∧ (s.core 0).placing.find? (fun e => e.1 = 0) = some (0, {}) ∧
      (Table.get {} (s.core 0).placing 0).next = 0) := by
  refine ⟨?_, ?_, ?_⟩ <;> decide +kernel
/-- FirkinHomes: a firkin with one waiter. -/
theorem witness_waiter :
    let s := (withFrt [(0, frtWord 1 false false 0 1 false 9, 5), (1, frtWord 5 false false 0 0 true 1, 6)] (st []))
    fState (s.frt 0 0 0) = 1 ∧ s.queuePoisoned 0 0 = false ∧ 0 ∉ s.waitersOf 0 0 := by decide +kernel
theorem witness_answers :
    ∀ r ∈ [fkReq (.get false), fkReq (.resolve 8)],
      let s := stWith [] fun sl => { sl with p := { sl.p with wait := .firkin, buf := [(fkPlaceKey, 12)] } }
      fkPkg r.handle = s.pkgId.toNat ∧ s.reqs = [] ∧ (s.core r.core).fkHeld = [] ∧ r.id ≠ 0 ∧ r.slot ≠ 63 ∧
      (s.slot r.core r.slot).state = .active ∧ r.pathQ = false ∧ s.fkAwaited r = true ∧ (s.core 0).fkOut = [] ∧ (s.core 0).fwd = [] ∧
      r.handle = r.named := by decide +kernel

/-! Leases and cellar engines. -/

/-- Die 0 with engines and a lease queue. -/
def dieSt (regs : List (Nat × Word)) (engines : List (Nat × Engine)) (q : List LeaseReq := []) : State :=
  (stWith regs fun sl => { sl with vregs := [(8, lanes [4, 5])] }).modDie 0 fun d => { d with engines := engines, leaseq := q }
def me : Holder := ⟨0, 0, 0⟩
def handle0 : Word := leaseHandle 0 0 1
def leased (f : Fifos := {}) : Engine := { state := .leased, lgen := 1, who := me, fifos := f }
def gone (f : Fifos := {}) : Engine := { lgen := 2, dead := some ⟨1, me, 0, f⟩ }
/-- Leases: no such kind; an idle engine; one asleep; a request of the kind before it; a full class queue. -/
theorem witness_lease :
    (Runs (.lease (f2 3 1 0 0)) (dieSt [(1, 4)] []) ∧ 3 < ((dieSt [(1, 4)] []).sreg 1).toNat ∧ ((dieSt [(1, 3)] []).sreg 1).toNat = 3) ∧
    (let s := dieSt [(1, 0)] [(1, { state := .idle }), (2, { state := .idle })]
     Runs (.lease (f2 3 1 0 0 3)) s ∧ ((s.die 0).engine 1).state = .idle ∧ engKind 1 = 0 ∧ ((s.die 0).engine 0).state = .asleep) ∧
    (let s := dieSt [(1, 3)] []
     Runs (.lease (f2 3 1 0 0)) s ∧ (∀ j < 64, ((s.die 0).engine j).state ≠ .idle) ∧ (s.die 0).awake < s.wakeCap 0 ∧
     ((s.die 0).engine 48).state = .asleep ∧ engKind 48 = 3 ∧ ∀ j < 48, engKind j ≠ 3) ∧
    (let r : LeaseReq := ⟨⟨1, 0, 0⟩, 2, 0, false⟩
     (∀ n ∈ [1, 32], Runs (.lease (f2 3 1 0 0)) (dieSt [(1, 2)] [] (List.replicate n r)) ∧
       ((dieSt [(1, 2)] [] (List.replicate n r)).die 0).leaseq.length = n) ∧ r.kind = 2 ∧ r.cls = 0) := by
  refine ⟨?_, ?_, ?_, ?_⟩ <;> decide +kernel
theorem witness_lease_states :
    (let s := dieSt [(1, handle0)] [(0, leased)]
     RunsAll [.lrel (f2 3 1 0 0), .estat (f2 3 1 0 0)] s ∧ s.leaseState 0 0 (s.sreg 1) = .live) ∧
    (let s := dieSt [(1, handle0)] [(0, gone)]
     RunsAll [.lrel (f2 3 1 0 0), .estat (f2 3 1 0 0)] s ∧ s.leaseState 0 0 (s.sreg 1) = .dead ∧ ((s.die 0).engine 0).dead.isSome = true) ∧
    (let s := dieSt [(1, handle0)] []
     RunsAll [.lrel (f2 3 1 0 0), .estat (f2 3 1 0 0), .epush (f2 3 1 0 0 8), .epop (f2 3 1 0 0 8)] s ∧
     s.leaseState 0 0 (s.sreg 1) = .stale) := by
  refine ⟨?_, ?_, ?_⟩ <;> decide +kernel
/-- CommandQueues: each state of the FIFOs of a lease, live and dead. -/
theorem witness_commands :
    (∀ e ∈ [leased, leased { run := some [1] }, leased { run := some [1], cmds := List.replicate 15 [1] },
            leased { run := some [1], cmds := List.replicate 16 [1] }, leased { results := [[7]] }],
      let s := dieSt [(1, handle0)] [(0, e)]
      RunsAll [.epush (f2 3 1 0 0 8), .epush (f2 3 1 0 0 0x108), .epop (f2 3 1 0 0 8), .epop (f2 3 1 0 0 0x108)] s ∧
      s.leaseState 0 0 (s.sreg 1) = .live ∧ s.releaseHold true = .ok () ∧ s.isGroup = true) ∧
    (∀ e ∈ [gone, gone { results := [[7]] }, gone { evicted := [[1]] }],
      let s := dieSt [(1, handle0)] [(0, e)]
      RunsAll [.epush (f2 3 1 0 0 8), .epop (f2 3 1 0 0 8)] s ∧ s.leaseState 0 0 (s.sreg 1) = .dead ∧ ((s.die 0).engine 0).dead = e.dead) := by
  refine ⟨?_, ?_⟩ <;> decide +kernel
/-- LeaseService: an idle engine for a group and for a core, an engine that has woken, one whose eviction has drained, one idle too
long, a holder past its time, a command with nothing left to write. -/
theorem witness_lease_service :
    (∀ k ∈ [0, 63], let r : LeaseReq := ⟨⟨0, k, 0⟩, 0, 1, false⟩
      let s := dieSt [] [(0, { state := .idle })] [r]
      (s.die s.input.a).leaseq = [r] ∧ ((s.die 0).engine 0).state = .idle ∧ engKind 0 = r.kind ∧ ((s.slot 0 k).path r.pathQ).chan = false) ∧
    (let r : LeaseReq := ⟨me, 0, 1, false⟩
     let s := dieSt [] [(0, { state := .waking, next := some r })]
     s.input.b = 0 ∧ (s.die s.input.a).leaseq = [] ∧ ((s.die 0).engine 0).state = .waking ∧ ((s.die 0).engine 0).next = some r) ∧
    (let r : LeaseReq := ⟨me, 0, 1, false⟩
     let s := dieSt [] [(0, { state := .evicting, next := some r })]
     (s.die s.input.a).leaseq = [] ∧ ((s.die 0).engine 0).state = .evicting ∧ ((s.die 0).engine 0).awaited = 0 ∧
     ((s.die 0).engine 0).toIdle = false ∧ engKind 0 = r.kind) ∧
    (let s := dieSt [] [(0, { state := .idle })]
     ((s.die s.input.a).engine s.input.b).state = .idle ∧ ((s.die 0).engine 0).since = s.input.c ∧ (s.die 0).leaseq = []) ∧
    (let s := dieSt [] [(0, { state := .waking })]; ((s.die s.input.a).engine 0).state = .waking ∧ ((s.die 0).engine 0).next = none) := by
  refine ⟨?_, ?_, ?_, ?_, ?_⟩ <;> decide +kernel
theorem witness_lease_eviction :
    let r : LeaseReq := ⟨⟨1, 0, 0⟩, 3, 2, false⟩
    let s := { dieSt [] ((48, leased { run := some [1] }) :: (List.range 15).map fun j => (49 + j, { state := .evicting })) [r] with
      clk := 20000, input := { b := 48, c := 1 } }
    (((s.die 0).engine 48).state = .leased ∧ ((s.die 0).engine 48).lgen.toNat = s.input.c ∧ (s.die s.input.a).leaseq = [r] ∧
     engKind 48 = r.kind ∧ ((s.die 0).engine 48).cls < r.cls ∧ ((s.die 0).engine 48).since + 20000 ≤ s.clk) ∧
    (∀ j < 64, ((s.die 0).engine j).state ≠ .idle) ∧
    ∀ j < 64, j ≠ 48 → (engKind j ≠ r.kind ∨ ((s.die 0).engine j).state = .evicting) ∧ ((s.die 0).engine j).state ≠ .leased := by
  refine ⟨?_, ?_, ?_⟩ <;> decide +kernel
theorem witness_result_written :
    let p : EngPlan := ⟨[], 0, 0, 1, [0, 0, 0, 0]⟩
    let s := dieSt [] [(0, { leased { run := some [1] } with plan := some p })]
    ((s.die s.input.a).engine s.input.b).plan = some p ∧ ((s.die 0).engine 0).state = .leased ∧ ((s.die 0).engine 0).fifos.run = some [1] ∧
    ((s.die 0).engine 0).awaited = 0 ∧ ((s.die 0).engine 0).fifos.cmds = [] ∧ p.writes = [] := by decide +kernel

/-- A command word for word (Table 12-5), with the regions of the tests. -/
def command (op fl n m ty k : Nat) (aux aux2 q : Nat := 0) : List (BitVec 32) :=
  [BitVec.ofNat 32 (op + 256 * fl), BitVec.ofNat 32 n, BitVec.ofNat 32 m, BitVec.ofNat 32 (ty + 65536 * k), 0x10000, 0, 0x11000, 0,
   BitVec.ofNat 32 aux, 0, BitVec.ofNat 32 aux2, 0, BitVec.ofNat 32 q, 0, 0, 0]
/-- Engine 0 of die 0 executes a command; memory holds 1.0 at 0x10000, the offsets 0 and 1 at 0x10040 and TT2 of the example of R74
at 0x10110. -/
def engSt (c : List (BitVec 32)) : State :=
  let s := dieSt [] [(0, leased { run := some c })]
  { s with mem := cells 0x10000 0x3F800000 ++ cells 0x10040 (2 ^ 32) ++ cells 0x10110 0x8888884213888888 ++ s.mem }
/-- BanksAwake, as a test that can be evaluated. -/
def awake (s : State) : Bool := decide (s.clk < 65536) && s.cores.all fun e => decide (e.2.asleep = [])
theorem banksAwake_of {s : State} (h : awake s = true) : BanksAwake s := by
  simp only [awake, Bool.and_eq_true, decide_eq_true_eq, List.all_eq_true] at h
  have none : ∀ (l : Table Core) (c : Nat), (∀ e ∈ l, e.2.asleep = []) → (Table.get {} l c).asleep = [] := by
    intro l c hl
    induction l with
    | nil => rfl
    | cons e rest ih =>
      simp only [Table.get]
      split
      · exact hl e (by simp)
      · exact ih fun e he => hl e (by simp [he])
  refine fun c b => ⟨?_, by simp only [State.bankIdle, decide_eq_false_iff_not]; omega⟩
  show Table.get 0 (Table.get {} s.cores c).asleep b = 0
  rw [none s.cores c h.2]
  rfl
/-- Served, as a test that can be evaluated. -/
def servedBy (x : EngCtx) : State → List (Word × List Byte) → Bool
  | s, [] => decide (((s.die x.die).engine x.eng).awaited = 0)
  | s, w :: rest =>
    let h := s.copyHome x.who w.1 w.2.length true
    awake s && passed (s.engCheck x w.1 w.2.length true) && !s.across h && !s.poisonedIn h.loc w.2.length &&
      match s.engWritePart x w.1 w.2 with
      | .done u => servedBy x u rest
      | _ => true
theorem served_of {x : EngCtx} {l : List (Word × List Byte)} : ∀ {s : State}, servedBy x s l = true → Served x s l := by
  induction l with
  | nil => intro s h; exact (of_decide_eq_true h : ((s.die x.die).engine x.eng).awaited = 0)
  | cons w rest ih =>
    intro s h
    simp only [servedBy, Bool.and_eq_true, Bool.not_eq_true'] at h
    refine ⟨banksAwake_of h.1.1.1.1, of_passed h.1.1.1.2, h.1.1.2, h.1.2, fun u hu => ih ?_⟩
    have := h.2
    rw [hu] at this
    exact this
/-- EngineSteps: a command outside its limits, one whose source cannot be read, one that writes; a part of a line. -/
theorem witness_engine_steps :
    (let c := command 0x04 1 1 1 10 0 0 0 0
     let s := engSt c
     ((s.die s.input.a).engine s.input.b).fifos.run = some c ∧ ((s.die 0).engine 0).state = .leased ∧ field (c.getD 0 0) 0 8 = 4 ∧
     ((s.die 0).engine 0).awaited = 0 ∧ ((s.die 0).engine 0).plan = none ∧ opExp s (s.engCtx 0 0 c) = .error .bad) ∧
    (let c := (command 0x04 0 1 1 10 0 0 0 0).set 5 1
     opExp (engSt c) ((engSt c).engCtx 0 0 c) = .error (.fault 0x07 0x100010000)) ∧
    (let c := command 0x11 0 1 0 10 0 0 0 0
     let s := engSt c
     let o : EngOut := { reads := [(0x10000, 4)], writes := [(0x11000, [0, 0, 0x80, 0x3F])], outn := 1, unit := 4 }
     opSort s (s.engCtx 0 0 c) = .ok o ∧ awake s = true ∧ servedBy (s.engCtx 0 0 c) (s.engTouch (s.engCtx 0 0 c) false o.reads).1 (o.plan c).writes = true) ∧
    (let c := command 0x11 0 1 0 10 0 0 0 0
     let p : EngPlan := ⟨[(0x11000, [1, 2]), (0x11002, [3])], 0, 3, 1, resultEntry c 0 0 3 0⟩
     let s := (engSt c).modEngine 0 0 fun y => { y with plan := some p }
     ((s.die 0).engine 0).plan = some p ∧ ((s.die 0).engine 0).fifos.run = some c ∧ servedBy (s.engCtx 0 0 c) s p.writes = true) := by
  refine ⟨?_, ?_, ?_, ?_⟩ <;> decide +kernel
theorem onlyUses_of {x : EngCtx} {fl : Nat} {ty k : Bool} {zeros : List Nat} (h : ∀ i ∈ 13 :: 14 :: 15 :: zeros, x.w i = 0)
    (hx : x.fl &&& fl = x.fl ∧ x.w 3 / 16 % 4096 = 0 ∧ (ty = true ∨ x.w 3 % 16 = 0) ∧ (k = true ∨ x.k = 0)) : onlyUses x fl ty k zeros :=
  ⟨fun i hi => h i (by simpa using hi), hx⟩
/-- EngineSteps: a command of each kind of result that lies within one line (SORT here), with its bytes. -/
theorem witness_engine_line :
    let c := command 0x11 1 1 0 10 0 0 0 0
    let s := engSt c
    let x := s.engCtx 0 0 c
    let h : Home := ⟨0, 0x11000, 0⟩
    engineWrites 0x11 s x [0, 0, 0x80, 0x3F] ∧ x.dst.toNat % 64 + 4 ≤ 64 ∧ BanksAwake s ∧ s.engCheck x x.dst 4 true = .ok ∧
    s.copyHome x.who x.dst 4 true = h ∧ s.across h = false ∧ s.poisonedIn h.loc 4 = false ∧ s.shelfOf h.loc = [] :=
  ⟨⟨[0x3F800000], [(0x3F800000, 0)], by decide +kernel, by decide +kernel, by decide +kernel, by decide +kernel, by decide +kernel,
      onlyUses_of (by decide +kernel) (by decide +kernel), by decide +kernel, by decide +kernel, rfl⟩, by decide +kernel,
    banksAwake_of (by decide +kernel), of_passed (by decide +kernel), by decide +kernel, by decide +kernel, by decide +kernel, by decide +kernel⟩
theorem witness_engine_write :
    let s := engSt []
    let x := s.engCtx 0 0 []
    let h : Home := ⟨0, 0x11038, 0⟩
    ((0x11038 : Word).toNat % 64 + 8 ≤ 64 ∧ s.copyHome x.who 0x11038 8 true = h ∧ s.across h = false ∧ s.poisonedIn h.loc 8 = false ∧
     s.shelfOf h.loc = []) ∧ s.engCheck x 0x11038 8 true = .ok ∧ BanksAwake s :=
  ⟨by decide +kernel, of_passed (by decide +kernel), banksAwake_of (by decide +kernel)⟩
/-- EngineResults: for each operation a region that is read, of one element, row, segment or bag. -/
def ctxOf' (op fl n m ty k : Nat) (aux aux2 q : Nat := 0) : EngCtx := (engSt []).engCtx 0 0 (command op fl n m ty k aux aux2 q)
theorem witness_sfx (op : Nat) (h : op = 1 ∨ op = 2 ∨ op = 3 ∨ op = 4 ∨ op = 5) :
    ∃ out, engineWrites op (engSt []) (ctxOf' op 0 1 1 10 0 0 0 0) out := by
  rcases h with rfl | rfl | rfl | rfl | rfl <;> simp only [engineWrites]
  · exact ⟨_, [0x3F800000], by decide +kernel, by decide +kernel, onlyUses_of (by decide +kernel) (by decide +kernel), by decide +kernel, rfl⟩
  · exact ⟨_, [0x3F800000], by decide +kernel, by decide +kernel, onlyUses_of (by decide +kernel) (by decide +kernel), by decide +kernel,
      by decide +kernel, rfl⟩
  · exact ⟨_, [0x3F800000], by decide +kernel, by decide +kernel, onlyUses_of (by decide +kernel) (by decide +kernel), by decide +kernel,
      by decide +kernel, rfl⟩
  · exact ⟨_, [0x3F800000], by decide +kernel, onlyUses_of (by decide +kernel) (by decide +kernel), by decide +kernel, rfl⟩
  · exact ⟨_, [0x3F800000], by decide +kernel, onlyUses_of (by decide +kernel) (by decide +kernel), by decide +kernel, rfl⟩
theorem witness_srt :
    (∃ out, engineWrites 0x11 (engSt []) (ctxOf' 0x11 1 1 0 10 0 0 0 0) out) ∧
    (∃ out, engineWrites 0x13 (engSt []) (ctxOf' 0x13 0 1 1 2 0 0x10040 0 0) out) := by
  simp only [engineWrites]
  exact ⟨⟨_, [0x3F800000], [(0x3F800000, 0)], by decide +kernel, by decide +kernel, by decide +kernel, by decide +kernel, by decide +kernel,
      onlyUses_of (by decide +kernel) (by decide +kernel), by decide +kernel, by decide +kernel, rfl⟩,
    ⟨_, [0x3F800000], [0, 1], fun _ => [(0x3F800000, 0)], by decide +kernel, onlyUses_of (by decide +kernel) (by decide +kernel),
      by decide +kernel, by decide +kernel, by decide +kernel, by decide +kernel, rfl⟩⟩
theorem witness_spx :
    (∃ out, engineWrites 0x31 (engSt []) (ctxOf' 0x31 0 1 4 0 0 0x10040 0 0) out) ∧
    (∃ out, engineWrites 0x32 (engSt []) (ctxOf' 0x32 1 1 1 10 1 0x10040 0x10040 0) out) ∧
    (∃ out, engineWrites 0x33 (engSt []) (ctxOf' 0x33 2 1 1 10 0 0x10040 0 0) out) := by
  simp only [engineWrites]
  exact ⟨⟨_, [0], fun _ => [0, 0, 0x80, 0x3F], by decide +kernel, by decide +kernel, by decide +kernel,
      onlyUses_of (by decide +kernel) (by decide +kernel), by decide +kernel, by decide +kernel, rfl⟩,
    ⟨_, [0], [0, 1], fun _ => [0x3F800000], by decide +kernel, by decide +kernel, onlyUses_of (by decide +kernel) (by decide +kernel),
      by decide +kernel, by decide +kernel, by decide +kernel, by decide +kernel, by decide +kernel, by decide +kernel, rfl⟩,
    ⟨_, [0x3F800000], [0, 1], by decide +kernel, by decide +kernel, onlyUses_of (by decide +kernel) (by decide +kernel), by decide +kernel,
      by decide +kernel, by decide +kernel, by decide +kernel, rfl⟩⟩
theorem witness_topk_sort :
    (let x := ctxOf' 0x12 1 1 1 10 1 0 0x12000 0
     (1 ≤ x.k ∧ x.k ≤ x.m) ∧ onlyUses x 1 true true [8, 9, 12] ∧ reads (engSt []) x x.src 4 [0x3F800000] (x.n * x.m) ∧
     ∀ r < x.n, stable x.ty (x.fl = 1) (row x.m [0x3F800000] r).zipIdx [(0x3F800000, 0)]) ∧
    (let x := ctxOf' 0x11 3 1 0 10 0 0x10040 0x12000 0
     (1 ≤ x.n ∧ x.m = 0 ∧ x.fl = 3) ∧ onlyUses x 3 true false [12] ∧ reads (engSt []) x x.src 4 [0x3F800000] x.n ∧
     reads (engSt []) x x.aux 4 [0] x.n ∧ stable x.ty (x.fl = 3) [0x3F800000].zipIdx [(0x3F800000, 0)]) :=
  ⟨⟨by decide +kernel, onlyUses_of (by decide +kernel) (by decide +kernel), by decide +kernel, by decide +kernel⟩, by decide +kernel,
    onlyUses_of (by decide +kernel) (by decide +kernel), by decide +kernel, by decide +kernel, by decide +kernel⟩
/-- A block that can be encoded and one that cannot; a block to decode and one that is none. -/
def tt2 : List Nat := [0, 0, 0x8888884213888888, 0, 0, 0, 0, 0]
theorem witness_zf8 :
    (∀ fl ∈ [4, 1], let x := ctxOf' 0x21 fl 1 0 10 0 0x10100 0 0
      reads (engSt []) x x.aux 8 tt2 8 ∧ reads (engSt []) x x.src 4 (0x3F800000 :: List.replicate 15 0 ++ [0, 1] ++ List.replicate 14 0) 32 ∧
      (zf8Block (tt2.map (BitVec.ofNat 64)) fl (List.replicate 32 (.fin false 0 0))).isSome = (fl = 4)) ∧
    onlyUses (ctxOf' 0x21 4 1 0 10 0 0x10100 0 0) 255 true false [10, 11, 12] ∧
    onlyUses (ctxOf' 0x22 0 1 0 10 0 0x10100 0 0) 0 true false [10, 11, 12] ∧
    (let x := ctxOf' 0x22 0 1 0 10 0 0x10100 0 0
     reads (engSt []) x x.aux 8 tt2 8 ∧ reads (engSt []) x x.src 4 [0x3F800000] 1 ∧ zOk 0x3F800000 = false ∧ zOk 0x4247E000 = true ∧
     (zf8Values (tt2.map (BitVec.ofNat 64)) 0x4247E000 ([0xA3, 0x00] ++ List.replicate 14 0 ++ [0x00, 0x5C, 0, 0, 0, 0])).isSome = true) :=
  ⟨by decide +kernel, onlyUses_of (by decide +kernel) (by decide +kernel), onlyUses_of (by decide +kernel) (by decide +kernel),
    by decide +kernel⟩

/-! Launch, the admitter, translation, the selector. -/

/-- A launch record of one cluster of one core on die 0, with a class, a larder of `u` units and a completion counter. -/
def record (cls u : Nat) (cc : Word := 0) : List Word :=
  [0x10002, 7, cc, BitVec.ofNat 64 (1 + 2 ^ 11 + 2 ^ 15 + 2 ^ 25 + u * 2 ^ 32 + cls * 2 ^ 42 + 2 ^ 44), 5, 0, 0, 0]
def recordCells (loc : Nat) (r : List Word) : List Host.Cell := (r.zipIdx.map fun e => cells (loc + 8 * e.2) e.1.toNat).flatten
/-- Launch: a good record, a full queue, a task, a bad place, a bad record. -/
def launchSt (n : Nat) (r : List Word) : State :=
  let s := teamSt [(1, 0x10080)] fun t => { t with pend := List.replicate n (record 0 0) }
  { s with mem := recordCells 0x10080 r ++ s.mem }
theorem witness_launch :
    (∀ n ∈ [0, 3, 4], let s := launchSt n (record 1 1)
      Runs (.launch (f2 3 1 0 0)) s ∧ s.isGroup = true ∧ (s.sreg 1).toNat % 64 = 0 ∧ s.curPath.buf = [] ∧
      (s.readRecord (s.sreg 1)).toOption.any (fun e => e.2 = record 1 1 ∧ e.1.recordReason false e.1.curPart e.2 = 0) = true ∧
      s.curSlot.member.isSome = true ∧ s.curTeam?.isSome = true ∧ s.curGrid?.isSome = true ∧ s.releaseHold true = .ok ()) ∧
    (Runs (.launch (f2 3 1 0 0)) (taskSt []) ∧ (taskSt []).isGroup = false) ∧
    (Runs (.launch (f2 3 1 0 0)) (st [(1, 0x10088)]) ∧ (0x10088 : Word).toNat % 64 ≠ 0) ∧
    (let s := launchSt 0 ((record 1 1).set 6 1)
     Runs (.launch (f2 3 1 0 0)) s ∧
     (s.readRecord (s.sreg 1)).toOption.any (fun e => e.2 = (record 1 1).set 6 1 ∧ e.1.recordReason false e.1.curPart e.2 ≠ 0) = true) := by
  refine ⟨?_, ?_, ?_, ?_⟩ <;> decide +kernel
/-- `lwait` of a counter at zero and above, and its rereading. -/
theorem witness_lwait :
    (∀ v ∈ [0, 1], let s := cell v (st [(1, larder 0x40)])
      let u : Use1 := { addr := larder 0x40, size := 8, align := 8, rd := true, wr := false }
      Runs (.lwait (f2 3 1 0 0)) s ∧ s.isGroup = true ∧ s.check s.who [u] = .ok () ∧ s.home s.who u = larderHome0 ∧
      HomeOk s larderHome0 8 ∧ serves s [(larderHome0.loc, 8)] = true ∧ (s.read64 larderHome0.loc).toInt = v) ∧
    (let s := stWith [] fun sl => { sl with p := { sl.p with wait := .counter, buf := [(900, 3), (901, larder 0x40)] } }
     let u : Use1 := { addr := larder 0x40, size := 8, align := 8, rd := true, wr := false }
     let p := (s.slot s.input.a s.input.b).path s.input.flag
     p.wait = .counter ∧ s.agenda = [] ∧ (∀ e ∈ p.buf, e.1 ≠ 902) ∧ Table.get 0 p.buf 900 = 3 ∧ Table.get 0 p.buf 901 = larder 0x40 ∧ p.chan = false ∧
     (s.slot 0 0).state = .active ∧ s.check s.who [u] = .ok () ∧ HomeOk s larderHome0 8 ∧ serves s [(larderHome0.loc, 8)] = true) := by
  refine ⟨?_, ?_⟩ <;> decide +kernel
/-- LaunchRings: a ring of four records in Vault memory or in the host's, of which `n` are reserved; the head rung. -/
def ringSt (n : Nat) (r : List Word) : State :=
  let s := (teamSt [] fun t => { t with pend := [record 0 0] }).modPart 0 fun p =>
    { p with rings := [(0, { base := 0x10080, log := 2, head := 4, tail := 4 + n, rung := [4] })] }
  { s with mem := recordCells 0x10080 r ++ s.mem }
theorem witness_rings :
    (∀ n ∈ [0, 3, 4], let r := ((ringSt n []).partn (ringSt n []).input.a).ring (ringSt n []).input.b
      r.tail - r.head = n ∧ r.log = 2 ∧ (ringSt n []).input.c = 4 % 2 ^ r.log) ∧
    (∀ e ∈ [record 0 1, (record 0 1).set 6 1], let s := ringSt 1 e; let r := (s.partn 0).ring 0
      r.head ≠ r.tail ∧ r.rung.contains r.head = true ∧ ((s.partn 0).queue 0).length < 64 ∧ r.own = [] ∧
      s.admitting = true ∧ isHost (r.loc r.head) = false ∧ s.lentFault (r.loc r.head) s.pkgId.toNat 0 = none ∧
      s.poisonedIn (r.loc r.head) 64 = false ∧ ((List.range 8).map fun i => s.read64 (r.loc r.head + 8 * i)) = e ∧ recWord e 2 = 0) ∧
    ((ringSt 1 []).recordReason true 0 (record 0 1) = 0 ∧ (ringSt 1 []).recordReason true 0 ((record 0 1).set 6 1) ≠ 0) ∧
    (let s := ringSt 1 []
     (s.team? 3).map (fun t => (t.pend, t.grid)) = some ([record 0 0], 1) ∧ ({ s with input := { a := 3 } } : State).input.a = 3 ∧
     (s.grid? 1).isSome = true ∧ (record 0 0).length = 8 ∧ recClass (record 0 0) = 0) ∧
    (let l := (record 0 1).flatMap fun w => (List.range 8).map fun j => BitVec.ofNat 8 (w.toNat / 256 ^ j)
     let s := event { body := .bytes l } ((st []).modPart 0 fun p => { p with rings := [(0, { base := hostLoc 0x1000, log := 2, tail := 1, rung := [0] })] })
     let r := (s.partn 0).ring 0
     isHost (r.loc r.head) = true ∧ s.input.body = .bytes l ∧ r.head ≠ r.tail ∧ r.rung.contains r.head = true ∧
     ((List.range 8).map fun i => BitVec.ofNat 64 (bytesNat ((l.drop (8 * i)).take 8))) = record 0 1) := by
  refine ⟨?_, ?_, ?_, ?_, ?_⟩ <;> decide +kernel
/-- GridLifetime: a record that can be placed; one of a higher class that cannot while the grid is there. -/
def queued (cls : Nat) (r : List Word) (blocked : Option Nat := none) (full : Bool := false) : State :=
  let s := (st []).modPart 0 fun p => { p with queues := [(cls, [⟨r, none, none, blocked⟩])], poolSize := 2 ^ 40 }
  let s := { s with clk := 2600000, grids := s.grids.map fun e => (e.1, { e.2 with record := record 0 0 }) }
  if full then { s with cores := (List.range 160).map fun c => (c, { (s.core c) with hslots := if c = 0 then 8 else 63 }) } else s
theorem witness_admission :
    (let s := queued 1 (record 1 1)
     s.input.a = 0 ∧ s.admitting = true ∧ (s.partn 0).stopping = [] ∧ (s.partn 0).queue 1 = [⟨record 1 1, none, none, none⟩] ∧
     (∀ j ∈ [0, 2, 3], (s.partn 0).queue j = []) ∧ s.placeGrid 0 (record 1 1) = some [⟨0, 0, 0, 1⟩] ∧ recOneDie (record 1 1) = false) ∧
    (let r := (record 1 1).set 3 (BitVec.ofNat 64 (1 + 2 ^ 11 + 2 ^ 15 + 54 * 2 ^ 19 + 2 ^ 42 + 2 ^ 44))
     (∀ b ∈ [none, some 0], let s := queued 1 r b true
       s.admitting = true ∧ (s.partn 0).queue 1 = [⟨r, none, none, b⟩] ∧ s.placeGrid 0 r = none) ∧
     (let s := queued 1 r (some 0) true
      s.victims 0 1 r = [1] ∧ ((s.without [1]).placeGrid 0 r).isSome = true ∧ (s.grid? 1).map Grid.record = some (record 0 0) ∧
      s.poolHolds 0 (saveBytes (record 0 0)) = true)) := by
  refine ⟨?_, ?_, ?_⟩ <;> decide +kernel
theorem witness_grids :
    (let s := { stWith [] fun sl => { sl with p := { sl.p with wait := .window } } with input := { a := 1 } }
     s.teams.map Prod.fst = [3] ∧ (s.team? 3).map (fun t => (t.grid, t.core, t.slots)) = some (1, 0, [0, 1]) ∧
     (s.slot 0 0).p.wait = .window ∧ (s.slot 0 0).member.any (fun m => m.grid = 1) = true ∧ (s.core 0).regAsleep = []) ∧
    (let s := { (queued 0 (record 0 0)).modPart 0 fun p => { p with stopping := [1] } with input := { b := 1 } }
     let t := (s.modSlot 0 0 fun sl => { sl with state := .stopping }).modSlot 0 1 fun sl => { sl with state := .stopping }
     s.input.b = 1 ∧ (s.partn s.input.a).stopping = [1] ∧ (s.grid? 1).map (fun x => (x.part, x.state, x.swapped)) = some (0, .resident, false) ∧
     s.gridSlots 1 = [(0, 0), (0, 1)] ∧ t.gridSlots 1 = [(0, 0), (0, 1)] ∧
     ∀ e ∈ t.gridSlots 1, t.canSave e.1 e.2 = true ∧ (t.slot e.1 e.2).ending = false) ∧
    (let s := owing { (queued 0 (record 0 0)).modPart 0 fun p => { p with stopping := [1] } with input := { b := 1 } }
     (s.gridSlots 1).all (fun e => s.canSave e.1 e.2) = false) := by
  refine ⟨?_, ?_, ?_⟩ <;> decide +kernel
theorem witness_completion :
    (∀ cc ∈ [0, (larder 0x40).toNat],
      let s := { st [] with input := { a := 1 }, grids := [(1, { record := record 0 0 (BitVec.ofNat 64 cc), part := 0, clusters := [], admitted := 1, live := 0, parent := none, children := 0 })] }
      (s.grid? s.input.a).map (fun x => (x.live, x.children, x.parent, (recWord x.record 2).toNat)) = some (0, 0, none, cc) ∧
      s.input.flag = false ∧ ∀ e ∈ s.grids, e.2.parent ≠ some 1) ∧
    ((st []).admitterHome 0 (larder 0x40) true = .ok larderHome0 ∧ HomeOk (st []) larderHome0 8 ∧
      serves (st []) [(larderHome0.loc, 8)] = true) ∧
    (∀ e ∈ [(0, 0), (0, 5000), (8, 0)], let s := { (st []).modCluster 2 fun c => { c with wdog := 6, progress := e.2 } with input := { a := 2 } }
      let s := s.modCore 0 fun co => { co with wdoglim := BitVec.ofNat 64 e.1 }
      (s.cluster? s.input.a).map (fun c => (c.wdog, c.progress)) = some (6, e.2) ∧
      ∀ k ∈ [(0, 0), (0, 1)], (s.slot k.1 k.2).state ≠ .trapped) ∧
    (let s := (({ (stWith [] fun sl => { sl with p := { sl.p with wait := .barrier 5 0 } }).modCluster 2 fun c => { c with wdog := 6 } with
        input := { a := 2 }, clk := 1024 }).modCore 0 fun co => { co with wdoglim := 7 })
     (s.clusterSlots ⟨1, 0, 0, 0, 0, 1, 1, [3], 0, 0, 2, 6, 0⟩).find? (fun e => (s.slot e.1 e.2).stateCode = 2) = some (0, 0) ∧
     s.cluster? 2 = some ⟨1, 0, 0, 0, 0, 1, 1, [3], 0, 0, 2, 6, 0⟩ ∧ (s.slot 0 0).p.wait.inside = true ∧ (s.slot 0 0).p.withdrawable = true) := by
  refine ⟨?_, ?_, ?_, ?_⟩ <;> decide +kernel
/-- GridLifetime: a group whose wait the watchdog can withdraw, its other path not waiting for its window. -/
theorem witness_trips :
    let s := stWith [] fun sl => { sl with p := { sl.p with wait := .barrier 5 0 } }
    s.trips 0 0 = true ∧ s.canTrip 0 0 false = true ∧ (s.slot 0 0).p.wait ≠ .shelved ∧ (s.slot 0 0).q.wait ≠ .window := by decide +kernel
/-- LaunchRings: a ring in Vault memory and one in the host's, with room for a team's record and without. -/
theorem witness_ring_transfers :
    (∀ n ∈ [1, 4], let s := ringSt n []
      let r := (s.partn 0).ring 0
      s.admitting = true ∧ r.head ≠ r.tail ∧ r.tail - r.head = n ∧ r.lost = [] ∧ isHost (r.loc r.tail) = false ∧
      s.lentFault (r.loc r.tail) s.pkgId.toNat 0 = none ∧ s.poisonedIn (r.loc r.tail) 64 = false) ∧
    (let s := (ringSt 1 []).modPart 0 fun p => { p with rings := [(0, { base := hostLoc 0x1000, log := 2, head := 4, tail := 5 })] }
     let r := (s.partn 0).ring 0
     r.head ≠ r.tail ∧ r.tail - r.head < 2 ^ r.log ∧ isHost (r.loc r.tail) = true) := by
  refine ⟨?_, ?_⟩ <;> decide +kernel
/-- No bank is asleep in the states of the witnesses whose statements ask for it. -/
theorem witness_banks :
    ∀ s ∈ [decSt 7 7, st [(1, toCore0), (2, 9)], withFrt [(0, frtWord 1 false false 0 0 true 9, 0)] (st [(1, fkHere)]),
      (st []).modCore 0 (fun co => { co with rrtail := 1 }), event { word := fkHere } heldSt], BanksAwake s := by
  have h : ∀ s ∈ [decSt 7 7, st [(1, toCore0), (2, 9)], withFrt [(0, frtWord 1 false false 0 0 true 9, 0)] (st [(1, fkHere)]),
      (st []).modCore 0 (fun co => { co with rrtail := 1 }), event { word := fkHere } heldSt], awake s = true := by decide +kernel
  exact fun s hs => banksAwake_of (h s hs)
/-- Translation: ranges at their bounds and outside, a free and a full set of marks, a mark to confirm, a walk. -/
def markSt (regs : List (Nat × Word)) (l : List Mark) : State := (sSt regs).modPart 0 fun p => { p with marks := l }
/-- A page table of the partition maps a 2 MiB page at 0, of which no TLB holds a leaf. -/
def walkSt : State :=
  let s := (st []).modPart 0 fun p => { p with root := 0x20000 }
  { s with mem := cells 0x20000 0x8000000000021000 ++ cells 0x21000 0x8000000000022000 ++ cells 0x22000 0xF180000000000000 }
theorem witness_marks :
    (let s := markSt [(1, 0), (2, 0x10000), (4, 0x10001), (5, 1 <<< 57)] []
     RunsAll [.tlbiMark (f2 3 1 2 0 2), .tlbiMark (f2 3 1 5 0 7), .tlbiMark (f2 3 4 2 0 2), .tlbiMark (f2 3 1 2 0 8), .tlbiConf (f2 3 0 0 0)] s ∧
     (0x10001 : Word).toNat % 65536 ≠ 0 ∧ (1 <<< 57 : Word).toNat = 2 ^ 57) ∧
    (∀ l ∈ [[(⟨0, 65536, 2, 0⟩ : Mark)], List.replicate 16 ⟨0, 65536, 2, 1⟩],
      Runs (.tlbiMark (f2 3 1 2 0 2)) (markSt [(2, 0x10000)] l) ∧ ((markSt [] l).partn (markSt [] l).curPart).marks = l) ∧
    (let s := markSt [] [⟨0, 65536, 7, 0⟩]
     Runs (.tlbiConf (f2 3 0 0 0)) s ∧ s.confirmed 0 = true ∧ s.partOf 0 = s.curPart ∧
     ((s.partn s.curPart).marks.find? fun m => m.core = s.cur.core) = some ⟨0, 65536, 7, 0⟩) ∧
    (∀ sc ∈ [2, 3, 4, 5], let s := markSt [] [⟨0, 65536, sc, 0⟩]
     s.confirmed 0 = true ∧ ((s.partn s.curPart).marks.find? fun m => m.core = s.cur.core) = some ⟨0, 65536, sc, 0⟩ ∧ s.cur.core < 1280) ∧
    (let s := markSt [] [⟨0, 0x20000, 7, 0⟩]
     let w : Req := ⟨0, 5, 0, ⟨.store 0, 0x10000, 0, 8, 0, 0, 0, 0, 0, 0, 0, false, 0, 0, true, 1, 0, 0, false⟩, .path, 0, 0, false, false, 0⟩
     Runs (.tlbiConf (f2 3 0 0 0)) { s with reqs := [(1, w)] } ∧ ({ s with reqs := [(1, w)] } : State).confirmed 0 = false) ∧
    (let s := { st [] with input := { word := 0x10040 } }
     s.draining 0 (field s.input.word 0 57) = false ∧ s.leafFor 0 0x10040 ⟨false, false, s.input.flag⟩ = (.leaf leaf1, false) ∧
     s.inMove (s.partOf 0) 0x10040 leaf1 = false) ∧
    (let s := walkSt; let va := field s.input.word 0 57
     s.draining 0 va = false ∧ s.leafFor 0 va ⟨false, false, s.input.flag⟩ = (.leaf 0xF180000000000000, true) ∧
     s.inMove (s.partOf 0) va 0xF180000000000000 = false) := by
  refine ⟨?_, ?_, ?_, ?_, ?_, ?_, ?_⟩ <;> decide +kernel
/-- Both groups of the core hold the line of their code. -/
def fetchedSt (f : Slot → Slot) : State :=
  let held := fun (sl : Slot) => { sl with p := { sl.p with line := some { base := 0x10000, halves := (List.range 32).map fun i => lineHw (lineOf 0 0) i } } }
  ((st []).modSlot 0 0 held).modSlot 0 1 fun sl => f (held sl)
/-- IssueAndClock: ready paths, one of them old; none; a gated bay; a fixed clock; what is due in wall time and what is not. -/
theorem witness_issue :
    (let s := fetchedSt id
     s.input.a = 0 ∧ (s.core 0).slots ≠ [] ∧ (s.core 0).inReset = false ∧ s.gatedNow 0 = false ∧ s.readyPaths 0 = [(0, false), (1, false)] ∧
     ((s.core 0).choose (s.pathPolicy 0) ((s.core 0).afterYield s.clk (s.readyPaths 0))).isSome = true ∧ (s.readyPaths 0).Nodup) ∧
    (let s := fetchedSt fun sl => { sl with p := { sl.p with age := 512 } }
     ((s.core 0).choose 0 (s.readyPaths 0)).isSome = true ∧ 512 ≤ ((s.core 0).slot 1).p.age) ∧
    (let s := { st [] with input := { a := 1 } }; (s.core s.input.a).slots = [] ∧ s.readyPaths 1 = []) ∧
    ({ (st []).modPart 0 (fun p => { p with clkfix := 1 }) with gated := [0], clk := 1001 } : State).gatedNow 0 = true ∧
    ((∀ e ∈ (st []).parts, e.2.clkfix.getLsbD 0 = false) ∧ (st []).input.c = 0 ∧
     ∃ e ∈ ((st []).modPart 0 fun p => { p with clkfix := 1 }).parts, e.2.clkfix.getLsbD 0 = true) ∧
    (wallTime (2000, .portRetrainComplete, {}) = true ∧ wallTime (2000, .patrolScrub, {}) = false) := by
  refine ⟨?_, ?_, ?_, ?_, ?_, ?_⟩ <;> decide +kernel

/-! Links, Vaults, ports, granaries, boot. -/

/-- An access of package 5, of partition `part`, at the word of a larder or of a Vault. -/
def foreign (op : AccOp) (loc : Nat) (part : Nat := 0) (size : Nat := 8) : Access :=
  ⟨op, 0, loc, size, 3, 0, 5, part, 9, 1, 0, false, 0, 0, true, 17, 2, 0, false⟩
def homeSt (a : Access) (pantry : List PantryEntry) : State :=
  let s := (cell 7 (st [])).modPart 0 fun p => { p with foreign := true }
  { s.modCore 0 fun co => { co with pantry := pantry } with input := { body := .access a } }
def other : PantryEntry := ⟨6, 0, 0, 0, 0, 0, none, 9⟩
/-- Links, at the home: a load, one of a line, an atomic, one without room, one of a partition that is not let pass, a reissue; an entry
that expires. -/
theorem witness_home :
    (∀ e ∈ [(AccOp.load, 0, 8), (.load, 0, 64), (.amo 1 3, 0, 8), (.amo 1 3, 256, 8)],
      let a := foreign e.1 larderHome0.loc 0 e.2.2
      let s := homeSt a (List.replicate e.2.1 other)
      a.pkg ≠ s.pkgId.toNat ∧ (s.core 0).inReset = false ∧ ((s.pantry a.loc).find? fun e => e.isFor a.pkg a.core a.tag a.epoch) = none ∧
      s.input.flag = false ∧ a.bad = false ∧ s.shelfOf a.loc = [] ∧ s.foreignOk a.loc a.pkg a.part = true ∧
      s.lentFault a.loc a.pkg a.part = none ∧ s.poisonedIn a.loc a.size = false ∧ serves s [(a.loc, a.size)] = true ∧
      s.pantryFull a.loc = decide (e.2.1 = 256) ∧ (s.core 0).trbase.getLsbD 0 = false) ∧
    (homeSt (foreign .load 0x40 1) []).foreignOk 0x40 5 1 = false ∧
    (let a := foreign .load (hostLoc 0x40)
     let s := { homeSt a [] with ports := [(12, { up := true })] }
     isHost a.loc = true ∧ (s.port 12).up = true ∧ (s.port 12).retraining = false ∧ isLarder a.loc = false) ∧
    (let e : PantryEntry := ⟨5, 9, 17, 2, 7, 0, none, 2000⟩
     ((homeSt (foreign (.amo 1 3) larderHome0.loc) [e]).pantry larderHome0.loc).find? (fun e => e.isFor 5 9 17 2) = some e) ∧
    (let e : PantryEntry := ⟨5, 9, 17, 2, 7, 0, none, 900⟩
     let s := { homeSt (foreign .load 0) [e] with input := { b := 5, c := 9, d := 17, e := 2 } }
     ∀ e ∈ s.pantry (homeLoc s.input.a), e.isFor s.input.b s.input.c s.input.d s.input.e = true → e.till ≤ s.clk) := by
  refine ⟨?_, ?_, ?_, ?_, ?_⟩ <;> decide +kernel
/-- Links, at the requester. -/
def asked (op : AccOp) (inside : Bool) (reissues : Nat) (host : Bool := false) : Req :=
  ⟨2, if host then 0 else 5, if host then 1296 else 0, ⟨op, larder 0x40, 0, 8, 0, 3, 0, 0, 0, 0, 0, false, 3, 0, true, 17, 2, 0, false⟩,
    .path, 0, reissues, op = .load, inside, 0⟩
def askedSt (r : Req) (w : Wait) (inp : Input) : State :=
  { stWith [] fun sl => { sl with p := { sl.p with wait := w } } with reqs := [(17, r)], input := inp }
theorem witness_replies :
    (∀ e ∈ [(asked (.store 0) false 0, Wait.none, 0), (asked .load true 0, .load, 0), (asked (.store 0) false 0, .none, 0xFE)],
      let s := askedSt e.1 e.2.1 { a := 17, b := 2, cause := e.2.2 }
      s.reqs.find? (fun x => x.1 = s.input.a && x.2.epoch = s.input.b) = some (17, e.1) ∧ s.reqs.Pairwise (fun x y => x.1 ≠ y.1) ∧
      e.1.owner = .path ∧ (s.slot 0 0).gen = e.1.acc.gen ∧ (s.slot 0 0).p.wait = e.2.1 ∧ (s.slot 0 0).p.vload = none ∧
      (s.core 0).sendq = [] ∧ ∀ x ∈ (s.core 0).slots, x.2.laneq = []) ∧
    (askedSt (asked .load true 0) .load { a := 18 }).reqs.find? (fun x => x.1 = 18 && x.2.epoch = 0) = none ∧
    (∀ n ∈ [2, 3], let s := askedSt (asked .load true n) .shelved { a := 17, b := 2 }
      s.reqs.find? (fun e => e.1 = s.input.a && e.2.epoch = s.input.b && e.2.acc.refusals = s.input.c) = some (17, asked .load true n) ∧
      isLarderAddr (asked .load true n).acc.addr = true ∧ (s.slot 0 0).state = .active ∧ (s.slot 0 0).p.wait = .shelved) ∧
    (let s := askedSt (asked .load true 0) .shelved { flag := true, body := .access (asked .load true 0).acc }
     s.reqs.find? (fun e => e.1 = 0 * 4096 + 17 && e.2.epoch = 2) = some (17, asked .load true 0)) ∧
    (let r := asked .load true 0 true
     let s := { askedSt r .load { a := 17, b := 2 } with ports := [(12, { up := true })] }
     s.reqs.find? (fun e => e.1 = s.input.a && e.2.epoch = s.input.b && e.2.acc.refusals = s.input.c) = some (17, r) ∧
     r.toTgt = 1296 ∧ r.toPkg = s.pkgId.toNat ∧ (s.port 12).up = true) ∧
    (let s := stWith [] fun sl => { sl with state := .stopping, p := { sl.p with wait := .shelved } }
     (s.slot s.input.a s.input.b).p.wait = .shelved ∧ s.input.cause ≠ 1 ∧ s.reqs = [] ∧ (s.slot 0 0).state = .stopping) := by
  refine ⟨?_, ?_, ?_, ?_, ?_, ?_⟩ <;> decide +kernel
/-- VaultsAndPorts: each kind of place and of outcome, idle banks, ports of each width. -/
def flit (pkg : BitVec 11) (age : BitVec 12) (cargo : Cargo := .words []) : Flit := ⟨pkg, 0, 7, 0, 0, 0, age, 0, 0, 0, false, 0, cargo⟩
def portSt (p : Port) (fs : List Flit) : State := { st [] with ports := [(0, p), (1, p)], input := { body := .flits fs } }
/-- Six working links of Hatch A that carry one flit in a clk, ports 0 and 1 with what they hold. -/
def hatchSt (p q : Port) : State :=
  let up := fun (x : Port) => { x with up := true, lanes := 8 }
  { st [] with ports := [(0, up p), (1, up q)] ++ (List.range 4).map fun i => (i + 2, up {}) }
theorem witness_vaults :
    (isHost 0x10000 = false ∧ isVault 0x10000 = true ∧ isLarder larderHome0.loc = true ∧ isHost (hostLoc 5) = true) ∧
    (let s := { st [] with clk := 70000 }
     s.bankIdle 0 0 = true ∧ (st []).bankIdle 0 0 = false ∧ Table.get 0 (s.core 0).asleep 0 = 0 ∧ s.regIdle 1 0 = true ∧
     (st []).regIdle 0 0 = false) ∧
    (∀ f ∈ [flit 0 0 (.request 0 0 17 2 (foreign .load 0x40)), flit 0 0 (.reply 0 0 17 2 7 0), flit 5 0],
      let s := portSt { up := true } [f]
      s.input.body = .flits [f] ∧ s.input.flag = false ∧ (f.dpkg = s.pkgId ∨ (s.port 0).owns (Flit.code f) = false)) ∧
    (∀ n ∈ [7, 8], let f := { flit 5 0 with part := 2 }
     let s := portSt { up := true, wheel := [(3, 2)], buffers := [(2, List.replicate n f)] } [f]
     f.dpkg ≠ s.pkgId ∧ (s.port 0).owns (Flit.code f) = true ∧ ((s.port 0).buffer (Flit.code f)).length = n) ∧
    (∀ p ∈ [({ flits := [flit 5 2] } : Port), { buffers := [(2, [flit 5 2])] }, { again := [flit 5 2] }, { inject := [flit 5 2] },
        { flits := [flit 5 2], inject := [flit 5 1] }, { flits := [flit 5 2], buffers := [(2, [flit 5 1])], wheel := [(1000 % 64, 2)] }],
      let s := hatchSt p {}
      s.input.a = 0 ∧ (∀ j < 6, (s.port j).up = true ∧ (s.port j).retraining = false ∧ (s.port j).lanes = 8 ∧ (s.port j).clk ≠ s.clk) ∧
      (∀ j < 6, j ≠ 0 → (s.port j).flits = [] ∧ (s.port j).buffers = [] ∧ (s.port j).inject = [] ∧ (s.port j).again = []) ∧
      (p.wheel = [] ∨ (s.port 0).entry s.clk 0 = 2)) ∧
    (let s := hatchSt { flits := [flit 5 1] } { flits := [flit 5 2] }
     (s.port 0).flits = [flit 5 1] ∧ (s.port 1).flits = [flit 5 2] ∧ (flit 5 1).age.toNat < (flit 5 2).age.toNat ∧
     Flit.isCopy (flit 5 1) = false ∧ Flit.isCopy (flit 5 2) = false ∧ (flit 5 1).out = 0) ∧
    (∀ e ∈ [(32, 0), (32, 1), (16, 0), (8, 0)], ((portSt { up := true, lanes := e.1, failed := e.2, retraining := true } []).port 0).lanes = e.1) := by
  refine ⟨?_, ?_, ?_, ?_, ?_, ?_, ?_⟩ <;> decide +kernel
/-- VaultsAndPorts: a request that writes and one that reads, of which a datum is lost at a crossing; a flit in the replay buffer. -/
theorem witness_crossings :
    (∀ e ∈ [(AccOp.store 0, false), (.load, true)], let r := asked e.1 e.2 0
      let s := askedSt r .none { a := 17, c := 1, body := .outcome .memoryLost }
      s.reqs.find? (fun e => e.1 = s.input.a) = some (17, r) ∧ r.read = e.2 ∧ accWrites r.acc.op = !e.2) ∧
    (let r := { asked (.amo 1 3) true 0 with read := true }
     let s := { askedSt r .none { a := 17, c := 1, body := .outcome .memoryLost } with agenda := [(1010, .accessAtHome, { body := .access r.acc })] }
     s.reqs.find? (fun e => e.1 = s.input.a) = some (17, r) ∧ accWrites r.acc.op = true ∧ r.acc.bad = false ∧
     ∃ e ∈ s.agenda, e.2.2.body = .access r.acc) ∧
    (let s := { copySt [] [request 8 0 []] with input := { c := 2, body := .outcome .memoryLost } }
     ∃ q ∈ (s.core s.input.a).copyq, q.chan = s.input.b ∧ q.started = true) ∧
    (let s := { portSt { up := true, replay := [(990, flit 5 0)] } [] with input := { b := 0, body := .outcome .linkLost } }
     s.input.body = .outcome .linkLost ∧ (s.port s.input.b).replay = [(990, flit 5 0)] ∧ s.clk < 990 + 80) := by
  refine ⟨?_, ?_, ?_, ?_⟩ <;> decide +kernel
/-- Granaries: grants at their bounds, records in each state. -/
def grant (lend : Bool) (units resbw : Nat) : Grant :=
  { lend := lend, peer := 5, part := 0, base := 95, units := units, unmapped := true, tr := 100, term := 1000, ftier := 2
    faddr := 0, vbase := 0, resbw := resbw, notify := [0], gen := 1, others := 0 }
theorem witness_grants :
    (let s := { st [] with ports := [(0, { peer := some 5 })] }
     (s.lentRec 0).state = .free ∧ s.lent = [] ∧ s.borrowed = [] ∧ s.neighbour 5 = true ∧ s.neighbour 6 = false ∧
     s.unmapped 95 1 = true ∧ ({ walkSt with ports := s.ports } : State).unmapped 0 1 = false ∧
     (let g := grant true 1 256
      g.base / 128 < 8 ∧ g.base % 128 + g.units ≤ 96 ∧ g.units * 2 ^ 30 * 10000 ≤ g.resbw * 10 ^ 9 * 9 * g.tr ∧ g.resbw + g.others ≤ 256) ∧
     (grant true 2 256).base % 128 + (grant true 2 256).units = 97 ∧ (grant false 1 257).resbw = 257 ∧
     (s.borrowedRec 0).state ≠ .mapped ∧ (s.borrowedRec 0).state ≠ .moving ∧ (grant false 1 256).faddr % 2 ^ 30 = 0) ∧
    (∀ x ∈ [LentState.active, .reclaiming, .free], let s := { st [] with lent := [(0, { state := x, gen := 3 })], input := { b := 3 } }
      (s.lentRec s.input.a).state = x ∧ (s.lentRec 0).gen.toNat = s.input.b ∧ s.vaults = []) ∧
    (∀ x ∈ [BorrowState.mapped, .moving, .free],
      ({ st [] with borrowed := [(0, { state := x })] } : State).borrowedRec ({ st [] with borrowed := [(0, { state := x })] } : State).input.a =
        { state := x }) := by
  refine ⟨?_, ?_, ?_⟩ <;> decide +kernel
/-- A region of one unit of package 5 whose first 2 MiB page is mapped, and is moved. -/
def region (units : Nat) : Borrowed :=
  { state := .moving, lender := 5, units := units, part := 1, gen := 1, ftier := 2, notify := [0] }
def borrowedLeaf : Word := 0x8580050000000000
def moveSt (units : Nat) (inp : Input) (marks : List Mark) : State :=
  let s := (st []).modPart 1 fun p => { p with root := 0x20000, marks := marks }
  { s with
    borrowed := [(0, region units)], input := inp
    mem := cells 0x20000 0x8000000000021000 ++ cells 0x21000 0x8000000000022000 ++ cells 0x22000 borrowedLeaf.toNat }
theorem witness_page_moves :
    (let s := moveSt 1 { c := 1 } []
     s.borrowedRec 0 = region 1 ∧ (region 1).gen.toNat = s.input.c ∧ s.nextPage (region 1) 3 0 = some 0 ∧
     s.leafAt 1 0 = some (0x22000, borrowedLeaf) ∧ (s.partn 1).marks = []) ∧
    ((moveSt 1 { c := 1 } (List.replicate 16 ⟨0, 65536, 7, 0⟩)).partn 1).marks.length = 16 ∧
    (∀ d ∈ [1, 2], let s := moveSt 1 { c := 1, d := d } [⟨0, 2 ^ 21, 7, 1280⟩]
     (region 1).maps borrowedLeaf = true ∧ s.drained 1 ⟨0, pageBytes (field borrowedLeaf 56 2), 7, 1280⟩ = true ∧
     s.leafAt 1 0 = some (0x22000, borrowedLeaf) ∧ (s.freeTag 0x511).isSome = true ∧
     (region 1).due + s.input.e * s.clockStep / (40 * max 1 (region 1).resbw) ≤ s.clk) ∧
    (let s := moveSt 1 { c := 1, d := 1 } [⟨0, 2 ^ 21, 7, 1280⟩]
     ({ s with reqs := [(17, { asked (.store 0) false 0 with acc := { (asked (.store 0) false 0).acc with part := 1, addr := 64 } })] } :
       State).drained 1 ⟨0, 2 ^ 21, 7, 1280⟩ = false) ∧
    (let s := moveSt 1 { c := 1, d := 2, e := 2 ^ 20 } []; s.clk < (region 1).due + s.input.e * s.clockStep / (40 * max 1 (region 1).resbw)) ∧
    (let s := moveSt 0 { c := 1 } []; s.nextPage (region 0) (region 0).pages 0 = none ∧ (region 0).poisoned = 0) := by
  refine ⟨?_, ?_, ?_, ?_, ?_, ?_⟩ <;> decide +kernel
/-- The answers to a line: at a fallback in a local Vault and at one in host memory, the last one, one that is lost. -/
theorem witness_line_answers :
    (∀ b ∈ [Body.bytes (List.replicate 64 7), .none], ∀ e ∈ [(0, 2), (2, 1)],
      let r := { region 1 with ftier := e.1, left := e.2 }
      let s := { moveSt 1 { c := 1, d := 3, cause := 0x0C, body := b } [] with borrowed := [(0, r)] }
      s.borrowedRec 0 = r ∧ s.input.d = 3 ∧ s.input.flag = false ∧ r.faddr % 64 = 0 ∧ isVault r.faddr = true ∧ (s.vault 0).shelf = [] ∧
      (s.freeTag 0x511).isSome = true ∧ (r.left = 1 ∨ r.ftier ≠ 2)) ∧
    (∀ n ∈ [0, 0x19], let s := { moveSt 1 { c := 1, d := 3, flag := true, cause := BitVec.ofNat 8 n } [⟨0, 2 ^ 21, 7, 1280⟩] with
       borrowed := [(0, { region 1 with left := 1 })] }
     s.leafAt 1 0 = some (0x22000, borrowedLeaf) ∧ field borrowedLeaf 56 2 = 1 ∧ isVault 0x22000 = true ∧ (s.borrowedRec 0).left = 1 ∧
     (s.borrowedRec 0).ftier < 4 ∧ 0 / 2 ^ 21 * 2 ^ 21 < (region 1).vbase + (region 1).units * 2 ^ 30) := by
  refine ⟨?_, ?_⟩ <;> decide +kernel
/-- The page at which the search begins is the first that is mapped. -/
theorem witness_next_page : (moveSt 1 {} []).nextPage (region 1) (region 1).pages 0 = some 0 := by
  generalize hr : region 1 = r
  have h : (moveSt 1 {} []).leafAt r.part 0 = some (0x22000, borrowedLeaf) := by subst hr; decide +kernel
  have hm : r.maps borrowedLeaf = true := by subst hr; decide +kernel
  have hl : ¬r.vbase + r.units * 2 ^ 30 ≤ 0 := by subst hr; decide
  rw [Borrowed.pages, State.nextPage, if_neg hl, h]
  simp only [hm, if_true]
/-- BootAndPartitions: each step of boot at its number; the firmware's image is right or wrong; a good and a bad set-up. -/
def bootSt (n : Nat) (inp : Input) : State := { State.reset with bootStep := n, input := inp }
/-- Every die is present. -/
def allDies : Table Die := (List.range 18).map fun d => (d, { absent := false })
theorem witness_boot :
    (∀ n ∈ [1, 2], (bootSt n { body := .digest 0 }).bootStep = n ∧ (bootSt n { body := .digest 0 }).input.body = .digest 0) ∧
    (∀ l < 29, let s := { bootSt 3 { a := l, b := 5, c := 4 } with dies := allDies }
     (∀ d ∈ linkEnds l, (s.die d).absent = false) ∧ s.input.b.testBit 2 = true ∧ s.input.c.testBit 2 = true ∧
     ∀ k < 16, 2 < k → s.input.b.testBit k = false) ∧
    ((∀ n < 16, (bootSt 3 { b := 2, c := 4 }).input.b.testBit n = false ∨ (bootSt 3 { b := 2, c := 4 }).input.c.testBit n = false) ∧
     ∃ d ∈ linkEnds 28, ((bootSt 3 {}).die d).absent = true) ∧
    (let s := { bootSt 4 { a := 7, flag := true } with dies := allDies, links := [(28, 2)] }
     s.bootStep = 4 ∧ s.input.flag = true ∧ s.input.a < 8 ∧ s.linkUp (21 + 7) = true ∧ s.memoryOk = true) ∧
    (∀ b ∈ [0, 3], let s := { bootSt 5 { a := 11, flag := true, b := b } with dies := allDies }
     s.bootStep = 5 ∧ s.input.a < 12 ∧ (s.die (16 + 11 / 6)).absent = false ∧ s.pkgId = 0) ∧
    (let f : FwCore := ⟨1, 2, 3, 4, 5, 6, 7⟩
     let s := { bootSt 6 { body := .fw f } with dies := allDies, vaults := [(7, { absent := false })] }
     s.bootStep = 6 ∧ (s.die 16).absent = false ∧ s.input.body = .fw f ∧ s.parts = [] ∧ s.pairPresent (coreDie 1279) = true) := by
  refine ⟨?_, ?_, ?_, ?_, ?_, ?_⟩ <;> decide +kernel
theorem witness_verdict (d : BitVec 256) : Config.imageVerdict 0 d = true ∨ Config.imageVerdict 0 d = false := by
  cases Config.imageVerdict 0 d <;> simp
def setup (code : Nat) (pairs : BitVec 8) : PartSetup :=
  { pairs := pairs, grant := 0, foreign := false, root := 0, poolBase := 0, poolSize := 0, vwheel := [(0, [code])], fwheel := [(3, [2, 15])], ringBase := []
    ringLog := [4], pageRing := 0, expert := false, clkfix := 1 }
theorem witness_setup :
    (let s := { st [] with input := { a := 7, body := .setup (setup 8 0) } }
     6 ≤ s.bootStep ∧ s.input.a < 8 ∧ (∀ e ∈ s.grids, e.2.part ≠ 7) ∧ ∀ q < 8, (s.partn q).pairs &&& (setup 8 0).pairs = 0) ∧
    ((setup 8 0).fwheel.filter fun e => e.1 = 3) = [(3, [2, 15])] ∧
    ((∀ e ∈ (setup 15 0).vwheel, ∀ c ∈ e.2, c ≤ 8 ∨ c = 15) ∧ ¬(∀ e ∈ (setup 9 0).vwheel, ∀ c ∈ e.2, c ≤ 8 ∨ c = 15)) := by
  refine ⟨?_, ?_, ?_⟩ <;> decide +kernel
/-- CompactForms: the extremes, a field of 16. -/
theorem witness_compact :
    RunsAll [.movc ⟨15, 15, 0⟩, .movc ⟨0, 1, 0⟩, .addc ⟨1, 15, 0x20⟩, .addc ⟨0, 1, 0x1F⟩] (st []) ∧ Live (st []) ∧
    wellFormed (.movc ⟨1, 16, 0⟩) = false ∧ wellFormed (.addc ⟨16, 1, 0⟩) = false := by decide +kernel
/-- StepKeepsMemoryForm: a well-kept state whose step answers a next state; the reset state is well kept. -/
theorem witness_invariant :
    (withCode (lineOf (head 0x18 3 1) (wm 1 2 0 0 0 0 3 0 0)) (st [(1, 7), (2, 0x10100)])).memoryOk = true ∧
    (match step (withCode (lineOf (head 0x18 3 1) (wm 1 2 0 0 0 0 3 0 0)) (st [(1, 7), (2, 0x10100)])) with
     | .next t => t.memoryOk && t.readN 0x10100 8 == 7
     | _ => false) = true ∧ State.reset.memoryOk = true := by
  refine ⟨?_, ?_, ?_⟩ <;> decide +kernel
end Sys2Proof.Tests
end

section
/-! PROOFS. The compact forms (R42): what their fields must hold, that the decode traps let a well-formed one pass, and what
they answer. -/

namespace Sys2Proof.Laws

open Sys2Proof.Machine Sys2Proof.Claims

section
variable {s : State} {i : Instr}

/-! The decode traps of an instruction whose operands are scalar registers alone. -/

/-- Nothing but its fields can hold an instruction back: any slot may execute it, and it names no vector and no mask register. -/
structure ScalarOnly (i : Instr) : Prop where
  anywhere : ∀ s : State, s.illegalHere i = false
  unprivileged : privileged i = false
  noVectors : vspans i = []
  noMasks : masksNamed i = []

theorem outOfRange_of_scalarOnly (hi : ScalarOnly i) : s.outOfRange i = none := by
  simp [State.outOfRange, hi.noVectors, hi.noMasks]

/-- Where it is well formed, such an instruction passes rows 5 to 7 of Table 2-10. -/
theorem gate_of_scalarOnly (hi : ScalarOnly i) (hw : wellFormed i = true) : s.gate i = none := by
  simp [State.gate, hw, hi.anywhere s, hi.unprivileged, outOfRange_of_scalarOnly hi]

theorem runs_of_scalarOnly (hi : ScalarOnly i) (hs : Live s) (hw : wellFormed i = true) : Runs i s :=
  ⟨hs, gate_of_scalarOnly hi hw⟩

/-- An encoded instruction with a scalar result that is not well formed traps ILLEGAL_INSTR, with its head as FINFO. -/
theorem setScalar_of_not_wellFormed {h : Half} {t : Tail} (he : encode i = some (h, t)) (hw : wellFormed i = false) (d : BitVec 5)
    (v : State → Word) :
    setScalar i d v s = .next (s.takeTrap { code := 0x02, faddr := s.pc, finfo := h.zeroExtend 64 }) := by
  have hh : headWord i = h.zeroExtend 64 := by simp only [headWord, he]
  rw [setScalar, run_of_trap _ (gate_illegal hw), State.illegal, hh]
  rfl

end

/-! The two forms. -/

section
variable (o : F1)

theorem encode_movc : encode (.movc o) = some (0x0500#16, o.toTail) := rfl
theorem encode_addc : encode (.addc o) = some (0x0501#16, o.toTail) := rfl

theorem wellFormed_movc : wellFormed (.movc o) = (o.reads true true 0 && o.d < 16#5 && o.a < 16#5) := rfl
theorem wellFormed_addc : wellFormed (.addc o) = (o.d < 16#5 && o.a < 16#5) := rfl

/-- An instruction of form F1 that reads both registers and no bit of x reserves all of x. -/
theorem reads_registers_iff : o.reads true true 0#6 = true ↔ o.x = 0 := by
  have hx : o.x &&& ~~~0#6 = o.x := by rw [BitVec.not_zero, BitVec.and_allOnes]
  simp only [F1.reads, Bool.true_or, Bool.true_and, decide_eq_true_eq, BitVec.ofNat_eq_ofNat, hx]

/-- The fields of R42: registers s0 to s15, and in FN 0x00 a zero imm6. -/
theorem wellFormed_movc_iff : wellFormed (.movc o) = true ↔ o.x = 0 ∧ o.d.toNat < 16 ∧ o.a.toNat < 16 := by
  simp [wellFormed_movc, reads_registers_iff, BitVec.lt_def, and_assoc]
theorem wellFormed_addc_iff : wellFormed (.addc o) = true ↔ o.d.toNat < 16 ∧ o.a.toNat < 16 := by
  simp [wellFormed_addc, BitVec.lt_def]

theorem scalarOnly_movc : ScalarOnly (.movc o) := ⟨fun _ => rfl, rfl, rfl, rfl⟩
theorem scalarOnly_addc : ScalarOnly (.addc o) := ⟨fun _ => rfl, rfl, rfl, rfl⟩

theorem exec_movc (s : State) : exec (.movc o) s = setScalar (.movc o) o.d (fun s => s.sreg o.a) s := rfl
theorem exec_addc (s : State) :
    exec (.addc o) s = setScalar (.addc o) o.d (fun s => s.sreg o.a + o.x.signExtend 64) s := rfl

theorem writes_movc : Writes (.movc o) o.d (fun s => s.sreg o.a) := fun s h => by
  rw [exec_movc]; exact setScalar_spec h _ _
theorem writes_addc : Writes (.addc o) o.d (fun s => s.sreg o.a + o.x.signExtend 64) := fun s h => by
  rw [exec_addc]; exact setScalar_spec h _ _

end

/-- Settles O59: both forms are scalar results of the shared shape, and each field that R42 forbids fails `wellFormed`. -/
theorem compactForms : Obligations.CompactForms := by
  unfold Obligations.CompactForms
  intro o
  refine ⟨encode_movc o, encode_addc o, wellFormed_movc_iff o, wellFormed_addc_iff o, writes_movc o, writes_addc o,
    fun _ => runs_of_scalarOnly (scalarOnly_movc o), fun _ => runs_of_scalarOnly (scalarOnly_addc o), ?_⟩
  intro s op h hmem hw
  simp only [List.mem_cons, Prod.mk.injEq, List.not_mem_nil, or_false] at hmem
  rcases hmem with ⟨rfl, rfl⟩ | ⟨rfl, rfl⟩
  · rw [exec_movc, setScalar_of_not_wellFormed (encode_movc o) hw]; rfl
  · rw [exec_addc, setScalar_of_not_wellFormed (encode_addc o) hw]; rfl

end Sys2Proof.Laws
end

section
/-! PROOFS. Scalar control flow: `loop` (R98), `nop` (R100), and `end` and `done` where they are not legal (R102, R104). -/

namespace Sys2Proof.Laws

open Sys2Proof.Machine Sys2Proof.Claims

section
variable {s t : State} {i : Instr}

/-! What the shapes of effect answer: going on, going on off a channel, and ILLEGAL_INSTR. -/

/-- A change of the executing slot's registers, paths and subscription is a change of these alone in the package. -/
theorem curOnly_modCur {f : Slot → Slot}
    (hf : { f s.curSlot with
            sregs := s.curSlot.sregs, vregs := s.curSlot.vregs, mregs := s.curSlot.mregs, p := s.curSlot.p, q := s.curSlot.q
            sub := s.curSlot.sub } = s.curSlot) : CurOnly s (s.modCur f) :=
  ⟨slotOnly_modSlot s s.cur.core s.cur.slot f, by rw [State.curSlot_modCur]; exact hf⟩

/-- Apart from its registers, its paths and its subscription a slot that goes on stays as it is. -/
theorem advance_restored (sl : Slot) (q : Bool) (pc : Word) (clk : Nat) :
    { sl.advance q pc clk with
      sregs := sl.sregs, vregs := sl.vregs, mregs := sl.mregs, p := sl.p, q := sl.q, sub := sl.sub } = sl :=
  congrArg (fun x : Slot => { x with sregs := sl.sregs, vregs := sl.vregs, mregs := sl.mregs }) (sl.advance_rest q pc clk)

/-- The executing slot after its path has gone on. -/
theorem curSlot_goto (h : Live s) (pc : Word) : (s.goto pc).curSlot = s.curSlot.advance s.cur.pathQ pc s.clk := by
  rw [goto_of_active pc h.1, State.curSlot_modCur, eff_of_live h]

theorem onlyGoesOn_goto (h : Live s) (pc : Word) : OnlyGoesOn s (s.goto pc) pc := by
  have hsl := curSlot_goto h pc
  refine ⟨?_, ?_, ?_, ?_, ?_, ?_, ?_⟩
  · rw [goto_of_active pc h.1]
    exact curOnly_modCur (advance_restored _ _ _ _)
  · rw [ScalarsKept, hsl, Slot.advance_sregs]
  · rw [VectorsKept, hsl, Slot.advance_vregs]
  · rw [MasksKept, hsl, Slot.advance_mregs]
  · rw [hsl, Slot.advance_path, if_pos rfl]; rfl
  · rw [hsl, Slot.advance_path, if_neg (by cases s.cur.pathQ <;> decide)]
  · rw [hsl, Slot.advance_sub]; rfl

theorem cur_goto (h : Live s) (pc : Word) : (s.goto pc).cur = s.cur := by
  rw [goto_of_active pc h.1]; rfl

theorem curPath_goto_pc (h : Live s) (pc : Word) : (s.goto pc).curPath.pc = pc := by
  rw [State.curPath, cur_goto h, curSlot_goto h, Slot.advance_path, if_pos rfl]; rfl

theorem sreg_of_scalarsKept (h : ScalarsKept s t) (n : BitVec 5) : t.sreg n = s.sreg n := by
  simp only [State.sreg, Slot.sreg, show t.curSlot.sregs = s.curSlot.sregs from h]

/-- An update of a core that leaves its slots leaves every slot. -/
theorem slot_modCore_of_slots (s : State) {f : Core → Core} (c c' k : Nat) (hf : ∀ co, (f co).slots = co.slots) :
    (s.modCore c f).slot c' k = s.slot c' k := by
  by_cases hc : c' = c
  · subst hc; simp only [State.slot_modCore_same, Core.slot, hf]; rfl
  · exact State.slot_modCore_other s hc k f

/-- A slot that leaves its channel's subscribers loses its subscription, and nothing else. -/
theorem slot_unsubscribe (s : State) (c k : Nat) : (s.unsubscribe c k).slot c k = { s.slot c k with sub := none } := by
  unfold State.unsubscribe
  split
  next hs => rw [← hs]
  next b hs =>
    dsimp only
    split
    · simp
    · rw [slot_modCore_of_slots]
      · simp
      · exact fun _ => rfl

theorem slot_count (s : State) (c evt c' k : Nat) : (s.count c evt).slot c' k = s.slot c' k :=
  slot_modCore_of_slots s c c' k fun _ => rfl

/-- The slot of a subscriber that has left its channel (R262). -/
theorem slot_leave (s : State) (c k reason : Nat) (pc next : Word) :
    (s.leave c k reason pc next).slot c k =
      { s.slot c k with
        sub := none, subst := substWord reason pc, p := { (s.slot c k).p.moveTo next with chan := false } } := by
  rw [State.leave, State.slot_modSlot, if_pos ⟨rfl, rfl⟩, slot_count, slot_unsubscribe]

theorem cur_leave (s : State) (c k reason : Nat) (pc next : Word) : (s.leave c k reason pc next).cur = s.cur := by
  have hu : (s.unsubscribe c k).cur = s.cur := by
    unfold State.unsubscribe
    split
    · rfl
    · dsimp only; split <;> rfl
  exact hu

/-- A scalar branch goes on at `pc`, or leaves its channel, which only P can stand in, to fetch from there. -/
theorem branchTo_cases (s : State) (i : Instr) (own : Bool × Word) (reason : Nat) (pc : Word) :
    s.branchTo i own reason pc = s.goto pc ∨
    s.curPath.chan = true ∧ ∃ epc, s.branchTo i own reason pc = s.leave s.cur.core s.cur.slot reason epc pc := by
  unfold State.branchTo
  split
  next => exact .inl rfl
  next e he =>
    have hch : s.curPath.chan = true := by
      by_contra hn
      simp [State.channelEntry, hn] at he
    split
    · exact .inl rfl
    · exact .inl rfl
    · split
      · exact .inl rfl
      · exact .inr ⟨hch, e.pc, rfl⟩

/-- Either way the branch keeps the scalar registers and its path stands at `pc`. -/
theorem branchTo_spec (h : Live s) (i : Instr) (own : Bool × Word) (reason : Nat) (pc : Word) :
    ScalarsKept s (s.branchTo i own reason pc) ∧ (s.branchTo i own reason pc).curPath.pc = pc := by
  rcases branchTo_cases s i own reason pc with hgo | ⟨hch, epc, hleave⟩
  · obtain ⟨-, hregs, -⟩ := onlyGoesOn_goto h pc
    rw [hgo]
    exact ⟨hregs, curPath_goto_pc h pc⟩
  · have hq : s.cur.pathQ = false := by
      by_contra hn
      have hq' := (h.2.1 (by simpa using hn)).2
      simp [hch] at hq'
    have hsl := slot_leave s s.cur.core s.cur.slot reason epc pc
    rw [hleave]
    constructor
    · rw [ScalarsKept, State.curSlot, cur_leave, hsl]; rfl
    · rw [State.curPath, State.curSlot, cur_leave, hsl, hq]; rfl

/-- A write of a scalar register leaves the path as it is, in a slot that can execute. -/
theorem live_setS (h : Live s) (d : BitVec 5) (v : Word) : Live (s.setS d v) := by
  have hp : (s.setS d v).curPath = s.curPath := by simp [State.curPath]
  rw [Live, hp]
  simpa using h

/-- A branch target as R37 gives it. -/
theorem target_eq_branchTarget (pc : Word) {n : Nat} (delta : BitVec n) (head : BitVec 5) :
    target pc delta head = branchTarget pc delta head := by
  have hline : pc &&& 63 = BitVec.ofNat 64 (pc.toNat % 64) := by
    apply BitVec.eq_of_toNat_eq
    have := Nat.and_two_pow_sub_one_eq_mod pc.toNat 6
    simp at this ⊢
    omega
  have hdelta : delta.signExtend 64 * 64 = BitVec.ofInt 64 (delta.toInt * 64) := by
    rw [BitVec.ofInt_mul]; rfl
  have hhead : 2 * head.zeroExtend 64 = BitVec.ofNat 64 (2 * head.toNat) := by
    apply BitVec.eq_of_toNat_eq
    simp
  rw [target, lineBase, branchTarget, hline, hdelta, hhead]

/-- An encoded instruction that is not well formed traps ILLEGAL_INSTR, with its head as FINFO. -/
theorem run_of_not_wellFormed {h : Half} {tl : Tail} (he : encode i = some (h, tl)) (hw : wellFormed i = false)
    (body : State → Act State) :
    run i s body = .next (s.takeTrap { code := 0x02, faddr := s.pc, finfo := h.zeroExtend 64 }) := by
  have hh : headWord i = h.zeroExtend 64 := by simp only [headWord, he]
  rw [run_of_trap _ (gate_illegal hw), State.illegal, hh]; rfl

/-! An instruction that executes again after a wait reads the registers of its issue, and they decide neither the class of its
slot nor where it stands. -/

theorem curCls_withRegs (r : Regs) : (s.withRegs r).curCls = s.curCls := by
  have hc : (s.withRegs r).curCore = s.curCore.modSlot s.cur.slot _ := (State.core_modSlot s _ _ _ _).trans (if_pos rfl)
  rw [State.curCls, hc]; rfl

theorem illegal_withRegs (r : Regs) : (s.withRegs r).illegal i = s.illegal i := by
  have hp : (s.withRegs r).pc = s.pc := by
    simp only [State.pc, State.curPath, State.withRegs, State.curSlot_modCur]
    rfl
  rw [State.illegal, hp]; rfl

/-- Where it raises ILLEGAL_INSTR whatever the registers hold, an instruction that passes the decode traps takes that trap. -/
theorem run_of_raiseIllegal {body : State → Act State} (hg : s.gate i = none) (hs : body s = s.raiseIllegal i)
    (hr : ∀ r, body (s.withRegs r) = (s.withRegs r).raiseIllegal i) : run i s body = .next (s.takeTrap (s.illegal i)) := by
  cases hk : s.curPath.kept with
  | none => rw [run_of_gate _ hg hk, hs]; rfl
  | some r => rw [run_of_kept _ hg hk, hr, State.raiseIllegal, illegal_withRegs]; rfl

end

/-! The instructions. -/

theorem scalarOnly_endGroup : ScalarOnly .endGroup := ⟨fun _ => rfl, rfl, rfl, rfl⟩
theorem scalarOnly_done : ScalarOnly .done := ⟨fun _ => rfl, rfl, rfl, rfl⟩

theorem encode_loop (o : B2) : encode (.loop o) = some (0x1E10#16, o.toTail) := rfl
theorem wellFormed_loop (o : B2) : wellFormed (.loop o) = (o.head ≠ 0 && o.b = 0 && o.a ≠ 0) := rfl
/-- The fields of R98: a register that s0 is not, and no b. -/
theorem wellFormed_loop_iff (o : B2) : wellFormed (.loop o) = true ↔ o.head ≠ 0 ∧ o.b = 0 ∧ o.a ≠ 0 := by
  simp [wellFormed_loop, and_assoc]

theorem exec_nop (s : State) : exec .nop s = run .nop s fun s => .ok s.retire := rfl
theorem exec_loop (o : B2) (s : State) : exec (.loop o) s = execLoop o s := rfl
theorem exec_endGroup (s : State) : exec .endGroup s = execEnd s := rfl
theorem exec_done (s : State) : exec .done s = execDone s := rfl

/-- A `loop` that runs: s[a] is decremented, and the path stands at the target or at the successor. -/
theorem exec_loop_spec (o : B2) {s : State} (h : Runs (.loop o) s) :
    ∃ t, exec (.loop o) s = .next t ∧ ScalarIs s t o.a (s.sreg o.a - 1) ∧
      t.curPath.pc = if s.sreg o.a - 1 ≠ 0 then branchTarget s.pc o.delta o.head else s.curPath.succ := by
  obtain ⟨hlive, hgate⟩ := h
  refine ⟨_, run_of_gate _ hgate hlive.2.2, ?_⟩
  obtain ⟨hregs, hpc⟩ := branchTo_spec (live_setS hlive o.a (s.sreg o.a - 1)) (.loop o) (s.outcome (.loop o)) 1
    (if (s.outcome (.loop o)).1 then target s.pc o.delta o.head else s.curPath.succ)
  constructor
  · intro n
    exact (sreg_of_scalarsKept hregs n).trans (State.sreg_setS s o.a n _)
  · refine hpc.trans ?_
    simp only [State.outcome, decide_eq_true_eq, target_eq_branchTarget]

/-- Settles O6: the branch that follows the decrement goes on or leaves its channel, at the same PC. -/
theorem loop : Obligations.Loop := by
  unfold Obligations.Loop
  refine fun o => ⟨fun hbad s => ?_, fun s hs => exec_loop_spec o hs⟩
  have hw : wellFormed (.loop o) = false := by
    rw [Bool.eq_false_iff, ne_eq, wellFormed_loop_iff]
    rintro ⟨-, hb, ha⟩
    exact hbad.elim ha fun hb' => hb' hb
  rw [exec_loop, execLoop, run_of_not_wellFormed (encode_loop o) hw]; rfl

/-- Settles O8: `end` passes the decode traps everywhere, and outside a grid group its first check refuses it. -/
theorem endOutsideGroups : Obligations.EndOutsideGroups := by
  unfold Obligations.EndOutsideGroups
  refine ⟨rfl, fun s hs => ?_⟩
  rw [exec_endGroup, execEnd, run_of_raiseIllegal (gate_of_scalarOnly scalarOnly_endGroup rfl)]
  · rfl
  · simp [hs]
  · intro r
    have hr : (s.withRegs r).isGroup = false := by rw [State.isGroup, curCls_withRegs]; exact hs
    simp [hr]

/-- Settles O9: `done` passes the decode traps everywhere, and outside a task its first check refuses it. -/
theorem doneOutsideTasks : Obligations.DoneOutsideTasks := by
  unfold Obligations.DoneOutsideTasks
  refine ⟨rfl, fun s hs => ?_⟩
  rw [exec_done, execDone, run_of_raiseIllegal (gate_of_scalarOnly scalarOnly_done rfl)]
  · rfl
  · simp [hs]
  · intro r
    have hr : (s.withRegs r).isTask = false := by rw [State.isTask, curCls_withRegs]; exact hs
    simp [hr]

/-- Settles O4: a `nop` that runs retires, and to retire is to go on at the successor. -/
theorem nopOnlyAdvances : Obligations.NopOnlyAdvances := by
  unfold Obligations.NopOnlyAdvances
  refine ⟨rfl, fun s h _ => ⟨s.retire, ?_, onlyGoesOn_goto h.1 s.curPath.succ⟩⟩
  rw [exec_nop, run_of_gate _ h.2 h.1.2.2]; rfl

end Sys2Proof.Laws
end

section
/-! PROOFS. The return from a user interrupt (R189). -/

namespace Sys2Proof.Laws

open Sys2Proof.Machine Sys2Proof.Claims

section
variable {s t u : State}

/-! Changes within one slot, one after the other. -/

theorem coresOnly_trans (hsu : CoresOnly s u) (hut : CoresOnly u t) : CoresOnly s t := by
  unfold CoresOnly at hsu
  calc { t with cores := s.cores }
    _ = { u with cores := s.cores } := congrArg (fun x : State => { x with cores := s.cores }) hut
    _ = s := hsu

theorem coreOnly_trans {c : Nat} (hsu : CoreOnly s u c) (hut : CoreOnly u t c) : CoreOnly s t c := by
  obtain ⟨hcores, hother, hcore⟩ := hsu
  obtain ⟨hcores', hother', hcore'⟩ := hut
  refine ⟨coresOnly_trans hcores hcores', fun j hj => (hother' j hj).trans (hother j hj), ?_⟩
  calc { t.core c with slots := (s.core c).slots }
    _ = { u.core c with slots := (s.core c).slots } :=
        congrArg (fun x : Core => { x with slots := (s.core c).slots }) hcore'
    _ = s.core c := hcore

theorem slotOnly_trans {c k : Nat} (hsu : SlotOnly s u c k) (hut : SlotOnly u t c k) : SlotOnly s t c k :=
  ⟨coreOnly_trans hsu.1 hut.1, fun j hj => (hut.2 j hj).trans (hsu.2 j hj)⟩

/-! `uret` within a handler clears UIA, and its path then goes on at ULIPC. -/

/-- The executing slot no longer handles a user interrupt. -/
def clearUia (s : State) : State := s.modCur fun sl => { sl with uia := false }

@[simp] theorem curSlot_clearUia (s : State) : (clearUia s).curSlot = { s.curSlot with uia := false } :=
  State.curSlot_modCur s _
@[simp] theorem curPath_clearUia (s : State) : (clearUia s).curPath = s.curPath := by
  rw [State.curPath, curSlot_clearUia]; rfl

theorem slotOnly_clearUia (s : State) : SlotOnly s (clearUia s) s.cur.core s.cur.slot := slotOnly_modSlot s _ _ _

theorem live_clearUia (h : Live s) : Live (clearUia s) := by
  rw [Live, curPath_clearUia, curSlot_clearUia]; exact h

theorem userReturn_eq_goto (s : State) : s.userReturn = (clearUia s).goto s.curSlot.ulipc := rfl

/-- Whether the slot handles a user interrupt, and which ones are pending, going on does not change. -/
theorem interrupts_of_curOnly (h : CurOnly s t) : t.curSlot.uia = s.curSlot.uia ∧ t.curSlot.uiq = s.curSlot.uiq :=
  by
  obtain ⟨-, hrest⟩ := h
  exact ⟨(congrArg Slot.uia hrest :), (congrArg Slot.uiq hrest :)⟩

theorem curPath_goto_live (h : Live s) (pc : Word) : (s.goto pc).curPath.live = s.curPath.live := by
  rw [State.curPath, cur_goto h, curSlot_goto h, Slot.advance_path, if_pos rfl]; rfl

/-- What R189 says of the state after a `uret` within a handler. -/
theorem userReturn_spec (h : Live s) :
    SlotOnly s s.userReturn s.cur.core s.cur.slot ∧ s.userReturn.curSlot.uia = false ∧
    s.userReturn.curPath.pc = s.curSlot.ulipc ∧ s.userReturn.curSlot.uiq = s.curSlot.uiq ∧
    ScalarsKept s s.userReturn ∧ VectorsKept s s.userReturn ∧ MasksKept s s.userReturn ∧
    s.userReturn.curPath.live = s.curPath.live := by
  have hl := live_clearUia h
  obtain ⟨hcur, hscalars, hvectors, hmasks, -⟩ := onlyGoesOn_goto hl s.curSlot.ulipc
  obtain ⟨huia, huiq⟩ := interrupts_of_curOnly hcur
  rw [curSlot_clearUia] at huia huiq
  rw [ScalarsKept, curSlot_clearUia] at hscalars
  rw [VectorsKept, curSlot_clearUia] at hvectors
  rw [MasksKept, curSlot_clearUia] at hmasks
  rw [userReturn_eq_goto]
  exact ⟨slotOnly_trans (slotOnly_clearUia s) hcur.1, huia, curPath_goto_pc hl _, huiq, hscalars, hvectors, hmasks,
    (curPath_goto_live hl _).trans (congrArg Path.live (curPath_clearUia s))⟩

/-! The instruction. -/

theorem exec_uret (s : State) :
    exec .uret s = run .uret s fun s => if s.curSlot.uia then .ok s.userReturn else s.raiseIllegal .uret := rfl

theorem exec_uret_in_handler (h : Runs .uret s) (hu : s.curSlot.uia = true) : exec .uret s = .next s.userReturn := by
  rw [exec_uret, run_of_gate _ h.2 h.1.2.2, if_pos hu, finish_ok]

theorem exec_uret_outside_handler (h : Runs .uret s) (hu : s.curSlot.uia = false) :
    exec .uret s = .next (s.takeTrap (s.illegal .uret)) := by
  rw [exec_uret, run_of_gate _ h.2 h.1.2.2, if_neg (by simp [hu]), State.raiseIllegal, finish_trap]

end

/-- Settles O58: within a handler `uret` is a cleared UIA and a path that goes on at ULIPC; outside one its check of UIA
refuses it. -/
theorem userReturn : Obligations.UserReturn := by
  unfold Obligations.UserReturn
  refine ⟨rfl, rfl, fun s hs hu => ⟨s.userReturn, exec_uret_in_handler hs hu, userReturn_spec hs.1⟩, fun s hs hu => ?_⟩
  rw [exec_uret_outside_handler hs hu]; rfl

end Sys2Proof.Laws
end
